-- ==== Sys2Proof/Word.lean ====
section
/-! DEFINITION. The word types of the DSG-16: bytes on the lines, 16-bit counters, tags. -/

namespace Sys2Proof

/-- A character's data, a frame byte (R1, R6). -/
abbrev Byte := BitVec 8

/-- A 16-bit counter, time value, commit generation or check (R9, R17, R59, R164). -/
abbrev Word := BitVec 16

/-- A tag 0 to 31 (R6). -/
abbrev Tag := BitVec 5

end Sys2Proof
end

