-- ==== Sys2Proof/Config.lean ====
section
/-! DEFINITION. What one part fixes: the strap levels `State.reset` assumes. The spec leaves no result
of any command undefined, so there is no free value here. -/

namespace Sys2Proof

/-- The levels of the strap pins at the end of a hard reset (R18); in each group pin 0 is bit 0. -/
structure Straps where
  ads : BitVec 8
  trs : BitVec 3
  tps : BitVec 2
  deriving DecidableEq, Repr

/-- The straps of the machine `State.reset` describes: every strap pin low (DESIGN CHOICE, unsafe, log 10). -/
def Config.resetStraps : Straps := ⟨0, 0, 0⟩

end Sys2Proof
end

