-- ==== Sys2Proof/Syntax.lean ====
section
/-! DEFINITION. The commands of the DSG-16: one constructor of `Instr` for each row of spec/opcode_table.json,
with what the event carries from outside. -/

namespace Sys2Proof

/-- Segment A or B. -/
inductive Seg where
  | a
  | b
  deriving DecidableEq, Repr

/-- The three lines, each with a port of its own (R17). -/
inductive PortId where
  | trunk
  | segment (x : Seg)
  deriving DecidableEq, Repr

/-- The parity of a line (R1). -/
inductive Parity where
  | none
  | even
  | odd
  deriving DecidableEq, Repr

/-- The five frame kinds (R7). -/
inductive FrameKind where
  | req
  | rsp
  | nak
  | rpt
  | rack
  deriving DecidableEq, Repr

/-- A field message frame as its named fields (R6); the lead and the check are the line's. -/
structure Frame where
  dest    : Byte
  src     : Byte
  kind    : FrameKind
  tag     : Tag
  fn      : Byte
  payload : List Byte
  deriving DecidableEq, Repr

/-- A character as the receiver sampled it at the middle of each bit time (R3). `parityBit` is the bit at the
parity place (not read with parity NONE); `stopBit` is true at mark. -/
structure RawChar where
  data      : Byte
  parityBit : Bool
  stopBit   : Bool
  deriving DecidableEq, Repr

/-- What begins a hard reset (R163): power-on, or RESETn falling while the part is powered. -/
inductive HardCause where
  | power
  | pin
  deriving DecidableEq, Repr

/-- What a REQ frame for the gateway address carries beside its function (R157); also a RACK's source, tag and
payload (R151). -/
structure Request where
  src     : Byte
  tag     : Tag
  payload : List Byte
  deriving DecidableEq, Repr

/-- The commands: one constructor for each row of the table, in the table's order. -/
inductive Instr where
  | hardReset (straps : Straps)
  | softReset
  | millisecondTick
  | idleQualification (p : PortId)
  | arrival (p : PortId) (c : RawChar)
  | lineBreak (p : PortId)
  | gapTimerExpiry (p : PortId)
  | routedRequest (f : Frame)
  | unexpected (f : Frame)
  | pendingSoftResetDiscard (f : Frame)
  | rack (batch : Byte) (r : Request)
  | unknown (fn : Byte) (r : Request)
  | readStatus (r : Request)
  | readCounters (r : Request)
  | stageEntry (r : Request)
  | clearStage (r : Request)
  | readEntry (r : Request)
  | commit (r : Request)
  | setMissPolicy (r : Request)
  | readExchanges (r : Request)
  | abortExchange (r : Request)
  | lineReset (r : Request)
  | setSegment (r : Request)
  | readSegment (r : Request)
  | readInputs (r : Request)
  | setInput (r : Request)
  | setSamplePeriod (r : Request)
  | reportControl (r : Request)
  | fetchReports (r : Request)
  | gatewayReset (r : Request)
  | endOfTransmission
  | reportTimerExpiry
  | segmentEndOfTransmission (x : Seg)
  | matchingFrame (x : Seg) (f : Frame)
  | strayFrame (x : Seg) (f : Frame)
  | corruptFrameNotice (x : Seg)
  | responseTimerExpiry (x : Seg)
  | guardTimerExpiry (x : Seg)
  | sampleInstant (inputs : Word) (hreqA hreqB : Bool)
  | patienceExpiry (x : Seg)
  | breakEnd (p : PortId)
  | fallToSpace (p : PortId) (startHolds : Bool)
  | hardResetBegin (cause : HardCause)
  deriving DecidableEq, Repr

end Sys2Proof
end

