-- ==== Sys2Proof/Decode.lean ====
section
/-! DEFINITION. The commands that words spell. spec/opcode_table.json gives no row any bits (its "fields" are
all empty and no row has "fixed"), so no word spells a command (log 1). -/

namespace Sys2Proof

/-- The command that a word spells by the table's bits: none, since the table gives no row bits. -/
def decodeTableWord (_nbits _w : Nat) : Option Instr := none

end Sys2Proof
end

