-- ==== Sys2Proof/Machine/State.lean ====
section
/-! DEFINITION. The state of the DSG-16, as plain data, and the machine right after a hard reset.
Each structure cites the rule that gives it; INVENTORY.md lists every field with its reset value. -/

namespace Sys2Proof.Machine

/-! ### Ports: receiver, framer, counters (R3, R10, R17) -/

/-- The condition of a receiver (R3). `inBreak` and `closed` name two times at which the spec says that a
receiver takes no start bit: after a reported break until the line is back at mark (R4), and while a segment
framer is closed (R16). DEDUCED, safe, log 7. -/
inductive Receiver where
  | unqualified
  | ready
  | receiving
  | inBreak
  | closed
  deriving DecidableEq, Repr

/-- The four framer states (R10). -/
inductive FramerState where
  | hunt
  | header
  | body
  | check
  deriving DecidableEq, Repr

/-- A receive framer (R10): its state and what it holds of the frame in progress. -/
structure Framer where
  state     : FramerState
  /-- The header and payload bytes taken so far, in order: the bytes the check covers. -/
  fields    : List Byte
  /-- Payload bytes still expected. -/
  expected  : Nat
  /-- The check remainder of R9 over `fields`. -/
  remainder : Word
  /-- The first check byte, once it has arrived. -/
  highCheck : Option Byte
  /-- The gap timer: stopped, or running to the limit in [char] in force at its last restart (R13). -/
  gapTimer  : Option Nat
  deriving DecidableEq, Repr

/-- The seven framer counters of a port (R17). -/
structure FramerCounters where
  good   : Word
  check  : Word
  char   : Word
  gap    : Word
  length : Word
  format : Word
  brk    : Word
  deriving DecidableEq, Repr

/-- What a framer hands to the owner of its port at a completion (R15). -/
inductive Delivery where
  | frame (f : Frame)
  | corruptNotice
  deriving DecidableEq, Repr

/-- One receive port. `deliveries` is the model's own: what the framer has handed over and no delivery command
has taken yet, in order of completion (R15; DESIGN CHOICE, safe, log 3). -/
structure Port where
  receiver   : Receiver
  framer     : Framer
  counters   : FramerCounters
  deliveries : List Delivery
  deriving DecidableEq, Repr

/-! ### Trunk port (R18 to R33) -/

/-- The four trunk counters beside the framer's (R32). -/
structure TrunkCounters where
  unexpected  : Word
  replyDrop   : Word
  routeDrop   : Word
  rackIgnored : Word
  deriving DecidableEq, Repr

/-- A frame of the trunk output queue. `bindsReset` marks the RSP of an accepted GATEWAY-RESET, to whose end of
transmission the soft reset is bound (R167; log 20). -/
structure QueuedFrame where
  frame      : Frame
  bindsReset : Bool
  deriving DecidableEq, Repr

/-- The trunk transmitter (R27). -/
inductive TrunkTx where
  | idle
  | sending (q : QueuedFrame)
  | reporting (f : Frame)
  deriving DecidableEq, Repr

structure Trunk where
  address          : Byte
  rate             : BitVec 3
  parity           : Parity
  strapFault       : Bool
  port             : Port
  counters         : TrunkCounters
  queue            : List QueuedFrame
  tx               : TrunkTx
  softResetPending : Bool
  deriving DecidableEq, Repr

/-! ### Route table (R34 to R64) -/

inductive Action where
  | forward
  | fanout
  | refuse
  | drop
  deriving DecidableEq, Repr

/-- A valid route entry (R35). -/
structure RouteEntry where
  action       : Action
  trunkAddress : Byte
  /-- The function match; `none` is ANY. -/
  fnMatch      : Option Byte
  segment      : Seg
  segAddress   : Byte
  remap        : Option Byte
  timeout      : Byte
  retryLimit   : Byte
  refuseDetail : Byte
  hits         : Word
  deriving DecidableEq, Repr

/-- A bank of 48 entries, each EMPTY (`none`) or valid (R34). -/
abbrev Bank := Vector (Option RouteEntry) 48

inductive MissPolicy where
  | refuse
  | drop
  deriving DecidableEq, Repr

structure RouteTable where
  active      : Bank
  staged      : Bank
  activeCount : Nat
  stagedCount : Nat
  generation  : Word
  missPolicy  : MissPolicy
  deriving DecidableEq, Repr

/-! ### Exchange table (R65 to R88) -/

/-- A slot 0 to 15 of the exchange table. -/
abbrev Slot := Fin 16

/-- A subset of {A, B}. -/
structure SegSet where
  a : Bool
  b : Bool
  deriving DecidableEq, Repr

inductive WithdrawReason where
  | lent
  | aborted
  deriving DecidableEq, Repr

structure Withdrawal where
  segment : Seg
  reason  : WithdrawReason
  deriving DecidableEq, Repr

/-- What a SINGLE record carries beside the common fields (R65). -/
structure Single where
  segment : Seg
  timeout : Byte
  retries : Nat
  segTag  : Option Tag
  deriving DecidableEq, Repr

/-- What a BROADCAST record carries beside the common fields (R65, R75). -/
structure Broadcast where
  pending   : SegSet
  delivered : SegSet
  withdrawn : List Withdrawal
  deriving DecidableEq, Repr

inductive Carriage where
  | single (c : Single)
  | broadcast (c : Broadcast)
  deriving DecidableEq, Repr

/-- A built reply: its kind and payload (R65, R78). -/
structure Reply where
  kind    : FrameKind
  payload : List Byte
  deriving DecidableEq, Repr

/-- The states of a record that is not FREE (R66); a COMPLETE record keeps its reply (R79). -/
inductive RecordState where
  | queued
  | active
  | complete (reply : Reply)
  deriving DecidableEq, Repr

/-- An exchange record that is not FREE (R65). -/
structure Record where
  state      : RecordState
  source     : Byte
  tag        : Tag
  dest       : Byte
  fn         : Byte
  segAddress : Byte
  segFn      : Byte
  payload    : List Byte
  attempts   : Nat
  carriage   : Carriage
  deriving DecidableEq, Repr

structure ExchangeTable where
  /-- The sixteen slots; `none` is FREE. -/
  slots      : Vector (Option Record) 16
  /-- The admission list, oldest first (R67). -/
  admission  : List Slot
  /-- The completion list, earliest first (R79). -/
  completion : List Slot
  deriving DecidableEq, Repr

/-! ### Segments: port, sequencer, configuration (R89 to R124) -/

inductive SeqState where
  | idle
  | send
  | wait
  | guard
  | lent
  | resume
  deriving DecidableEq, Repr

/-- The six settings of a segment (R90). -/
structure SegConfig where
  rate     : BitVec 3
  parity   : Parity
  gapLimit : Byte
  guard    : Byte
  depth    : Byte
  patience : Byte
  deriving DecidableEq, Repr

/-- The four segment counters beside the framer's (R111). -/
structure SegmentCounters where
  stray    : Word
  timeouts : Word
  corrupt  : Word
  retries  : Word
  deriving DecidableEq, Repr

/-- A segment: its port, its sequencer and its pins (R89, R115). -/
structure Segment where
  port           : Port
  counters       : SegmentCounters
  state          : SeqState
  current        : Option Slot
  tagCounter     : Tag
  /-- Milliseconds left; `some 0` has expired and waits for its expiry command (R95, log 9). -/
  responseTimer  : Option Nat
  /-- Running from this many [char] since its last start (R103, log 8). -/
  guardTimer     : Option Nat
  config         : SegConfig
  /-- The pending configuration; the pending flag is set exactly while it is held (R90). -/
  pendingConfig  : Option SegConfig
  drainRequested : Bool
  lentExpired    : Bool
  /-- Milliseconds since entry to LENT; kept in LENT alone (R119). -/
  lentTime       : Option Nat
  /-- The frame on the wire. -/
  tx             : Option Frame
  /-- Pin xDE. -/
  de             : Bool
  /-- Pin HACKx. -/
  hack           : Bool
  deriving DecidableEq, Repr

/-! ### Input block (R113, R125 to R137) -/

inductive EdgeSelect where
  | none
  | rise
  | fall
  | both
  deriving DecidableEq, Repr

/-- One line record (R127); levels are true at HIGH. -/
structure InputLine where
  qualification : BitVec 4
  edge          : EdgeSelect
  cls           : Fin 4
  accepted      : Bool
  raw           : Bool
  run           : Nat
  lost          : Bool
  baselineDue   : Bool
  deriving DecidableEq, Repr

/-- One hold line (R113); the level is true at ASSERTED. -/
structure HoldLine where
  asserted : Bool
  run      : Nat
  deriving DecidableEq, Repr

structure InputBlock where
  lines       : Vector InputLine 16
  holdA       : HoldLine
  holdB       : HoldLine
  period      : BitVec 2
  /-- The period the sample timer is measuring, in half milliseconds (R125; log 8, log 20). -/
  sampleTimer : Nat
  deriving DecidableEq, Repr

/-! ### Reporter (R138 to R156) -/

/-- The causes of a reset (R163). -/
inductive ResetCause where
  | power
  | pin
  | command
  deriving DecidableEq, Repr

inductive Subject where
  | input (n : Fin 16)
  | segment (x : Seg)
  | gateway
  deriving DecidableEq, Repr

inductive EventCode where
  | rise
  | fall
  | lent
  | reclaimed
  | restart
  | overflow
  deriving DecidableEq, Repr

/-- The level of an INPUT record, the cause of a RESTART record, or neither (R141). -/
inductive Info where
  | absent
  | level (high : Bool)
  | cause (c : ResetCause)
  deriving DecidableEq, Repr

/-- A report event as it is offered to the reporter (R138). -/
structure Event where
  subject : Subject
  cls     : Fin 4
  code    : EventCode
  info    : Info
  time    : Word
  deriving DecidableEq, Repr

/-- The state of a report record and, in a batch, its batch number (R140, R141). -/
inductive RecordStatus where
  | waiting
  | inBatch (n : Byte)
  deriving DecidableEq, Repr

/-- A report record (R141). -/
structure ReportRecord where
  subject : Subject
  cls     : Fin 4
  code    : EventCode
  info    : Info
  count   : Nat
  first   : Word
  last    : Word
  status  : RecordStatus
  deriving DecidableEq, Repr

/-- The overflow carry (R144). -/
structure Carry where
  count : Nat
  first : Word
  last  : Word
  deriving DecidableEq, Repr

inductive ReporterState where
  | idle
  | outstanding
  | stalled
  deriving DecidableEq, Repr

inductive ReportMode where
  | off
  | polled
  | unsolicited
  deriving DecidableEq, Repr

structure Reporter where
  /-- The report queue in creation order, the OVERFLOW record in its place (R140). -/
  queue       : List ReportRecord
  carry       : Carry
  state       : ReporterState
  /-- The number of the outstanding batch. -/
  outstanding : Option Byte
  sendCount   : Nat
  resendDue   : Bool
  /-- Milliseconds left; `some 0` has expired and waits for its expiry command (R150, log 9). -/
  timer       : Option Nat
  /-- The RPT frame in transmission is of the batch still outstanding (R150; log 20). -/
  sending     : Bool
  mode        : ReportMode
  enables     : BitVec 4
  timeout     : Byte
  destination : Option Byte
  nextBatch   : Byte
  deriving DecidableEq, Repr

/-! ### The whole machine -/

structure State where
  /-- A hard reset in progress and what began it (R163, R170). -/
  hardReset   : Option HardCause
  timeCounter : Word
  resetCause  : ResetCause
  trunk       : Trunk
  routes      : RouteTable
  exchange    : ExchangeTable
  segA        : Segment
  segB        : Segment
  inputs      : InputBlock
  reporter    : Reporter
  /-- The commands that wait, first in first out (log 1). -/
  pending     : List Instr
  deriving DecidableEq, Repr

/-- No command of the DSG-16 stops the block with a fault: bad frames, refused requests and lost events are
counted, answered or recorded (R15, R25, R144, R161), all of them next states. Nobody raises one. -/
inductive Fault where
  deriving DecidableEq, Repr

/-- Reasons to refuse a command. -/
inductive Refusal where
  /-- Raised by `exec` for a command without a meaning yet; safe. Every row has its meaning, so no arm does. -/
  | notModelled (mnemonic : String)
  deriving DecidableEq, Repr

/-! ### The state after hard reset (R33, R52, R64, R88, R112, R124, R137, R156, R170) -/

/-- A framer in HUNT with nothing held and its gap timer stopped (R10). What the empty fields hold is a
DESIGN CHOICE, safe (log 22): R11 sets them anew at every lead. -/
def Framer.reset : Framer := ⟨.hunt, [], 0, 0xFFFF, none, none⟩

def FramerCounters.zero : FramerCounters := ⟨0, 0, 0, 0, 0, 0, 0⟩

/-- A port after hard reset: receiver UNQUALIFIED, framer in HUNT, counters 0 (R3, R10, R17). -/
def Port.reset : Port := ⟨.unqualified, Framer.reset, FramerCounters.zero, []⟩

def TrunkCounters.zero : TrunkCounters := ⟨0, 0, 0, 0⟩

def SegmentCounters.zero : SegmentCounters := ⟨0, 0, 0, 0⟩

/-- The trunk port after hard reset (R33) with every strap pin low (DESIGN CHOICE, unsafe, log 10): by R18 the
address is then 254, the rate index 0, the parity NONE and the strap fault set. -/
def Trunk.reset : Trunk where
  address := 254
  rate := 0
  parity := .none
  strapFault := true
  port := Port.reset
  counters := TrunkCounters.zero
  queue := []
  tx := .idle
  softResetPending := false

/-- A bank of 48 EMPTY entries. -/
def Bank.empty : Bank := Vector.replicate 48 none

/-- The route table after hard reset (R52, R64). -/
def RouteTable.reset : RouteTable := ⟨Bank.empty, Bank.empty, 0, 0, 0, .refuse⟩

/-- The exchange table after either reset (R88). -/
def ExchangeTable.reset : ExchangeTable := ⟨Vector.replicate 16 none, [], []⟩

/-- The segment configuration after hard reset (R90). -/
def SegConfig.default : SegConfig := ⟨3, .none, 4, 2, 8, 0⟩

/-- A segment after hard reset (R112, R124). -/
def Segment.reset : Segment where
  port := Port.reset
  counters := SegmentCounters.zero
  state := .idle
  current := none
  tagCounter := 0
  responseTimer := none
  guardTimer := none
  config := SegConfig.default
  pendingConfig := none
  drainRequested := false
  lentExpired := false
  lentTime := none
  tx := none
  de := false
  hack := false

/-- An input line after hard reset (R137). -/
def InputLine.reset : InputLine := ⟨4, .none, 3, false, false, 0, false, true⟩

/-- The input block after hard reset (R113, R137): period index 1, which is 2 half milliseconds. -/
def InputBlock.reset : InputBlock := ⟨Vector.replicate 16 InputLine.reset, ⟨false, 0⟩, ⟨false, 0⟩, 1, 2⟩

/-- The RESTART record a reset places (R156). -/
def ReportRecord.restart (c : ResetCause) (t : Word) : ReportRecord :=
  ⟨.gateway, 0, .restart, .cause c, 1, t, t, .waiting⟩

def Carry.zero : Carry := ⟨0, 0, 0⟩

/-- The reporter after a hard reset with the given cause (R156). -/
def Reporter.reset (c : ResetCause) : Reporter where
  queue := [ReportRecord.restart c 0]
  carry := Carry.zero
  state := .idle
  outstanding := none
  sendCount := 0
  resendDue := false
  timer := none
  sending := false
  mode := .polled
  enables := 0xF
  timeout := 20
  destination := none
  nextBatch := 1

/-- The machine right after a hard reset that began at power-on (DESIGN CHOICE, log 11) and ended with every strap
pin low (DESIGN CHOICE, unsafe, log 10), no command waiting. -/
def State.reset : State where
  hardReset := none
  timeCounter := 0
  resetCause := .power
  trunk := Trunk.reset
  routes := RouteTable.reset
  exchange := ExchangeTable.reset
  segA := Segment.reset
  segB := Segment.reset
  inputs := InputBlock.reset
  reporter := Reporter.reset .power
  pending := []

end Sys2Proof.Machine
end

