-- ==== Sys2Proof/Machine/Flags.lean ====
section
/-! DEFINITION. Saturating counters, the check of a frame, the parity of a character and its judgement. -/

namespace Sys2Proof.Machine

/-- A 16-bit saturating counter counts one event: at 65535 it stays there (R17, R32, R39, R111). -/
def satInc (c : Word) : Word := if c = 0xFFFF then c else c + 1

/-- A count that stops at `top` (R141, R144). -/
def addUpTo (top a b : Nat) : Nat := min top (a + b)

/-- The first field out of range, in offset order (R158 step 4): the offset of the first test that fails. -/
def firstOutOfRange (tests : List (Byte × Bool)) : Option Byte := (tests.find? (fun t => !t.2)).map (·.1)

/-! ### The check (R9) -/

/-- One bit enters the check remainder: it is compared with the most significant bit, the remainder shifts up, and
1021h is combined in if the two differed (R9). -/
def crcBit (r : Word) (bit : Bool) : Word :=
  if bit != r.msb then (r <<< 1) ^^^ 0x1021 else r <<< 1

/-- One covered byte enters the check remainder, most significant bit first (R9). -/
def crcByte (r : Word) (b : Byte) : Word :=
  [7, 6, 5, 4, 3, 2, 1, 0].foldl (fun r i => crcBit r (b.getLsbD i)) r

/-- The remainder set before the destination byte (R9). -/
def crcStart : Word := 0xFFFF

/-- The check over the covered bytes (R9). -/
def crc (bytes : List Byte) : Word := bytes.foldl crcByte crcStart

/-! ### Characters (R1, R2, R3) -/

/-- The two levels of a line (R1). -/
def mark : Bool := true
def space : Bool := false

/-- Whether the number of ones among the data bits is odd. -/
def oddOnes (b : Byte) : Bool := [0, 1, 2, 3, 4, 5, 6, 7].foldl (fun p i => p ^^ b.getLsbD i) false

/-- The parity bit of a character (R1): with EVEN the ones of data and parity together are even, with ODD odd;
with NONE there is no bit. -/
def parityBit (p : Parity) (b : Byte) : Option Bool :=
  match p with
  | .none => none
  | .even => some (oddOnes b)
  | .odd => some (!oddOnes b)

/-- The judgement of a character (R3): in error if the parity bit does not match the data bits or the stop bit is
at space; otherwise good. An all-space character that ends before break length is in error by its stop bit (R4). -/
def charGood (p : Parity) (c : RawChar) : Bool :=
  c.stopBit && (match parityBit p c.data with
    | none => true
    | some bit => c.parityBit == bit)

/-- The character a transmitter sends for a byte (R1, R5), as a receiver of the same parity samples it. -/
def charOf (p : Parity) (b : Byte) : RawChar := ⟨b, (parityBit p b).getD true, true⟩

/-- The bits of a character in order of transmission, true at mark: start bit at space, data least significant bit
first, parity bit if any, stop bit at mark (R1). -/
def characterBits (p : Parity) (b : Byte) : List Bool :=
  [space] ++ [0, 1, 2, 3, 4, 5, 6, 7].map b.getLsbD ++ (parityBit p b).toList ++ [mark]

/-- The length of a character in bit times: 10 without parity, 11 with (R1). -/
def characterBitTimes : Parity → Nat
  | .none => 10
  | .even => 11
  | .odd => 11

/-- The rate of a rate index in bit/s (R2). -/
def bitRate (i : BitVec 3) : Nat :=
  match i.toNat with
  | 0 => 1200
  | 1 => 2400
  | 2 => 9600
  | 3 => 19200
  | 4 => 38400
  | 5 => 57600
  | 6 => 115200
  | _ => 230400

/-! ### Counters of a port -/

def FramerCounters.incGood (c : FramerCounters) : FramerCounters := { c with good := satInc c.good }
def FramerCounters.incCheck (c : FramerCounters) : FramerCounters := { c with check := satInc c.check }
def FramerCounters.incChar (c : FramerCounters) : FramerCounters := { c with char := satInc c.char }
def FramerCounters.incGap (c : FramerCounters) : FramerCounters := { c with gap := satInc c.gap }
def FramerCounters.incLength (c : FramerCounters) : FramerCounters := { c with length := satInc c.length }
def FramerCounters.incFormat (c : FramerCounters) : FramerCounters := { c with format := satInc c.format }
def FramerCounters.incBreak (c : FramerCounters) : FramerCounters := { c with brk := satInc c.brk }

end Sys2Proof.Machine
end

