-- ==== Sys2Proof/WellFormed.lean ====
section
/-! DEFINITION. Which commands are well formed: the frame a delivery command carries is one a framer can deliver
(R6, R12, R15) and is of the kind the command's row names (R20). -/

namespace Sys2Proof

/-- The functions of the eighteen management commands (R158, the command table after R159). -/
def managementFunctions : List Byte :=
  [0x01, 0x02, 0x10, 0x11, 0x12, 0x13, 0x14, 0x20, 0x21, 0x22, 0x23, 0x24, 0x30, 0x31, 0x32, 0x40, 0x41, 0x7F]

/-- A payload a frame can have: 0 to 48 bytes (R6). -/
def payloadOk (p : List Byte) : Bool := decide (p.length ≤ 48)

/-- A source the framer does not judge FORMAT: 1 to 254 (R8, R15). -/
def sourceOk (b : Byte) : Bool := b != 0 && b != 255

/-- A frame the trunk framer can deliver as good: destination and source 1 to 254 (R15). -/
def Frame.goodOnTrunk (f : Frame) : Bool :=
  f.dest != 0 && f.dest != 255 && sourceOk f.src && payloadOk f.payload

/-- A frame a segment framer can deliver as good: destination not 255, source 1 to 254 (R15). -/
def Frame.goodOnSegment (f : Frame) : Bool :=
  f.dest != 255 && sourceOk f.src && payloadOk f.payload

/-- A request whose frame the trunk framer can deliver as good. -/
def Request.ok (r : Request) : Bool := sourceOk r.src && payloadOk r.payload

/-- Well-formedness of a command. Whether its event can come in a given state is judged by its meaning. -/
def Instr.wf : Instr → Bool
  | .hardReset _ => true
  | .softReset => true
  | .millisecondTick => true
  | .idleQualification _ => true
  | .arrival _ _ => true
  | .lineBreak _ => true
  | .gapTimerExpiry _ => true
  | .routedRequest f => f.goodOnTrunk && f.kind == .req
  | .unexpected f => f.goodOnTrunk && f.kind != .req
  | .pendingSoftResetDiscard f => f.goodOnTrunk
  | .rack _ r => r.ok
  | .unknown fn r => r.ok && !managementFunctions.contains fn
  | .readStatus r => r.ok
  | .readCounters r => r.ok
  | .stageEntry r => r.ok
  | .clearStage r => r.ok
  | .readEntry r => r.ok
  | .commit r => r.ok
  | .setMissPolicy r => r.ok
  | .readExchanges r => r.ok
  | .abortExchange r => r.ok
  | .lineReset r => r.ok
  | .setSegment r => r.ok
  | .readSegment r => r.ok
  | .readInputs r => r.ok
  | .setInput r => r.ok
  | .setSamplePeriod r => r.ok
  | .reportControl r => r.ok
  | .fetchReports r => r.ok
  | .gatewayReset r => r.ok
  | .endOfTransmission => true
  | .reportTimerExpiry => true
  | .segmentEndOfTransmission _ => true
  | .matchingFrame _ f => f.goodOnSegment
  | .strayFrame _ f => f.goodOnSegment
  | .corruptFrameNotice _ => true
  | .responseTimerExpiry _ => true
  | .guardTimerExpiry _ => true
  | .sampleInstant _ _ _ => true
  | .patienceExpiry _ => true
  | .breakEnd _ => true
  | .fallToSpace _ _ => true
  | .hardResetBegin _ => true

end Sys2Proof
end

