-- ==== Sys2Proof/Machine/Operands.lean ====
section
/-! DEFINITION. Codes, byte order and the layouts of frames and payloads (R171 to R180): how the bytes of a command
become its fields and how state becomes the bytes of a reply. -/

namespace Sys2Proof.Machine

/-! ### Bytes and words (R171) -/

def hiByte (w : Word) : Byte := w.extractLsb' 8 8
def loByte (w : Word) : Byte := w.extractLsb' 0 8

/-- Two consecutive bytes, the high byte first (R171). -/
def wordBytes (w : Word) : List Byte := [hiByte w, loByte w]

def wordOf (hi lo : Byte) : Word := hi ++ lo

/-- A count as one byte. -/
def byteOf (n : Nat) : Byte := BitVec.ofNat 8 n

/-- The byte with the given bits set, each flag at its bit place. -/
def flagByte (flags : List (Bool × Nat)) : Byte :=
  flags.foldl (fun acc f => if f.1 then acc ||| (1#8 <<< f.2) else acc) 0

/-- Sixteen line values as a 16-bit value, bit n for line n (R171). -/
def lineSet (vals : List Bool) : Word :=
  vals.foldr (fun v acc => (acc <<< 1) ||| (if v then 1 else 0)) 0

/-! ### Segments and masks (00_scope.md Conventions; R175, R176) -/

/-- The mask of a segment: A is 1, B is 2. -/
def segMask : Seg → Byte
  | .a => 1
  | .b => 2

def SegSet.empty : SegSet := ⟨false, false⟩
def SegSet.both : SegSet := ⟨true, true⟩

def SegSet.has (t : SegSet) : Seg → Bool
  | .a => t.a
  | .b => t.b

def SegSet.insert (t : SegSet) : Seg → SegSet
  | .a => { t with a := true }
  | .b => { t with b := true }

def SegSet.remove (t : SegSet) : Seg → SegSet
  | .a => { t with a := false }
  | .b => { t with b := false }

def SegSet.isEmpty (t : SegSet) : Bool := !t.a && !t.b

def SegSet.mask (t : SegSet) : Byte := flagByte [(t.a, 0), (t.b, 1)]

/-- The segment a command names: 1 is A, 2 is B (R106, R108, R109). -/
def segOf (b : Byte) : Option Seg :=
  if b = 1 then some .a else if b = 2 then some .b else none

/-! ### Codes -/

/-- Kind codes (R7, R173). -/
def kindCode : FrameKind → BitVec 3
  | .req => 1
  | .rsp => 2
  | .nak => 3
  | .rpt => 4
  | .rack => 5

/-- The kind of a code; 0, 6 and 7 are invalid (R6). -/
def kindOf (c : BitVec 3) : Option FrameKind :=
  match c.toNat with
  | 1 => some .req
  | 2 => some .rsp
  | 3 => some .nak
  | 4 => some .rpt
  | 5 => some .rack
  | _ => none

/-- Action codes (R34). -/
def actionCode : Action → Byte
  | .forward => 1
  | .fanout => 2
  | .refuse => 3
  | .drop => 4

/-- The action of a code 1 to 4; code 0 is EMPTY (R34). -/
def actionOf (b : Byte) : Option Action :=
  match b.toNat with
  | 1 => some .forward
  | 2 => some .fanout
  | 3 => some .refuse
  | 4 => some .drop
  | _ => none

/-- Miss policy codes (R41). -/
def missCode : MissPolicy → Byte
  | .refuse => 0
  | .drop => 1

def missOf (b : Byte) : Option MissPolicy :=
  if b = 0 then some .refuse else if b = 1 then some .drop else none

/-- Parity codes (R106, R176). -/
def parityCode : Parity → Byte
  | .none => 0
  | .even => 1
  | .odd => 2

def parityOf (b : Byte) : Option Parity :=
  match b.toNat with
  | 0 => some .none
  | 1 => some .even
  | 2 => some .odd
  | _ => none

/-- Sequencer state codes (R108, R176). -/
def seqStateCode : SeqState → Byte
  | .idle => 0
  | .send => 1
  | .wait => 2
  | .guard => 3
  | .lent => 4
  | .resume => 5

/-- Edge select codes (R133). -/
def edgeCode : EdgeSelect → Byte
  | .none => 0
  | .rise => 1
  | .fall => 2
  | .both => 3

def edgeOf (b : Byte) : Option EdgeSelect :=
  match b.toNat with
  | 0 => some .none
  | 1 => some .rise
  | 2 => some .fall
  | 3 => some .both
  | _ => none

/-- Report mode codes (R153, R154). -/
def modeCode : ReportMode → Byte
  | .off => 0
  | .polled => 1
  | .unsolicited => 2

def modeOf (b : Byte) : Option ReportMode :=
  match b.toNat with
  | 0 => some .off
  | 1 => some .polled
  | 2 => some .unsolicited
  | _ => none

/-- Reporter state codes (R179). -/
def reporterStateCode : ReporterState → Byte
  | .idle => 0
  | .outstanding => 1
  | .stalled => 2

/-- Reset cause codes (R178, R179). -/
def causeCode : ResetCause → Byte
  | .power => 1
  | .pin => 2
  | .command => 3

/-- Event codes (R178). -/
def eventCode : EventCode → Byte
  | .rise => 1
  | .fall => 2
  | .lent => 3
  | .reclaimed => 4
  | .restart => 5
  | .overflow => 6

/-- Subject codes (R178). -/
def subjectCode : Subject → Byte
  | .input n => byteOf n.val
  | .segment .a => 0x10
  | .segment .b => 0x11
  | .gateway => 0x20

/-! ### NAK payloads (R160, R161) -/

def nakUnknown : List Byte := [0x01]
def nakLength : List Byte := [0x02]
def nakRange (offset : Byte) : List Byte := [0x03, offset]
def nakConflict (index : Byte) : List Byte := [0x04, index]
def nakStale (generation : Word) : List Byte := 0x05 :: wordBytes generation
def nakMode (mode : Byte) : List Byte := [0x06, mode]
def nakRefused (detail : Byte) : List Byte := [0x10, detail]
def nakNoRoute : List Byte := [0x11]
def nakBusy (mask : Byte) : List Byte := [0x12, mask]
def nakDuplicate : List Byte := [0x13]
def nakLent (mask : Byte) : List Byte := [0x14, mask]
def nakTimeout (attempts : Nat) : List Byte := [0x20, byteOf attempts]
def nakCorrupt (attempts : Nat) : List Byte := [0x21, byteOf attempts]
def nakStation (first : Byte) : List Byte := [0x22, first]
def nakAborted : List Byte := [0x23]

/-! ### The field message frame (R6, R173) -/

/-- The lead of every frame. -/
def lead : Byte := 0xD5

/-- The byte of kind and tag: kind in bits 7 to 5, tag in bits 4 to 0. -/
def kindTagByte (k : FrameKind) (t : Tag) : Byte := kindCode k ++ t

/-- The bytes the check covers: destination through payload (R9). -/
def frameCovered (f : Frame) : List Byte :=
  [f.dest, f.src, kindTagByte f.kind f.tag, f.fn, byteOf f.payload.length] ++ f.payload

/-- The whole frame as sent: lead, covered bytes, check high byte first (R5, R173). -/
def frameBytes (f : Frame) : List Byte := lead :: (frameCovered f ++ wordBytes (crc (frameCovered f)))

/-- The time a frame lasts, in character times (R6, R27). -/
def frameCharacterTimes (f : Frame) : Nat := 8 + f.payload.length

/-- The line levels of a frame, bit time by bit time, its characters back to back (R5). -/
def lineBits (p : Parity) (f : Frame) : List Bool := (frameBytes f).flatMap (characterBits p)

/-- The level of a transmit pin `n` bit times after the transmission of its frame began: the frame's levels, and mark
when they are over; with no frame in transmission the pin rests at mark (R1, R5). -/
def pinLevel (p : Parity) (f : Option Frame) (n : Nat) : Bool :=
  match f with
  | some f => (lineBits p f).getD n mark
  | none => mark

/-- The outcomes of a completion (R15). -/
inductive Judgement where
  | checkBad
  | formatInvalid
  | good (f : Frame)
  deriving DecidableEq, Repr

/-- The judgement of a complete frame (R15): the check first, then the format, `onTrunk` adding the case of
destination 0. A framer in CHECK holds at least the five header bytes; the last case is never reached (log 21). -/
def judgeFrame (onTrunk : Bool) (fields : List Byte) (remainder received : Word) : Judgement :=
  if remainder ≠ received then .checkBad
  else match fields with
    | dest :: src :: kt :: fn :: _len :: payload =>
      match kindOf (kt.extractLsb' 5 3) with
      | none => .formatInvalid
      | some k =>
        if dest = 255 ∨ (onTrunk = true ∧ dest = 0) ∨ src = 0 ∨ src = 255 then .formatInvalid
        else .good ⟨dest, src, k, kt.extractLsb' 0 5, fn, payload⟩
    | _ => .formatInvalid

/-! ### Route entry image (R54 to R58, R174) -/

/-- The ten bytes of a route entry image. -/
structure RouteImage where
  index        : Byte
  action       : Byte
  trunkAddress : Byte
  fnMatch      : Byte
  flags        : Byte
  segAddress   : Byte
  remap        : Byte
  timeout      : Byte
  retryLimit   : Byte
  refuseDetail : Byte
  deriving DecidableEq, Repr

/-- The ANY flag, bit 0. -/
def RouteImage.any (m : RouteImage) : Bool := m.flags.getLsbD 0
/-- The remap-present flag, bit 1. -/
def RouteImage.remapPresent (m : RouteImage) : Bool := m.flags.getLsbD 1
/-- The segment flag, bit 2: clear for A, set for B. -/
def RouteImage.segment (m : RouteImage) : Seg := if m.flags.getLsbD 2 then .b else .a

/-- The first field of a STAGE-ENTRY out of range, by R55's table: with action 0 only the index and the action code
are judged. -/
def RouteImage.outOfRange (m : RouteImage) : Option Byte :=
  let valid := m.action != 0
  firstOutOfRange [
    (0, decide (m.index.toNat < 48)),
    (1, decide (m.action.toNat ≤ 4)),
    (2, !valid || sourceOk m.trunkAddress),
    (3, !(valid && m.any) || m.fnMatch == 0),
    (4, !valid || decide (m.flags.toNat < 8)),
    (5, if m.action = 1 then decide (1 ≤ m.segAddress.toNat ∧ m.segAddress.toNat ≤ 253)
        else if m.action = 2 then m.segAddress == 0 else true),
    (7, m.action != 1 || m.timeout != 0),
    (8, !valid || decide (m.retryLimit.toNat ≤ 3))]

/-- The entry an image in range describes; action 0 is EMPTY (R56). -/
def RouteImage.entry (m : RouteImage) : Option RouteEntry :=
  (actionOf m.action).map fun a =>
    { action := a, trunkAddress := m.trunkAddress, fnMatch := if m.any then none else some m.fnMatch,
      segment := m.segment, segAddress := m.segAddress,
      remap := if m.remapPresent then some m.remap else none,
      timeout := m.timeout, retryLimit := m.retryLimit, refuseDetail := m.refuseDetail, hits := 0 }

/-- The image and hit count READ-ENTRY returns (R58, R174). -/
def entryImage (index : Byte) (e : Option RouteEntry) : List Byte :=
  match e with
  | none => index :: List.replicate 11 0
  | some e =>
    [index, actionCode e.action, e.trunkAddress, e.fnMatch.getD 0,
      flagByte [(e.fnMatch.isNone, 0), (e.remap.isSome, 1), (e.segment == .b, 2)],
      e.segAddress, e.remap.getD 0, e.timeout, e.retryLimit, e.refuseDetail] ++ wordBytes e.hits

/-! ### Exchange summary (R85, R175) -/

def recordStateCode : RecordState → Byte
  | .queued => 1
  | .active => 2
  | .complete _ => 3

/-- The segments a record names in a summary: none once it is COMPLETE (R85). -/
def Record.summaryMask (r : Record) : Byte :=
  match r.state, r.carriage with
  | .complete _, _ => 0
  | _, .single c => segMask c.segment
  | _, .broadcast c => c.pending.mask

/-- The three bytes of a slot. -/
def slotSummary (r : Option Record) : List Byte :=
  match r with
  | none => [0, 0, 0]
  | some r =>
    [recordStateCode r.state |||
      (match r.carriage with
        | .single _ => 0
        | .broadcast _ => 4) ||| (r.summaryMask <<< 3),
      r.source,
      (byteOf r.attempts <<< 5) ||| r.tag.zeroExtend 8]

/-! ### Segment configuration (R106, R176) -/

def SegConfig.bytes (c : SegConfig) : List Byte :=
  [c.rate.zeroExtend 8, parityCode c.parity, c.gapLimit, c.guard, c.depth, c.patience]

/-! ### Input configuration (R133, R177) -/

def InputLine.configBytes (line : Byte) (l : InputLine) : List Byte :=
  [line, l.qualification.zeroExtend 8, edgeCode l.edge, byteOf l.cls.val]

/-- The period of a sample period index, in half milliseconds (R125). -/
def periodHalfMs (i : BitVec 2) : Nat :=
  match i.toNat with
  | 0 => 1
  | 1 => 2
  | 2 => 4
  | _ => 10

/-! ### Report records and batches (R145, R178) -/

/-- The third byte of a report record: level, cause or count. -/
def ReportRecord.infoByte (r : ReportRecord) : Byte :=
  if r.code = .overflow then byteOf r.count
  else match r.info with
    | .level high => flagByte [(high, 7)] ||| (byteOf r.count &&& 0xF)
    | .cause c => (causeCode c <<< 4) ||| (byteOf r.count &&& 0xF)
    | .absent => byteOf r.count &&& 0xF

/-- The seven bytes of a report record. -/
def ReportRecord.bytes (r : ReportRecord) : List Byte :=
  [subjectCode r.subject, (byteOf r.cls.val <<< 4) ||| eventCode r.code, r.infoByte] ++
    wordBytes r.first ++ wordBytes r.last

/-- The batch payload: number, record count, records in batch order. -/
def batchPayload (n : Byte) (rs : List ReportRecord) : List Byte :=
  [n, byteOf rs.length] ++ rs.flatMap ReportRecord.bytes

/-! ### Counter blocks (R165, R180) -/

def FramerCounters.list (c : FramerCounters) : List Word :=
  [c.good, c.check, c.char, c.gap, c.length, c.format, c.brk]

def TrunkCounters.list (c : TrunkCounters) : List Word := [c.unexpected, c.replyDrop, c.routeDrop, c.rackIgnored]

def SegmentCounters.list (c : SegmentCounters) : List Word := [c.stray, c.timeouts, c.corrupt, c.retries]

/-- The counter block: the port, then the counters in two bytes each. -/
def counterBlock (port : Byte) (cs : List Word) : List Byte := port :: cs.flatMap wordBytes

end Sys2Proof.Machine
end

