-- ==== Sys2Proof/Machine/Framing.lean ====
section
/-! DEFINITION. A port: its receiver's conditions and its framer (R3, R4, R10 to R16). -/

namespace Sys2Proof.Machine

/-- The trunk gap limit, fixed at 4 [char] (R13, R18). -/
def trunkGapLimit : Nat := 4

/-! ### Leaving a frame, closing and opening (R10, R16) -/

/-- Abandonment without a count: everything held is discarded and the framer is in HUNT (R10, R16). -/
def Port.hunt (p : Port) : Port := { p with framer := Framer.reset }

/-- Abandonment, or completion, with its counter (R10, R12 to R15). -/
def Port.leave (count : FramerCounters → FramerCounters) (p : Port) : Port :=
  { p with framer := Framer.reset, counters := count p.counters }

/-- The framer closes: any frame in progress is abandoned uncounted and the receiver takes nothing (R16). -/
def Port.close (p : Port) : Port := { p with framer := Framer.reset, receiver := .closed }

/-- The framer opens in HUNT with the receiver UNQUALIFIED (R16). -/
def Port.reopen (p : Port) : Port := { p with framer := Framer.reset, receiver := .unqualified }

/-! ### The receiver (R3, R4) -/

/-- The line has rested at mark for one character time (R3). -/
def Port.qualify (p : Port) : Port :=
  if p.receiver = .unqualified then { p with receiver := .ready } else p

/-- A fall to space in READY begins a start bit; `startHolds` is whether the line is still at space at the middle
of it. If not, the fall was a glitch (R3). In the other conditions the fall begins nothing. -/
def Port.fall (startHolds : Bool) (p : Port) : Port :=
  if p.receiver = .ready ∧ startHolds = true then { p with receiver := .receiving } else p

/-- A receiver can hand over a character or report a break only from a start bit it has taken: in RECEIVING, or in
READY when that start bit's fall was not given as a command of its own (log 5). -/
def Port.hearing (p : Port) : Bool := p.receiver == .ready || p.receiver == .receiving

/-- A break is reported: BREAK counts in every framer state, a frame in progress is abandoned with no other count,
and no start bit is taken until the line is back at mark (R4, R14). -/
def Port.takeBreak (p : Port) : Port :=
  if p.hearing then { p.leave FramerCounters.incBreak with receiver := .inBreak } else p

/-- The line returns to mark after a break (R4). -/
def Port.endBreak (p : Port) : Port :=
  if p.receiver = .inBreak then { p with receiver := .unqualified } else p

/-! ### The framer (R11 to R15) -/

/-- Completion and its judgement (R15). A segment framer gives a corrupt-frame notice at a bad check. -/
def Port.complete (onTrunk : Bool) (high low : Byte) (p : Port) : Port :=
  match judgeFrame onTrunk p.framer.fields p.framer.remainder (wordOf high low) with
  | .checkBad =>
    { p.leave FramerCounters.incCheck with
      deliveries := if onTrunk then p.deliveries else p.deliveries ++ [.corruptNotice] }
  | .formatInvalid => p.leave FramerCounters.incFormat
  | .good f => { p.leave FramerCounters.incGood with deliveries := p.deliveries ++ [.frame f] }

/-- A good header byte (R12): the fifth is the length. `limit` is the gap limit in force at this restart. -/
def Port.takeHeader (limit : Nat) (b : Byte) (p : Port) : Port :=
  let fields := p.framer.fields ++ [b]
  let remainder := crcByte p.framer.remainder b
  if fields.length < 5 then { p with framer := ⟨.header, fields, 0, remainder, none, some limit⟩ }
  else if 48 < b.toNat then p.leave FramerCounters.incLength
  else if b = 0 then { p with framer := ⟨.check, fields, 0, remainder, none, some limit⟩ }
  else { p with framer := ⟨.body, fields, b.toNat, remainder, none, some limit⟩ }

/-- A good payload byte (R12). -/
def Port.takeBody (limit : Nat) (b : Byte) (p : Port) : Port :=
  let fields := p.framer.fields ++ [b]
  let remainder := crcByte p.framer.remainder b
  if p.framer.expected ≤ 1 then { p with framer := ⟨.check, fields, 0, remainder, none, some limit⟩ }
  else { p with framer := ⟨.body, fields, p.framer.expected - 1, remainder, none, some limit⟩ }

/-- A good character arrives at the framer (R11, R12, R15). -/
def Port.takeGood (onTrunk : Bool) (limit : Nat) (b : Byte) (p : Port) : Port :=
  match p.framer.state with
  | .hunt =>
    if b = lead then { p with framer := ⟨.header, [], 0, crcStart, none, some limit⟩ } else p
  | .header => p.takeHeader limit b
  | .body => p.takeBody limit b
  | .check =>
    match p.framer.highCheck with
    | none => { p with framer := { p.framer with highCheck := some b, gapTimer := some limit } }
    | some high => p.complete onTrunk high b

/-- A character in error arrives: discarded in HUNT, otherwise the frame is abandoned with CHAR (R11, R14). -/
def Port.takeBad (p : Port) : Port :=
  if p.framer.state = .hunt then p else p.leave FramerCounters.incChar

/-- The arrival of a character (R3): the receiver judges it by the line's parity, hands it over and is READY. -/
def Port.arrive (onTrunk : Bool) (limit : Nat) (parity : Parity) (c : RawChar) (p : Port) : Port :=
  let p := { p with receiver := .ready }
  if charGood parity c then p.takeGood onTrunk limit c.data else p.takeBad

/-- The gap timer expires (R13); a stopped timer does not. -/
def Port.gapExpire (p : Port) : Port :=
  if p.framer.gapTimer.isSome then p.leave FramerCounters.incGap else p

end Sys2Proof.Machine
end

