-- ==== Sys2Proof/Machine/Reporting.lean ====
section
/-! DEFINITION. The reporter and its queue (R138 to R156): taking events, loss, batches, acknowledgement,
abandonment. -/

namespace Sys2Proof.Machine

def ReportRecord.waiting (r : ReportRecord) : Bool := r.status == .waiting

def ReportRecord.isOverflow (r : ReportRecord) : Bool := r.code == .overflow

def Subject.isInput : Subject → Bool
  | .input _ => true
  | _ => false

/-- The occupancy: the number of ordinary records (R140). -/
def Reporter.occupancy (rep : Reporter) : Nat := rep.queue.countP (fun r => !r.isOverflow)

def Reporter.hasOverflow (rep : Reporter) : Bool := rep.queue.any ReportRecord.isOverflow

def Reporter.enabled (rep : Reporter) (c : Fin 4) : Bool := rep.enables.getLsbD c.val

/-- Eligible for a batch: WAITING and of an enabled class (R145). -/
def Reporter.eligible (rep : Reporter) (r : ReportRecord) : Bool := r.waiting && rep.enabled r.cls

/-! ### Taking events (R139, R142 to R144) -/

/-- The record an event creates (R142, R143). -/
def Event.record (e : Event) : ReportRecord := ⟨e.subject, e.cls, e.code, e.info, 1, e.time, e.time, .waiting⟩

/-- An event is folded into a WAITING record of its line (R142). -/
def ReportRecord.coalesce (r : ReportRecord) (e : Event) : ReportRecord :=
  { r with cls := e.cls, code := e.code, info := e.info, last := e.time, count := addUpTo 15 r.count 1 }

/-- The OVERFLOW record of a number of losses (R144). -/
def overflowRecord (count : Nat) (first last : Word) : ReportRecord :=
  ⟨.gateway, 0, .overflow, .absent, count, first, last, .waiting⟩

/-- A loss is recorded in the OVERFLOW record, or in the carry while that record is IN-BATCH (R144). -/
def Reporter.recordLoss (rep : Reporter) (t : Word) : Reporter :=
  if rep.queue.any (fun r => r.isOverflow && r.waiting) then
    { rep with queue := rep.queue.map fun r =>
        if r.isOverflow && r.waiting then { r with count := addUpTo 255 r.count 1, last := t } else r }
  else if rep.hasOverflow then
    { rep with carry :=
        ⟨addUpTo 255 rep.carry.count 1, if rep.carry.count = 0 then t else rep.carry.first, t⟩ }
  else { rep with queue := rep.queue ++ [overflowRecord 1 t t] }

/-- Whether a WAITING record of the event's line takes it (R142); segment events do not coalesce (R143). -/
def Reporter.coalesces (rep : Reporter) (e : Event) : Bool :=
  e.subject.isInput && rep.queue.any (fun r => r.subject == e.subject && r.waiting)

/-- The filter: an event in mode OFF or of a disabled class is discarded (R139). -/
def Reporter.discards (rep : Reporter) (e : Event) : Bool := rep.mode == .off || !rep.enabled e.cls

/-- Whether an event is lost: it passes the filter, no record takes it and 31 ordinary records are held. -/
def Reporter.loses (rep : Reporter) (e : Event) : Bool :=
  !rep.discards e && !rep.coalesces e && decide (31 ≤ rep.occupancy)

/-- The reporter takes an INPUT or SEGMENT event (R139, R142, R143, R144). -/
def Reporter.take (rep : Reporter) (e : Event) : Reporter :=
  if rep.discards e then rep
  else if rep.coalesces e then
    { rep with queue := rep.queue.map fun r =>
        if r.subject == e.subject && r.waiting then r.coalesce e else r }
  else if rep.occupancy < 31 then { rep with queue := rep.queue ++ [e.record] }
  else rep.recordLoss e.time

/-! ### Batches (R145, R146) -/

/-- The queue places a batch takes: the eligible records by class, then by age, four at most (R145). -/
def Reporter.selection (rep : Reporter) : List Nat :=
  (([0, 1, 2, 3] : List (Fin 4)).flatMap fun c =>
    (rep.queue.zipIdx.filter fun q => rep.eligible q.1 && q.1.cls == c).map (·.2)).take 4

/-- The batch number after `n`: 255 is followed by 1 (R146). -/
def nextBatchNumber (n : Byte) : Byte := if n = 255 then 1 else n + 1

/-- A batch is formed (R145, R146): the selected records become IN-BATCH under the next batch number, which moves
on, and the batch is outstanding. -/
def Reporter.formBatch (rep : Reporter) : Reporter :=
  { rep with
    queue := rep.queue.zipIdx.map fun q =>
      if rep.selection.contains q.2 then { q.1 with status := .inBatch rep.nextBatch } else q.1
    state := .outstanding
    outstanding := some rep.nextBatch
    nextBatch := nextBatchNumber rep.nextBatch }

/-- The records of the outstanding batch in batch order (R145). The records of a batch do not change while it is
outstanding, so their order of selection is their order by class, then by age. -/
def Reporter.batchRecords (rep : Reporter) : List ReportRecord :=
  ([0, 1, 2, 3] : List (Fin 4)).flatMap fun c => rep.queue.filter fun r => !r.waiting && r.cls == c

/-- The batch payload of the outstanding batch, or number 0 and no record when there is none (R145, R152). -/
def Reporter.payload (rep : Reporter) : List Byte :=
  match rep.outstanding with
  | some n => batchPayload n rep.batchRecords
  | none => batchPayload 0 []

/-! ### Acknowledgement and abandonment (R147, R155) -/

/-- The reporter holds no outstanding batch and no delivery of one (R151, R154). -/
def Reporter.toIdle (rep : Reporter) : Reporter :=
  { rep with state := .idle, outstanding := none, sendCount := 0, resendDue := false, timer := none,
             sending := false }

/-- Acknowledgement of the outstanding batch (R147): its records leave the queue, and if the OVERFLOW record was
among them a carry above 0 becomes a fresh OVERFLOW record at the tail (R144). -/
def Reporter.acknowledge (rep : Reporter) : Reporter :=
  let kept := rep.queue.filter ReportRecord.waiting
  let rep' := rep.toIdle
  if rep.queue.any (fun r => r.isOverflow && !r.waiting) then
    { rep' with
      queue := if rep.carry.count = 0 then kept
        else kept ++ [overflowRecord rep.carry.count rep.carry.first rep.carry.last]
      carry := Carry.zero }
  else { rep' with queue := kept }

/-- A record of an abandoned batch returns to WAITING; the OVERFLOW record takes the carry (R144, R155). -/
def Reporter.release (rep : Reporter) (r : ReportRecord) : ReportRecord :=
  if r.waiting then r
  else if r.isOverflow && rep.carry.count != 0 then
    { r with status := .waiting, count := addUpTo 255 r.count rep.carry.count, last := rep.carry.last }
  else { r with status := .waiting }

/-- The older of two WAITING records of a line takes the newer (R155 step 3). -/
def ReportRecord.merge (older newer : ReportRecord) : ReportRecord :=
  { older with cls := newer.cls, code := newer.code, info := newer.info, last := newer.last,
               count := addUpTo 15 older.count newer.count }

/-- The next record of the queue joins the merged queue before it (R155 step 3). -/
def addMerged (acc : List ReportRecord) (r : ReportRecord) : List ReportRecord :=
  if r.subject.isInput && acc.any (fun o => o.subject == r.subject) then
    acc.map fun o => if o.subject == r.subject then o.merge r else o
  else acc ++ [r]

/-- Abandonment of the outstanding batch (R155). -/
def Reporter.abandon (rep : Reporter) : Reporter :=
  { rep.toIdle with
    queue := (rep.queue.map rep.release).foldl addMerged []
    carry := if rep.queue.any (fun r => r.isOverflow && !r.waiting) then Carry.zero else rep.carry }

/-! ### Sending (R149, R150) -/

/-- Whether the reporter has a batch to send (R149). -/
def Reporter.hasBatch (rep : Reporter) : Bool :=
  rep.mode == .unsolicited &&
    ((rep.state == .idle && rep.queue.any rep.eligible) || (rep.state == .outstanding && rep.resendDue))

/-- The grant (R149): in IDLE a new batch with send count 1, otherwise the outstanding batch once more. -/
def Reporter.granted (rep : Reporter) : Reporter :=
  if rep.state = .idle then { rep.formBatch with sendCount := 1, sending := true }
  else { rep with resendDue := false, sendCount := rep.sendCount + 1, sending := true }

/-- The end of the transmission of a batch frame (R150): the timer starts if the batch is still outstanding. -/
def Reporter.sent (rep : Reporter) : Reporter :=
  if rep.sending then { rep with sending := false, timer := some (rep.timeout.toNat * 100) } else rep

/-- The expiry of the report timer (R150). -/
def Reporter.expire (rep : Reporter) : Reporter :=
  if rep.sendCount < 8 then { rep with timer := none, resendDue := true }
  else { rep with timer := none, state := .stalled }

/-- The reporter's part of a soft reset (R156): `t` is the time counter's present value. -/
def Reporter.softReset (rep : Reporter) (t : Word) : Reporter :=
  { rep.toIdle with queue := [ReportRecord.restart .command t], carry := Carry.zero }

end Sys2Proof.Machine
end

