-- ==== Sys2Proof/Machine/Routing.lean ====
section
/-! DEFINITION. The route table: lookup, hit counts, staging, the consistency check and the swap (R34 to R64). -/

namespace Sys2Proof.Machine

/-- The key of an entry (R36); `none` as function match is ANY. -/
def RouteEntry.key (e : RouteEntry) : Byte × Option Byte := (e.trunkAddress, e.fnMatch)

/-- The entry at an index: EMPTY outside the bank. -/
def bankEntry (b : Bank) (i : Nat) : Option RouteEntry := (b[i]?).join

/-- The place of a valid entry with the given key. -/
def bankFind (b : Bank) (key : Byte × Option Byte) : Option Nat :=
  b.toList.findIdx? fun e => match e with
    | some e => e.key == key
    | none => false

/-- Lookup (R37): an exact match first, otherwise an ANY entry, otherwise a miss. -/
def RouteTable.lookup (t : RouteTable) (dest fn : Byte) : Option Nat :=
  match bankFind t.active (dest, some fn) with
  | some i => some i
  | none => bankFind t.active (dest, none)

/-- A selected active entry counts a hit (R39). -/
def RouteTable.countHit (t : RouteTable) (i : Nat) : RouteTable :=
  match bankEntry t.active i with
  | some e => { t with active := t.active.setIfInBounds i (some { e with hits := satInc e.hits }) }
  | none => t

/-- The number of valid entries of a bank (R51). -/
def bankCount (b : Bank) : Nat := b.toList.countP Option.isSome

/-- The staged valid-entry count after a write (R54's table). -/
def stagedCountAfter (count : Nat) (before after : Option RouteEntry) : Nat :=
  match before, after with
  | none, some _ => count + 1
  | some _, none => count - 1
  | _, _ => count

/-- STAGE-ENTRY of an image in range (R54, R56). -/
def RouteTable.stage (t : RouteTable) (m : RouteImage) : RouteTable :=
  { t with
    staged := t.staged.setIfInBounds m.index.toNat m.entry
    stagedCount := stagedCountAfter t.stagedCount (bankEntry t.staged m.index.toNat) m.entry }

/-- CLEAR-STAGE (R57). -/
def RouteTable.clearStage (t : RouteTable) : RouteTable := { t with staged := Bank.empty, stagedCount := 0 }

/-- The consistency check over entries from index `i` on, `seen` being the keys of the valid entries before (R61). -/
def conflictFrom (gateway : Byte) (seen : List (Byte × Option Byte)) (i : Nat) :
    List (Option RouteEntry) → Option Nat
  | [] => none
  | none :: rest => conflictFrom gateway seen (i + 1) rest
  | some e :: rest =>
    if e.trunkAddress = gateway ∨ e.key ∈ seen then some i
    else conflictFrom gateway (e.key :: seen) (i + 1) rest

/-- The offending staged entry of lowest index (R61). -/
def RouteTable.conflict (t : RouteTable) (gateway : Byte) : Option Nat :=
  conflictFrom gateway [] 0 t.staged.toList

/-- The swap of a successful COMMIT (R62): banks and counts are exchanged, the generation rises by one. -/
def RouteTable.swap (t : RouteTable) : RouteTable :=
  { t with active := t.staged, staged := t.active, activeCount := t.stagedCount, stagedCount := t.activeCount,
           generation := t.generation + 1 }

end Sys2Proof.Machine
end

