-- ==== Sys2Proof/Machine/Ops.lean ====
section
/-! DEFINITION. The named operations over the whole state that the meanings share: access to ports and segments,
the output queue and the arbiter, exchange records and their replies, the sequencers' moves, report events,
management replies, resets. -/

namespace Sys2Proof.Machine

/-- A vector with a function applied to every element. -/
def mapVec {α β : Type} {n : Nat} (f : α → β) (v : Vector α n) : Vector β n :=
  ⟨(v.toList.map f).toArray, by simp⟩

/-! ### Access -/

def State.seg (s : State) : Seg → Segment
  | .a => s.segA
  | .b => s.segB

def State.setSeg (s : State) (x : Seg) (g : Segment) : State :=
  match x with
  | .a => { s with segA := g }
  | .b => { s with segB := g }

def State.modSeg (s : State) (x : Seg) (f : Segment → Segment) : State := s.setSeg x (f (s.seg x))

def State.modTrunk (s : State) (f : Trunk → Trunk) : State := { s with trunk := f s.trunk }

def State.modReporter (s : State) (f : Reporter → Reporter) : State := { s with reporter := f s.reporter }

def State.modRoutes (s : State) (f : RouteTable → RouteTable) : State := { s with routes := f s.routes }

def State.modInputs (s : State) (f : InputBlock → InputBlock) : State := { s with inputs := f s.inputs }

def Segment.modPort (g : Segment) (f : Port → Port) : Segment := { g with port := f g.port }

def State.port (s : State) : PortId → Port
  | .trunk => s.trunk.port
  | .segment x => (s.seg x).port

def State.modPort (s : State) (p : PortId) (f : Port → Port) : State :=
  match p with
  | .trunk => s.modTrunk fun t => { t with port := f t.port }
  | .segment x => s.modSeg x fun g => g.modPort f

def onTrunk : PortId → Bool
  | .trunk => true
  | .segment _ => false

/-- The parity of a line now (R1). -/
def State.parity (s : State) : PortId → Parity
  | .trunk => s.trunk.parity
  | .segment x => (s.seg x).config.parity

/-- The gap limit in force at a restart of the gap timer now (R13). -/
def State.gapLimit (s : State) : PortId → Nat
  | .trunk => trunkGapLimit
  | .segment x => (s.seg x).config.gapLimit.toNat

/-- A command acts only while no hard reset is in progress: the part does not act before its end (R170, log 13). -/
def State.acting (s : State) (act : State → State) : Host.Outcome State Fault Refusal :=
  .next (if s.hardReset.isSome then s else act s)

/-! ### Line levels (R5, R27; log 23) -/

/-- The frame the trunk transmitter sends (R27). -/
def TrunkTx.frame : TrunkTx → Option Frame
  | .idle => none
  | .sending q => some q.frame
  | .reporting f => some f

/-- The level of TTXD `n` bit times after the transmission in progress began; in IDLE it is at mark (R5, R27). -/
def State.trunkLine (s : State) (n : Nat) : Bool := pinLevel s.trunk.parity s.trunk.tx.frame n

/-- The level of xTXD `n` bit times after the transmission in progress began. A transmission runs only while xDE is
high; otherwise, and after a cut, the pin is at mark (R5). -/
def Segment.line (g : Segment) (n : Nat) : Bool := pinLevel g.config.parity (if g.de then g.tx else none) n

/-! ### Exchange table access (R65 to R67) -/

def ExchangeTable.record (t : ExchangeTable) (slot : Slot) : Option Record := t.slots[slot]

def ExchangeTable.setRecord (t : ExchangeTable) (slot : Slot) (r : Record) : ExchangeTable :=
  { t with slots := t.slots.set slot (some r) }

/-- The slot becomes FREE and its record leaves both lists (R67, R79). -/
def ExchangeTable.free (t : ExchangeTable) (slot : Slot) : ExchangeTable :=
  { slots := t.slots.set slot none, admission := t.admission.erase slot, completion := t.completion.erase slot }

def State.setRecord (s : State) (slot : Slot) (r : Record) : State :=
  { s with exchange := s.exchange.setRecord slot r }

def State.freeSlot (s : State) (slot : Slot) : State := { s with exchange := s.exchange.free slot }

def RecordState.isComplete : RecordState → Bool
  | .complete _ => true
  | _ => false

/-- The segments a record names: its segment, or its pending set (R66). -/
def Carriage.names (c : Carriage) (x : Seg) : Bool :=
  match c with
  | .single c => c.segment == x
  | .broadcast c => c.pending.has x

/-- Whether a record stands on a segment (R66). -/
def Record.standsOn (r : Record) (x : Seg) : Bool := !r.state.isComplete && r.carriage.names x

/-- The records standing on a segment, in the order of the admission list (R73). -/
def ExchangeTable.standing (t : ExchangeTable) (x : Seg) : List Slot :=
  t.admission.filter fun slot => match t.record slot with
    | some r => r.standsOn x
    | none => false

/-- The oldest record that waits on a segment: it stands on it and its sequencer does not serve it (R66, R73). -/
def State.oldestWaiting (s : State) (x : Seg) : Option Slot :=
  (s.exchange.standing x).find? fun slot => (s.seg x).current != some slot

/-- Whether some sequencer serves the record of a slot (R66). -/
def State.served (s : State) (slot : Slot) : Bool :=
  s.segA.current == some slot || s.segB.current == some slot

/-- The trunk reply of a completed record, built from its origin (R78). -/
def Record.replyFrame (r : Record) (reply : Reply) : Frame :=
  ⟨r.source, r.dest, reply.kind, r.tag, r.fn, reply.payload⟩

/-! ### The output queue and the arbiter (R23 to R29, R149) -/

/-- The frame of the batch the reporter now has outstanding (R149). -/
def batchFrame (dest gateway : Byte) (payload : List Byte) : Frame := ⟨dest, gateway, .rpt, 0, 0, payload⟩

/-- The reporter is granted the transmitter (R28, R149). -/
def State.grant (s : State) (dest : Byte) : State :=
  let rep := s.reporter.granted
  { s with reporter := rep
           trunk := { s.trunk with tx := .reporting (batchFrame dest s.trunk.address rep.payload) } }

/-- A freed slot of the output queue is filled by the reply of the record that became COMPLETE earliest (R26,
R79). The records of the completion list are COMPLETE; the other cases are never reached (log 21). -/
def State.fillFreedSlot (s : State) : State :=
  match s.exchange.completion with
  | [] => s
  | slot :: _ =>
    match s.exchange.record slot with
    | some r =>
      match r.state with
      | .complete reply =>
        { s with exchange := s.exchange.free slot
                 trunk := { s.trunk with queue := s.trunk.queue ++ [⟨r.replyFrame reply, false⟩] } }
      | _ => s
    | none => s

/-- The arbiter's decision (R28): the queue head first, otherwise the reporter if it has a batch to send, otherwise
the transmitter stays IDLE. It decides nothing while a transmission is in progress. In mode UNSOLICITED a report
destination is always held (R154), so the last case is never reached (log 21). -/
def State.arbitrate (s : State) : State :=
  match s.trunk.tx with
  | .idle =>
    match s.trunk.queue with
    | q :: rest => { s with trunk := { s.trunk with queue := rest, tx := .sending q } }.fillFreedSlot
    | [] =>
      if s.reporter.hasBatch then
        (match s.reporter.destination with
          | some d => s.grant d
          | none => s)
      else s
  | _ => s

/-- A frame enters the output queue at the tail; an IDLE transmitter is decided on at once (R24, R29). -/
def State.enqueue (s : State) (q : QueuedFrame) : State :=
  (s.modTrunk fun t => { t with queue := t.queue ++ [q] }).arbitrate

/-- The output queue holds 8 frames (R23, R25). -/
def State.queueFull (s : State) : Bool := decide (8 ≤ s.trunk.queue.length)

/-- A request whose immediate reply finds the queue full is discarded (R25). -/
def State.countReplyDrop (s : State) : State :=
  s.modTrunk fun t => { t with counters := { t.counters with replyDrop := satInc t.counters.replyDrop } }

/-- An immediate reply to a routed request is offered to the queue (R22, R25). -/
def State.refuseRouted (s : State) (f : Frame) (payload : List Byte) : State :=
  if s.queueFull then s.countReplyDrop
  else s.enqueue ⟨⟨f.src, f.dest, .nak, f.tag, f.fn, payload⟩, false⟩

/-! ### Report events (R123, R131, R138) -/

/-- A report event is offered to the reporter, a lost INPUT event sets its line's lost flag (R132), and the arbiter
is asked (R29, R149). -/
def State.offerEventQuietly (s : State) (e : Event) : State :=
  let s' := { s with reporter := s.reporter.take e }
  match e.subject with
  | .input n =>
    if s.reporter.loses e then
      s'.modInputs fun b => { b with lines := b.lines.set n { b.lines[n] with lost := true } }
    else s'
  | _ => s'

/-- The same outside a soft reset. The arbiter is asked at the event itself, also within a sample instant
(DEDUCED from R29 and R149, unsafe, log 15). -/
def State.offerEvent (s : State) (e : Event) : State := (s.offerEventQuietly e).arbitrate

/-- The event of an entry to LENT (`lent` true) or of a reclaim (R123). -/
def segmentEvent (x : Seg) (lent : Bool) (t : Word) : Event :=
  ⟨.segment x, 1, if lent then .lent else .reclaimed, .absent, t⟩

/-! ### Segment moves that concern the segment alone (R91, R103, R107, R115, R121) -/

/-- Applying a configuration (R107): a change of rate or parity abandons the frame in progress and leaves the
receiver UNQUALIFIED, or closed where the segment is lent (R16). Any pending configuration is gone (R106). -/
def Segment.applyConfig (g : Segment) (c : SegConfig) : Segment :=
  let g' := { g with config := c, pendingConfig := none }
  if c.rate = g.config.rate ∧ c.parity = g.config.parity then g'
  else if g.port.receiver = .closed then g'.modPort Port.hunt
  else g'.modPort Port.reopen

/-- A pending configuration, where held, is applied (R91, R115). -/
def Segment.applyPending (g : Segment) : Segment :=
  match g.pendingConfig with
  | some c => g.applyConfig c
  | none => g

/-- Entry to LENT, steps 1 to 7 (R115). -/
def Segment.toLent (g : Segment) : Segment :=
  { g.applyPending.modPort Port.close with
    drainRequested := false, de := false, responseTimer := none, guardTimer := none, lentTime := some 0,
    hack := true, state := .lent, current := none, tx := none }

/-- Entry to GUARD (R103): the guard timer starts at the guard setting. -/
def Segment.toGuard (g : Segment) : Segment :=
  { g with state := .guard, current := none, responseTimer := none, guardTimer := some g.config.guard.toNat }

/-- Reclaim (R121): RESUME with the guard timer started, HACKx low, the framer open. -/
def Segment.toResume (g : Segment) : Segment :=
  { g.modPort Port.reopen with
    hack := false, lentExpired := false, lentTime := none, guardTimer := some g.config.guard.toNat,
    state := .resume }

/-- Entry to IDLE, first step (R91): timers stopped, a pending configuration applied. -/
def Segment.toIdle (g : Segment) : Segment :=
  { g with state := .idle, guardTimer := none }.applyPending

/-- In GUARD and RESUME a character, a break or a fall while UNQUALIFIED restarts the guard timer (R103, R122). -/
def Segment.restartGuard (g : Segment) : Segment :=
  if g.state = .guard ∨ g.state = .resume then { g with guardTimer := some g.config.guard.toNat } else g

/-- The end of a segment transmission (R94, R104): xDE low, the receiver UNQUALIFIED, the framer open. -/
def Segment.endTransmission (g : Segment) : Segment :=
  { g.modPort Port.reopen with tx := none, de := false }

/-! ### The sequencers and their records -/

/-- The sequencer enters LENT and SEGMENT LENT is offered (R115). -/
def State.enterLent (s : State) (x : Seg) : State :=
  (s.modSeg x Segment.toLent).offerEvent (segmentEvent x true s.timeCounter)

/-- The end of the work on the wire: GUARD, or LENT where drain-requested is set (R98, R102, R116). -/
def State.leaveWork (s : State) (x : Seg) : State :=
  if (s.seg x).drainRequested then s.enterLent x else s.modSeg x Segment.toGuard

/-- A completed record without its place on any segment (R77, R79): no segment tag, no pending set. -/
def Carriage.finished : Carriage → Carriage
  | .single c => .single { c with segTag := none }
  | .broadcast c => .broadcast { c with pending := SegSet.empty }

/-- A record completes (R77 to R79): its reply enters the output queue and it becomes FREE, or with 8 frames queued
it becomes COMPLETE and joins the completion list. -/
def State.completeRecord (s : State) (slot : Slot) (reply : Reply) : State :=
  match s.exchange.record slot with
  | none => s
  | some r =>
    if s.queueFull then
      { s with exchange :=
          { s.exchange.setRecord slot { r with state := .complete reply, carriage := r.carriage.finished } with
            completion := s.exchange.completion ++ [slot] } }
    else (s.freeSlot slot).enqueue ⟨r.replyFrame reply, false⟩

/-- The reply of a BROADCAST record whose pending set is empty (R76). A record that was withdrawn from every
segment has a withdrawal; the very last case is never reached (log 21). -/
def Broadcast.reply (c : Broadcast) : Reply :=
  if !c.delivered.isEmpty then ⟨.rsp, [c.delivered.mask]⟩
  else match c.withdrawn with
    | ⟨_, .lent⟩ :: _ =>
      ⟨.nak, nakLent (((c.withdrawn.filter (·.reason == .lent)).foldl (fun t w => t.insert w.segment)
        SegSet.empty).mask)⟩
    | _ => ⟨.nak, nakAborted⟩

/-- A BROADCAST record after a segment has left its pending set (R75): it completes if none is pending, otherwise
it is ACTIVE while served and QUEUED while not (R66). -/
def State.settleBroadcast (s : State) (slot : Slot) (r : Record) (c : Broadcast) : State :=
  let r' := { r with carriage := .broadcast c, state := if s.served slot then .active else .queued }
  if c.pending.isEmpty then (s.setRecord slot r').completeRecord slot c.reply else s.setRecord slot r'

/-- A segment is withdrawn from a BROADCAST record (R75), or a SINGLE record of the segment completes: the effect of
a line reset (`aborted`) or of patience expiry (`lent`) on one record (R77, R109, R119). -/
def State.takeFromSegment (x : Seg) (reason : WithdrawReason) (s : State) (slot : Slot) : State :=
  match s.exchange.record slot with
  | none => s
  | some r =>
    match r.carriage with
    | .single _ =>
      s.completeRecord slot ⟨.nak, match reason with
        | .lent => nakLent (segMask x)
        | .aborted => nakAborted⟩
    | .broadcast c =>
      s.settleBroadcast slot r
        { c with pending := c.pending.remove x, withdrawn := c.withdrawn ++ [⟨x, reason⟩] }

/-- The sequencer no longer serves a record. -/
def State.release (s : State) (x : Seg) : State := s.modSeg x fun g => { g with current := none }

/-- Patience expiry (R119): lent-expired is set and every record standing on the segment is taken from it, in the
order of the admission list (R80). -/
def State.expirePatience (s : State) (x : Seg) : State :=
  (s.exchange.standing x).foldl (State.takeFromSegment x .lent)
    (s.modSeg x fun g => { g with lentExpired := true })

/-- Whether the lent time of a LENT segment has reached its patience (R119). -/
def Segment.patienceReached (g : Segment) : Bool :=
  g.state == .lent && !g.lentExpired && g.config.patience != 0 &&
    (match g.lentTime with
      | some t => decide (g.config.patience.toNat * 100 ≤ t)
      | none => false)

/-- Patience expiry where the lent time has reached the patience (R119). -/
def State.judgePatience (s : State) (x : Seg) : State := if (s.seg x).patienceReached then s.expirePatience x else s

/-- The frame of an attempt or of a broadcast delivery (R93, R104). -/
def Record.requestFrame (r : Record) (tag : Tag) : Frame := ⟨r.segAddress, 254, .req, tag, r.segFn, r.payload⟩

/-- A record as its service begins (R74, R93, R104). -/
def Record.begin (r : Record) (tag : Tag) : Record :=
  { r with state := .active, attempts := r.attempts + 1,
           carriage := match r.carriage with
             | .single c => .single { c with segTag := some tag }
             | .broadcast c => .broadcast c }

/-- A sequencer as it begins a transmission (R92, R93, R104): xDE high, framer closed, the next tag counted. -/
def Segment.begin (g : Segment) (slot : Slot) (f : Frame) : Segment :=
  { g.modPort Port.close with
    state := .send, current := some slot, tagCounter := g.tagCounter + 1, tx := some f, de := true }

/-- A sequencer in IDLE takes the oldest record that waits on its segment and begins its service (R91, R93, R104);
in any other state it takes none. -/
def State.takeWork (s : State) (x : Seg) : State :=
  if (s.seg x).state = .idle then
    match s.oldestWaiting x with
    | none => s
    | some slot =>
      match s.exchange.record slot with
      | none => s
      | some r =>
        let tag := (s.seg x).tagCounter
        (s.setRecord slot (r.begin tag)).modSeg x fun g => g.begin slot (r.requestFrame tag)
  else s

/-- Entry to IDLE (R91): a pending configuration is applied, then the oldest waiting record is taken. -/
def State.enterIdle (s : State) (x : Seg) : State := (s.modSeg x Segment.toIdle).takeWork x

/-- The two causes of a failed attempt (R99, R100). -/
inductive FailCause where
  | timeout
  | corrupt
  deriving DecidableEq, Repr

/-- The counters of a failed attempt (R99, R100, R111). -/
def SegmentCounters.countFailure (c : SegmentCounters) (cause : FailCause) : SegmentCounters :=
  match cause with
  | .timeout => { c with timeouts := satInc c.timeouts }
  | .corrupt => { c with corrupt := satInc c.corrupt }

/-- A failed attempt of the SINGLE record of a slot (R102): with retries remaining it returns to QUEUED with one
fewer, otherwise it completes with the cause of this last attempt. -/
def State.failRecord (s : State) (x : Seg) (slot : Slot) (cause : FailCause) : State :=
  match s.exchange.record slot with
  | none => s
  | some r =>
    match r.carriage with
    | .broadcast _ => s
    | .single c =>
      if c.retries = 0 then
        s.completeRecord slot ⟨.nak, match cause with
          | .timeout => nakTimeout r.attempts
          | .corrupt => nakCorrupt r.attempts⟩
      else
        (s.setRecord slot { r with
            state := .queued, carriage := .single { c with retries := c.retries - 1, segTag := none } }).modSeg x
          fun g => { g with counters := { g.counters with retries := satInc g.counters.retries } }

/-- An attempt in WAIT fails (R99, R100, R102, R116). -/
def State.failAttempt (s : State) (x : Seg) (cause : FailCause) : State :=
  match (s.seg x).current with
  | none => s
  | some slot =>
    (((s.modSeg x fun g =>
        { g with counters := g.counters.countFailure cause, responseTimer := none, current := none }).failRecord
      x slot cause).leaveWork x)

/-- The sequencer's side of an abort or a line reset of the record it serves (R105, R110): in SEND the frame is
finished on the wire with no record served, in WAIT the work ends at once. -/
def State.dropCurrent (s : State) (x : Seg) : State :=
  if (s.seg x).state = .wait then (s.release x).leaveWork x else s.release x

/-! ### Matching of segment frames (R96 to R98) -/

/-- Whether a good segment frame matches the outstanding attempt: all four conditions of R96. -/
def State.attemptMatch (s : State) (x : Seg) (f : Frame) : Option Slot :=
  let g := s.seg x
  if g.state = .wait then
    match g.current with
    | none => none
    | some slot =>
      match s.exchange.record slot with
      | none => none
      | some r =>
        match r.carriage with
        | .broadcast _ => none
        | .single c =>
          if (f.kind = .rsp ∨ f.kind = .nak) ∧ f.src = r.segAddress ∧ f.dest = 254 ∧ c.segTag = some f.tag
          then some slot else none
  else none

/-- The reply a matching answer gives (R77): a station's RSP in full, of a station's NAK the first byte. -/
def answerReply (f : Frame) : Reply :=
  match f.kind with
  | .rsp => ⟨.rsp, f.payload⟩
  | _ => ⟨.nak, nakStation (f.payload.headD 0)⟩

/-- A delivery is taken from the framer's hand (log 3). -/
def State.takeDelivery (s : State) (p : PortId) (d : Delivery) : State :=
  s.modPort p fun q => { q with deliveries := q.deliveries.erase d }

/-- A good segment frame is judged at its delivery (R96): a match ends the attempt (R98); any other frame is stray
(R97). In SEND and LENT no frame is delivered. -/
def State.deliverOnSegment (s : State) (x : Seg) (f : Frame) : State :=
  let s := s.takeDelivery (.segment x) (.frame f)
  match s.attemptMatch x f with
  | some slot =>
    ((s.modSeg x fun g => { g with responseTimer := none, current := none }).completeRecord slot
      (answerReply f)).leaveWork x
  | none =>
    if (s.seg x).state = .send ∨ (s.seg x).state = .lent then s
    else s.modSeg x fun g => { g with counters := { g.counters with stray := satInc g.counters.stray } }

/-! ### Trunk deliveries and management commands (R20, R21, R157 to R159) -/

/-- The delivery of a good trunk frame (R20). `comes` says whether the event the command names can come with this
frame; if it cannot, nothing happens (log 4). While a soft reset is pending the frame is discarded (R21). -/
def State.trunkDelivery (s : State) (f : Frame) (comes : Bool) (act : State → State) :
    Host.Outcome State Fault Refusal :=
  s.acting fun s =>
    if comes then
      let s := s.takeDelivery .trunk (.frame f)
      if s.trunk.softResetPending then s else act s
    else s

/-- The frame of a management command (R157): a REQ to the gateway address. -/
def State.requestFrame (s : State) (kind : FrameKind) (fn : Byte) (r : Request) : Frame :=
  ⟨s.trunk.address, r.src, kind, r.tag, fn, r.payload⟩

/-- A management command is taken (R157, R158): a full output queue discards it before anything else is judged. -/
def State.management (s : State) (fn : Byte) (r : Request) (judge : State → State) :
    Host.Outcome State Fault Refusal :=
  s.trunkDelivery (s.requestFrame .req fn r) r.ok fun s => if s.queueFull then s.countReplyDrop else judge s

/-- The reply frame of a management command (R157). -/
def State.replyFrame (s : State) (kind : FrameKind) (fn : Byte) (r : Request) (payload : List Byte) : Frame :=
  ⟨r.src, s.trunk.address, kind, r.tag, fn, payload⟩

/-- The RSP of an executed command enters the queue. -/
def State.respond (s : State) (fn : Byte) (r : Request) (payload : List Byte) : State :=
  s.enqueue ⟨s.replyFrame .rsp fn r payload, false⟩

/-- The NAK of a refused command enters the queue. -/
def State.refuse (s : State) (fn : Byte) (r : Request) (payload : List Byte) : State :=
  s.enqueue ⟨s.replyFrame .nak fn r payload, false⟩

/-! ### Resets (R33, R88, R112, R124, R137, R156, R169, R170) -/

/-- The settings the straps give (R18). -/
def strapAddress (p : Straps) : Byte := if p.ads = 0 ∨ p.ads = 255 then 254 else p.ads

def strapParity (p : Straps) : Parity :=
  match p.tps.toNat with
  | 1 => .even
  | 2 => .odd
  | _ => .none

def strapsFaulty (p : Straps) : Bool := p.ads == 0 || p.ads == 255 || p.tps == 3

/-- The trunk port at the end of a hard reset (R18, R33). -/
def Trunk.afterHardReset (p : Straps) : Trunk :=
  { Trunk.reset with
    address := strapAddress p, rate := p.trs, parity := strapParity p, strapFault := strapsFaulty p }

def resetCauseOf : HardCause → ResetCause
  | .power => .power
  | .pin => .pin

/-- A segment at a soft reset (R112, R124): a lent segment stays lent, a draining one enters LENT, any other is
IDLE. The receiver of a segment that is LENT stays closed (DEDUCED from R16, safe, log 17). -/
def Segment.softReset (g : Segment) : Segment :=
  let cleared : Segment :=
    { g with
      counters := SegmentCounters.zero, current := none, responseTimer := none, guardTimer := none, tx := none,
      de := false, port := { Port.reset with receiver := g.port.receiver } }
  if g.state = .lent then
    { cleared.applyPending.modPort Port.close with drainRequested := false }
  else if g.drainRequested then { cleared with lentExpired := false }.toLent
  else
    { cleared.applyPending.modPort Port.reopen with
      state := .idle, drainRequested := false, lentExpired := false, lentTime := none, hack := false }

/-- Whether the segment enters LENT at a soft reset from a drain (R124, R169 step 7). -/
def Segment.lentAtSoftReset (g : Segment) : Bool := g.state != .lent && g.drainRequested

/-- An input line at a reset of the run (R137): run count 0, lost flag clear, baseline due. -/
def InputLine.softReset (l : InputLine) : InputLine := { l with run := 0, lost := false, baselineDue := true }

def HoldLine.clearRun (h : HoldLine) : HoldLine := { h with run := 0 }

def InputBlock.softReset (b : InputBlock) : InputBlock :=
  { b with lines := mapVec InputLine.softReset b.lines, holdA := b.holdA.clearRun, holdB := b.holdB.clearRun }

/-- The trunk port at a soft reset (R33, R169 step 1). -/
def Trunk.softReset (t : Trunk) : Trunk :=
  { t with port := Port.reset, counters := TrunkCounters.zero, queue := [], tx := .idle, softResetPending := false }

/-- SEGMENT LENT of a segment that entered LENT at the soft reset, without asking the arbiter (R169 step 7). -/
def State.offerLentAtReset (before : Segment) (x : Seg) (s : State) : State :=
  if before.lentAtSoftReset then s.offerEventQuietly (segmentEvent x true s.timeCounter) else s

/-- The soft reset takes effect (R169), and the arbiter decides on the state after it (R30). -/
def State.softReset (s : State) : State :=
  let s' : State :=
    { s with
      trunk := s.trunk.softReset
      exchange := ExchangeTable.reset
      segA := s.segA.softReset
      segB := s.segB.softReset
      inputs := s.inputs.softReset
      reporter := s.reporter.softReset s.timeCounter
      resetCause := .command }
  (State.offerLentAtReset s.segB .b (State.offerLentAtReset s.segA .a s')).arbitrate

/-- The transmission in progress is the RSP to which a pending soft reset is bound (R30, R167). -/
def State.resetBound (s : State) : Bool :=
  s.trunk.softResetPending && (match s.trunk.tx with
    | .sending q => q.bindsReset
    | _ => false)

end Sys2Proof.Machine
end

