-- ==== Sys2Proof/Machine/Dispatching.lean ====
section
/-! DEFINITION. Family: deliveries of good trunk frames that are no management commands. ROUTED_REQUEST, UNEXPECTED,
PENDING_SOFT_RESET_DISCARD, RACK. -/

namespace Sys2Proof.Machine

/-! ### Admission (R43, R44, R68 to R72) -/

/-- The duplicate check (R69): some record that is not FREE has the request's source and tag. -/
def ExchangeTable.duplicate (t : ExchangeTable) (source : Byte) (tag : Tag) : Bool :=
  t.slots.toList.any fun r => match r with
    | some r => r.source == source && r.tag == tag
    | none => false

/-- The lowest-numbered FREE slot (R72). -/
def ExchangeTable.freeSlotOf (t : ExchangeTable) : Option Slot :=
  ([0, 1, 2, 3, 4, 5, 6, 7, 8, 9, 10, 11, 12, 13, 14, 15] : List Slot).find? fun i => (t.record i).isNone

/-- The segments an offer would stand on (R71). -/
def Carriage.segments : Carriage → SegSet
  | .single c => SegSet.empty.insert c.segment
  | .broadcast c => c.pending

/-- A segment has reached its depth (R71). -/
def State.atDepth (s : State) (x : Seg) : Bool :=
  decide ((s.seg x).config.depth.toNat ≤ (s.exchange.standing x).length)

/-- The withdrawal of a lent-expired segment from a FANOUT offer (R70). -/
def State.withdrawIfExpired (s : State) (x : Seg) (c : Broadcast) : Broadcast :=
  if (s.seg x).lentExpired then
    { c with pending := c.pending.remove x, withdrawn := c.withdrawn ++ [⟨x, .lent⟩] }
  else c

/-- The offer an entry makes for a request (R43, R44, R48), the lent-expired segments already withdrawn from a
FANOUT offer, A before B (R70). -/
def State.offer (s : State) (f : Frame) (e : RouteEntry) (fanout : Bool) : Record :=
  { state := .queued, source := f.src, tag := f.tag, dest := f.dest, fn := f.fn,
    segAddress := if fanout then 0 else e.segAddress, segFn := e.remap.getD f.fn, payload := f.payload,
    attempts := 0,
    carriage :=
      if fanout then .broadcast (s.withdrawIfExpired .b (s.withdrawIfExpired .a ⟨SegSet.both, SegSet.empty, []⟩))
      else .single ⟨e.segment, e.timeout, e.retryLimit.toNat, none⟩ }

/-- The lent-expired check (R70): the mask of NAK LENT where it refuses. -/
def State.lentRefusal (s : State) (c : Carriage) : Option Byte :=
  match c with
  | .single c => if (s.seg c.segment).lentExpired then some (segMask c.segment) else none
  | .broadcast c => if c.pending.isEmpty then some 3 else none

/-- The three checks of R68 in order: the payload of the immediate reply, if one refuses. -/
def State.admissionRefusal (s : State) (r : Record) : Option (List Byte) :=
  if s.exchange.duplicate r.source r.tag then some nakDuplicate
  else match s.lentRefusal r.carriage with
    | some mask => some (nakLent mask)
    | none =>
      let on := r.carriage.segments
      if s.exchange.freeSlotOf.isNone || (on.a && s.atDepth .a) || (on.b && s.atDepth .b) then
        some (nakBusy on.mask)
      else none

/-- A sequencer that a new record stands on is told of it (R72, R91). -/
def State.tellNew (s : State) (on : SegSet) (x : Seg) : State := if on.has x then s.takeWork x else s

/-- Admission (R72): the lowest FREE slot is taken, the record joins the admission list at the tail, and each
sequencer it stands on is told. -/
def State.admitRecord (s : State) (r : Record) : State :=
  match s.exchange.freeSlotOf with
  | none => s
  | some slot =>
    let s' := { s with exchange :=
      { s.exchange.setRecord slot r with admission := s.exchange.admission ++ [slot] } }
    (s'.tellNew r.carriage.segments .a).tellNew r.carriage.segments .b

/-- The exchange table judges an offer and admits it or names the immediate reply (R68). -/
def State.judgeOffer (s : State) (f : Frame) (r : Record) : State :=
  match s.admissionRefusal r with
  | some payload => s.refuseRouted f payload
  | none => s.admitRecord r

/-- A request is discarded without reply (R22, R41, R46). -/
def State.countRouteDrop (s : State) : State :=
  s.modTrunk fun t => { t with counters := { t.counters with routeDrop := satInc t.counters.routeDrop } }

/-- The action of a selected entry (R43 to R46). -/
def State.act (s : State) (f : Frame) (e : RouteEntry) : State :=
  match e.action with
  | .forward => s.judgeOffer f (s.offer f e false)
  | .fanout => s.judgeOffer f (s.offer f e true)
  | .refuse => s.refuseRouted f (nakRefused e.refuseDetail)
  | .drop => s.countRouteDrop

/-- A miss (R41). -/
def State.miss (s : State) (f : Frame) : State :=
  match s.routes.missPolicy with
  | .refuse => s.refuseRouted f nakNoRoute
  | .drop => s.countRouteDrop

/-- A routed request is looked up (R37), counts its hit whatever follows (R39) and is acted on, in one event
(R22, R38). -/
def State.route (s : State) (f : Frame) : State :=
  match s.routes.lookup f.dest f.fn with
  | none => s.miss f
  | some i =>
    match bankEntry s.routes.active i with
    | none => s.miss f
    | some e => (s.modRoutes fun t => t.countHit i).act f e

/-- ROUTED_REQUEST (R20, R22): a good trunk REQ for another address than the gateway's. -/
def execRoutedRequest (f : Frame) (s : State) : Host.Outcome State Fault Refusal :=
  s.trunkDelivery f (f.goodOnTrunk && f.kind == .req && f.dest != s.trunk.address) fun s => s.route f

/-! ### The other deliveries -/

/-- Neither a REQ nor a RACK to the gateway address: no place on the trunk (R20). -/
def unexpectedAt (address : Byte) (f : Frame) : Bool :=
  match f.kind with
  | .req => false
  | .rack => f.dest != address
  | _ => true

/-- UNEXPECTED (R20). -/
def execUnexpected (f : Frame) (s : State) : Host.Outcome State Fault Refusal :=
  s.trunkDelivery f (f.goodOnTrunk && unexpectedAt s.trunk.address f) fun s =>
    s.modTrunk fun t => { t with counters := { t.counters with unexpected := satInc t.counters.unexpected } }

/-- PENDING_SOFT_RESET_DISCARD (R21): while a soft reset is pending a good trunk frame is discarded unclassified.
With none pending the event does not come (log 4). -/
def execPendingSoftResetDiscard (f : Frame) (s : State) : Host.Outcome State Fault Refusal :=
  s.trunkDelivery f (f.goodOnTrunk && s.trunk.softResetPending) fun s => s

/-- A RACK matches in UNSOLICITED mode when its function is the number of the outstanding batch (R151). -/
def Reporter.rackMatches (rep : Reporter) (batch : Byte) : Bool :=
  rep.mode == .unsolicited && rep.outstanding == some batch

/-- RACK (R151): a match acknowledges the batch and the arbiter is asked; any other is ignored and counted. Its
payload is not judged (R151). -/
def execRack (batch : Byte) (r : Request) (s : State) : Host.Outcome State Fault Refusal :=
  s.trunkDelivery (s.requestFrame .rack batch r) r.ok fun s =>
    if s.reporter.rackMatches batch then (s.modReporter Reporter.acknowledge).arbitrate
    else s.modTrunk fun t =>
      { t with counters := { t.counters with rackIgnored := satInc t.counters.rackIgnored } }

end Sys2Proof.Machine
end

