-- ==== Sys2Proof/Machine/InputEvents.lean ====
section
/-! DEFINITION. Family: the input block's event. SAMPLE_INSTANT. -/

namespace Sys2Proof.Machine

/-- The run of a line reaches its threshold with one more sample (R128): the threshold is the qualification count
plus 1. -/
def InputLine.accepts (l : InputLine) (level : Bool) : Bool :=
  !l.baselineDue && level != l.accepted && decide (l.qualification.toNat + 1 ≤ l.run + 1)

/-- A line takes a sample (R126, R128, R130): its raw level, then the baseline where due, otherwise the
qualification run. -/
def InputLine.sample (l : InputLine) (level : Bool) : InputLine :=
  if l.baselineDue then { l with raw := level, accepted := level, run := 0, baselineDue := false }
  else if level = l.accepted then { l with raw := level, run := 0 }
  else if l.accepts level then { l with raw := level, accepted := level, run := 0 }
  else { l with raw := level, run := l.run + 1 }

/-- Whether the edge select covers a change to `high` (R131). -/
def EdgeSelect.covers (e : EdgeSelect) (high : Bool) : Bool :=
  match e with
  | .none => false
  | .rise => high
  | .fall => !high
  | .both => true

/-- The event of an accepted change (R131). -/
def inputEvent (n : Fin 16) (cls : Fin 4) (high : Bool) (t : Word) : Event :=
  ⟨.input n, cls, if high then .rise else .fall, .level high, t⟩

/-- One input line at a sample instant (R126 step 1). -/
def State.sampleLine (inputs : Word) (s : State) (n : Fin 16) : State :=
  let level := inputs.getLsbD n.val
  let l := s.inputs.lines[n]
  let s := s.modInputs fun b => { b with lines := b.lines.set n (l.sample level) }
  if l.accepts level && l.edge.covers level then s.offerEvent (inputEvent n l.cls level s.timeCounter) else s

/-- The sixteen lines in ascending order. -/
def inputLines : List (Fin 16) := [0, 1, 2, 3, 4, 5, 6, 7, 8, 9, 10, 11, 12, 13, 14, 15]

/-- A hold line takes a sample (R113): the third in a row at the other level is qualified. -/
def HoldLine.sample (h : HoldLine) (level : Bool) : HoldLine :=
  if level = h.asserted then { h with run := 0 }
  else if 2 ≤ h.run then ⟨level, 0⟩
  else { h with run := h.run + 1 }

/-- Whether a sample qualifies a change of a hold line (R113). -/
def HoldLine.qualifies (h : HoldLine) (level : Bool) : Bool := level != h.asserted && decide (2 ≤ h.run)

/-- A qualified assertion (R114): LENT at once from IDLE, GUARD and RESUME, drain-requested in SEND and WAIT. It does
not reach a sequencer in LENT. -/
def State.assertHold (s : State) (x : Seg) : State :=
  match (s.seg x).state with
  | .idle | .guard | .resume => s.enterLent x
  | .send | .wait => s.modSeg x fun g => { g with drainRequested := true }
  | .lent => s

/-- Reclaim (R121): RESUME, and SEGMENT RECLAIMED is offered. -/
def State.reclaim (s : State) (x : Seg) : State :=
  (s.modSeg x Segment.toResume).offerEvent (segmentEvent x false s.timeCounter)

/-- A qualified deassertion (R117, R121): reclaim in LENT, otherwise drain-requested is cleared where it is set. -/
def State.deassertHold (s : State) (x : Seg) : State :=
  if (s.seg x).state = .lent then s.reclaim x else s.modSeg x fun g => { g with drainRequested := false }

def InputBlock.hold (b : InputBlock) : Seg → HoldLine
  | .a => b.holdA
  | .b => b.holdB

def InputBlock.setHold (b : InputBlock) (x : Seg) (h : HoldLine) : InputBlock :=
  match x with
  | .a => { b with holdA := h }
  | .b => { b with holdB := h }

/-- One hold line at a sample instant (R126 step 2). -/
def State.sampleHold (s : State) (x : Seg) (level : Bool) : State :=
  let h := s.inputs.hold x
  let s := s.modInputs fun b => b.setHold x (h.sample level)
  if h.qualifies level then (if level then s.assertHold x else s.deassertHold x) else s

/-- The sample timer begins its next period (R125). -/
def InputBlock.nextPeriod (b : InputBlock) : InputBlock := { b with sampleTimer := periodHalfMs b.period }

/-- SAMPLE_INSTANT (R126): IN0 to IN15 in ascending order, then HREQA, then HREQB. -/
def execSampleInstant (inputs : Word) (hreqA hreqB : Bool) (s : State) : Host.Outcome State Fault Refusal :=
  s.acting fun s =>
    (((inputLines.foldl (State.sampleLine inputs) s).sampleHold .a hreqA).sampleHold .b hreqB).modInputs
      InputBlock.nextPeriod

end Sys2Proof.Machine
end

