-- ==== Sys2Proof/Machine/LineEvents.lean ====
section
/-! DEFINITION. Family: line events. IDLE_QUALIFICATION, FALL_TO_SPACE, ARRIVAL, BREAK, BREAK_END,
GAP_TIMER_EXPIRY. -/

namespace Sys2Proof.Machine

/-- The guard timer of a segment port's sequencer restarts where it runs (R103, R122); the trunk has none. -/
def State.restartGuard (s : State) : PortId → State
  | .trunk => s
  | .segment x => s.modSeg x Segment.restartGuard

/-- IDLE_QUALIFICATION (R3). -/
def execIdleQualification (p : PortId) (s : State) : Host.Outcome State Fault Refusal :=
  s.acting fun s => s.modPort p Port.qualify

/-- FALL_TO_SPACE (R3, R103): in UNQUALIFIED the wait for idle restarts, and with it a guard timer that runs; in
READY a start bit begins (log 6). -/
def execFallToSpace (p : PortId) (startHolds : Bool) (s : State) : Host.Outcome State Fault Refusal :=
  s.acting fun s =>
    if (s.port p).receiver = .unqualified then s.restartGuard p else s.modPort p (Port.fall startHolds)

/-- ARRIVAL (R3, R11, R12, R14, R15): the receiver judges the character and hands it to the framer; in GUARD and
RESUME the guard timer restarts (R103). A receiver with no start bit taken hands over nothing (log 4, log 5). -/
def execArrival (p : PortId) (c : RawChar) (s : State) : Host.Outcome State Fault Refusal :=
  s.acting fun s =>
    if (s.port p).hearing then
      (s.modPort p (Port.arrive (onTrunk p) (s.gapLimit p) (s.parity p) c)).restartGuard p
    else s

/-- BREAK (R4, R14, R31, R103). -/
def execLineBreak (p : PortId) (s : State) : Host.Outcome State Fault Refusal :=
  s.acting fun s => if (s.port p).hearing then (s.modPort p Port.takeBreak).restartGuard p else s

/-- BREAK_END (R4). -/
def execBreakEnd (p : PortId) (s : State) : Host.Outcome State Fault Refusal :=
  s.acting fun s => s.modPort p Port.endBreak

/-- GAP_TIMER_EXPIRY (R13). -/
def execGapTimerExpiry (p : PortId) (s : State) : Host.Outcome State Fault Refusal :=
  s.acting fun s => s.modPort p Port.gapExpire

end Sys2Proof.Machine
end

