-- ==== Sys2Proof/Machine/Management.lean ====
section
/-! DEFINITION. Family: management commands (R157 to R167). Every meaning goes through `State.management`, which
discards on a full queue before anything is judged (R158 step 1); a wrong length, then the first field out of range
in offset order, refuses. -/

namespace Sys2Proof.Machine

/-- UNKNOWN (R158 step 2): a function outside the command table. A function of the table is not this event (log 4). -/
def execUnknown (fn : Byte) (r : Request) (s : State) : Host.Outcome State Fault Refusal :=
  if managementFunctions.contains fn then .next s
  else s.management fn r fun s => s.refuse fn r nakUnknown

/-! ### Management unit: READ-STATUS, READ-COUNTERS, GATEWAY-RESET -/

/-- The number of records in a state (R86). -/
def ExchangeTable.count (t : ExchangeTable) (p : Record → Bool) : Nat :=
  t.slots.toList.countP fun r => match r with
    | some r => p r
    | none => false

/-- The flag byte of a segment in the status record (R179). -/
def Segment.statusFlags (g : Segment) : Byte := flagByte [(g.pendingConfig.isSome, 0), (g.lentExpired, 2)]

/-- The 22-byte status record (R162, R179). -/
def State.statusRecord (s : State) : List Byte :=
  [s.trunk.address, flagByte [(s.trunk.strapFault, 0)] ||| (causeCode s.resetCause <<< 4)] ++
  wordBytes s.timeCounter ++ wordBytes s.routes.generation ++
  [byteOf s.routes.activeCount, byteOf s.routes.stagedCount, missCode s.routes.missPolicy,
    byteOf (s.exchange.slots.toList.countP Option.isNone),
    byteOf (s.exchange.count fun r => r.state == .queued),
    byteOf (s.exchange.count fun r => r.state == .active),
    byteOf (s.exchange.count fun r => r.state.isComplete),
    seqStateCode s.segA.state, s.segA.statusFlags, seqStateCode s.segB.state, s.segB.statusFlags,
    modeCode s.reporter.mode, reporterStateCode s.reporter.state, s.reporter.outstanding.getD 0,
    byteOf s.reporter.occupancy, flagByte [(s.reporter.hasOverflow, 0)]]

/-- READ-STATUS, function 01h (R162). -/
def execReadStatus (r : Request) (s : State) : Host.Outcome State Fault Refusal :=
  s.management 0x01 r fun s => match r.payload with
    | [] => s.respond 0x01 r s.statusRecord
    | _ => s.refuse 0x01 r nakLength

/-- The port a READ-COUNTERS names (R165). -/
def portOf (b : Byte) : Option PortId :=
  match b.toNat with
  | 0 => some .trunk
  | 1 => some (.segment .a)
  | 2 => some (.segment .b)
  | _ => none

/-- The eleven counters of a port in the order of R165. -/
def State.portCounters (s : State) : PortId → List Word
  | .trunk => s.trunk.port.counters.list ++ s.trunk.counters.list
  | .segment x => (s.seg x).port.counters.list ++ (s.seg x).counters.list

/-- The eleven counters of a port are zeroed (R165). -/
def State.clearCounters (s : State) (p : PortId) : State :=
  let s := s.modPort p fun q => { q with counters := FramerCounters.zero }
  match p with
  | .trunk => s.modTrunk fun t => { t with counters := TrunkCounters.zero }
  | .segment x => s.modSeg x fun g => { g with counters := SegmentCounters.zero }

/-- READ-COUNTERS, function 02h (R165). -/
def execReadCounters (r : Request) (s : State) : Host.Outcome State Fault Refusal :=
  s.management 0x02 r fun s => match r.payload with
    | [port, clear] =>
      match portOf port with
      | none => s.refuse 0x02 r (nakRange 0)
      | some p =>
        if 1 < clear.toNat then s.refuse 0x02 r (nakRange 1)
        else
          let s' := s.respond 0x02 r (counterBlock port (s.portCounters p))
          if clear = 1 then s'.clearCounters p else s'
    | _ => s.refuse 0x02 r nakLength

/-- GATEWAY-RESET, function 7Fh (R167): its RSP enters the queue and the soft reset is pending, bound to it. -/
def execGatewayReset (r : Request) (s : State) : Host.Outcome State Fault Refusal :=
  s.management 0x7F r fun s => match r.payload with
    | [] =>
      (s.enqueue ⟨s.replyFrame .rsp 0x7F r [], true⟩).modTrunk fun t => { t with softResetPending := true }
    | _ => s.refuse 0x7F r nakLength

/-! ### Route table: STAGE-ENTRY, CLEAR-STAGE, READ-ENTRY, COMMIT, SET-MISS-POLICY -/

/-- STAGE-ENTRY, function 10h (R54, R55, R56). -/
def execStageEntry (r : Request) (s : State) : Host.Outcome State Fault Refusal :=
  s.management 0x10 r fun s => match r.payload with
    | [i, a, t, f, fl, sa, rm, tmo, rl, rd] =>
      let m : RouteImage := ⟨i, a, t, f, fl, sa, rm, tmo, rl, rd⟩
      match m.outOfRange with
      | some offset => s.refuse 0x10 r (nakRange offset)
      | none =>
        let s := s.modRoutes fun t => t.stage m
        s.respond 0x10 r [i, byteOf s.routes.stagedCount]
    | _ => s.refuse 0x10 r nakLength

/-- CLEAR-STAGE, function 11h (R57). -/
def execClearStage (r : Request) (s : State) : Host.Outcome State Fault Refusal :=
  s.management 0x11 r fun s => match r.payload with
    | [] => (s.modRoutes RouteTable.clearStage).respond 0x11 r []
    | _ => s.refuse 0x11 r nakLength

/-- READ-ENTRY, function 12h (R58). -/
def execReadEntry (r : Request) (s : State) : Host.Outcome State Fault Refusal :=
  s.management 0x12 r fun s => match r.payload with
    | [bank, index] =>
      match firstOutOfRange [(0, decide (bank.toNat ≤ 1)), (1, decide (index.toNat < 48))] with
      | some offset => s.refuse 0x12 r (nakRange offset)
      | none =>
        s.respond 0x12 r (entryImage index
          (bankEntry (if bank = 0 then s.routes.active else s.routes.staged) index.toNat))
    | _ => s.refuse 0x12 r nakLength

/-- COMMIT, function 13h (R60 to R62): stale, then conflict, then swap. -/
def execCommit (r : Request) (s : State) : Host.Outcome State Fault Refusal :=
  s.management 0x13 r fun s => match r.payload with
    | [hi, lo] =>
      if wordOf hi lo ≠ s.routes.generation then s.refuse 0x13 r (nakStale s.routes.generation)
      else match s.routes.conflict s.trunk.address with
        | some i => s.refuse 0x13 r (nakConflict (byteOf i))
        | none =>
          let s := s.modRoutes RouteTable.swap
          s.respond 0x13 r (wordBytes s.routes.generation)
    | _ => s.refuse 0x13 r nakLength

/-- SET-MISS-POLICY, function 14h (R42). -/
def execSetMissPolicy (r : Request) (s : State) : Host.Outcome State Fault Refusal :=
  s.management 0x14 r fun s => match r.payload with
    | [code] =>
      match missOf code with
      | none => s.refuse 0x14 r (nakRange 0)
      | some p => (s.modRoutes fun t => { t with missPolicy := p }).respond 0x14 r [code]
    | _ => s.refuse 0x14 r nakLength

/-! ### Exchange table: READ-EXCHANGES, ABORT-EXCHANGE -/

/-- READ-EXCHANGES, function 20h (R85). -/
def execReadExchanges (r : Request) (s : State) : Host.Outcome State Fault Refusal :=
  s.management 0x20 r fun s => match r.payload with
    | [] => s.respond 0x20 r (s.exchange.slots.toList.flatMap slotSummary)
    | _ => s.refuse 0x20 r nakLength

/-- The slot of the QUEUED or ACTIVE record with a source and tag (R81). -/
def ExchangeTable.abortable (t : ExchangeTable) (source tag : Byte) : Option Slot :=
  ([0, 1, 2, 3, 4, 5, 6, 7, 8, 9, 10, 11, 12, 13, 14, 15] : List Slot).find? fun i => match t.record i with
    | some r => r.source == source && r.tag.zeroExtend 8 == tag && !r.state.isComplete
    | none => false

/-- The record completes NAK ABORTED and the sequencers serving it are told (R82, R105). -/
def State.abort (s : State) (slot : Slot) : State :=
  let s' := s.completeRecord slot ⟨.nak, nakAborted⟩
  let s' := if s.segA.current = some slot then s'.dropCurrent .a else s'
  if s.segB.current = some slot then s'.dropCurrent .b else s'

/-- ABORT-EXCHANGE, function 21h (R81, R82): its RSP first, then the NAK ABORTED (R80). -/
def execAbortExchange (r : Request) (s : State) : Host.Outcome State Fault Refusal :=
  s.management 0x21 r fun s => match r.payload with
    | [source, tag] =>
      match firstOutOfRange [(0, sourceOk source), (1, decide (tag.toNat ≤ 31))] with
      | some offset => s.refuse 0x21 r (nakRange offset)
      | none =>
        match s.exchange.abortable source tag with
        | none => s.refuse 0x21 r (nakRange 0)
        | some slot => (s.respond 0x21 r [byteOf slot.val]).abort slot
    | _ => s.refuse 0x21 r nakLength

/-! ### Sequencers: LINE-RESET, SET-SEGMENT, READ-SEGMENT -/

/-- Steps 2 and 3 of LINE-RESET (R109, R110): every record standing on the segment completes or has it withdrawn,
in admission order, then the sequencer finishes its side. -/
def State.lineReset (s : State) (x : Seg) : State :=
  ((s.exchange.standing x).foldl (State.takeFromSegment x .aborted) (s.release x)).dropCurrent x

/-- LINE-RESET, function 22h (R109). -/
def execLineReset (r : Request) (s : State) : Host.Outcome State Fault Refusal :=
  s.management 0x22 r fun s => match r.payload with
    | [segment] =>
      match segOf segment with
      | none => s.refuse 0x22 r (nakRange 0)
      | some x => (s.respond 0x22 r [byteOf (s.exchange.standing x).length]).lineReset x
    | _ => s.refuse 0x22 r nakLength

/-- The first field of a SET-SEGMENT out of range (R106). -/
def segmentOutOfRange (segment rate parity gap guard depth : Byte) : Option Byte :=
  firstOutOfRange [
    (0, (segOf segment).isSome),
    (1, decide (rate.toNat ≤ 7)),
    (2, (parityOf parity).isSome),
    (3, decide (2 ≤ gap.toNat ∧ gap.toNat ≤ 15)),
    (4, decide (1 ≤ guard.toNat ∧ guard.toNat ≤ 15)),
    (5, decide (1 ≤ depth.toNat ∧ depth.toNat ≤ 16))]

/-- A configuration is set (R106, R107): applied at once in IDLE or LENT, where a lent time at or above the new
patience is a patience expiry (R119); stored as pending in the other states. -/
def State.setConfig (s : State) (x : Seg) (c : SegConfig) : State :=
  if (s.seg x).state = .idle ∨ (s.seg x).state = .lent then (s.modSeg x fun g => g.applyConfig c).judgePatience x
  else s.modSeg x fun g => { g with pendingConfig := some c }

/-- SET-SEGMENT, function 23h (R106): status 0 applied, 1 pending. -/
def execSetSegment (r : Request) (s : State) : Host.Outcome State Fault Refusal :=
  s.management 0x23 r fun s => match r.payload with
    | [segment, rate, parity, gap, guard, depth, patience] =>
      match segmentOutOfRange segment rate parity gap guard depth, segOf segment, parityOf parity with
      | some offset, _, _ => s.refuse 0x23 r (nakRange offset)
      | none, some x, some par =>
        let now := (s.seg x).state = .idle ∨ (s.seg x).state = .lent
        (s.respond 0x23 r [if now then 0 else 1]).setConfig x
          ⟨rate.setWidth 3, par, gap, guard, depth, patience⟩
      | none, _, _ => s
    | _ => s.refuse 0x23 r nakLength

/-- The 17 bytes of READ-SEGMENT (R108, R176). -/
def State.segmentRecord (s : State) (x : Seg) : List Byte :=
  let g := s.seg x
  [segMask x] ++ g.config.bytes ++
    (match g.pendingConfig with
      | some c => c.bytes
      | none => List.replicate 6 0) ++
    [flagByte [(g.pendingConfig.isSome, 0), (g.drainRequested, 1), (g.lentExpired, 2)],
      seqStateCode g.state, byteOf (s.exchange.standing x).length, g.tagCounter.zeroExtend 8]

/-- READ-SEGMENT, function 24h (R108). -/
def execReadSegment (r : Request) (s : State) : Host.Outcome State Fault Refusal :=
  s.management 0x24 r fun s => match r.payload with
    | [segment] =>
      match segOf segment with
      | none => s.refuse 0x24 r (nakRange 0)
      | some x => s.respond 0x24 r (s.segmentRecord x)
    | _ => s.refuse 0x24 r nakLength

/-! ### Input block: READ-INPUTS, SET-INPUT, SET-SAMPLE-PERIOD -/

/-- The 6 bytes of READ-INPUTS (R136, R177). -/
def InputBlock.levels (b : InputBlock) : List Byte :=
  wordBytes (lineSet (b.lines.toList.map (·.accepted))) ++ wordBytes (lineSet (b.lines.toList.map (·.raw))) ++
    wordBytes (lineSet (b.lines.toList.map (·.lost)))

/-- Every lost flag is cleared (R132). -/
def InputBlock.clearLost (b : InputBlock) : InputBlock :=
  { b with lines := mapVec (fun l => { l with lost := false }) b.lines }

/-- READ-INPUTS, function 30h (R136). -/
def execReadInputs (r : Request) (s : State) : Host.Outcome State Fault Refusal :=
  s.management 0x30 r fun s => match r.payload with
    | [clear] =>
      if 1 < clear.toNat then s.refuse 0x30 r (nakRange 0)
      else
        let s' := s.respond 0x30 r s.inputs.levels
        if clear = 1 then s'.modInputs InputBlock.clearLost else s'
    | _ => s.refuse 0x30 r nakLength

/-- The configuration of a line is replaced (R133). -/
def InputBlock.configure (b : InputBlock) (n : Nat) (q : BitVec 4) (e : EdgeSelect) (c : Fin 4) : InputBlock :=
  match b.lines[n]? with
  | some l => { b with lines := b.lines.setIfInBounds n { l with qualification := q, edge := e, cls := c } }
  | none => b

/-- SET-INPUT, function 31h (R133). -/
def execSetInput (r : Request) (s : State) : Host.Outcome State Fault Refusal :=
  s.management 0x31 r fun s => match r.payload with
    | [line, count, edge, cls] =>
      match firstOutOfRange [(0, decide (line.toNat < 16)), (1, decide (count.toNat < 16)), (2, (edgeOf edge).isSome),
          (3, decide (cls.toNat < 4))], edgeOf edge with
      | some offset, _ => s.refuse 0x31 r (nakRange offset)
      | none, some e =>
        (s.modInputs fun b => b.configure line.toNat (count.setWidth 4) e (Fin.ofNat 4 cls.toNat)).respond 0x31 r
          [line, count, edge, cls]
      | none, none => s
    | _ => s.refuse 0x31 r nakLength

/-- A sample period is set (R135): every run count becomes 0 and the sample timer restarts. -/
def InputBlock.setPeriod (b : InputBlock) (i : BitVec 2) : InputBlock :=
  { b with lines := mapVec (fun l => { l with run := 0 }) b.lines, holdA := b.holdA.clearRun,
           holdB := b.holdB.clearRun, period := i, sampleTimer := periodHalfMs i }

/-- SET-SAMPLE-PERIOD, function 32h (R135). -/
def execSetSamplePeriod (r : Request) (s : State) : Host.Outcome State Fault Refusal :=
  s.management 0x32 r fun s => match r.payload with
    | [index] =>
      if 3 < index.toNat then s.refuse 0x32 r (nakRange 0)
      else (s.modInputs fun b => b.setPeriod (index.setWidth 2)).respond 0x32 r [index]
    | _ => s.refuse 0x32 r nakLength

/-! ### Reporter: REPORT-CONTROL, FETCH-REPORTS -/

/-- The reporter's part of REPORT-CONTROL (R154): the outstanding batch is abandoned, the configuration is set and
the reporter is IDLE. -/
def Reporter.control (rep : Reporter) (m : ReportMode) (enables : BitVec 4) (timeout source : Byte) : Reporter :=
  let rep := if rep.outstanding.isSome then rep.abandon else rep
  { rep.toIdle with
    mode := m, enables := enables, timeout := timeout,
    destination := if m = .unsolicited then some source else rep.destination }

/-- REPORT-CONTROL, function 40h (R154). Its RSP enters before the arbiter can grant the reporter, since the queue
head is preferred (R28). -/
def execReportControl (r : Request) (s : State) : Host.Outcome State Fault Refusal :=
  s.management 0x40 r fun s => match r.payload with
    | [mode, enables, timeout] =>
      match firstOutOfRange [(0, (modeOf mode).isSome), (1, decide (enables.toNat ≤ 15)), (2, timeout != 0)],
          modeOf mode with
      | some offset, _ => s.refuse 0x40 r (nakRange offset)
      | none, some m =>
        (s.modReporter fun rep => rep.control m (enables.setWidth 4) timeout r.src).respond 0x40 r
          [mode, enables, timeout]
      | none, none => s
    | _ => s.refuse 0x40 r nakLength

/-- The reporter's part of FETCH-REPORTS in POLLED mode (R152): acknowledge, then keep the outstanding batch, form a
new one, or have none. -/
def Reporter.fetch (rep : Reporter) (ack : Byte) : Reporter :=
  let rep := if rep.outstanding = some ack then rep.acknowledge else rep
  if rep.outstanding.isNone && rep.queue.any rep.eligible then rep.formBatch else rep

/-- FETCH-REPORTS, function 41h (R152, R153). -/
def execFetchReports (r : Request) (s : State) : Host.Outcome State Fault Refusal :=
  s.management 0x41 r fun s => match r.payload with
    | [ack] =>
      if s.reporter.mode = .polled then
        let s := s.modReporter fun rep => rep.fetch ack
        s.respond 0x41 r s.reporter.payload
      else s.refuse 0x41 r (nakMode (modeCode s.reporter.mode))
    | _ => s.refuse 0x41 r nakLength

end Sys2Proof.Machine
end

