-- ==== Sys2Proof/Machine/Resets.lean ====
section
/-! DEFINITION. Family: resets and the time base. HARD_RESET, SOFT_RESET, HARD_RESET_BEGIN, MILLISECOND_TICK. -/

namespace Sys2Proof.Machine

/-- HARD_RESET (R170): the hard reset ends. The straps are sampled (R18), every owner takes its state after hard
reset, and one RESTART record stands with the cause of the reset. An end whose beginning was not given as a command
is the end of a power-on (DESIGN CHOICE, unsafe, log 12). -/
def execHardReset (p : Straps) (s : State) : Host.Outcome State Fault Refusal :=
  let cause := resetCauseOf (s.hardReset.getD .power)
  .next { State.reset with
    resetCause := cause, trunk := Trunk.afterHardReset p, reporter := Reporter.reset cause, pending := s.pending }

/-- A segment as a hard reset begins (R170): a transmission is cut, xDE and HACKx go low. -/
def Segment.cut (g : Segment) : Segment := { g with tx := none, de := false, hack := false }

/-- What a beginning hard reset makes of one already in progress (R163): power-on is POWER whatever RESETn does
during it (log 14). -/
def hardResetCause (running : Option HardCause) (begins : HardCause) : HardCause :=
  match running with
  | some .power => .power
  | _ => begins

/-- HARD_RESET_BEGIN (R170, R163, R168): transmissions are cut, xDE and HACKx go low, a pending soft reset is
dropped, the strap fault flag is clear at the start (R18), and the part does not act until the end of the hard reset
(log 13). -/
def execHardResetBegin (c : HardCause) (s : State) : Host.Outcome State Fault Refusal :=
  .next { s with
    hardReset := some (hardResetCause s.hardReset c)
    trunk := { s.trunk with tx := .idle, softResetPending := false, strapFault := false }
    segA := s.segA.cut
    segB := s.segB.cut }

/-- SOFT_RESET (R169): the end of the transmission of the GATEWAY-RESET RSP, at which the pending soft reset takes
effect. Without that transmission in progress the event does not come (log 4). -/
def execSoftReset (s : State) : Host.Outcome State Fault Refusal :=
  s.acting fun s => if s.resetBound then s.softReset else s

/-- A segment's millisecond timers at a tick (R95, R119): the response timer counts down, the lent time up to
25500. -/
def Segment.tick (g : Segment) : Segment :=
  { g with responseTimer := g.responseTimer.map (· - 1), lentTime := g.lentTime.map (fun t => min 25500 (t + 1)) }

/-- The report timer at a tick (R150). -/
def Reporter.tick (rep : Reporter) : Reporter := { rep with timer := rep.timer.map (· - 1) }

/-- The count of a tick (R164): the time counter rises by one, wrapping, and the millisecond timers count. -/
def State.count (s : State) : State :=
  { s with timeCounter := s.timeCounter + 1, segA := s.segA.tick, segB := s.segB.tick, reporter := s.reporter.tick }

/-- MILLISECOND_TICK (R164): everything counts, then the tick that brings the lent time of a segment to its patience
expires it, A before B (R119; log 9). A response or report timer at 0 has expired and stays there until its expiry
command is taken (log 9). -/
def execMillisecondTick (s : State) : Host.Outcome State Fault Refusal :=
  s.acting fun s => (s.count.judgePatience .a).judgePatience .b

end Sys2Proof.Machine
end

