-- ==== Sys2Proof/Machine/SegmentEvents.lean ====
section
/-! DEFINITION. Family: segment events. SEGMENT_END_OF_TRANSMISSION, MATCHING_FRAME, STRAY_FRAME,
CORRUPT_FRAME_NOTICE, RESPONSE_TIMER_EXPIRY, GUARD_TIMER_EXPIRY, PATIENCE_EXPIRY. -/

namespace Sys2Proof.Machine

/-- A SINGLE request has been sent with its attempt outstanding (R94, R95): WAIT, the response timer loaded. -/
def Segment.toWait (g : Segment) (timeout : Byte) : Segment :=
  { g with state := .wait, responseTimer := some (timeout.toNat * 5) }

/-- A broadcast frame has been sent on a segment (R75, R104): the segment is delivered. -/
def State.deliverBroadcast (s : State) (x : Seg) (slot : Slot) (r : Record) (c : Broadcast) : State :=
  (s.release x).settleBroadcast slot r
    { c with pending := c.pending.remove x, delivered := c.delivered.insert x }

/-- SEGMENT_END_OF_TRANSMISSION (R94, R104, R105, R110, R116). With nothing in transmission there is no end
(log 4). -/
def execSegmentEndOfTransmission (x : Seg) (s : State) : Host.Outcome State Fault Refusal :=
  s.acting fun s =>
    if (s.seg x).state = .send then
      let s := s.modSeg x Segment.endTransmission
      match (s.seg x).current with
      | none => s.leaveWork x
      | some slot =>
        match s.exchange.record slot with
        | none => s.leaveWork x
        | some r =>
          match r.carriage with
          | .single c => s.modSeg x fun g => g.toWait c.timeout
          | .broadcast c => (s.deliverBroadcast x slot r c).leaveWork x
    else s

/-- MATCHING_FRAME (R96, R98): a good segment frame, judged at its delivery (log 19). -/
def execMatchingFrame (x : Seg) (f : Frame) (s : State) : Host.Outcome State Fault Refusal :=
  s.acting fun s => if f.goodOnSegment then s.deliverOnSegment x f else s

/-- STRAY_FRAME (R96, R97): a good segment frame, judged at its delivery (log 19). -/
def execStrayFrame (x : Seg) (f : Frame) (s : State) : Host.Outcome State Fault Refusal :=
  s.acting fun s => if f.goodOnSegment then s.deliverOnSegment x f else s

/-- CORRUPT_FRAME_NOTICE (R99): in WAIT the attempt fails with cause CORRUPT; outside WAIT it is ignored (R97). -/
def execCorruptFrameNotice (x : Seg) (s : State) : Host.Outcome State Fault Refusal :=
  s.acting fun s =>
    let s := s.takeDelivery (.segment x) .corruptNotice
    if (s.seg x).state = .wait then s.failAttempt x .corrupt else s

/-- RESPONSE_TIMER_EXPIRY (R95, R100): the response timer has reached 0 in WAIT. A timer that is stopped or still
counts does not expire (log 4, log 9). -/
def execResponseTimerExpiry (x : Seg) (s : State) : Host.Outcome State Fault Refusal :=
  s.acting fun s =>
    if (s.seg x).state = .wait ∧ (s.seg x).responseTimer = some 0 then s.failAttempt x .timeout else s

/-- GUARD_TIMER_EXPIRY (R91, R103, R122): the guard timer of GUARD or RESUME expires and the sequencer enters IDLE.
A stopped timer does not expire (log 4). -/
def execGuardTimerExpiry (x : Seg) (s : State) : Host.Outcome State Fault Refusal :=
  s.acting fun s =>
    if ((s.seg x).state = .guard ∨ (s.seg x).state = .resume) ∧ (s.seg x).guardTimer.isSome = true then s.enterIdle x
    else s

/-- PATIENCE_EXPIRY (R119): the lent time has reached the patience. After the MILLISECOND_TICK or the SET-SEGMENT that
brought it there the expiry has been taken already, and this command finds it done (log 9). -/
def execPatienceExpiry (x : Seg) (s : State) : Host.Outcome State Fault Refusal :=
  s.acting fun s => s.judgePatience x

end Sys2Proof.Machine
end

