-- ==== Sys2Proof/Machine/TrunkEvents.lean ====
section
/-! DEFINITION. Family: the trunk transmitter and the report timer. END_OF_TRANSMISSION, REPORT_TIMER_EXPIRY. -/

namespace Sys2Proof.Machine

/-- The trunk transmitter is IDLE again (R27). -/
def State.txIdle (s : State) : State := s.modTrunk fun t => { t with tx := .idle }

/-- END_OF_TRANSMISSION (R27, R30, R150): the transmitter is IDLE, a batch frame tells the reporter, and the
arbiter decides. The end of the RSP to which a pending soft reset is bound is the soft reset (R30, log 16). An IDLE
transmitter ends nothing (log 4). -/
def execEndOfTransmission (s : State) : Host.Outcome State Fault Refusal :=
  s.acting fun s =>
    if s.resetBound then s.softReset
    else match s.trunk.tx with
      | .idle => s
      | .sending _ => s.txIdle.arbitrate
      | .reporting _ => (s.txIdle.modReporter Reporter.sent).arbitrate

/-- REPORT_TIMER_EXPIRY (R150): the report timer has reached 0 with a batch outstanding. A timer that is stopped or
still counts does not expire (log 4, log 9). -/
def execReportTimerExpiry (s : State) : Host.Outcome State Fault Refusal :=
  s.acting fun s =>
    if s.reporter.state = .outstanding ∧ s.reporter.timer = some 0 then (s.modReporter Reporter.expire).arbitrate
    else s

end Sys2Proof.Machine
end

