-- ==== Sys2Proof/Machine/Dispatch.lean ====
section
/-! DEFINITION. The dispatch of a command to its meaning: one arm for each row of the table. -/

namespace Sys2Proof.Machine

def exec (i : Instr) (s : State) : Host.Outcome State Fault Refusal :=
  match i with
  | .hardReset p => Sys2Proof.Machine.execHardReset p s
  | .softReset => Sys2Proof.Machine.execSoftReset s
  | .millisecondTick => Sys2Proof.Machine.execMillisecondTick s
  | .idleQualification p => Sys2Proof.Machine.execIdleQualification p s
  | .arrival p c => Sys2Proof.Machine.execArrival p c s
  | .lineBreak p => Sys2Proof.Machine.execLineBreak p s
  | .gapTimerExpiry p => Sys2Proof.Machine.execGapTimerExpiry p s
  | .routedRequest f => Sys2Proof.Machine.execRoutedRequest f s
  | .unexpected f => Sys2Proof.Machine.execUnexpected f s
  | .pendingSoftResetDiscard f => Sys2Proof.Machine.execPendingSoftResetDiscard f s
  | .rack batch r => Sys2Proof.Machine.execRack batch r s
  | .unknown fn r => Sys2Proof.Machine.execUnknown fn r s
  | .readStatus r => Sys2Proof.Machine.execReadStatus r s
  | .readCounters r => Sys2Proof.Machine.execReadCounters r s
  | .stageEntry r => Sys2Proof.Machine.execStageEntry r s
  | .clearStage r => Sys2Proof.Machine.execClearStage r s
  | .readEntry r => Sys2Proof.Machine.execReadEntry r s
  | .commit r => Sys2Proof.Machine.execCommit r s
  | .setMissPolicy r => Sys2Proof.Machine.execSetMissPolicy r s
  | .readExchanges r => Sys2Proof.Machine.execReadExchanges r s
  | .abortExchange r => Sys2Proof.Machine.execAbortExchange r s
  | .lineReset r => Sys2Proof.Machine.execLineReset r s
  | .setSegment r => Sys2Proof.Machine.execSetSegment r s
  | .readSegment r => Sys2Proof.Machine.execReadSegment r s
  | .readInputs r => Sys2Proof.Machine.execReadInputs r s
  | .setInput r => Sys2Proof.Machine.execSetInput r s
  | .setSamplePeriod r => Sys2Proof.Machine.execSetSamplePeriod r s
  | .reportControl r => Sys2Proof.Machine.execReportControl r s
  | .fetchReports r => Sys2Proof.Machine.execFetchReports r s
  | .gatewayReset r => Sys2Proof.Machine.execGatewayReset r s
  | .endOfTransmission => Sys2Proof.Machine.execEndOfTransmission s
  | .reportTimerExpiry => Sys2Proof.Machine.execReportTimerExpiry s
  | .segmentEndOfTransmission x => Sys2Proof.Machine.execSegmentEndOfTransmission x s
  | .matchingFrame x f => Sys2Proof.Machine.execMatchingFrame x f s
  | .strayFrame x f => Sys2Proof.Machine.execStrayFrame x f s
  | .corruptFrameNotice x => Sys2Proof.Machine.execCorruptFrameNotice x s
  | .responseTimerExpiry x => Sys2Proof.Machine.execResponseTimerExpiry x s
  | .guardTimerExpiry x => Sys2Proof.Machine.execGuardTimerExpiry x s
  | .sampleInstant inputs hreqA hreqB => Sys2Proof.Machine.execSampleInstant inputs hreqA hreqB s
  | .patienceExpiry x => Sys2Proof.Machine.execPatienceExpiry x s
  | .breakEnd p => Sys2Proof.Machine.execBreakEnd p s
  | .fallToSpace p startHolds => Sys2Proof.Machine.execFallToSpace p startHolds s
  | .hardResetBegin c => Sys2Proof.Machine.execHardResetBegin c s

end Sys2Proof.Machine
end

