-- ==== Sys2Proof/Safety.lean ====
section
/-! DEFINITION. What counts as a safe run, in the terms the claims use: the laws of the device that the spec states,
each with the facts about the state that keep it from one step to the next; and the words the claims are made of.
Every law is decidable. -/

namespace Sys2Proof.Machine

/-! ### When a command is taken -/

/-- The part acts: no hard reset is in progress (R170). -/
abbrev Acting (s : State) : Prop := s.hardReset = none

/-- The part acts and a delivered trunk frame is classified: no soft reset is pending (R20, R21). -/
abbrev Dispatching (s : State) : Prop := s.hardReset = none ∧ s.trunk.softResetPending = false

/-- A management command delivered now is judged: the output queue has room (R158 step 1). -/
abbrev Ready (s : State) (r : Request) : Prop := Dispatching s ∧ r.ok = true ∧ s.trunk.queue.length < 8

/-! ### Words of the claims -/

/-- The frame of a management command (R157). -/
def State.commandFrame (s : State) (fn : Byte) (r : Request) : Frame :=
  { dest := s.trunk.address, src := r.src, kind := .req, tag := r.tag, fn := fn, payload := r.payload }

/-- A trunk frame has been taken out of the framer's hand (log 3); nothing else has changed. -/
def State.taken (s : State) (f : Frame) : State :=
  { s with trunk := { s.trunk with
      port := { s.trunk.port with deliveries := s.trunk.port.deliveries.erase (.frame f) } } }

/-- A segment frame or notice has been taken out of the framer's hand (log 3); nothing else has changed. -/
def State.takenOn (s : State) (x : Seg) (d : Delivery) : State :=
  s.modSeg x fun g => { g with port := { g.port with deliveries := g.port.deliveries.erase d } }

/-- A frame has entered an output queue with room: an IDLE transmitter sends it at once, otherwise it stands at the
tail (R24, R29). -/
def State.placed (s : State) (q : QueuedFrame) : State :=
  if s.trunk.tx = .idle then { s with trunk := { s.trunk with tx := .sending q } }
  else { s with trunk := { s.trunk with queue := s.trunk.queue ++ [q] } }

/-- The reply of a management command has entered (R157). -/
def State.answered (s : State) (kind : FrameKind) (fn : Byte) (r : Request) (payload : List Byte) : State :=
  s.placed
    { frame := { dest := r.src, src := s.trunk.address, kind := kind, tag := r.tag, fn := fn, payload := payload },
      bindsReset := false }

/-- The immediate NAK of a routed request has entered (R22). -/
def State.nakked (s : State) (f : Frame) (payload : List Byte) : State :=
  s.placed
    { frame := { dest := f.src, src := f.dest, kind := .nak, tag := f.tag, fn := f.fn, payload := payload },
      bindsReset := false }

/-- The trunk reply of an exchange record has entered (R78). -/
def State.replied (s : State) (r : Record) (kind : FrameKind) (payload : List Byte) : State :=
  s.placed
    { frame := { dest := r.source, src := r.dest, kind := kind, tag := r.tag, fn := r.fn, payload := payload },
      bindsReset := false }

/-! ### What a segment becomes (R93, R103, R104, R107, R115, R121) -/

/-- A sequencer in GUARD with its timer started (R103). -/
def Segment.guardNow (g : Segment) : Segment :=
  { g with state := .guard, current := none, responseTimer := none, guardTimer := some g.config.guard.toNat }

/-- A sequencer that has entered LENT (R115): HACKx high, xDE low, the framer closed, the timers stopped, the lent time
0, a pending configuration applied. -/
def Segment.lentNow (g : Segment) : Segment :=
  { g with
    state := .lent, hack := true, de := false, tx := none, current := none, responseTimer := none, guardTimer := none
    lentTime := some 0, drainRequested := false, pendingConfig := none, config := g.pendingConfig.getD g.config
    port := { g.port with receiver := .closed, framer := Framer.reset } }

/-- A segment that has been reclaimed (R121): RESUME, HACKx low, the framer open, the guard timer started. -/
def Segment.resumeNow (g : Segment) : Segment :=
  { g with
    state := .resume, hack := false, lentExpired := false, lentTime := none
    guardTimer := some g.config.guard.toNat
    port := { g.port with receiver := .unqualified, framer := Framer.reset } }

/-- A sequencer that has begun to send the frame of a record (R92, R93, R104): xDE high, the framer closed, the tag
counted. -/
def Segment.sendNow (g : Segment) (slot : Slot) (dest fn : Byte) (payload : List Byte) : Segment :=
  { g with
    port := { g.port with receiver := .closed, framer := Framer.reset }
    state := .send, current := some slot, tagCounter := g.tagCounter + 1
    tx := some { dest := dest, src := 254, kind := .req, tag := g.tagCounter, fn := fn, payload := payload }
    de := true }

/-- A segment whose configuration has been replaced (R16, R107): with another rate or parity the frame in progress is
abandoned and the receiver UNQUALIFIED, or closed while LENT. -/
def Segment.configured (g : Segment) (c : SegConfig) : Segment :=
  { g with
    pendingConfig := none, config := c
    port := if c.rate = g.config.rate ∧ c.parity = g.config.parity then g.port
      else { g.port with framer := Framer.reset, receiver := if g.state = .lent then .closed else .unqualified } }

/-- The lent time of a LENT segment has reached a patience that is not 0, and lent-expired is clear (R119). -/
abbrev PatienceReached (g : Segment) : Prop :=
  g.state = .lent ∧ g.lentExpired = false ∧ g.config.patience ≠ 0 ∧
    g.config.patience.toNat * 100 ≤ g.lentTime.getD 0

/-! ### What becomes of the records that stand on a segment (R75 to R80, R109, R119) -/

/-- The frames of the trunk output that are not sent in full: the frame being sent, then those that wait. -/
def State.outgoing (s : State) : List QueuedFrame :=
  (match s.trunk.tx with
    | .sending q => [q]
    | _ => []) ++ s.trunk.queue

/-- A set of segments as a mask byte: A is 1, B is 2. -/
def maskByte (a b : Bool) : Byte := BitVec.ofNat 8 ((if a then 1 else 0) + (if b then 2 else 0))

/-- The reply with which a record ends when a segment is taken from it by a line reset (`aborted`) or by patience expiry
(`lent`); none where the other segment stays pending (R76, R77). -/
def Record.endsWith (r : Record) (x : Seg) (why : WithdrawReason) : Option Reply :=
  match r.carriage with
  | .single _ =>
    some { kind := .nak, payload := if why = .lent then [0x14, maskByte (x == .a) (x == .b)] else [0x23] }
  | .broadcast c =>
    let taken := c.withdrawn ++ [{ segment := x, reason := why }]
    if (if x = .a then c.pending.b else c.pending.a) then none
    else if c.delivered.a || c.delivered.b then
      some { kind := .rsp, payload := [maskByte c.delivered.a c.delivered.b] }
    else if taken.head?.any (fun w => w.reason == .lent) then
      some { kind := .nak, payload := [0x14, maskByte
        (taken.any fun w => w.segment == .a && w.reason == .lent)
        (taken.any fun w => w.segment == .b && w.reason == .lent)] }
    else some { kind := .nak, payload := [0x23] }

/-- A record from which a segment has been taken (R75, R77, R79): COMPLETE with its reply where that ends it, otherwise
ACTIVE while the other sequencer serves it and QUEUED while it does not. -/
def Record.without (r : Record) (x : Seg) (why : WithdrawReason) (servedElsewhere : Bool) : Record :=
  { r with
    state := match r.endsWith x why with
      | some reply => .complete reply
      | none => if servedElsewhere then .active else .queued
    carriage := match r.carriage with
      | .single c => .single { c with segTag := none }
      | .broadcast c => .broadcast { c with
          pending := { a := c.pending.a && x != .a, b := c.pending.b && x != .b }
          withdrawn := c.withdrawn ++ [{ segment := x, reason := why }] } }

/-- The records that end when every record standing on a segment is taken from it, each with its reply frame, in the
order of the admission list (R78, R80). -/
def State.endedBy (s : State) (x : Seg) (why : WithdrawReason) : List (Slot × QueuedFrame) :=
  (s.exchange.standing x).filterMap fun slot => (s.exchange.record slot).bind fun r =>
    (r.endsWith x why).map fun reply => (slot,
      { frame := { dest := r.source, src := r.dest, kind := reply.kind, tag := r.tag, fn := r.fn,
                   payload := reply.payload }
        bindsReset := false })

/-- How many frames the trunk output takes now: 8 wait at most, and a transmitter at rest takes one at once. -/
def State.room (s : State) : Nat := (if s.trunk.tx = .idle then 9 else 8) - s.trunk.queue.length

/-- The state when every record standing on a segment has been taken from it, in one event (R75 to R80): the replies
enter the output in admission order as far as there is room, and their records are FREE; the later ones are COMPLETE and
join the completion list in that order; a BROADCAST record that is pending elsewhere stays; nothing else changes. -/
def State.cleared (s : State) (x : Seg) (why : WithdrawReason) : State :=
  let replied := (s.endedBy x why).take s.room
  let held := (s.endedBy x why).drop s.room
  { (replied.map (fun e => e.2)).foldl State.placed s with
    exchange :=
      { slots := Vector.ofFn fun slot => (s.exchange.record slot).bind fun r =>
          if replied.any (fun e => e.1 == slot) then none
          else if r.standsOn x then
            some (r.without x why
              ((x != .a && s.segA.current == some slot) || (x != .b && s.segB.current == some slot)))
          else some r
        admission := s.exchange.admission.filter fun slot => !replied.any (fun e => e.1 == slot)
        completion := s.exchange.completion ++ held.map (fun e => e.1) } }

/-- The state after the patience expiry of a segment (R119). -/
def State.patienceExpired (s : State) (x : Seg) : State :=
  (s.modSeg x fun g => { g with lentExpired := true }).cleared x .lent

/-! ### What becomes of a report event (R139, R142 to R144) -/

/-- What the reporter makes of an INPUT or SEGMENT event: nothing in mode OFF or for a disabled class (R139); an event
of a line with a WAITING record is folded into it; any other makes a new record where fewer than 31 ordinary records are
held (R142, R143); otherwise it is lost, and the OVERFLOW record is made, counts it, or leaves it to the carry while it
is IN-BATCH itself (R144). -/
abbrev EventTaken (rep : Reporter) (e : Event) (rep' : Reporter) : Prop :=
  (rep.mode = .off ∨ rep.enables.getLsbD e.cls.val = false → rep' = rep) ∧
  (rep.mode ≠ .off → rep.enables.getLsbD e.cls.val = true →
    ((e.subject.isInput = true ∧ ∃ q ∈ rep.queue, q.subject = e.subject ∧ q.status = .waiting) →
      rep' = { rep with queue := rep.queue.map fun q =>
        if q.subject = e.subject ∧ q.status = .waiting then
          { q with cls := e.cls, code := e.code, info := e.info, last := e.time, count := min 15 (q.count + 1) }
        else q }) ∧
    (¬ (e.subject.isInput = true ∧ ∃ q ∈ rep.queue, q.subject = e.subject ∧ q.status = .waiting) →
      (rep.queue.countP (fun q => q.code != .overflow) < 31 →
        rep' = { rep with queue := rep.queue ++
          [{ subject := e.subject, cls := e.cls, code := e.code, info := e.info, count := 1, first := e.time,
             last := e.time, status := .waiting }] }) ∧
      (31 ≤ rep.queue.countP (fun q => q.code != .overflow) →
        ((∀ q ∈ rep.queue, q.code ≠ .overflow) →
          rep' = { rep with queue := rep.queue ++
            [{ subject := .gateway, cls := 0, code := .overflow, info := .absent, count := 1, first := e.time,
               last := e.time, status := .waiting }] }) ∧
        ((∃ q ∈ rep.queue, q.code = .overflow ∧ q.status = .waiting) →
          rep' = { rep with queue := rep.queue.map fun q =>
            if q.code = .overflow ∧ q.status = .waiting then { q with count := min 255 (q.count + 1), last := e.time }
            else q }) ∧
        ((∃ q ∈ rep.queue, q.code = .overflow) → (∀ q ∈ rep.queue, q.code = .overflow → q.status ≠ .waiting) →
          rep' = { rep with carry :=
            { count := min 255 (rep.carry.count + 1)
              first := if rep.carry.count = 0 then e.time else rep.carry.first
              last := e.time } }))))

/-- The sequencer has entered LENT from `s`, SEGMENT LENT has been offered and the arbiter asked (R29, R115, R123). -/
abbrev EntersLent (x : Seg) (s t : State) : Prop :=
  ∃ rep : Reporter,
    EventTaken s.reporter
      { subject := .segment x, cls := 1, code := .lent, info := .absent, time := s.timeCounter } rep ∧
    t = ({ s.modSeg x Segment.lentNow with reporter := rep }).arbitrate

/-- The segment has been reclaimed from `s`, SEGMENT RECLAIMED has been offered and the arbiter asked (R29, R121,
R123). -/
abbrev IsReclaimed (x : Seg) (s t : State) : Prop :=
  ∃ rep : Reporter,
    EventTaken s.reporter
      { subject := .segment x, cls := 1, code := .reclaimed, info := .absent, time := s.timeCounter } rep ∧
    t = ({ s.modSeg x Segment.resumeNow with reporter := rep }).arbitrate

/-! ### Batches (R145, R155, R178) -/

/-- The batch payload of the records given: number, record count, the records in batch order (R145, R178). -/
def batchBytes (n : Byte) (records : List ReportRecord) : List Byte :=
  [n, BitVec.ofNat 8 records.length] ++ records.flatMap ReportRecord.bytes

/-- The records that a batch formed now takes, in batch order: the WAITING records of enabled classes by class, and
within a class by age, four at most (R145). -/
def Reporter.nextRecords (rep : Reporter) : List ReportRecord :=
  (([0, 1, 2, 3] : List (Fin 4)).flatMap fun c => rep.queue.filter fun q =>
    q.status == .waiting && rep.enables.getLsbD c.val && q.cls == c).take 4

/-- The records of the outstanding batch in batch order (R145, R146). -/
def Reporter.batchNow (rep : Reporter) : List ReportRecord :=
  ([0, 1, 2, 3] : List (Fin 4)).flatMap fun c => rep.queue.filter fun q => q.status != .waiting && q.cls == c

/-- The RPT frame of a batch (R149). -/
def rptFrame (dest gateway : Byte) (payload : List Byte) : Frame :=
  { dest := dest, src := gateway, kind := .rpt, tag := 0, fn := 0, payload := payload }

/-- What the formation of a batch makes of the queue (R145): up to four WAITING records of enabled classes become
IN-BATCH under the next number, by class and within a class by age, and no record changes otherwise. -/
abbrev BatchFormed (rep : Reporter) (queue : List ReportRecord) : Prop :=
  ∃ taken : Nat → Bool,
    queue.length = rep.queue.length ∧
    (List.range rep.queue.length).countP taken = min 4 (rep.queue.countP fun q =>
      q.status == .waiting && rep.enables.getLsbD q.cls.val) ∧
    (∀ (i : Nat) (q : ReportRecord), rep.queue[i]? = some q →
      queue[i]? = some (if taken i then { q with status := .inBatch rep.nextBatch } else q)) ∧
    (∀ (i : Nat) (q : ReportRecord), rep.queue[i]? = some q → taken i = true →
      q.status = .waiting ∧ rep.enables.getLsbD q.cls.val = true) ∧
    (∀ (i j : Nat) (p q : ReportRecord), rep.queue[i]? = some p → rep.queue[j]? = some q →
      taken i = true → taken j = false → q.status = .waiting →
      rep.enables.getLsbD q.cls.val = true → p.cls < q.cls ∨ (p.cls = q.cls ∧ i < j))

/-- A new batch of the reporter has been granted the transmitter (R145, R146, R149): the RPT frame under the next batch
number with the records in batch order is sent to `dest`, the records are IN-BATCH, and the batch is outstanding with
send count 1. -/
abbrev NewBatchGranted (dest gateway : Byte) (rep : Reporter) (tx : TrunkTx) (rep' : Reporter) : Prop :=
  tx = .reporting (rptFrame dest gateway (batchBytes rep.nextBatch rep.nextRecords)) ∧
  ∃ queue : List ReportRecord,
    rep' = { rep with
      queue := queue, state := .outstanding, outstanding := some rep.nextBatch
      nextBatch := if rep.nextBatch = 255 then 1 else rep.nextBatch + 1, sendCount := 1, sending := true } ∧
    BatchFormed rep queue

/-- The reporter when the outstanding batch has been acknowledged (R144, R147, R151, R152): the records of the batch
have left and the WAITING ones keep their order; where the OVERFLOW record was among them, a carry above 0 stands as a
fresh OVERFLOW record at the tail and the carry is 0; nothing is outstanding and the reporter is IDLE. -/
def Reporter.acknowledged (rep : Reporter) : Reporter :=
  let overflowed := rep.queue.any fun q => q.code == .overflow && q.status != .waiting
  { rep with
    queue := (rep.queue.filter fun q => q.status == .waiting) ++
      (if overflowed = true ∧ rep.carry.count ≠ 0 then
        [{ subject := .gateway, cls := 0, code := .overflow, info := .absent, count := rep.carry.count,
           first := rep.carry.first, last := rep.carry.last, status := .waiting }]
      else [])
    carry := if overflowed then { count := 0, first := 0, last := 0 } else rep.carry
    state := .idle, outstanding := none, sendCount := 0, resendDue := false, timer := none, sending := false }

/-- No WAITING record of an enabled class is held (R145, R149). -/
abbrev NothingEligible (rep : Reporter) : Prop :=
  ∀ q ∈ rep.queue, q.status = .waiting → rep.enables.getLsbD q.cls.val = false

/-- A record when the outstanding batch is abandoned (R144, R155 steps 1 and 2): WAITING, and the OVERFLOW record of the
batch takes the carry. -/
def Reporter.givenBack (rep : Reporter) (q : ReportRecord) : ReportRecord :=
  if q.code = .overflow ∧ q.status ≠ .waiting ∧ rep.carry.count ≠ 0 then
    { q with status := .waiting, count := min 255 (q.count + rep.carry.count), last := rep.carry.last }
  else { q with status := .waiting }

/-- The queue when the outstanding batch is abandoned (R155): every record given back, and of the records of one input
line the oldest keeps its place and first time, takes level, code, class and last time of the newest and the sum of the
counts, stopping at 15, while the newer ones are removed. -/
def Reporter.abandonedQueue (rep : Reporter) : List ReportRecord :=
  rep.queue.zipIdx.filterMap fun p =>
    let ofLine := fun q : ReportRecord => p.1.subject.isInput && q.subject == p.1.subject
    if (rep.queue.take p.2).any ofLine then none
    else
      let newer := (rep.queue.drop (p.2 + 1)).filter ofLine
      match newer.getLast? with
      | none => some (rep.givenBack p.1)
      | some q => some { p.1 with
          cls := q.cls, code := q.code, info := q.info, last := q.last, status := .waiting
          count := min 15 (p.1.count + (newer.map (fun q => q.count)).sum) }

/-- The selected active entry has counted its hit (R39). -/
def State.hit (s : State) (i : Nat) (e : RouteEntry) : State :=
  { s with routes := { s.routes with
      active := s.routes.active.setIfInBounds i (some { e with hits := satInc e.hits }) } }

/-- The command a management REQ with this function is (R158 step 2, the command table of R159). -/
def commandOf (fn : Byte) (r : Request) : Instr :=
  match fn.toNat with
  | 0x01 => .readStatus r
  | 0x02 => .readCounters r
  | 0x10 => .stageEntry r
  | 0x11 => .clearStage r
  | 0x12 => .readEntry r
  | 0x13 => .commit r
  | 0x14 => .setMissPolicy r
  | 0x20 => .readExchanges r
  | 0x21 => .abortExchange r
  | 0x22 => .lineReset r
  | 0x23 => .setSegment r
  | 0x24 => .readSegment r
  | 0x30 => .readInputs r
  | 0x31 => .setInput r
  | 0x32 => .setSamplePeriod r
  | 0x40 => .reportControl r
  | 0x41 => .fetchReports r
  | 0x7F => .gatewayReset r
  | _ => .unknown fn r

/-- The one payload length of each function of the command table (R158 step 3); the other functions are unknown. -/
def commandLength (fn : Byte) : Option Nat :=
  match fn.toNat with
  | 0x01 => some 0
  | 0x02 => some 2
  | 0x10 => some 10
  | 0x11 => some 0
  | 0x12 => some 2
  | 0x13 => some 2
  | 0x14 => some 1
  | 0x20 => some 0
  | 0x21 => some 2
  | 0x22 => some 1
  | 0x23 => some 7
  | 0x24 => some 1
  | 0x30 => some 1
  | 0x31 => some 4
  | 0x32 => some 1
  | 0x40 => some 3
  | 0x41 => some 1
  | 0x7F => some 0
  | _ => none

/-- Whether the field at a payload offset is in its range, function by function, as the owning chapters give the
ranges (R42, R55, R58, R81, R106, R108, R109, R133, R135, R136, R154, R165); a field without a range is in range. -/
def fieldInRange (fn : Byte) (payload : List Byte) (offset : Nat) : Prop :=
  let v := (payload.getD offset 0).toNat
  match fn.toNat, offset with
  | 0x02, 0 => v ≤ 2
  | 0x02, 1 => v ≤ 1
  | 0x10, 0 => v ≤ 47
  | 0x10, 1 => v ≤ 4
  | 0x10, 2 => payload.getD 1 0 ≠ 0 → 1 ≤ v ∧ v ≤ 254
  | 0x10, 3 => payload.getD 1 0 ≠ 0 → (payload.getD 4 0).getLsbD 0 = true → v = 0
  | 0x10, 4 => payload.getD 1 0 ≠ 0 → v ≤ 7
  | 0x10, 5 => (payload.getD 1 0 = 1 → 1 ≤ v ∧ v ≤ 253) ∧ (payload.getD 1 0 = 2 → v = 0)
  | 0x10, 7 => payload.getD 1 0 = 1 → 1 ≤ v
  | 0x10, 8 => payload.getD 1 0 ≠ 0 → v ≤ 3
  | 0x12, 0 => v ≤ 1
  | 0x12, 1 => v ≤ 47
  | 0x14, 0 => v ≤ 1
  | 0x21, 0 => 1 ≤ v ∧ v ≤ 254
  | 0x21, 1 => v ≤ 31
  | 0x22, 0 => v = 1 ∨ v = 2
  | 0x23, 0 => v = 1 ∨ v = 2
  | 0x23, 1 => v ≤ 7
  | 0x23, 2 => v ≤ 2
  | 0x23, 3 => 2 ≤ v ∧ v ≤ 15
  | 0x23, 4 => 1 ≤ v ∧ v ≤ 15
  | 0x23, 5 => 1 ≤ v ∧ v ≤ 16
  | 0x24, 0 => v = 1 ∨ v = 2
  | 0x30, 0 => v ≤ 1
  | 0x31, 0 => v ≤ 15
  | 0x31, 1 => v ≤ 15
  | 0x31, 2 => v ≤ 3
  | 0x31, 3 => v ≤ 3
  | 0x32, 0 => v ≤ 3
  | 0x40, 0 => v ≤ 2
  | 0x40, 1 => v ≤ 15
  | 0x40, 2 => 1 ≤ v
  | _, _ => True

/-! ### Transmit pins (R1, R5) -/

/-- The levels a pin takes while a frame is sent, bit time by bit time from the leading edge of the lead's start bit
(R1, R5): for each character a start bit at space, the data bits from the least significant, the parity bit where the
line has one, and a stop bit at mark, with no silence between characters; after the last stop bit mark. -/
abbrev LineCarries (p : Parity) (f : Frame) (level : Nat → Bool) : Prop :=
  let width := if p = .none then 10 else 11
  (∀ (k : Nat) (b : Byte), (frameBytes f)[k]? = some b →
    level (k * width) = space ∧
    (∀ i : Fin 8, level (k * width + 1 + i.val) = b.getLsbD i.val) ∧
    (p ≠ .none →
      (level (k * width + 9) = true ↔
        ((List.range 8).countP (fun i => b.getLsbD i)) % 2 = if p = .even then 1 else 0)) ∧
    level (k * width + width - 1) = mark) ∧
  (∀ n, (8 + f.payload.length) * width ≤ n → level n = mark)

/-! ### A port (R10, R12) -/

/-- What a framer holds in each state (R10, R12). -/
abbrev FramerLaw (f : Framer) : Prop :=
  (f.state = .hunt → f = Framer.reset) ∧
  (f.state = .header → f.fields.length < 5 ∧ f.highCheck = none ∧ f.gapTimer.isSome = true) ∧
  (f.state = .body → 5 ≤ f.fields.length ∧ 1 ≤ f.expected ∧ (f.fields.getD 4 0).toNat ≤ 48 ∧
    f.fields.length + f.expected = 5 + (f.fields.getD 4 0).toNat ∧ f.highCheck = none ∧
    f.gapTimer.isSome = true) ∧
  (f.state = .check → f.expected = 0 ∧ (f.fields.getD 4 0).toNat ≤ 48 ∧
    f.fields.length = 5 + (f.fields.getD 4 0).toNat ∧ f.gapTimer.isSome = true)

/-- The three framers keep their law. -/
abbrev FramersLaw (s : State) : Prop :=
  FramerLaw s.trunk.port.framer ∧ FramerLaw s.segA.port.framer ∧ FramerLaw s.segB.port.framer

/-! ### Trunk output (R23, R167) -/

/-- The frames waiting or in transmission to which a soft reset is bound. -/
def boundFrames (t : Trunk) : Nat :=
  t.queue.countP (·.bindsReset) + (match t.tx with
    | .sending q => if q.bindsReset then 1 else 0
    | _ => 0)

/-- A soft reset is pending exactly while the frame to which it is bound waits or is sent (R30, R167). -/
abbrev BoundLaw (s : State) : Prop :=
  s.hardReset = none → boundFrames s.trunk = if s.trunk.softResetPending then 1 else 0

/-- The output queue never holds more than 8 frames (R23); the transmitter rests only while it holds none (R28); and
while a record is COMPLETE it holds 8 (R26). -/
abbrev OutputLaw (s : State) : Prop :=
  s.trunk.queue.length ≤ 8 ∧ (s.hardReset = none →
    (s.trunk.tx = .idle → s.trunk.queue = []) ∧ (s.exchange.completion ≠ [] → s.trunk.queue.length = 8))

/-! ### Route table (R36, R51) -/

/-- No two valid entries of a bank have the same key (R36). -/
abbrev KeysDistinct (b : Bank) : Prop :=
  ∀ i j : Fin 48, i ≠ j → (b[i]).isSome = true → (b[i]).map RouteEntry.key ≠ (b[j]).map RouteEntry.key

/-- The law of the active bank (R36): no key twice, no entry for the gateway address. -/
abbrev ActiveBankLaw (s : State) : Prop :=
  KeysDistinct s.routes.active ∧
    ∀ i : Fin 48, (s.routes.active[i]).map RouteEntry.trunkAddress ≠ some s.trunk.address

/-- The valid-entry counts are those of the banks (R51). -/
abbrev CountLaw (s : State) : Prop :=
  s.routes.activeCount = bankCount s.routes.active ∧ s.routes.stagedCount = bankCount s.routes.staged

/-! ### Segments (R89, R115) -/

/-- What goes with each sequencer state (R89's table, R115's law, R119): HACKx is high exactly while LENT, xDE is
high exactly in SEND with a frame on the wire, each timer runs in its own states alone, a configuration is pending
in none but SEND, WAIT, GUARD and RESUME. -/
abbrev SegmentLaw (g : Segment) : Prop :=
  (g.hack = true ↔ g.state = .lent) ∧
  (g.de = true ↔ g.state = .send) ∧
  (g.tx.isSome = true ↔ g.state = .send) ∧
  (g.port.receiver = .closed ↔ g.state = .send ∨ g.state = .lent) ∧
  (g.responseTimer.isSome = true ↔ g.state = .wait) ∧
  (g.guardTimer.isSome = true ↔ g.state = .guard ∨ g.state = .resume) ∧
  (g.lentTime.isSome = true ↔ g.state = .lent) ∧
  (g.lentExpired = true → g.state = .lent) ∧
  (g.drainRequested = true → g.state = .send ∨ g.state = .wait) ∧
  (g.pendingConfig.isSome = true → g.state ≠ .idle ∧ g.state ≠ .lent) ∧
  (g.current.isSome = true → g.state = .send ∨ g.state = .wait) ∧
  (g.state = .wait → g.current.isSome = true)

/-- Both segments keep their law while the part acts. -/
abbrev SegmentsLaw (s : State) : Prop := s.hardReset = none → SegmentLaw s.segA ∧ SegmentLaw s.segB

/-- No LENT segment has reached its patience without being lent-expired: the expiry is taken in the event that brings
the lent time there (R119). -/
abbrev PatienceLaw (s : State) : Prop :=
  SegmentsLaw s ∧ (s.hardReset = none → ¬ PatienceReached s.segA ∧ ¬ PatienceReached s.segB)

/-- A hold line is qualified ASSERTED exactly while its segment is LENT or drains (R114, R117). -/
abbrev HoldLaw (s : State) : Prop :=
  SegmentsLaw s ∧ (s.hardReset = none →
    (s.inputs.holdA.asserted = true ↔ s.segA.state = .lent ∨ s.segA.drainRequested = true) ∧
    (s.inputs.holdB.asserted = true ↔ s.segB.state = .lent ∨ s.segB.drainRequested = true))

/-! ### Exchange table (R26, R66, R67, R69, R79) -/

/-- The trunk source and tag of a record (R69). -/
def Record.pair (r : Record) : Byte × Tag := (r.source, r.tag)

/-- The admission list holds the records that are not FREE, the completion list the COMPLETE ones, each once; no two
records have the same trunk source and tag (R67, R69, R79). -/
abbrev TableLaw (t : ExchangeTable) : Prop :=
  t.admission.Nodup ∧ t.completion.Nodup ∧
  (∀ slot : Slot, slot ∈ t.admission ↔ (t.record slot).isSome = true) ∧
  (∀ slot : Slot, slot ∈ t.completion ↔ (t.record slot).any (fun r => r.state.isComplete) = true) ∧
  (∀ i j : Slot, i ≠ j → (t.record i).isSome = true →
    (t.record i).map Record.pair ≠ (t.record j).map Record.pair)

/-- A record that a sequencer serves stands on its segment and is ACTIVE; in WAIT it is SINGLE (R66, R89). -/
abbrev ServedLaw (s : State) (x : Seg) : Prop :=
  ∀ slot : Slot, (s.seg x).current = some slot →
    (s.exchange.record slot).any (fun r => r.standsOn x && r.state == .active &&
      ((s.seg x).state != .wait || (match r.carriage with
        | .single _ => true
        | .broadcast _ => false))) = true

/-- ACTIVE is served on some segment; the segment tag of a SINGLE record is held exactly while it is ACTIVE; a
BROADCAST record that is not COMPLETE has a segment pending (R65, R66, R75). -/
abbrev ActiveLaw (s : State) : Prop :=
  ∀ slot : Slot, (s.exchange.record slot).all (fun r =>
    (r.state != .active || s.served slot) &&
    (match r.carriage with
      | .single c => c.segTag.isSome == (r.state == .active)
      | .broadcast c => r.state.isComplete || !c.pending.isEmpty)) = true

/-- A sequencer observed in IDLE has no record waiting on its segment (R91). -/
abbrev IdleLaw (s : State) (x : Seg) : Prop := (s.seg x).state = .idle → s.exchange.standing x = []

/-- The laws of the exchange table, of the output queue its replies enter and of the sequencers that serve it,
together. -/
abbrev ExchangeLaw (s : State) : Prop :=
  OutputLaw s ∧ SegmentsLaw s ∧ TableLaw s.exchange ∧ (s.hardReset = none →
    ServedLaw s .a ∧ ServedLaw s .b ∧ ActiveLaw s ∧ IdleLaw s .a ∧ IdleLaw s .b)

/-- One step's account of the exchange replies (R78, R79, R87): the trunk output goes on from what it held, the frame
whose transmission has ended apart, by one immediate or management reply at most and then by exactly one reply of every
record that has become FREE, with the record's origin; a record that stays keeps its origin, and its reply once that is
built; and a slot is taken by a ROUTED_REQUEST alone. -/
abbrev RepliesAccounted (c : Instr) (s t : State) : Prop :=
  (∃ (front : List QueuedFrame) (done : List Slot) (replies : List QueuedFrame),
    t.outgoing = (if c = .endOfTransmission then s.trunk.queue else s.outgoing) ++ front ++ replies ∧
    front.length ≤ 1 ∧ done.Nodup ∧
    (∀ slot : Slot, slot ∈ done ↔ (s.exchange.record slot).isSome = true ∧ t.exchange.record slot = none) ∧
    replies.length = done.length ∧
    (∀ p ∈ done.zip replies, ∃ (r : Record) (reply : Reply),
      s.exchange.record p.1 = some r ∧ (r.state.isComplete = true → r.state = .complete reply) ∧
      p.2 = { frame := { dest := r.source, src := r.dest, kind := reply.kind, tag := r.tag, fn := r.fn,
                         payload := reply.payload }
              bindsReset := false })) ∧
  (∀ (slot : Slot) (r q : Record), s.exchange.record slot = some r → t.exchange.record slot = some q →
    q.source = r.source ∧ q.tag = r.tag ∧ q.dest = r.dest ∧ q.fn = r.fn ∧ (r.state.isComplete = true → q = r)) ∧
  ((∀ f, c ≠ .routedRequest f) → ∀ slot : Slot, s.exchange.record slot = none → t.exchange.record slot = none)

/-! ### Input block (R113, R127) -/

/-- Run counts stay in their ranges (R113, R127). -/
abbrev InputLaw (b : InputBlock) : Prop :=
  (∀ n : Fin 16, (b.lines[n]).run ≤ 15) ∧ b.holdA.run ≤ 2 ∧ b.holdB.run ≤ 2

/-! ### Reporter (R140, R142, R144, R146, R148) -/

/-- The number of WAITING records of an input line. -/
def waitingOf (q : List ReportRecord) (n : Fin 16) : Nat := q.countP fun r => r.subject == .input n && r.waiting

/-- At most 31 ordinary records and one OVERFLOW record (R140), one WAITING record for each line (R142). -/
abbrev QueueOfReportsLaw (rep : Reporter) : Prop :=
  rep.occupancy ≤ 31 ∧ rep.queue.countP ReportRecord.isOverflow ≤ 1 ∧ (∀ n : Fin 16, waitingOf rep.queue n ≤ 1) ∧
  (∀ r ∈ rep.queue, r.isOverflow = true → r.subject = .gateway)

/-- At most one batch is outstanding, its number is 1 to 255 and every IN-BATCH record belongs to it (R146); none is
outstanding exactly in IDLE (R148). -/
abbrev BatchLaw (rep : Reporter) : Prop :=
  rep.nextBatch ≠ 0 ∧
  (rep.state = .idle ↔ rep.outstanding = none) ∧
  rep.outstanding ≠ some 0 ∧
  (∀ r ∈ rep.queue, r.waiting = true ∨ rep.outstanding.map RecordStatus.inBatch = some r.status)

/-- The laws of the report queue and of the outstanding batch, together. -/
abbrev ReporterLaw (s : State) : Prop := QueueOfReportsLaw s.reporter ∧ BatchLaw s.reporter

end Sys2Proof.Machine
end

