-- ==== Sys2Proof/Certificates/Slice0/Obligations.lean ====
section
/-! DEFINITION. The statements for the provers, from the numbered rules of spec/. OBLIGATIONS.json lists them. -/

open Sys2Proof Sys2Proof.Machine

/-! ### The block and its queue of commands -/

/-- A step takes the command at the front of the queue and runs it on the state with the queue's rest; on an empty
queue the block idles (the model's choice, log 1 and log 2). -/
def Obligations.StepRunsFrontCommand : Prop :=
  (∀ (c : Instr) (rest : List Instr) (s : State), s.pending = c :: rest →
    step s = exec c { s with pending := rest }) ∧
  (∀ s : State, s.pending = [] → step s = .next s)

/-- Every command completes in every state, with no fault and no refusal, and leaves the queue of commands alone. That
a command whose event cannot come in the state completes without effect is the model's choice (log 4), as it is during
a hard reset (log 13); that the queue of commands is apart from every effect is the model's choice too (log 1). -/
def Obligations.EveryCommandCompletes : Prop :=
  ∀ (c : Instr) (s : State), ∃ t, exec c s = .next t ∧ t.pending = s.pending

/-- A command whose frame no framer delivers has no effect (the model's choice, log 25), and while a hard reset lasts
no command but HARD_RESET and HARD_RESET_BEGIN has any (R170, log 13). -/
def Obligations.CommandsWithoutEffect : Prop :=
  (∀ (c : Instr) (s : State), c.wf = false → exec c s = .next s) ∧
  (∀ (c : Instr) (s : State), s.hardReset.isSome = true → (∀ p, c ≠ .hardReset p) → (∀ h, c ≠ .hardResetBegin h) →
    exec c s = .next s)

/-! ### Resets and time -/

/-- HARD_RESET: the state the hard reset leaves in every block (R18, R33, R52, R64, R88, R112, R124, R137, R156, R164):
the sample timer measures the period of index 1, two half milliseconds (R125; the unit is log 8, log 20), and every
transmit pin rests at mark (R5, R27). The cause is POWER unless the reset in progress began with RESETn (R163; without
a beginning it is POWER by the model's choice, log 12). -/
def Obligations.HardResetState : Prop :=
  ∀ (p : Straps) (s : State), ∃ t, exec (.hardReset p) s = .next t ∧
    t.trunk.address = (if p.ads = 0 ∨ p.ads = 255 then 254 else p.ads) ∧
    t.trunk.rate = p.trs ∧
    t.trunk.parity = (if p.tps = 1 then .even else if p.tps = 2 then .odd else .none) ∧
    (t.trunk.strapFault = true ↔ p.ads = 0 ∨ p.ads = 255 ∨ p.tps = 3) ∧
    t.trunk.port.receiver = .unqualified ∧ t.trunk.port.framer.state = .hunt ∧
    t.trunk.port.framer.gapTimer = none ∧ t.trunk.port.counters = ⟨0, 0, 0, 0, 0, 0, 0⟩ ∧
    t.trunk.counters = ⟨0, 0, 0, 0⟩ ∧ t.trunk.queue = [] ∧ t.trunk.tx = .idle ∧
    t.trunk.softResetPending = false ∧
    (∀ i : Fin 48, t.routes.active[i] = none ∧ t.routes.staged[i] = none) ∧
    t.routes.activeCount = 0 ∧ t.routes.stagedCount = 0 ∧ t.routes.generation = 0 ∧
    t.routes.missPolicy = .refuse ∧
    (∀ i : Slot, t.exchange.record i = none) ∧ t.exchange.admission = [] ∧ t.exchange.completion = [] ∧
    (∀ x : Seg, (t.seg x).state = .idle ∧ (t.seg x).current = none ∧ (t.seg x).tagCounter = 0 ∧
      (t.seg x).responseTimer = none ∧ (t.seg x).guardTimer = none ∧
      (t.seg x).config = { rate := 3, parity := .none, gapLimit := 4, guard := 2, depth := 8, patience := 0 } ∧
      (t.seg x).pendingConfig = none ∧ (t.seg x).drainRequested = false ∧ (t.seg x).lentExpired = false ∧
      (t.seg x).lentTime = none ∧ (t.seg x).tx = none ∧ (t.seg x).de = false ∧ (t.seg x).hack = false ∧
      (t.seg x).port.receiver = .unqualified ∧ (t.seg x).port.framer.state = .hunt ∧
      (t.seg x).port.framer.gapTimer = none ∧ (t.seg x).port.counters = ⟨0, 0, 0, 0, 0, 0, 0⟩ ∧
      (t.seg x).counters = ⟨0, 0, 0, 0⟩) ∧
    (∀ n : Fin 16, t.inputs.lines[n] =
      { qualification := 4, edge := .none, cls := 3, accepted := false, raw := false, run := 0, lost := false,
        baselineDue := true }) ∧
    t.inputs.holdA = { asserted := false, run := 0 } ∧ t.inputs.holdB = { asserted := false, run := 0 } ∧
    t.inputs.period = 1 ∧ t.inputs.sampleTimer = 2 ∧
    (∀ n, t.trunkLine n = mark ∧ t.segA.line n = mark ∧ t.segB.line n = mark) ∧
    t.hardReset = none ∧ t.timeCounter = 0 ∧
    t.resetCause = (if s.hardReset = some .pin then .pin else .power) ∧
    t.reporter.queue = [
      { subject := .gateway, cls := 0, code := .restart, info := .cause t.resetCause, count := 1, first := 0,
        last := 0, status := .waiting }] ∧
    t.reporter.carry.count = 0 ∧ t.reporter.state = .idle ∧ t.reporter.outstanding = none ∧
    t.reporter.sendCount = 0 ∧ t.reporter.resendDue = false ∧ t.reporter.timer = none ∧ t.reporter.nextBatch = 1 ∧
    t.reporter.mode = .polled ∧ t.reporter.enables = 15 ∧ t.reporter.timeout = 20 ∧
    t.reporter.destination = none ∧
    t.pending = s.pending

/-- HARD_RESET_BEGIN (R18, R163, R168, R170): every transmission is cut and TTXD, ATXD and BTXD are at mark, ADE, BDE,
HACKA and HACKB go low, a pending soft reset is dropped and the strap fault flag is clear; what else the blocks hold
stands until the end (the model's choice, log 13). A reset that began at power-on stays one (R163); that power-on
during a RESETn reset makes it POWER is the model's choice (log 14). -/
def Obligations.HardResetBeginCuts : Prop :=
  ∀ (c : HardCause) (s : State), ∃ t, exec (.hardResetBegin c) s = .next t ∧
    t = { s with
      hardReset := some (if s.hardReset = some .power then .power else c)
      trunk := { s.trunk with tx := .idle, softResetPending := false, strapFault := false }
      segA := { s.segA with tx := none, de := false, hack := false }
      segB := { s.segB with tx := none, de := false, hack := false } } ∧
    (∀ n, t.trunkLine n = mark ∧ t.segA.line n = mark ∧ t.segB.line n = mark)

/-- The end of the transmission of the GATEWAY-RESET RSP, given as SOFT_RESET or as END_OF_TRANSMISSION (log 16): what
the soft reset leaves in the trunk port, the route table, the exchange table, the input block and the management unit
(R33, R52, R88, R137, R163, R169). The transmitter is IDLE unless the arbiter grants the reporter at once. -/
def Obligations.SoftResetState : Prop :=
  ∀ (s : State) (q : QueuedFrame) (c : Instr), Acting s → s.trunk.softResetPending = true →
    s.trunk.tx = .sending q → q.bindsReset = true → c = .softReset ∨ c = .endOfTransmission →
    ∃ t, exec c s = .next t ∧
      t.trunk.address = s.trunk.address ∧ t.trunk.rate = s.trunk.rate ∧ t.trunk.parity = s.trunk.parity ∧
      t.trunk.strapFault = s.trunk.strapFault ∧
      t.trunk.port.receiver = .unqualified ∧ t.trunk.port.framer.state = .hunt ∧
      t.trunk.port.framer.gapTimer = none ∧ t.trunk.port.counters = ⟨0, 0, 0, 0, 0, 0, 0⟩ ∧
      t.trunk.counters = ⟨0, 0, 0, 0⟩ ∧ t.trunk.queue = [] ∧ t.trunk.softResetPending = false ∧
      (s.reporter.mode ≠ .unsolicited → t.trunk.tx = .idle) ∧
      t.routes = s.routes ∧
      (∀ i : Slot, t.exchange.record i = none) ∧ t.exchange.admission = [] ∧ t.exchange.completion = [] ∧
      (∀ n : Fin 16, (t.inputs.lines[n]) =
        { s.inputs.lines[n] with run := 0, lost := false, baselineDue := true }) ∧
      t.inputs.holdA = { s.inputs.holdA with run := 0 } ∧ t.inputs.holdB = { s.inputs.holdB with run := 0 } ∧
      t.inputs.period = s.inputs.period ∧ t.inputs.sampleTimer = s.inputs.sampleTimer ∧
      t.hardReset = none ∧ t.timeCounter = s.timeCounter ∧ t.resetCause = .command ∧ t.pending = s.pending

/-- What the soft reset leaves in the segments (R5, R112, R124): a lent segment stays lent, a draining one enters LENT,
any other is IDLE; a pending configuration is applied; a transmission is cut and its pin at mark. That SOFT_RESET and
END_OF_TRANSMISSION do the same is the model's choice (log 16), and so is the closed receiver of a segment that is LENT
after it, where R3 says UNQUALIFIED (log 17). -/
def Obligations.SoftResetSegments : Prop :=
  ∀ (s : State) (q : QueuedFrame) (c : Instr) (x : Seg), Acting s → SegmentsLaw s →
    s.trunk.softResetPending = true → s.trunk.tx = .sending q → q.bindsReset = true →
    c = .softReset ∨ c = .endOfTransmission →
    ∃ t, exec c s = .next t ∧
      ((s.seg x).state = .lent ∨ (s.seg x).drainRequested = true →
        (t.seg x).state = .lent ∧ (t.seg x).hack = true ∧ (t.seg x).port.receiver = .closed) ∧
      ((s.seg x).state ≠ .lent → (s.seg x).drainRequested = false →
        (t.seg x).state = .idle ∧ (t.seg x).hack = false ∧ (t.seg x).port.receiver = .unqualified) ∧
      ((s.seg x).state = .lent → (t.seg x).lentExpired = (s.seg x).lentExpired ∧
        (t.seg x).lentTime = (s.seg x).lentTime) ∧
      ((s.seg x).state ≠ .lent → (t.seg x).lentExpired = false ∧
        (t.seg x).lentTime = if (s.seg x).drainRequested then some 0 else none) ∧
      (t.seg x).config = (s.seg x).pendingConfig.getD (s.seg x).config ∧ (t.seg x).pendingConfig = none ∧
      (t.seg x).current = none ∧ (t.seg x).responseTimer = none ∧ (t.seg x).guardTimer = none ∧
      (t.seg x).drainRequested = false ∧ (t.seg x).tx = none ∧ (t.seg x).de = false ∧
      (∀ n, (t.seg x).line n = mark) ∧
      (t.seg x).tagCounter = (s.seg x).tagCounter ∧
      (t.seg x).port.framer.state = .hunt ∧ (t.seg x).port.framer.gapTimer = none ∧
      (t.seg x).port.counters = ⟨0, 0, 0, 0, 0, 0, 0⟩ ∧ (t.seg x).counters = ⟨0, 0, 0, 0⟩

/-- What the soft reset leaves in the reporter (R156, R169): the configuration and the next batch number are kept, and
the RESTART record stands first; after it the SEGMENT LENT record of each segment that enters LENT at the reset from a
drain, A before B, where the kept mode and class 1 let it in (R124, R169 step 7). In UNSOLICITED mode with an eligible
record among them the arbiter grants the reporter at once, and the batch of the eligible ones goes to the kept
destination under the next batch number; with none eligible (class 0 disabled and no SEGMENT LENT) the transmitter
rests. That SOFT_RESET and END_OF_TRANSMISSION do the same is the model's choice (log 16). -/
def Obligations.SoftResetReporter : Prop :=
  ∀ (s : State) (q : QueuedFrame) (c : Instr), Acting s → s.trunk.softResetPending = true →
    s.trunk.tx = .sending q → q.bindsReset = true → c = .softReset ∨ c = .endOfTransmission →
    let restart : ReportRecord :=
      { subject := .gateway, cls := 0, code := .restart, info := .cause .command, count := 1,
        first := s.timeCounter, last := s.timeCounter, status := .waiting }
    let lent := fun x : Seg =>
      if (s.seg x).state ≠ .lent ∧ (s.seg x).drainRequested = true ∧ s.reporter.mode ≠ .off ∧
          s.reporter.enables.getLsbD 1 = true then
        [{ restart with subject := .segment x, cls := 1, code := .lent, info := .absent }]
      else []
    let records := restart :: lent .a ++ lent .b
    let sent := records.filter fun q => s.reporter.enables.getLsbD q.cls.val
    let time := [s.timeCounter.extractLsb' 8 8, s.timeCounter.extractLsb' 0 8]
    ∃ t, exec c s = .next t ∧
      t.reporter.mode = s.reporter.mode ∧ t.reporter.enables = s.reporter.enables ∧
      t.reporter.timeout = s.reporter.timeout ∧ t.reporter.destination = s.reporter.destination ∧
      t.reporter.carry.count = 0 ∧ t.reporter.resendDue = false ∧ t.reporter.timer = none ∧
      (s.reporter.mode ≠ .unsolicited ∨ sent = [] →
        t.reporter.queue = records ∧ t.reporter.state = .idle ∧ t.reporter.outstanding = none ∧
        t.reporter.sendCount = 0 ∧ t.reporter.nextBatch = s.reporter.nextBatch ∧ t.trunk.tx = .idle) ∧
      (∀ d, s.reporter.mode = .unsolicited → sent ≠ [] → s.reporter.destination = some d →
        t.reporter.queue = records.map (fun q =>
          if s.reporter.enables.getLsbD q.cls.val then { q with status := .inBatch s.reporter.nextBatch } else q) ∧
        t.reporter.state = .outstanding ∧ t.reporter.outstanding = some s.reporter.nextBatch ∧
        t.reporter.sendCount = 1 ∧
        t.reporter.nextBatch = (if s.reporter.nextBatch = 255 then 1 else s.reporter.nextBatch + 1) ∧
        t.trunk.tx = .reporting
          { dest := d, src := s.trunk.address, kind := .rpt, tag := 0, fn := 0
            payload := [s.reporter.nextBatch, BitVec.ofNat 8 sent.length] ++ sent.flatMap fun q =>
              (match q.subject with
                | .segment .a => [0x10, 0x13, 0x01]
                | .segment .b => [0x11, 0x13, 0x01]
                | _ => [0x20, 0x05, 0x31]) ++ time ++ time })

/-- MILLISECOND_TICK (R95, R119, R150, R164): the time counter rises by one, wrapping; running response and report
timers count down and stop at 0, where their expiry command acts (the model's choice, log 9); the lent time counts up
to 25500; the tick that brings the lent time of a LENT segment to its patience expires it in the same event, A before B
where both come to it at once (that order is the model's choice, log 9); nothing else changes. -/
def Obligations.MillisecondTickCounts : Prop :=
  ∀ s : State, Acting s →
    let counted : State := { s with
      timeCounter := BitVec.ofNat 16 (s.timeCounter.toNat + 1)
      segA := { s.segA with responseTimer := s.segA.responseTimer.map (fun m => m - 1),
                            lentTime := s.segA.lentTime.map (fun m => min 25500 (m + 1)) }
      segB := { s.segB with responseTimer := s.segB.responseTimer.map (fun m => m - 1),
                            lentTime := s.segB.lentTime.map (fun m => min 25500 (m + 1)) }
      reporter := { s.reporter with timer := s.reporter.timer.map (fun m => m - 1) } }
    (¬ PatienceReached counted.segA → ¬ PatienceReached counted.segB →
      exec .millisecondTick s = .next counted) ∧
    (ExchangeLaw s →
      (PatienceReached counted.segA → ¬ PatienceReached counted.segB →
        exec .millisecondTick s = .next (counted.patienceExpired .a)) ∧
      (¬ PatienceReached counted.segA → PatienceReached counted.segB →
        exec .millisecondTick s = .next (counted.patienceExpired .b)) ∧
      (PatienceReached counted.segA → PatienceReached counted.segB →
        exec .millisecondTick s = .next ((counted.patienceExpired .a).patienceExpired .b)))

/-! ### Receivers and framers -/

/-- The conditions of a receiver (R3, R4) under IDLE_QUALIFICATION, BREAK_END and FALL_TO_SPACE; what the restart of a
guard timer is (R103, R122); and which characters are good (R1, R3). The model's choices in it: the level at mid start
bit is an operand of FALL_TO_SPACE (log 6), the conditions inBreak and closed have names of their own (log 7), and
IDLE_QUALIFICATION, BREAK_END and FALL_TO_SPACE have no effect in a condition in which their event does not come or
begins nothing (log 4). -/
def Obligations.ReceiverConditions : Prop :=
  (∀ (s : State) (p : PortId), Acting s →
    ((s.port p).receiver = .unqualified →
      exec (.idleQualification p) s = .next (s.modPort p fun q => { q with receiver := .ready })) ∧
    ((s.port p).receiver ≠ .unqualified → exec (.idleQualification p) s = .next s) ∧
    ((s.port p).receiver = .inBreak →
      exec (.breakEnd p) s = .next (s.modPort p fun q => { q with receiver := .unqualified })) ∧
    ((s.port p).receiver ≠ .inBreak → exec (.breakEnd p) s = .next s) ∧
    ((s.port p).receiver = .ready →
      exec (.fallToSpace p true) s = .next (s.modPort p fun q => { q with receiver := .receiving }) ∧
      exec (.fallToSpace p false) s = .next s) ∧
    ((s.port p).receiver = .receiving ∨ (s.port p).receiver = .inBreak ∨ (s.port p).receiver = .closed →
      ∀ b, exec (.fallToSpace p b) s = .next s) ∧
    ((s.port p).receiver = .unqualified → ∀ b, exec (.fallToSpace p b) s = .next (s.restartGuard p))) ∧
  (∀ (s : State) (x : Seg), (s.seg x).state = .guard ∨ (s.seg x).state = .resume →
    s.restartGuard (.segment x) = s.modSeg x fun g => { g with guardTimer := some g.config.guard.toNat }) ∧
  (∀ (s : State) (x : Seg), (s.seg x).state ≠ .guard → (s.seg x).state ≠ .resume →
    s.restartGuard (.segment x) = s) ∧
  (∀ s : State, s.restartGuard .trunk = s) ∧
  (∀ (par : Parity) (c : RawChar), charGood par c = true ↔
    c.stopBit = true ∧
    (par = .even → ((List.range 8).countP (fun i => c.data.getLsbD i) + if c.parityBit then 1 else 0) % 2 = 0) ∧
    (par = .odd → ((List.range 8).countP (fun i => c.data.getLsbD i) + if c.parityBit then 1 else 0) % 2 = 1))

/-- ARRIVAL in HUNT (R11): a good D5h is a lead; every other character is discarded uncounted. A character or a break
is taken in READY as in RECEIVING (the model's choice, log 5). -/
def Obligations.HuntTakesTheLeadAlone : Prop :=
  ∀ (s : State) (p : PortId) (c : RawChar), Acting s →
    (s.port p).receiver = .ready ∨ (s.port p).receiver = .receiving → (s.port p).framer.state = .hunt →
    (charGood (s.parity p) c = true → c.data = 0xD5 →
      exec (.arrival p c) s = .next ((s.modPort p fun q => { q with
        receiver := .ready
        framer := { state := .header, fields := [], expected := 0, remainder := 0xFFFF, highCheck := none,
                    gapTimer := some (s.gapLimit p) } }).restartGuard p)) ∧
    (charGood (s.parity p) c = false ∨ c.data ≠ 0xD5 →
      exec (.arrival p c) s = .next ((s.modPort p fun q => { q with receiver := .ready }).restartGuard p))

/-- ARRIVAL of a good character in HEADER, BODY and for the first check byte (R12, R13): it is stored and enters the
check remainder; the length byte decides; the gap timer restarts at the gap limit of the port, 4 on the trunk and the
configured one on a segment. What a byte makes of the remainder (R9): bit by bit, most significant first, each bit is
compared with the remainder's most significant bit, the remainder is shifted one place up, and 1021h is combined where
the two differed. A character or a break is taken in READY as in RECEIVING (the model's choice, log 5). -/
def Obligations.HeaderAndBodyCollect : Prop :=
  (∀ (remainder : Word) (b : Byte),
    let enters := fun (r : Word) (i : Nat) =>
      if b.getLsbD i = r.getLsbD 15 then r <<< 1 else (r <<< 1) ^^^ 0x1021
    crcByte remainder b =
      enters (enters (enters (enters (enters (enters (enters (enters remainder 7) 6) 5) 4) 3) 2) 1) 0) ∧
  (∀ s : State, s.gapLimit .trunk = 4 ∧ ∀ x : Seg, s.gapLimit (.segment x) = (s.seg x).config.gapLimit.toNat) ∧
  ∀ (s : State) (p : PortId) (c : RawChar), Acting s →
    (s.port p).receiver = .ready ∨ (s.port p).receiver = .receiving → charGood (s.parity p) c = true →
    ((s.port p).framer.state = .header → (s.port p).framer.fields.length < 4 →
      exec (.arrival p c) s = .next ((s.modPort p fun q => { q with
        receiver := .ready
        framer := { state := .header, fields := q.framer.fields ++ [c.data], expected := 0,
                    remainder := crcByte q.framer.remainder c.data, highCheck := none,
                    gapTimer := some (s.gapLimit p) } }).restartGuard p)) ∧
    ((s.port p).framer.state = .header → (s.port p).framer.fields.length = 4 → 48 < c.data.toNat →
      exec (.arrival p c) s = .next ((s.modPort p fun q => { q with
        receiver := .ready, framer := Framer.reset
        counters := { q.counters with length := satInc q.counters.length } }).restartGuard p)) ∧
    ((s.port p).framer.state = .header → (s.port p).framer.fields.length = 4 → c.data = 0 →
      exec (.arrival p c) s = .next ((s.modPort p fun q => { q with
        receiver := .ready
        framer := { state := .check, fields := q.framer.fields ++ [c.data], expected := 0,
                    remainder := crcByte q.framer.remainder c.data, highCheck := none,
                    gapTimer := some (s.gapLimit p) } }).restartGuard p)) ∧
    ((s.port p).framer.state = .header → (s.port p).framer.fields.length = 4 → 1 ≤ c.data.toNat →
      c.data.toNat ≤ 48 →
      exec (.arrival p c) s = .next ((s.modPort p fun q => { q with
        receiver := .ready
        framer := { state := .body, fields := q.framer.fields ++ [c.data], expected := c.data.toNat,
                    remainder := crcByte q.framer.remainder c.data, highCheck := none,
                    gapTimer := some (s.gapLimit p) } }).restartGuard p)) ∧
    ((s.port p).framer.state = .body → 1 < (s.port p).framer.expected →
      exec (.arrival p c) s = .next ((s.modPort p fun q => { q with
        receiver := .ready
        framer := { state := .body, fields := q.framer.fields ++ [c.data], expected := q.framer.expected - 1,
                    remainder := crcByte q.framer.remainder c.data, highCheck := none,
                    gapTimer := some (s.gapLimit p) } }).restartGuard p)) ∧
    ((s.port p).framer.state = .body → (s.port p).framer.expected = 1 →
      exec (.arrival p c) s = .next ((s.modPort p fun q => { q with
        receiver := .ready
        framer := { state := .check, fields := q.framer.fields ++ [c.data], expected := 0,
                    remainder := crcByte q.framer.remainder c.data, highCheck := none,
                    gapTimer := some (s.gapLimit p) } }).restartGuard p)) ∧
    ((s.port p).framer.state = .check → (s.port p).framer.highCheck = none →
      exec (.arrival p c) s = .next ((s.modPort p fun q => { q with
        receiver := .ready
        framer := { q.framer with highCheck := some c.data, gapTimer := some (s.gapLimit p) } }).restartGuard p))

/-- A character in error in a frame, a break in any framer state and a gap expiry (R13, R14): each counts in its own
counter alone, which stops at 65535 (R17), and the framer is in HUNT. A break leaves the receiver taking no start bit
until the line is back at mark (R4): that condition's name inBreak is the model's choice (log 7), and so are that a
stopped gap timer's expiry has no effect (log 4) and that a character or a break is taken in READY as in RECEIVING (log
5). -/
def Obligations.FaultsAbandonTheFrame : Prop :=
  (∀ (s : State) (p : PortId) (c : RawChar), Acting s →
    (s.port p).receiver = .ready ∨ (s.port p).receiver = .receiving → (s.port p).framer.state ≠ .hunt →
    charGood (s.parity p) c = false →
    exec (.arrival p c) s = .next ((s.modPort p fun q => { q with
      receiver := .ready, framer := Framer.reset
      counters := { q.counters with char := satInc q.counters.char } }).restartGuard p)) ∧
  (∀ (s : State) (p : PortId), Acting s →
    (s.port p).receiver = .ready ∨ (s.port p).receiver = .receiving →
    exec (.lineBreak p) s = .next ((s.modPort p fun q => { q with
      receiver := .inBreak, framer := Framer.reset
      counters := { q.counters with brk := satInc q.counters.brk } }).restartGuard p)) ∧
  (∀ (s : State) (p : PortId), Acting s → (s.port p).framer.gapTimer.isSome = true →
    exec (.gapTimerExpiry p) s = .next (s.modPort p fun q => { q with
      framer := Framer.reset, counters := { q.counters with gap := satInc q.counters.gap } })) ∧
  (∀ (s : State) (p : PortId), Acting s → (s.port p).framer.gapTimer = none →
    exec (.gapTimerExpiry p) s = .next s) ∧
  (∀ count : Word, (satInc count).toNat = min 65535 (count.toNat + 1)) ∧
  (Framer.reset.state = .hunt ∧ Framer.reset.gapTimer = none ∧ Framer.reset.fields = [])

/-- ARRIVAL of the second check byte (R9, R15): the check is judged first, then the format, then the frame is good.
Only a segment framer gives a notice, and only at a bad check. A character or a break is taken in READY as in RECEIVING
(the model's choice, log 5). The delivered frame stands in the model's own list of deliveries until its command takes
it (log 3). -/
def Obligations.CompletionIsJudged : Prop :=
  ∀ (s : State) (p : PortId) (c : RawChar) (high dest src kt fn len : Byte) (payload : List Byte), Acting s →
    (s.port p).receiver = .ready ∨ (s.port p).receiver = .receiving → charGood (s.parity p) c = true →
    (s.port p).framer.state = .check → (s.port p).framer.highCheck = some high →
    (s.port p).framer.fields = [dest, src, kt, fn, len] ++ payload →
    ((s.port p).framer.remainder ≠ high ++ c.data →
      exec (.arrival p c) s = .next ((s.modPort p fun q => { q with
        receiver := .ready, framer := Framer.reset
        counters := { q.counters with check := satInc q.counters.check }
        deliveries := if p = .trunk then q.deliveries else q.deliveries ++ [.corruptNotice] }).restartGuard p)) ∧
    ((s.port p).framer.remainder = high ++ c.data →
      (kt.toNat / 32 = 0 ∨ 6 ≤ kt.toNat / 32 ∨ dest = 255 ∨ (p = .trunk ∧ dest = 0) ∨ src = 0 ∨ src = 255) →
      exec (.arrival p c) s = .next ((s.modPort p fun q => { q with
        receiver := .ready, framer := Framer.reset
        counters := { q.counters with format := satInc q.counters.format } }).restartGuard p)) ∧
    (∀ k : FrameKind, (s.port p).framer.remainder = high ++ c.data → kt.toNat / 32 = (kindCode k).toNat →
      dest ≠ 255 → (p = .trunk → dest ≠ 0) → src ≠ 0 → src ≠ 255 →
      exec (.arrival p c) s = .next ((s.modPort p fun q => { q with
        receiver := .ready, framer := Framer.reset
        counters := { q.counters with good := satInc q.counters.good }
        deliveries := q.deliveries ++ [.frame
          { dest := dest, src := src, kind := k, tag := BitVec.ofNat 5 kt.toNat, fn := fn,
            payload := payload }] }).restartGuard p))

/-- A frame as a transmitter of the line's parity sends it (lead, fields, payload, check), fed character by character
to a framer in HUNT, is delivered as the same frame and counted good once; nothing else changes (R5, R6, R9 to R15,
R173). Those bytes are the lead D5h, the five header bytes with the kind's code above the tag, the payload, and the
check over header and payload from FFFFh, high byte first (R7, R9, R173). The characters come to a receiver in READY
without a FALL_TO_SPACE of their own (the model's choice, log 5), and the delivered frame stands in the model's own
list of deliveries until its command takes it (log 3). And what the transmit pins carry, bit time by bit time (R1, R5,
R27; the list of levels is the model's form, log 23): the frame's characters back to back, each a start bit at space,
the data bits from the least significant, the parity bit if any and a stop bit at mark; after them, and with nothing in
transmission, mark. -/
def Obligations.FramesRoundTrip : Prop :=
  (∀ (s : State) (p : PortId) (f : Frame) (rest : List Instr), Acting s →
    (s.port p).receiver = .ready → (s.port p).framer = Framer.reset →
    (∀ x : Seg, p = .segment x → (s.seg x).state = .idle ∨ (s.seg x).state = .wait) →
    (if p = .trunk then f.goodOnTrunk else f.goodOnSegment) = true →
    Host.Core.run Sys2Proof.core (8 + f.payload.length)
      { s with pending := (frameBytes f).map (fun b => .arrival p (charOf (s.parity p) b)) ++ rest } =
    .next ({ s with pending := rest }.modPort p fun q => { q with
      counters := { q.counters with good := satInc q.counters.good }
      deliveries := q.deliveries ++ [Delivery.frame f] })) ∧
  ((∀ f : Frame,
    let covered := [f.dest, f.src, BitVec.ofNat 8 (32 * (kindCode f.kind).toNat + f.tag.toNat), f.fn,
      BitVec.ofNat 8 f.payload.length] ++ f.payload
    let check := covered.foldl crcByte 0xFFFF
    frameBytes f = [0xD5] ++ covered ++ [check.extractLsb' 8 8, check.extractLsb' 0 8]) ∧
    [FrameKind.req, .rsp, .nak, .rpt, .rack].map kindCode = [1, 2, 3, 4, 5]) ∧
  (∀ s : State, s.trunk.tx = .idle → ∀ n, s.trunkLine n = mark) ∧
  (∀ (s : State) (q : QueuedFrame), s.trunk.tx = .sending q → LineCarries s.trunk.parity q.frame s.trunkLine) ∧
  (∀ (s : State) (f : Frame), s.trunk.tx = .reporting f → LineCarries s.trunk.parity f s.trunkLine) ∧
  (∀ g : Segment, g.de = false ∨ g.tx = none → ∀ n, g.line n = mark) ∧
  (∀ (g : Segment) (f : Frame), g.de = true → g.tx = some f → LineCarries g.config.parity f g.line)

/-! ### Deliveries of trunk frames -/

/-- Lookup (R37) in a bank without equal keys (R36): the entry with the exact key, otherwise the entry of the address
with ANY, otherwise a miss. -/
def Obligations.LookupByKey : Prop :=
  ∀ (t : RouteTable) (dest fn : Byte), KeysDistinct t.active →
    (∀ (i : Fin 48) (e : RouteEntry), t.active[i] = some e → e.trunkAddress = dest → e.fnMatch = some fn →
      t.lookup dest fn = some i.val) ∧
    ((∀ (j : Fin 48) (e : RouteEntry), t.active[j] = some e → e.key ≠ (dest, some fn)) →
      (∀ (i : Fin 48) (e : RouteEntry), t.active[i] = some e → e.trunkAddress = dest → e.fnMatch = none →
        t.lookup dest fn = some i.val) ∧
      ((∀ (j : Fin 48) (e : RouteEntry), t.active[j] = some e → e.key ≠ (dest, none)) →
        t.lookup dest fn = none))

/-- ROUTED_REQUEST that ends at the dispatcher (R22, R25, R39, R41, R45, R46): a miss under policy DROP and a DROP
entry count route-drop whatever the queue holds; a miss under policy REFUSE answers NAK NO-ROUTE and a REFUSE entry NAK
REFUSED with its detail, or each counts REPLY-DROP where the queue holds 8 frames; a selected entry counts its hit. The
delivered frame stands in the model's own list of deliveries until its command takes it (log 3). -/
def Obligations.RequestsEndedAtDispatch : Prop :=
  (∀ (s : State) (f : Frame), Dispatching s → OutputLaw s → f.goodOnTrunk = true → f.kind = .req →
    f.dest ≠ s.trunk.address → s.routes.lookup f.dest f.fn = none →
    (s.routes.missPolicy = .drop →
      exec (.routedRequest f) s = .next ((s.taken f).modTrunk fun t =>
        { t with counters := { t.counters with routeDrop := satInc t.counters.routeDrop } })) ∧
    (s.routes.missPolicy = .refuse → s.trunk.queue.length < 8 →
      exec (.routedRequest f) s = .next ((s.taken f).nakked f [0x11])) ∧
    (s.routes.missPolicy = .refuse → s.trunk.queue.length = 8 →
      exec (.routedRequest f) s = .next ((s.taken f).modTrunk fun t =>
        { t with counters := { t.counters with replyDrop := satInc t.counters.replyDrop } }))) ∧
  (∀ (s : State) (f : Frame) (i : Fin 48) (e : RouteEntry), Dispatching s → OutputLaw s → f.goodOnTrunk = true →
    f.kind = .req → f.dest ≠ s.trunk.address → s.routes.lookup f.dest f.fn = some i.val →
    s.routes.active[i] = some e →
    (e.action = .drop →
      exec (.routedRequest f) s = .next (((s.taken f).hit i e).modTrunk fun t =>
        { t with counters := { t.counters with routeDrop := satInc t.counters.routeDrop } })) ∧
    (e.action = .refuse → s.trunk.queue.length < 8 →
      exec (.routedRequest f) s = .next (((s.taken f).hit i e).nakked f [0x10, e.refuseDetail])) ∧
    (e.action = .refuse → s.trunk.queue.length = 8 →
      exec (.routedRequest f) s = .next (((s.taken f).hit i e).modTrunk fun t =>
        { t with counters := { t.counters with replyDrop := satInc t.counters.replyDrop } })))

/-- ROUTED_REQUEST whose FORWARD offer the exchange table refuses (R39, R68 to R71): NAK DUPLICATE first, then NAK
LENT, then NAK BUSY; the hit is counted and nothing else changes. With 8 frames queued REPLY-DROP counts in place of
each reply (R25). The delivered frame stands in the model's own list of deliveries until its command takes it (log 3).
-/
def Obligations.ForwardOffersRefused : Prop :=
  ∀ (s : State) (f : Frame) (i : Fin 48) (e : RouteEntry) (payload : List Byte), Dispatching s → OutputLaw s →
    f.goodOnTrunk = true → f.kind = .req → f.dest ≠ s.trunk.address →
    s.routes.lookup f.dest f.fn = some i.val → s.routes.active[i] = some e → e.action = .forward →
    (if (∃ slot : Slot, (s.exchange.record slot).map Record.pair = some (f.src, f.tag)) then payload = [0x13]
     else if (s.seg e.segment).lentExpired = true then payload = [0x14, if e.segment = .a then 1 else 2]
     else ((∀ slot : Slot, s.exchange.record slot ≠ none) ∨
        (s.seg e.segment).config.depth.toNat ≤ (s.exchange.standing e.segment).length) ∧
       payload = [0x12, if e.segment = .a then 1 else 2]) →
    (s.trunk.queue.length < 8 →
      exec (.routedRequest f) s = .next (((s.taken f).hit i e).nakked f payload)) ∧
    (s.trunk.queue.length = 8 →
      exec (.routedRequest f) s = .next (((s.taken f).hit i e).modTrunk fun t =>
        { t with counters := { t.counters with replyDrop := satInc t.counters.replyDrop } }))

/-- ROUTED_REQUEST whose FORWARD offer is admitted (R39, R43, R48, R72, R91 to R93): the lowest FREE slot holds the
copies and the admission list grows at its tail; a busy or lent sequencer changes nothing, a sequencer in IDLE begins
the first attempt at once. The delivered frame stands in the model's own list of deliveries until its command takes it
(log 3). -/
def Obligations.ForwardIsAdmitted : Prop :=
  ∀ (s : State) (f : Frame) (i : Fin 48) (e : RouteEntry) (slot : Slot), Dispatching s → ExchangeLaw s →
    f.goodOnTrunk = true → f.kind = .req → f.dest ≠ s.trunk.address →
    s.routes.lookup f.dest f.fn = some i.val → s.routes.active[i] = some e → e.action = .forward →
    (∀ j : Slot, (s.exchange.record j).map Record.pair ≠ some (f.src, f.tag)) →
    (s.seg e.segment).lentExpired = false →
    s.exchange.record slot = none → (∀ j : Slot, j < slot → s.exchange.record j ≠ none) →
    (s.exchange.standing e.segment).length < (s.seg e.segment).config.depth.toNat →
    ((s.seg e.segment).state ≠ .idle →
      exec (.routedRequest f) s = .next { (s.taken f).hit i e with
        exchange := { s.exchange with
          slots := s.exchange.slots.set slot (some
            { state := .queued, source := f.src, tag := f.tag, dest := f.dest, fn := f.fn,
              segAddress := e.segAddress, segFn := e.remap.getD f.fn, payload := f.payload, attempts := 0,
              carriage := .single { segment := e.segment, timeout := e.timeout, retries := e.retryLimit.toNat,
                                    segTag := none } })
          admission := s.exchange.admission ++ [slot] } }) ∧
    ((s.seg e.segment).state = .idle →
      exec (.routedRequest f) s = .next ({ (s.taken f).hit i e with
        exchange := { s.exchange with
          slots := s.exchange.slots.set slot (some
            { state := .active, source := f.src, tag := f.tag, dest := f.dest, fn := f.fn,
              segAddress := e.segAddress, segFn := e.remap.getD f.fn, payload := f.payload, attempts := 1,
              carriage := .single { segment := e.segment, timeout := e.timeout, retries := e.retryLimit.toNat,
                                    segTag := some (s.seg e.segment).tagCounter } })
          admission := s.exchange.admission ++ [slot] } }.modSeg e.segment fun g => { g with
        port := { g.port with receiver := .closed, framer := Framer.reset }
        state := .send, current := some slot, tagCounter := g.tagCounter + 1
        tx := some { dest := e.segAddress, src := 254, kind := .req, tag := g.tagCounter,
                     fn := e.remap.getD f.fn, payload := f.payload }
        de := true }))

/-- ROUTED_REQUEST with a FANOUT entry (R25, R39, R44, R68 to R72, R104). Refused: NAK DUPLICATE first, then NAK LENT
03h with both segments lent-expired, then NAK BUSY with the mask of the segments left, and with 8 frames queued
REPLY-DROP in place of each. Admitted: for both segments, or for the one that is not lent-expired; a sequencer in IDLE
begins the delivery at once, and one that is busy or lent changes nothing. The delivered frame stands in the model's
own list of deliveries until its command takes it (log 3). -/
def Obligations.FanoutIsAdmitted : Prop :=
  ∀ (s : State) (f : Frame) (i : Fin 48) (e : RouteEntry), Dispatching s → ExchangeLaw s →
    f.goodOnTrunk = true → f.kind = .req → f.dest ≠ s.trunk.address →
    s.routes.lookup f.dest f.fn = some i.val → s.routes.active[i] = some e → e.action = .fanout →
    (∀ payload : List Byte,
      (if (∃ slot : Slot, (s.exchange.record slot).map Record.pair = some (f.src, f.tag)) then payload = [0x13]
       else if s.segA.lentExpired = true ∧ s.segB.lentExpired = true then payload = [0x14, 0x03]
       else ((∀ slot : Slot, s.exchange.record slot ≠ none) ∨
          (s.segA.lentExpired = false ∧ s.segA.config.depth.toNat ≤ (s.exchange.standing .a).length) ∨
          (s.segB.lentExpired = false ∧ s.segB.config.depth.toNat ≤ (s.exchange.standing .b).length)) ∧
         payload = [0x12, maskByte (!s.segA.lentExpired) (!s.segB.lentExpired)]) →
      (s.trunk.queue.length < 8 →
        exec (.routedRequest f) s = .next (((s.taken f).hit i e).nakked f payload)) ∧
      (s.trunk.queue.length = 8 →
        exec (.routedRequest f) s = .next (((s.taken f).hit i e).modTrunk fun t =>
          { t with counters := { t.counters with replyDrop := satInc t.counters.replyDrop } }))) ∧
    (∀ slot : Slot, (∀ j : Slot, (s.exchange.record j).map Record.pair ≠ some (f.src, f.tag)) →
      s.segA.lentExpired = false ∨ s.segB.lentExpired = false →
      s.exchange.record slot = none → (∀ j : Slot, j < slot → s.exchange.record j ≠ none) →
      (∀ x : Seg, (s.seg x).lentExpired = false →
        (s.exchange.standing x).length < (s.seg x).config.depth.toNat) →
      let begins := fun g : Segment => g.lentExpired == false && g.state == .idle
      exec (.routedRequest f) s = .next (({ (s.taken f).hit i e with
        exchange := { s.exchange with
          slots := s.exchange.slots.set slot (some
            { state := if begins s.segA || begins s.segB then .active else .queued
              source := f.src, tag := f.tag, dest := f.dest, fn := f.fn, segAddress := 0,
              segFn := e.remap.getD f.fn, payload := f.payload
              attempts := (if begins s.segA then 1 else 0) + (if begins s.segB then 1 else 0)
              carriage := .broadcast
                { pending := { a := !s.segA.lentExpired, b := !s.segB.lentExpired }
                  delivered := { a := false, b := false }
                  withdrawn := (if s.segA.lentExpired then [(⟨.a, .lent⟩ : Withdrawal)] else []) ++
                    (if s.segB.lentExpired then [(⟨.b, .lent⟩ : Withdrawal)] else []) } })
          admission := s.exchange.admission ++ [slot] } }.modSeg .a fun g =>
            if begins g then g.sendNow slot 0 (e.remap.getD f.fn) f.payload else g).modSeg .b fun g =>
            if begins g then g.sendNow slot 0 (e.remap.getD f.fn) f.payload else g))

/-- UNEXPECTED (R20): frames of kind RSP, NAK and RPT, and a RACK for another address than the gateway's, are discarded
and counted. While a soft reset is pending every good trunk frame is discarded unclassified and counts nothing more
(R21). The delivered frame stands in the model's own list of deliveries until its command takes it (log 3). -/
def Obligations.DiscardedTrunkFrames : Prop :=
  (∀ (s : State) (f : Frame), Dispatching s → f.goodOnTrunk = true →
    f.kind = .rsp ∨ f.kind = .nak ∨ f.kind = .rpt ∨ (f.kind = .rack ∧ f.dest ≠ s.trunk.address) →
    exec (.unexpected f) s = .next ((s.taken f).modTrunk fun t =>
      { t with counters := { t.counters with unexpected := satInc t.counters.unexpected } })) ∧
  (∀ (s : State) (f : Frame), Acting s → s.trunk.softResetPending = true → f.goodOnTrunk = true →
    exec (.pendingSoftResetDiscard f) s = .next (s.taken f) ∧
    (f.kind = .req → f.dest ≠ s.trunk.address → exec (.routedRequest f) s = .next (s.taken f)) ∧
    (f.kind = .rsp ∨ f.kind = .nak ∨ f.kind = .rpt → exec (.unexpected f) s = .next (s.taken f))) ∧
  (∀ (s : State) (r : Request) (fn : Byte), Acting s → s.trunk.softResetPending = true → r.ok = true →
    exec (commandOf fn r) s = .next (s.taken (s.commandFrame fn r)) ∧
    exec (.rack fn r) s = .next (s.taken { s.commandFrame fn r with kind := .rack }))

/-- RACK (R144, R147, R149, R151): one that names the outstanding batch in UNSOLICITED mode acknowledges it, from
OUTSTANDING and from STALLED alike: its records leave, an OVERFLOW record among them gives way to the carry, and the
reporter is IDLE (`Reporter.acknowledged`). With the transmitter busy or no eligible record left that is all; with the
transmitter IDLE and an eligible record left, a fresh OVERFLOW record among them, the arbiter grants the reporter in
the same event, and the next batch is sent (`NewBatchGranted`). Every other RACK counts RACK-ignored and changes
nothing else. The delivered frame stands in the model's own list of deliveries until its command takes it (log 3). -/
def Obligations.RackIsJudged : Prop :=
  ∀ (s : State) (r : Request) (batch : Byte), Dispatching s → OutputLaw s → r.ok = true →
    let taken := s.taken { s.commandFrame batch r with kind := .rack }
    let left := s.reporter.acknowledged
    (s.reporter.mode = .unsolicited → s.reporter.outstanding = some batch →
      (s.trunk.tx ≠ .idle ∨ NothingEligible left → exec (.rack batch r) s = .next { taken with reporter := left }) ∧
      (∀ d : Byte, s.trunk.tx = .idle → s.reporter.destination = some d →
        (∃ q ∈ left.queue, q.status = .waiting ∧ left.enables.getLsbD q.cls.val = true) →
        ∃ (rep : Reporter) (tx : TrunkTx),
          exec (.rack batch r) s = .next { taken with
            reporter := rep, trunk := { taken.trunk with tx := tx } } ∧
          NewBatchGranted d s.trunk.address left tx rep)) ∧
    (s.reporter.mode ≠ .unsolicited ∨ s.reporter.outstanding ≠ some batch →
      exec (.rack batch r) s = .next (taken.modTrunk fun t =>
        { t with counters := { t.counters with rackIgnored := satInc t.counters.rackIgnored } }))

/-! ### Management commands: the order of judgement -/

/-- A management command that finds 8 frames in the output queue is discarded before anything else is judged, and
counts REPLY-DROP alone (R25, R158 step 1). The delivered frame stands in the model's own list of deliveries until its
command takes it (log 3). -/
def Obligations.FullQueueDiscardsCommands : Prop :=
  ∀ (s : State) (fn : Byte) (r : Request), Dispatching s → r.ok = true → 8 ≤ s.trunk.queue.length →
    exec (commandOf fn r) s = .next ((s.taken (s.commandFrame fn r)).modTrunk fun t =>
      { t with counters := { t.counters with replyDrop := satInc t.counters.replyDrop } })

/-- With room in the queue, a function outside the command table is refused NAK UNKNOWN, and a payload of another
length than the command's NAK LENGTH; the reply is the only change (R157, R158 steps 2 and 3). The delivered frame
stands in the model's own list of deliveries until its command takes it (log 3). -/
def Obligations.UnknownAndWrongLengthRefused : Prop :=
  ∀ (s : State) (fn : Byte) (r : Request), Ready s r → OutputLaw s →
    (commandLength fn = none →
      exec (commandOf fn r) s = .next ((s.taken (s.commandFrame fn r)).answered .nak fn r [0x01])) ∧
    (∀ n, commandLength fn = some n → r.payload.length ≠ n →
      exec (commandOf fn r) s = .next ((s.taken (s.commandFrame fn r)).answered .nak fn r [0x02]))

/-- With room in the queue and the right length, the first field out of range in offset order refuses the command NAK
RANGE with its offset; the reply is the only change (R158 step 4 with the ranges of the owning chapters). The delivered
frame stands in the model's own list of deliveries until its command takes it (log 3). -/
def Obligations.FirstFieldOutOfRangeRefused : Prop :=
  ∀ (s : State) (fn : Byte) (r : Request) (offset : Nat), Ready s r → OutputLaw s →
    commandLength fn = some r.payload.length → ¬ fieldInRange fn r.payload offset →
    (∀ o, o < offset → fieldInRange fn r.payload o) →
    exec (commandOf fn r) s =
      .next ((s.taken (s.commandFrame fn r)).answered .nak fn r [0x03, BitVec.ofNat 8 offset])

/-! ### Management commands: execution -/

/-- READ-STATUS, READ-ENTRY, READ-EXCHANGES and READ-SEGMENT answer what they read and change nothing else (R58, R85,
R86, R108, R159, R162, R174 to R176, R179), the codes of the layouts among them. The delivered frame stands in the
model's own list of deliveries until its command takes it (log 3). -/
def Obligations.ReadCommandsReply : Prop :=
  ∀ (s : State) (r : Request), Ready s r → OutputLaw s →
    (r.payload = [] →
    exec (.readStatus r) s = .next ((s.taken (s.commandFrame 0x01 r)).answered .rsp 0x01 r
      [s.trunk.address,
       BitVec.ofNat 8 ((if s.trunk.strapFault then 1 else 0) + 16 * (causeCode s.resetCause).toNat),
       s.timeCounter.extractLsb' 8 8, s.timeCounter.extractLsb' 0 8,
       s.routes.generation.extractLsb' 8 8, s.routes.generation.extractLsb' 0 8,
       BitVec.ofNat 8 s.routes.activeCount, BitVec.ofNat 8 s.routes.stagedCount,
       (if s.routes.missPolicy = .refuse then 0 else 1),
       BitVec.ofNat 8 (s.exchange.slots.toList.countP fun r => r.isNone),
       BitVec.ofNat 8 (s.exchange.slots.toList.countP fun r => r.any fun r => r.state == .queued),
       BitVec.ofNat 8 (s.exchange.slots.toList.countP fun r => r.any fun r => r.state == .active),
       BitVec.ofNat 8 (s.exchange.slots.toList.countP fun r => r.any fun r => r.state.isComplete),
       seqStateCode s.segA.state,
       BitVec.ofNat 8 ((if s.segA.pendingConfig.isSome then 1 else 0) + (if s.segA.lentExpired then 4 else 0)),
       seqStateCode s.segB.state,
       BitVec.ofNat 8 ((if s.segB.pendingConfig.isSome then 1 else 0) + (if s.segB.lentExpired then 4 else 0)),
       modeCode s.reporter.mode, reporterStateCode s.reporter.state, s.reporter.outstanding.getD 0,
       BitVec.ofNat 8 (s.reporter.queue.countP fun q => q.code != .overflow),
       (if s.reporter.queue.any (fun q => q.code == .overflow) then 1 else 0)])) ∧
    (∀ (bank index : Byte) (h : index.toNat < 48), r.payload = [bank, index] → bank.toNat ≤ 1 →
      ((if bank = 0 then s.routes.active else s.routes.staged)[index.toNat] = none →
        exec (.readEntry r) s = .next ((s.taken (s.commandFrame 0x12 r)).answered .rsp 0x12 r
          [index, 0, 0, 0, 0, 0, 0, 0, 0, 0, 0, 0])) ∧
      (∀ e, (if bank = 0 then s.routes.active else s.routes.staged)[index.toNat] = some e →
        exec (.readEntry r) s = .next ((s.taken (s.commandFrame 0x12 r)).answered .rsp 0x12 r
          [index, actionCode e.action, e.trunkAddress, e.fnMatch.getD 0,
           BitVec.ofNat 8 ((if e.fnMatch = none then 1 else 0) + (if e.remap = none then 0 else 2) +
             (if e.segment = .a then 0 else 4)),
           e.segAddress, e.remap.getD 0, e.timeout, e.retryLimit, e.refuseDetail,
           e.hits.extractLsb' 8 8, e.hits.extractLsb' 0 8]))) ∧
    (r.payload = [] → ∃ bytes, bytes.length = 48 ∧
      exec (.readExchanges r) s = .next ((s.taken (s.commandFrame 0x20 r)).answered .rsp 0x20 r bytes) ∧
      (∀ slot : Slot, s.exchange.record slot = none →
        ∀ k, k < 3 → bytes.getD (3 * slot.val + k) 0 = 0) ∧
      (∀ (slot : Slot) (q : Record), s.exchange.record slot = some q →
        bytes.getD (3 * slot.val + 1) 0 = q.source ∧
        bytes.getD (3 * slot.val + 2) 0 = BitVec.ofNat 8 (32 * q.attempts + q.tag.toNat) ∧
        (∀ c, q.carriage = .single c → bytes.getD (3 * slot.val) 0 =
          if q.state.isComplete then 3 else (if q.state = .queued then 1 else 2) + (if c.segment = .a then 8 else 16)) ∧
        (∀ c, q.carriage = .broadcast c → bytes.getD (3 * slot.val) 0 =
          if q.state.isComplete then 7 else (if q.state = .queued then 5 else 6) + (if c.pending.a then 8 else 0) +
            (if c.pending.b then 16 else 0)))) ∧
    (∀ x : Seg, r.payload = [if x = .a then 1 else 2] →
      exec (.readSegment r) s = .next ((s.taken (s.commandFrame 0x24 r)).answered .rsp 0x24 r
        ([if x = .a then 1 else 2] ++
         [BitVec.ofNat 8 (s.seg x).config.rate.toNat, parityCode (s.seg x).config.parity, (s.seg x).config.gapLimit,
          (s.seg x).config.guard, (s.seg x).config.depth, (s.seg x).config.patience] ++
         (match (s.seg x).pendingConfig with
          | none => [0, 0, 0, 0, 0, 0]
          | some c => [BitVec.ofNat 8 c.rate.toNat, parityCode c.parity, c.gapLimit, c.guard, c.depth, c.patience]) ++
         [BitVec.ofNat 8 ((if (s.seg x).pendingConfig.isSome then 1 else 0) +
            (if (s.seg x).drainRequested then 2 else 0) + (if (s.seg x).lentExpired then 4 else 0)),
          seqStateCode (s.seg x).state, BitVec.ofNat 8 (s.exchange.standing x).length,
          BitVec.ofNat 8 (s.seg x).tagCounter.toNat]))) ∧
    ([SeqState.idle, .send, .wait, .guard, .lent, .resume].map seqStateCode = [0, 1, 2, 3, 4, 5] ∧
      [Parity.none, .even, .odd].map parityCode = [0, 1, 2] ∧
      [Action.forward, .fanout, .refuse, .drop].map actionCode = [1, 2, 3, 4] ∧
      [ReportMode.off, .polled, .unsolicited].map modeCode = [0, 1, 2] ∧
      [ReporterState.idle, .outstanding, .stalled].map reporterStateCode = [0, 1, 2] ∧
      [ResetCause.power, .pin, .command].map causeCode = [1, 2, 3])

/-- READ-COUNTERS answers the port and its eleven counters, high byte first; with the clear flag it then zeroes the
eleven and no other (R165, R171, R180). The delivered frame stands in the model's own list of deliveries until its
command takes it (log 3). -/
def Obligations.CountersReadAndCleared : Prop :=
  ∀ (s : State) (r : Request), Ready s r → OutputLaw s →
    (∀ clear : Byte, clear.toNat ≤ 1 → r.payload = [0, clear] →
      exec (.readCounters r) s = .next (((s.taken (s.commandFrame 0x02 r)).answered .rsp 0x02 r
        (0 :: [s.trunk.port.counters.good, s.trunk.port.counters.check, s.trunk.port.counters.char,
          s.trunk.port.counters.gap, s.trunk.port.counters.length, s.trunk.port.counters.format,
          s.trunk.port.counters.brk, s.trunk.counters.unexpected, s.trunk.counters.replyDrop,
          s.trunk.counters.routeDrop, s.trunk.counters.rackIgnored].flatMap
            fun w => [w.extractLsb' 8 8, w.extractLsb' 0 8])).modTrunk fun t =>
        if clear = 1 then { t with port := { t.port with counters := ⟨0, 0, 0, 0, 0, 0, 0⟩ }
                                   counters := ⟨0, 0, 0, 0⟩ } else t)) ∧
    (∀ (x : Seg) (clear : Byte), clear.toNat ≤ 1 → r.payload = [if x = .a then 1 else 2, clear] →
      exec (.readCounters r) s = .next (((s.taken (s.commandFrame 0x02 r)).answered .rsp 0x02 r
        ((if x = .a then 1 else 2) :: [(s.seg x).port.counters.good, (s.seg x).port.counters.check,
          (s.seg x).port.counters.char, (s.seg x).port.counters.gap, (s.seg x).port.counters.length,
          (s.seg x).port.counters.format, (s.seg x).port.counters.brk, (s.seg x).counters.stray,
          (s.seg x).counters.timeouts, (s.seg x).counters.corrupt, (s.seg x).counters.retries].flatMap
            fun w => [w.extractLsb' 8 8, w.extractLsb' 0 8])).modSeg x fun g =>
        if clear = 1 then { g with port := { g.port with counters := ⟨0, 0, 0, 0, 0, 0, 0⟩ }
                                   counters := ⟨0, 0, 0, 0⟩ } else g))

/-- STAGE-ENTRY with every field in range (R51, R54 to R56): the staged entry at the index is the one the image
describes, its hit count 0; the staged count follows; nothing else changes. The delivered frame stands in the model's
own list of deliveries until its command takes it (log 3). -/
def Obligations.StageEntryWrites : Prop :=
  ∀ (s : State) (r : Request) (index action address fnMatch flags segAddress remap timeout retry detail : Byte)
    (h : index.toNat < 48), Ready s r → OutputLaw s →
    r.payload = [index, action, address, fnMatch, flags, segAddress, remap, timeout, retry, detail] →
    (∀ o, o < 10 → fieldInRange 0x10 r.payload o) →
    (action = 0 → exec (.stageEntry r) s = .next (({ s.taken (s.commandFrame 0x10 r) with
        routes := { s.routes with
          staged := s.routes.staged.set index.toNat none
          stagedCount := if s.routes.staged[index.toNat] = none then s.routes.stagedCount
            else s.routes.stagedCount - 1 } }).answered .rsp 0x10 r
        [index, BitVec.ofNat 8 (if s.routes.staged[index.toNat] = none then s.routes.stagedCount
          else s.routes.stagedCount - 1)])) ∧
    (∀ a : Action, action = actionCode a → exec (.stageEntry r) s = .next (({ s.taken (s.commandFrame 0x10 r) with
        routes := { s.routes with
          staged := s.routes.staged.set index.toNat (some
            { action := a, trunkAddress := address
              fnMatch := if flags.getLsbD 0 then none else some fnMatch
              segment := if flags.getLsbD 2 then .b else .a
              segAddress := segAddress
              remap := if flags.getLsbD 1 then some remap else none
              timeout := timeout, retryLimit := retry, refuseDetail := detail, hits := 0 })
          stagedCount := if s.routes.staged[index.toNat] = none then s.routes.stagedCount + 1
            else s.routes.stagedCount } }).answered .rsp 0x10 r
        [index, BitVec.ofNat 8 (if s.routes.staged[index.toNat] = none then s.routes.stagedCount + 1
          else s.routes.stagedCount)]))

/-- CLEAR-STAGE (R57): every staged entry is EMPTY and the staged count 0, answered RSP with an empty payload; another
length is refused NAK LENGTH; the active bank, its hit counts, the generation and the miss policy are not touched. The
delivered frame stands in the model's own list of deliveries until its command takes it (log 3). -/
def Obligations.ClearStageEmpties : Prop :=
  ∀ (s : State) (r : Request), Ready s r → OutputLaw s →
    (r.payload = [] → exec (.clearStage r) s = .next (({ s.taken (s.commandFrame 0x11 r) with
      routes := { s.routes with staged := Vector.replicate 48 none, stagedCount := 0 } }).answered .rsp 0x11 r [])) ∧
    (r.payload ≠ [] → exec (.clearStage r) s = .next ((s.taken (s.commandFrame 0x11 r)).answered .nak 0x11 r [0x02]))

/-- COMMIT (R60 to R62): stale first, then the offending staged entry of lowest index, then the swap with the
generation raised by one; a refusal changes nothing but the queue. The delivered frame stands in the model's own list
of deliveries until its command takes it (log 3). -/
def Obligations.CommitInThreeSteps : Prop :=
  ∀ (s : State) (r : Request) (hi lo : Byte), Ready s r → OutputLaw s → r.payload = [hi, lo] →
    (s.routes.generation ≠ hi ++ lo →
      exec (.commit r) s = .next ((s.taken (s.commandFrame 0x13 r)).answered .nak 0x13 r
        [0x05, s.routes.generation.extractLsb' 8 8, s.routes.generation.extractLsb' 0 8])) ∧
    (∀ (i : Fin 48) (e : RouteEntry), s.routes.generation = hi ++ lo → s.routes.staged[i] = some e →
      (e.trunkAddress = s.trunk.address ∨
        ∃ j : Fin 48, j < i ∧ (s.routes.staged[j]).map RouteEntry.key = some e.key) →
      (∀ (k : Fin 48) (d : RouteEntry), k < i → s.routes.staged[k] = some d →
        d.trunkAddress ≠ s.trunk.address ∧
          ∀ j : Fin 48, j < k → (s.routes.staged[j]).map RouteEntry.key ≠ some d.key) →
      exec (.commit r) s = .next ((s.taken (s.commandFrame 0x13 r)).answered .nak 0x13 r
        [0x04, BitVec.ofNat 8 i.val])) ∧
    (s.routes.generation = hi ++ lo → KeysDistinct s.routes.staged →
      (∀ i : Fin 48, (s.routes.staged[i]).map RouteEntry.trunkAddress ≠ some s.trunk.address) →
      exec (.commit r) s = .next (({ s.taken (s.commandFrame 0x13 r) with
        routes := { s.routes with
          active := s.routes.staged, staged := s.routes.active
          activeCount := s.routes.stagedCount, stagedCount := s.routes.activeCount
          generation := s.routes.generation + 1 } }).answered .rsp 0x13 r
        [(s.routes.generation + 1).extractLsb' 8 8, (s.routes.generation + 1).extractLsb' 0 8]))

/-- SET-MISS-POLICY (R42): a full queue discards it, another length and a code above 1 are refused, otherwise the
policy is set to the code and the RSP carries it. The delivered frame stands in the model's own list of deliveries
until its command takes it (log 3). -/
def Obligations.MissPolicyIsSet : Prop :=
  ∀ (s : State) (r : Request), Dispatching s → r.ok = true → OutputLaw s →
    (s.trunk.queue.length = 8 →
      exec (.setMissPolicy r) s = .next ((s.taken (s.commandFrame 0x14 r)).modTrunk fun t =>
        { t with counters := { t.counters with replyDrop := satInc t.counters.replyDrop } })) ∧
    (s.trunk.queue.length < 8 → r.payload.length ≠ 1 →
      exec (.setMissPolicy r) s = .next ((s.taken (s.commandFrame 0x14 r)).answered .nak 0x14 r [0x02])) ∧
    (∀ code : Byte, s.trunk.queue.length < 8 → r.payload = [code] → 1 < code.toNat →
      exec (.setMissPolicy r) s = .next ((s.taken (s.commandFrame 0x14 r)).answered .nak 0x14 r [0x03, 0x00])) ∧
    (∀ code : Byte, s.trunk.queue.length < 8 → r.payload = [code] → code.toNat ≤ 1 →
      exec (.setMissPolicy r) s = .next (({ s.taken (s.commandFrame 0x14 r) with
        routes := { s.routes with missPolicy := if code = 0 then .refuse else .drop } }).answered .rsp 0x14 r [code]))

/-- ABORT-EXCHANGE (R77, R79 to R82, R105, R116): its RSP with the slot enters first, then NAK ABORTED with the
record's origin, and the record is FREE; with no room left for the NAK the record is COMPLETE with it. A sequencer
serving it in SEND serves none, both where a BROADCAST record is served on both segments; one in WAIT goes to GUARD, or
to LENT at once where a hold drains. A pair that no QUEUED or ACTIVE record has is refused NAK RANGE, detail 0. The
delivered frame stands in the model's own list of deliveries until its command takes it (log 3). -/
def Obligations.AbortEndsTheExchange : Prop :=
  ∀ (s : State) (r : Request) (source tag : Byte), Ready s r → ExchangeLaw s → r.payload = [source, tag] →
    1 ≤ source.toNat → source.toNat ≤ 254 → tag.toNat ≤ 31 →
    ((∀ (slot : Slot) (q : Record), s.exchange.record slot = some q → q.source = source →
        q.tag.toNat = tag.toNat → q.state.isComplete = true) →
      exec (.abortExchange r) s = .next ((s.taken (s.commandFrame 0x21 r)).answered .nak 0x21 r [0x03, 0x00])) ∧
    (∀ (slot : Slot) (q : Record), s.exchange.record slot = some q → q.source = source →
      q.tag.toNat = tag.toNat → q.state.isComplete = false →
      let told := (s.taken (s.commandFrame 0x21 r)).answered .rsp 0x21 r [BitVec.ofNat 8 slot.val]
      let ended : State :=
        if s.trunk.tx = .idle ∨ s.trunk.queue.length < 7 then
          { told with exchange := s.exchange.free slot }.replied q .nak [0x23]
        else { told with exchange := { s.exchange with
          slots := s.exchange.slots.set slot (some { q with
            state := .complete { kind := .nak, payload := [0x23] }
            carriage := match q.carriage with
              | .single c => .single { c with segTag := none }
              | .broadcast c => .broadcast { c with pending := { a := false, b := false } } })
          completion := s.exchange.completion ++ [slot] } }
      (s.served slot = false → exec (.abortExchange r) s = .next ended) ∧
      (∀ x : Seg, (s.seg x).current = some slot → (∀ y, y ≠ x → (s.seg y).current ≠ some slot) →
        (s.seg x).state = .send →
        exec (.abortExchange r) s = .next (ended.modSeg x fun g => { g with current := none })) ∧
      (s.segA.current = some slot → s.segB.current = some slot →
        exec (.abortExchange r) s = .next ((ended.modSeg .a fun g => { g with current := none }).modSeg .b fun g =>
          { g with current := none })) ∧
      (∀ x : Seg, (s.seg x).current = some slot → (s.seg x).state = .wait →
        ((s.seg x).drainRequested = false →
          exec (.abortExchange r) s = .next (ended.modSeg x Segment.guardNow)) ∧
        ((s.seg x).drainRequested = true →
          ∃ t, exec (.abortExchange r) s = .next t ∧ EntersLent x ended t)))

/-- LINE-RESET (R77, R79, R80, R109, R110, R116): its RSP carries the number of records standing on the segment and
enters first; then every record standing there is taken from it in admission order (`State.cleared`: each SINGLE record
ends NAK ABORTED, each BROADCAST record has the segment withdrawn and ends where none is pending, the replies enter in
that order as far as there is room and the later records are COMPLETE); none stands there afterwards. The sequencer
serves none, keeps tag counter, configuration and counters, and goes from WAIT to GUARD, or to LENT where a hold
drains. Nothing else changes. The delivered frame stands in the model's own list of deliveries until its command takes
it (log 3). -/
def Obligations.LineResetClearsTheSegment : Prop :=
  ∀ (s : State) (r : Request) (x : Seg), Ready s r → ExchangeLaw s → r.payload = [if x = .a then 1 else 2] →
    let cleared := ((s.taken (s.commandFrame 0x22 r)).answered .rsp 0x22 r
      [BitVec.ofNat 8 (s.exchange.standing x).length]).cleared x .aborted
    cleared.exchange.standing x = [] ∧
    ((s.seg x).state ≠ .wait →
      exec (.lineReset r) s = .next (cleared.modSeg x fun g => { g with current := none })) ∧
    ((s.seg x).state = .wait → (s.seg x).drainRequested = false →
      exec (.lineReset r) s = .next (cleared.modSeg x Segment.guardNow)) ∧
    ((s.seg x).state = .wait → (s.seg x).drainRequested = true →
      ∃ t, exec (.lineReset r) s = .next t ∧ EntersLent x cleared t)

/-- SET-SEGMENT with every field in range (R16, R106, R107): applied at once in IDLE and in LENT with status 0, where a
change of rate or parity abandons the frame in progress and leaves the receiver UNQUALIFIED, or closed while LENT;
stored whole as pending with status 1 in the other states. In LENT a patience that the lent time has reached expires
the segment after the RSP has entered (R80, R119). The delivered frame stands in the model's own list of deliveries
until its command takes it (log 3). -/
def Obligations.SetSegmentAppliesOrDefers : Prop :=
  ∀ (s : State) (r : Request) (x : Seg) (rate parity gap guard depth patience : Byte) (par : Parity),
    Ready s r → OutputLaw s → SegmentsLaw s →
    r.payload = [if x = .a then 1 else 2, rate, parity, gap, guard, depth, patience] →
    (∀ o, o < 7 → fieldInRange 0x23 r.payload o) → parity = parityCode par →
    ((s.seg x).state ≠ .idle → (s.seg x).state ≠ .lent →
      exec (.setSegment r) s = .next (((s.taken (s.commandFrame 0x23 r)).answered .rsp 0x23 r [1]).modSeg x fun g =>
        { g with pendingConfig := some { rate := BitVec.ofNat 3 rate.toNat, parity := par, gapLimit := gap,
                                         guard := guard, depth := depth, patience := patience } })) ∧
    ((s.seg x).state = .idle ∨ ((s.seg x).state = .lent ∧ ((s.seg x).lentExpired = true ∨ patience = 0 ∨
        ∃ m, (s.seg x).lentTime = some m ∧ m < patience.toNat * 100)) →
      (BitVec.ofNat 3 rate.toNat = (s.seg x).config.rate → par = (s.seg x).config.parity →
        exec (.setSegment r) s =
          .next (((s.taken (s.commandFrame 0x23 r)).answered .rsp 0x23 r [0]).modSeg x fun g =>
            { g with pendingConfig := none
                     config := { rate := BitVec.ofNat 3 rate.toNat, parity := par, gapLimit := gap,
                                 guard := guard, depth := depth, patience := patience } })) ∧
      (BitVec.ofNat 3 rate.toNat ≠ (s.seg x).config.rate ∨ par ≠ (s.seg x).config.parity →
        exec (.setSegment r) s =
          .next (((s.taken (s.commandFrame 0x23 r)).answered .rsp 0x23 r [0]).modSeg x fun g =>
            { g with pendingConfig := none
                     config := { rate := BitVec.ofNat 3 rate.toNat, parity := par, gapLimit := gap,
                                 guard := guard, depth := depth, patience := patience }
                     port := { g.port with
                       framer := Framer.reset
                       receiver := if g.state = .lent then .closed else .unqualified } }))) ∧
    (∀ m, (s.seg x).state = .lent → (s.seg x).lentExpired = false → patience ≠ 0 → (s.seg x).lentTime = some m →
      patience.toNat * 100 ≤ m → ExchangeLaw s →
      exec (.setSegment r) s =
        .next ((((s.taken (s.commandFrame 0x23 r)).answered .rsp 0x23 r [0]).modSeg x fun g => g.configured
          { rate := BitVec.ofNat 3 rate.toNat, parity := par, gapLimit := gap, guard := guard, depth := depth,
            patience := patience }).patienceExpired x))

/-- READ-INPUTS, SET-INPUT and SET-SAMPLE-PERIOD with every field in range (R113, R125, R132 to R136, R177): the three
sets of sixteen bits, line n at bit n, and the lost flags cleared after the reply where asked; the three configuration
fields of one line; the index, the run counts and the restarted sample timer. The delivered frame stands in the model's
own list of deliveries until its command takes it (log 3). -/
def Obligations.InputCommands : Prop :=
  ∀ (s : State) (r : Request), Ready s r → OutputLaw s →
    (∀ clear : Byte, r.payload = [clear] → clear.toNat ≤ 1 → ∃ acc raw lost : Word, ∃ t,
      exec (.readInputs r) s = .next (({ s.taken (s.commandFrame 0x30 r) with inputs := t }).answered .rsp 0x30 r
        [acc.extractLsb' 8 8, acc.extractLsb' 0 8, raw.extractLsb' 8 8, raw.extractLsb' 0 8,
         lost.extractLsb' 8 8, lost.extractLsb' 0 8]) ∧
      (∀ n : Fin 16, acc.getLsbD n.val = (s.inputs.lines[n]).accepted ∧
        raw.getLsbD n.val = (s.inputs.lines[n]).raw ∧ lost.getLsbD n.val = (s.inputs.lines[n]).lost ∧
        t.lines[n] = { s.inputs.lines[n] with lost := (s.inputs.lines[n]).lost && clear == 0 }) ∧
      t.holdA = s.inputs.holdA ∧ t.holdB = s.inputs.holdB ∧ t.period = s.inputs.period ∧
      t.sampleTimer = s.inputs.sampleTimer) ∧
    (∀ (n : Fin 16) (count edge cls : Byte) (e : EdgeSelect), r.payload = [BitVec.ofNat 8 n.val, count, edge, cls] →
      count.toNat ≤ 15 → edge = edgeCode e → ∀ h : cls.toNat < 4,
      exec (.setInput r) s = .next (({ s.taken (s.commandFrame 0x31 r) with
        inputs := { s.inputs with lines := s.inputs.lines.set n { s.inputs.lines[n] with
          qualification := BitVec.ofNat 4 count.toNat, edge := e, cls := ⟨cls.toNat, h⟩ } } }).answered .rsp 0x31 r
        [BitVec.ofNat 8 n.val, count, edge, cls])) ∧
    (∀ index : Byte, r.payload = [index] → index.toNat ≤ 3 → ∃ t,
      exec (.setSamplePeriod r) s = .next (({ s.taken (s.commandFrame 0x32 r) with inputs := t }).answered .rsp 0x32 r
        [index]) ∧
      (∀ n : Fin 16, t.lines[n] = { s.inputs.lines[n] with run := 0 }) ∧
      t.holdA = { s.inputs.holdA with run := 0 } ∧ t.holdB = { s.inputs.holdB with run := 0 } ∧
      t.period = BitVec.ofNat 2 index.toNat ∧
      t.sampleTimer = (if index = 0 then 1 else if index = 1 then 2 else if index = 2 then 4 else 10)) ∧
    [EdgeSelect.none, .rise, .fall, .both].map edgeCode = [0, 1, 2, 3]

/-- REPORT-CONTROL with every field in range (R144, R154, R155): the configuration is set, the destination follows the
source in UNSOLICITED mode alone, the reporter is IDLE with nothing outstanding and the next batch number is kept. With
nothing outstanding the queue is as it was. A batch outstanding is abandoned: every record is WAITING in its place, the
OVERFLOW record of the batch takes the carry and the carry is 0, and where a line has more than one record the oldest
takes the newer ones in (`Reporter.abandonedQueue`). The delivered frame stands in the model's own list of deliveries
until its command takes it (log 3). -/
def Obligations.ReportControlSets : Prop :=
  ∀ (s : State) (r : Request) (mode enables timeout : Byte) (m : ReportMode), Ready s r → OutputLaw s →
    ReporterLaw s → r.payload = [mode, enables, timeout] → mode = modeCode m → enables.toNat ≤ 15 →
    timeout ≠ 0 →
    ∃ rep : Reporter,
      exec (.reportControl r) s = .next (({ s.taken (s.commandFrame 0x40 r) with reporter := rep }).answered .rsp 0x40 r
        [mode, enables, timeout]) ∧
      rep.mode = m ∧ rep.enables = BitVec.ofNat 4 enables.toNat ∧ rep.timeout = timeout ∧
      rep.destination = (if m = .unsolicited then some r.src else s.reporter.destination) ∧
      rep.state = .idle ∧ rep.outstanding = none ∧ rep.sendCount = 0 ∧ rep.resendDue = false ∧ rep.timer = none ∧
      rep.sending = false ∧ rep.nextBatch = s.reporter.nextBatch ∧
      (∀ q ∈ rep.queue, q.status = .waiting) ∧
      (s.reporter.outstanding = none → rep.queue = s.reporter.queue ∧ rep.carry = s.reporter.carry) ∧
      (s.reporter.outstanding ≠ none →
        rep.queue = s.reporter.abandonedQueue ∧
        ((∃ q ∈ s.reporter.queue, q.code = .overflow ∧ q.status ≠ .waiting) →
          rep.carry = { count := 0, first := 0, last := 0 }) ∧
        ((∀ q ∈ s.reporter.queue, q.code = .overflow → q.status = .waiting) → rep.carry = s.reporter.carry))

/-- FETCH-REPORTS of one byte that forms no batch (R144 to R147, R152, R153): outside POLLED mode it is refused NAK
MODE; a batch outstanding that the number does not name is returned again, its records by class and then by age, and
nothing changes; with nothing outstanding and nothing eligible the RSP carries number 0 and no record; a number that
names the outstanding batch acknowledges it (`Reporter.acknowledged`: its records leave, an OVERFLOW record among them
gives way to the carry), and where that leaves nothing eligible the RSP carries number 0 and no record. Where it leaves
an eligible record, BatchTakesByClassThenAge says what follows. And the seven bytes of a record (R178). The delivered
frame stands in the model's own list of deliveries until its command takes it (log 3). -/
def Obligations.FetchReportsReply : Prop :=
  (∀ (s : State) (r : Request) (ack : Byte), Ready s r → OutputLaw s → BatchLaw s.reporter → r.payload = [ack] →
    (s.reporter.mode = .off →
      exec (.fetchReports r) s = .next ((s.taken (s.commandFrame 0x41 r)).answered .nak 0x41 r [0x06, 0x00])) ∧
    (s.reporter.mode = .unsolicited →
      exec (.fetchReports r) s = .next ((s.taken (s.commandFrame 0x41 r)).answered .nak 0x41 r [0x06, 0x02])) ∧
    (∀ n : Byte, s.reporter.mode = .polled → s.reporter.outstanding = some n → ack ≠ n →
      exec (.fetchReports r) s = .next ((s.taken (s.commandFrame 0x41 r)).answered .rsp 0x41 r
        (batchBytes n s.reporter.batchNow))) ∧
    (s.reporter.mode = .polled → s.reporter.outstanding = none → NothingEligible s.reporter →
      exec (.fetchReports r) s = .next ((s.taken (s.commandFrame 0x41 r)).answered .rsp 0x41 r [0x00, 0x00])) ∧
    (s.reporter.mode = .polled → s.reporter.outstanding = some ack → NothingEligible s.reporter.acknowledged →
      exec (.fetchReports r) s = .next (({ s.taken (s.commandFrame 0x41 r) with
        reporter := s.reporter.acknowledged }).answered .rsp 0x41 r [0x00, 0x00]))) ∧
  (∀ q : ReportRecord, q.bytes =
    [match q.subject with
      | .input n => BitVec.ofNat 8 n.val
      | .segment .a => 0x10
      | .segment .b => 0x11
      | .gateway => 0x20,
     BitVec.ofNat 8 (16 * q.cls.val + match q.code with
      | .rise => 1
      | .fall => 2
      | .lent => 3
      | .reclaimed => 4
      | .restart => 5
      | .overflow => 6),
     BitVec.ofNat 8 (if q.code = .overflow then q.count
      else q.count % 16 + match q.info with
        | .level high => if high then 128 else 0
        | .cause c => 16 * (causeCode c).toNat
        | .absent => 0),
     q.first.extractLsb' 8 8, q.first.extractLsb' 0 8, q.last.extractLsb' 8 8, q.last.extractLsb' 0 8])

/-- A batch formed by FETCH-REPORTS (R144 to R147, R152, R178), with nothing outstanding, or in the event in which the
number acknowledges the outstanding batch and that batch leaves (`Reporter.acknowledged`): it takes the next batch
number, which moves on with 255 followed by 1; up to four WAITING records of enabled classes become IN-BATCH, by class
and within a class by age, a fresh OVERFLOW record among them, and no record changes otherwise; the RSP carries the
number, the count and those records in that order. The delivered frame stands in the model's own list of deliveries
until its command takes it (log 3). -/
def Obligations.BatchTakesByClassThenAge : Prop :=
  ∀ (s : State) (r : Request) (ack : Byte), Ready s r → OutputLaw s → BatchLaw s.reporter → r.payload = [ack] →
    s.reporter.mode = .polled →
    let formed := fun rep : Reporter =>
      (∃ q ∈ rep.queue, q.status = .waiting ∧ rep.enables.getLsbD q.cls.val = true) →
      ∃ queue : List ReportRecord,
        exec (.fetchReports r) s = .next (({ s.taken (s.commandFrame 0x41 r) with
          reporter := { rep with
            queue := queue, state := .outstanding, outstanding := some rep.nextBatch
            nextBatch := if rep.nextBatch = 255 then 1 else rep.nextBatch + 1 } }).answered .rsp 0x41 r
          (batchBytes rep.nextBatch rep.nextRecords)) ∧
        BatchFormed rep queue
    (s.reporter.outstanding = none → formed s.reporter) ∧
    (s.reporter.outstanding = some ack → formed s.reporter.acknowledged)

/-- GATEWAY-RESET (R21, R167): its RSP, to which the soft reset is bound, enters at the tail, and the soft reset is
pending; nothing else changes. The delivered frame stands in the model's own list of deliveries until its command takes
it (log 3). -/
def Obligations.GatewayResetIsAccepted : Prop :=
  ∀ (s : State) (r : Request), Ready s r → OutputLaw s → r.payload = [] →
    exec (.gatewayReset r) s = .next (((s.taken (s.commandFrame 0x7F r)).placed
      { frame := { dest := r.src, src := s.trunk.address, kind := .rsp, tag := r.tag, fn := 0x7F, payload := [] }
        bindsReset := true }).modTrunk fun t => { t with softResetPending := true })

/-! ### The trunk transmitter and the report timer -/

/-- END_OF_TRANSMISSION of a frame to which no soft reset is bound (R26 to R30): the head of the queue is sent; its
slot is filled by the reply of the record that became COMPLETE earliest, which is then FREE; with nothing to send the
transmitter rests. -/
def Obligations.EndOfTransmissionSendsNext : Prop :=
  ∀ (s : State) (sent : QueuedFrame), Acting s → s.trunk.tx = .sending sent →
    s.trunk.softResetPending = false ∨ sent.bindsReset = false →
    (∀ q rest, s.trunk.queue = q :: rest → s.exchange.completion = [] →
      exec .endOfTransmission s = .next { s with trunk := { s.trunk with tx := .sending q, queue := rest } }) ∧
    (∀ (q : QueuedFrame) (rest : List QueuedFrame) (slot : Slot) (more : List Slot) (r : Record) (reply : Reply),
      s.trunk.queue = q :: rest → s.exchange.completion = slot :: more →
      s.exchange.record slot = some r → r.state = .complete reply →
      exec .endOfTransmission s = .next { s with
        trunk := { s.trunk with
          tx := .sending q
          queue := rest ++ [{ frame := { dest := r.source, src := r.dest, kind := reply.kind, tag := r.tag, fn := r.fn,
                                         payload := reply.payload }, bindsReset := false }] }
        exchange := { slots := s.exchange.slots.set slot none, admission := s.exchange.admission.erase slot
                      completion := more } }) ∧
    (s.trunk.queue = [] →
      (s.reporter.mode ≠ .unsolicited ∨
        (s.reporter.state = .idle ∧ ∀ q ∈ s.reporter.queue, q.status = .waiting →
          s.reporter.enables.getLsbD q.cls.val = false) ∨
        (s.reporter.state = .outstanding ∧ s.reporter.resendDue = false) ∨ s.reporter.state = .stalled) →
      exec .endOfTransmission s = .next { s with trunk := { s.trunk with tx := .idle } })

/-- The report batch on the trunk (R26, R28, R30, R145, R149, R150). At the end of a transmission the report timer
starts at the report timeout in units of 100 ms where that transmission was of the batch still outstanding. Then, with
an empty queue, the reporter is granted: in IDLE with an eligible record a new batch under the next number, in
OUTSTANDING with resend due the batch once more, each with its records in batch order; with neither the transmitter
rests; with frames queued the head is sent, and its slot goes to the reply of the record that became COMPLETE earliest.
-/
def Obligations.ReporterIsGranted : Prop :=
  ∀ s : State, Acting s →
    ((∃ sent, s.trunk.tx = .sending sent ∧ (s.trunk.softResetPending = false ∨ sent.bindsReset = false)) ∨
      ∃ f, s.trunk.tx = .reporting f) →
    let rep : Reporter := match s.trunk.tx with
      | .reporting _ =>
        if s.reporter.sending then
          { s.reporter with sending := false, timer := some (s.reporter.timeout.toNat * 100) }
        else s.reporter
      | _ => s.reporter
    (∀ d : Byte, s.trunk.queue = [] → s.reporter.mode = .unsolicited → s.reporter.destination = some d →
      ((∃ q ∈ s.reporter.queue, q.status = .waiting ∧ s.reporter.enables.getLsbD q.cls.val = true) →
        s.reporter.state = .idle → BatchLaw s.reporter →
        ∃ queue : List ReportRecord, exec .endOfTransmission s = .next { s with
          trunk := { s.trunk with
            tx := .reporting (rptFrame d s.trunk.address (batchBytes s.reporter.nextBatch s.reporter.nextRecords)) }
          reporter := { rep with
            queue := queue, state := .outstanding, outstanding := some s.reporter.nextBatch
            nextBatch := if s.reporter.nextBatch = 255 then 1 else s.reporter.nextBatch + 1
            sendCount := 1, sending := true } } ∧
        BatchFormed s.reporter queue) ∧
      (∀ n : Byte, s.reporter.state = .outstanding → s.reporter.resendDue = true →
        s.reporter.outstanding = some n →
        exec .endOfTransmission s = .next { s with
          trunk := { s.trunk with
            tx := .reporting (rptFrame d s.trunk.address (batchBytes n s.reporter.batchNow)) }
          reporter := { rep with
            resendDue := false, sendCount := s.reporter.sendCount + 1, sending := true } })) ∧
    (s.trunk.queue = [] →
      s.reporter.mode ≠ .unsolicited ∨
        (s.reporter.state = .idle ∧ ∀ q ∈ s.reporter.queue, q.status = .waiting →
          s.reporter.enables.getLsbD q.cls.val = false) ∨
        (s.reporter.state = .outstanding ∧ s.reporter.resendDue = false) ∨ s.reporter.state = .stalled →
      exec .endOfTransmission s = .next { s with trunk := { s.trunk with tx := .idle }, reporter := rep }) ∧
    (∀ q rest, s.trunk.queue = q :: rest → s.exchange.completion = [] →
      exec .endOfTransmission s = .next { s with
        trunk := { s.trunk with tx := .sending q, queue := rest }, reporter := rep }) ∧
    (∀ (q : QueuedFrame) (rest : List QueuedFrame) (slot : Slot) (more : List Slot) (r : Record) (reply : Reply),
      s.trunk.queue = q :: rest → s.exchange.completion = slot :: more →
      s.exchange.record slot = some r → r.state = .complete reply →
      exec .endOfTransmission s = .next { s with
        trunk := { s.trunk with
          tx := .sending q
          queue := rest ++ [{ frame := { dest := r.source, src := r.dest, kind := reply.kind, tag := r.tag, fn := r.fn,
                                         payload := reply.payload }, bindsReset := false }] }
        exchange := { slots := s.exchange.slots.set slot none, admission := s.exchange.admission.erase slot
                      completion := more }
        reporter := rep })

/-- REPORT_TIMER_EXPIRY (R149, R150): with a send count below 8 the resend is due, and an IDLE transmitter is granted
it at once (the arbiter asked inside the event, log 15) with the batch's records in batch order; at 8 the reporter is
STALLED. That the expiry is a command of its own, taken at timer 0, is the model's choice (log 9), and so is that it
has no effect while the timer is stopped or still counts (log 4). -/
def Obligations.ReportTimerExpires : Prop :=
  ∀ s : State, Acting s → OutputLaw s →
    (s.reporter.state = .outstanding → s.reporter.timer = some 0 → s.reporter.sendCount < 8 → s.trunk.tx ≠ .idle →
      exec .reportTimerExpiry s = .next { s with reporter := { s.reporter with timer := none, resendDue := true } }) ∧
    (∀ d n : Byte, s.reporter.state = .outstanding → s.reporter.timer = some 0 → s.reporter.sendCount < 8 →
      s.trunk.tx = .idle → s.reporter.mode = .unsolicited → s.reporter.destination = some d →
      s.reporter.outstanding = some n →
      exec .reportTimerExpiry s = .next { s with
        trunk := { s.trunk with tx := .reporting { dest := d, src := s.trunk.address, kind := .rpt, tag := 0, fn := 0,
                                                   payload := batchBytes n s.reporter.batchNow } }
        reporter := { s.reporter with timer := none, resendDue := false, sendCount := s.reporter.sendCount + 1
                                      sending := true } }) ∧
    (s.reporter.state = .outstanding → s.reporter.timer = some 0 → s.reporter.sendCount = 8 →
      exec .reportTimerExpiry s = .next { s with reporter := { s.reporter with timer := none, state := .stalled } }) ∧
    (s.reporter.state ≠ .outstanding ∨ s.reporter.timer ≠ some 0 → exec .reportTimerExpiry s = .next s)

/-! ### Segment events -/

/-- SEGMENT_END_OF_TRANSMISSION of a SINGLE attempt (R16, R94, R95, R116): xDE low, the framer open with the receiver
UNQUALIFIED, the response timer at timeout × 5 ms, WAIT, with drain-requested kept; where an abort or a line reset took
the record, GUARD. Outside SEND the event does not come (the model's choice, log 4). -/
def Obligations.EndOfAttemptTransmission : Prop :=
  ∀ (s : State) (x : Seg), Acting s →
    ((s.seg x).state ≠ .send → exec (.segmentEndOfTransmission x) s = .next s) ∧
    (∀ (slot : Slot) (r : Record) (c : Single), (s.seg x).state = .send → (s.seg x).current = some slot →
      s.exchange.record slot = some r → r.carriage = .single c →
      exec (.segmentEndOfTransmission x) s = .next (s.modSeg x fun g => { g with
        port := { g.port with receiver := .unqualified, framer := Framer.reset }
        tx := none, de := false, state := .wait, responseTimer := some (c.timeout.toNat * 5) })) ∧
    ((s.seg x).state = .send → (s.seg x).current = none → (s.seg x).drainRequested = false →
      exec (.segmentEndOfTransmission x) s = .next (s.modSeg x fun g => { g with
        port := { g.port with receiver := .unqualified, framer := Framer.reset }
        tx := none, de := false, state := .guard, responseTimer := none
        guardTimer := some g.config.guard.toNat }))

/-- SEGMENT_END_OF_TRANSMISSION of a broadcast delivery (R66, R75, R76, R104): the segment is delivered and the
sequencer goes to GUARD; with the other segment pending the record stays ACTIVE where the other sequencer serves it and
is QUEUED where it does not; with none pending it completes RSP with the delivered mask, and with 8 frames queued it is
COMPLETE with that reply (R79). -/
def Obligations.BroadcastIsDelivered : Prop :=
  ∀ (s : State) (x : Seg) (slot : Slot) (r : Record) (c : Broadcast), Acting s → ExchangeLaw s →
    (s.seg x).state = .send → (s.seg x).current = some slot → s.exchange.record slot = some r →
    r.carriage = .broadcast c → (s.seg x).drainRequested = false →
    ((c.pending.remove x).isEmpty = false →
      exec (.segmentEndOfTransmission x) s = .next ({ s with
        exchange := { s.exchange with slots := s.exchange.slots.set slot (some { r with
          state := if (x ≠ Seg.a ∧ s.segA.current = some slot) ∨ (x ≠ Seg.b ∧ s.segB.current = some slot) then .active
            else .queued
          carriage := .broadcast { c with
            pending := c.pending.remove x, delivered := c.delivered.insert x } }) } }.modSeg x fun g => { g with
        port := { g.port with receiver := .unqualified, framer := Framer.reset }
        tx := none, de := false, state := .guard, current := none, responseTimer := none
        guardTimer := some g.config.guard.toNat })) ∧
    ((c.pending.remove x).isEmpty = true → s.trunk.queue.length < 8 →
      exec (.segmentEndOfTransmission x) s = .next (({ s with exchange := s.exchange.free slot }.replied r .rsp
        [(c.delivered.insert x).mask]).modSeg x fun g => { g with
        port := { g.port with receiver := .unqualified, framer := Framer.reset }
        tx := none, de := false, state := .guard, current := none, responseTimer := none
        guardTimer := some g.config.guard.toNat })) ∧
    ((c.pending.remove x).isEmpty = true → s.trunk.queue.length = 8 →
      exec (.segmentEndOfTransmission x) s = .next ({ s with
        exchange := { s.exchange with
          slots := s.exchange.slots.set slot (some { r with
            state := .complete { kind := .rsp, payload := [(c.delivered.insert x).mask] }
            carriage := .broadcast { c with
              pending := { a := false, b := false }, delivered := c.delivered.insert x } })
          completion := s.exchange.completion ++ [slot] } }.modSeg x fun g => { g with
        port := { g.port with receiver := .unqualified, framer := Framer.reset }
        tx := none, de := false, state := .guard, current := none, responseTimer := none
        guardTimer := some g.config.guard.toNat }))

/-- A good segment frame that meets all four conditions in WAIT (R77 to R79, R96, R98), given as MATCHING_FRAME or as
STRAY_FRAME (log 19): a station's RSP in full, of its NAK the first byte, answers with the record's origin; the record
is FREE, or COMPLETE where the queue holds 8 frames; the response timer stops and the sequencer goes to GUARD. The
delivered frame stands in the model's own list of deliveries until its command takes it (log 3). -/
def Obligations.MatchingFrameCompletes : Prop :=
  ∀ (s : State) (x : Seg) (f : Frame) (slot : Slot) (r : Record) (c : Single) (i : Instr), Acting s → OutputLaw s →
    f.goodOnSegment = true → (s.seg x).state = .wait → (s.seg x).current = some slot →
    s.exchange.record slot = some r → r.carriage = .single c → f.kind = .rsp ∨ f.kind = .nak →
    f.src = r.segAddress → f.dest = 254 → c.segTag = some f.tag → (s.seg x).drainRequested = false →
    i = .matchingFrame x f ∨ i = .strayFrame x f →
    (s.trunk.queue.length < 8 →
      exec i s = .next (({ s.takenOn x (.frame f) with exchange := s.exchange.free slot }.replied r f.kind
        (if f.kind = FrameKind.rsp then f.payload else [0x22, f.payload.headD 0])).modSeg x fun g => { g with
          state := .guard, current := none, responseTimer := none, guardTimer := some g.config.guard.toNat })) ∧
    (s.trunk.queue.length = 8 →
      exec i s = .next ({ s.takenOn x (.frame f) with exchange := { s.exchange with
        slots := s.exchange.slots.set slot (some { r with
          state := .complete { kind := f.kind
                               payload := if f.kind = FrameKind.rsp then f.payload else [0x22, f.payload.headD 0] }
          carriage := .single { c with segTag := none } })
        completion := s.exchange.completion ++ [slot] } }.modSeg x fun g => { g with
          state := .guard, current := none, responseTimer := none, guardTimer := some g.config.guard.toNat }))

/-- A good segment frame that fails one of the four conditions, or comes in IDLE, GUARD or RESUME (R96, R97): the stray
counter counts it and nothing else changes; and a corrupt-frame notice outside WAIT is ignored. That MATCHING_FRAME and
STRAY_FRAME are judged alike, at the delivery, is the model's choice (log 19). The delivered frame stands in the
model's own list of deliveries until its command takes it (log 3). -/
def Obligations.StrayFramesAreCounted : Prop :=
  (∀ (s : State) (x : Seg) (f : Frame) (i : Instr), Acting s → f.goodOnSegment = true →
    i = .matchingFrame x f ∨ i = .strayFrame x f → (s.seg x).state ≠ .send → (s.seg x).state ≠ .lent →
    ((s.seg x).state = .wait → ∀ (slot : Slot) (r : Record) (c : Single), (s.seg x).current = some slot →
      s.exchange.record slot = some r → r.carriage = .single c →
      (f.kind ≠ .rsp ∧ f.kind ≠ .nak) ∨ f.src ≠ r.segAddress ∨ f.dest ≠ 254 ∨ c.segTag ≠ some f.tag) →
    exec i s = .next ((s.takenOn x (.frame f)).modSeg x fun g =>
      { g with counters := { g.counters with stray := satInc g.counters.stray } })) ∧
  (∀ (s : State) (x : Seg), Acting s → (s.seg x).state ≠ .wait →
    exec (.corruptFrameNotice x) s = .next (s.takenOn x .corruptNotice))

/-- A failed attempt (R77, R95, R99, R100, R102), by CORRUPT_FRAME_NOTICE or by RESPONSE_TIMER_EXPIRY at 0, no hold
draining: with retries remaining the record is QUEUED with one fewer and without a tag, and the retries counter counts;
otherwise it completes with the attempt count, and with 8 frames queued is COMPLETE with that reply (R79); the
sequencer goes to GUARD. That the expiry is a command of its own, taken at timer 0, is the model's choice (log 9), and
so is that it has no effect while the timer still counts (log 4). The delivered frame stands in the model's own list of
deliveries until its command takes it (log 3). -/
def Obligations.FailedAttempt : Prop :=
  ∀ (s : State) (x : Seg) (slot : Slot) (r : Record) (c : Single), Acting s → OutputLaw s → (s.seg x).state = .wait →
    (s.seg x).current = some slot → s.exchange.record slot = some r → r.carriage = .single c →
    (s.seg x).drainRequested = false →
    (∀ n, c.retries = n + 1 →
      exec (.corruptFrameNotice x) s = .next ({ s.takenOn x .corruptNotice with
        exchange := { s.exchange with slots := s.exchange.slots.set slot (some { r with
          state := .queued, carriage := .single { c with retries := n, segTag := none } }) } }.modSeg x fun g =>
        { g with
          state := .guard, current := none, responseTimer := none, guardTimer := some g.config.guard.toNat
          counters := { g.counters with corrupt := satInc g.counters.corrupt
                                        retries := satInc g.counters.retries } }) ∧
      ((s.seg x).responseTimer = some 0 → exec (.responseTimerExpiry x) s = .next ({ s with
        exchange := { s.exchange with slots := s.exchange.slots.set slot (some { r with
          state := .queued, carriage := .single { c with retries := n, segTag := none } }) } }.modSeg x fun g =>
        { g with
          state := .guard, current := none, responseTimer := none, guardTimer := some g.config.guard.toNat
          counters := { g.counters with timeouts := satInc g.counters.timeouts
                                        retries := satInc g.counters.retries } }))) ∧
    (c.retries = 0 → s.trunk.queue.length < 8 →
      exec (.corruptFrameNotice x) s = .next (({ s.takenOn x .corruptNotice with
        exchange := s.exchange.free slot }.replied r .nak [0x21, BitVec.ofNat 8 r.attempts]).modSeg x fun g =>
        { g with
          state := .guard, current := none, responseTimer := none, guardTimer := some g.config.guard.toNat
          counters := { g.counters with corrupt := satInc g.counters.corrupt } }) ∧
      ((s.seg x).responseTimer = some 0 → exec (.responseTimerExpiry x) s = .next (({ s with
        exchange := s.exchange.free slot }.replied r .nak [0x20, BitVec.ofNat 8 r.attempts]).modSeg x fun g =>
        { g with
          state := .guard, current := none, responseTimer := none, guardTimer := some g.config.guard.toNat
          counters := { g.counters with timeouts := satInc g.counters.timeouts } }))) ∧
    (c.retries = 0 → s.trunk.queue.length = 8 →
      let held := fun (t : State) (reason : Byte) => ({ t with exchange := { s.exchange with
        slots := s.exchange.slots.set slot (some { r with
          state := .complete { kind := .nak, payload := [reason, BitVec.ofNat 8 r.attempts] }
          carriage := .single { c with segTag := none } })
        completion := s.exchange.completion ++ [slot] } } : State)
      exec (.corruptFrameNotice x) s = .next ((held (s.takenOn x .corruptNotice) 0x21).modSeg x fun g =>
        { g.guardNow with counters := { g.counters with corrupt := satInc g.counters.corrupt } }) ∧
      ((s.seg x).responseTimer = some 0 → exec (.responseTimerExpiry x) s = .next ((held s 0x20).modSeg x fun g =>
        { g.guardNow with counters := { g.counters with timeouts := satInc g.counters.timeouts } }))) ∧
    ((s.seg x).responseTimer ≠ some 0 → exec (.responseTimerExpiry x) s = .next s)

/-- GUARD_TIMER_EXPIRY in GUARD and RESUME (R91 to R93, R103, R107, R122): the pending configuration is applied; with
no record waiting the sequencer rests in IDLE, otherwise the oldest waiting record is begun under the new
configuration. That the command has no effect outside GUARD and RESUME, where the timer is stopped, is the model's
choice (log 4). -/
def Obligations.GuardExpiryTakesWork : Prop :=
  ∀ (s : State) (x : Seg), Acting s → ExchangeLaw s →
    ((s.seg x).state ≠ .guard → (s.seg x).state ≠ .resume → exec (.guardTimerExpiry x) s = .next s) ∧
    ((s.seg x).state = .guard ∨ (s.seg x).state = .resume →
      (s.exchange.standing x = [] → (s.seg x).pendingConfig = none →
        exec (.guardTimerExpiry x) s = .next (s.modSeg x fun g => { g with state := .idle, guardTimer := none })) ∧
      (∀ cfg, s.exchange.standing x = [] → (s.seg x).pendingConfig = some cfg →
        exec (.guardTimerExpiry x) s = .next (s.modSeg x fun g => { g with
          state := .idle, guardTimer := none, config := cfg, pendingConfig := none
          port := if cfg.rate = g.config.rate ∧ cfg.parity = g.config.parity then g.port
            else { g.port with receiver := .unqualified, framer := Framer.reset } })) ∧
      (∀ (slot : Slot) (more : List Slot) (r : Record), s.exchange.standing x = slot :: more →
        s.exchange.record slot = some r →
        exec (.guardTimerExpiry x) s = .next ({ s with
          exchange := { s.exchange with slots := s.exchange.slots.set slot (some { r with
            state := .active, attempts := r.attempts + 1
            carriage := match r.carriage with
              | .single c => .single { c with segTag := some (s.seg x).tagCounter }
              | .broadcast c => .broadcast c }) } }.modSeg x fun g => { g with
          state := .send, guardTimer := none, current := some slot, tagCounter := g.tagCounter + 1
          config := g.pendingConfig.getD g.config, pendingConfig := none, de := true
          port := { g.port with receiver := .closed, framer := Framer.reset }
          tx := some { dest := r.segAddress, src := 254, kind := .req, tag := g.tagCounter, fn := r.segFn,
                       payload := r.payload } })))

/-- PATIENCE_EXPIRY (R75 to R80, R119): at the patience of a LENT segment lent-expired is set and every record standing
on it is taken from it in admission order (`State.cleared`: each SINGLE record ends NAK LENT with its mask, each
BROADCAST record has the segment withdrawn and ends where none is pending, the replies enter in that order as far as
there is room and the later records are COMPLETE); none stands there afterwards, and nothing else changes. That the
expiry is also a command of its own beside the MILLISECOND_TICK and the SET-SEGMENT that take it (log 9), and that it
has no effect before the patience, with patience 0, or once expired (log 4), are the model's choices. -/
def Obligations.PatienceExpiryAnswersLent : Prop :=
  ∀ (s : State) (x : Seg), Acting s →
    (¬ PatienceReached (s.seg x) → exec (.patienceExpiry x) s = .next s) ∧
    (PatienceReached (s.seg x) → ExchangeLaw s →
      exec (.patienceExpiry x) s = .next (s.patienceExpired x) ∧ (s.patienceExpired x).exchange.standing x = [])

/-! ### Sample instants and lending -/

/-- SAMPLE_INSTANT (R113, R125, R126, R128, R130): what one sample does to every line record, its configuration and,
but for a lost event, its lost flag kept: the raw level; the baseline where due, otherwise the qualification run
against the qualification count plus 1; and to both hold lines, qualified by three samples in a row. The sample timer
begins a period of the index in force (R125), held in half milliseconds (the model's unit, log 8, log 20). No route
entry, time, trunk queue frame or exchange record's origin changes. -/
def Obligations.SampleQualifiesLevels : Prop :=
  ∀ (s : State) (inputs : Word) (hreqA hreqB : Bool), Acting s → ExchangeLaw s →
    ∃ t, exec (.sampleInstant inputs hreqA hreqB) s = .next t ∧
      (∀ n : Fin 16, t.inputs.lines[n] = { s.inputs.lines[n] with
        raw := inputs.getLsbD n.val
        accepted := if (s.inputs.lines[n]).baselineDue = true ∨
            (s.inputs.lines[n]).qualification.toNat + 1 ≤ (s.inputs.lines[n]).run + 1
          then inputs.getLsbD n.val else (s.inputs.lines[n]).accepted
        run := if (s.inputs.lines[n]).baselineDue = true ∨ inputs.getLsbD n.val = (s.inputs.lines[n]).accepted ∨
            (s.inputs.lines[n]).qualification.toNat + 1 ≤ (s.inputs.lines[n]).run + 1
          then 0 else (s.inputs.lines[n]).run + 1
        lost := (t.inputs.lines[n]).lost
        baselineDue := false }) ∧
      (∀ n : Fin 16, (s.inputs.lines[n]).lost = true → (t.inputs.lines[n]).lost = true) ∧
      t.inputs.holdA = (if hreqA = s.inputs.holdA.asserted then { s.inputs.holdA with run := 0 }
        else if s.inputs.holdA.run + 1 < 3 then { s.inputs.holdA with run := s.inputs.holdA.run + 1 }
        else { asserted := hreqA, run := 0 }) ∧
      t.inputs.holdB = (if hreqB = s.inputs.holdB.asserted then { s.inputs.holdB with run := 0 }
        else if s.inputs.holdB.run + 1 < 3 then { s.inputs.holdB with run := s.inputs.holdB.run + 1 }
        else { asserted := hreqB, run := 0 }) ∧
      t.inputs.period = s.inputs.period ∧
      t.inputs.sampleTimer = (if s.inputs.period = 0 then 1 else if s.inputs.period = 1 then 2
        else if s.inputs.period = 2 then 4 else 10) ∧
      t.routes = s.routes ∧ t.exchange = s.exchange ∧ t.trunk.queue = s.trunk.queue ∧
      t.trunk.counters = s.trunk.counters ∧ t.trunk.port = s.trunk.port ∧ t.timeCounter = s.timeCounter ∧
      t.resetCause = s.resetCause

/-- An accepted change of one line, no other line and no hold changing at the sample (R131, R132, R138, R139, R142,
R144): covered by the edge select it is taken by the reporter as `EventTaken` says row by row (discarded in mode OFF or
for its class; folded into the WAITING record of the line; a new record; or with 31 ordinary records held lost, and
then recorded by a new OVERFLOW record, counted by the WAITING one with its last time, or added to the carry while that
record is IN-BATCH), and the lost flag is set exactly where it is lost; then the arbiter is asked (R29, R149): with the
transmitter busy or nothing to send nothing more happens; with the transmitter IDLE in UNSOLICITED mode an IDLE
reporter with an eligible record sends a new batch at once, and an outstanding batch whose resend is due is sent once
more. Not covered, the change leaves the reporter, the transmitter and the lost flag as they were. That the arbiter is
asked inside the sample instant (log 15), and at every event offered (log 24), is the model's reading. -/
def Obligations.AcceptedChangeIsReported : Prop :=
  ∀ (s : State) (inputs : Word) (n : Fin 16) (high : Bool), Acting s → OutputLaw s → SegmentsLaw s →
    high = inputs.getLsbD n.val →
    (∀ m : Fin 16, m ≠ n → (s.inputs.lines[m]).baselineDue = true ∨
      inputs.getLsbD m.val = (s.inputs.lines[m]).accepted) →
    (s.inputs.lines[n]).baselineDue = false → high ≠ (s.inputs.lines[n]).accepted →
    (s.inputs.lines[n]).qualification.toNat ≤ (s.inputs.lines[n]).run →
    ∃ t, exec (.sampleInstant inputs s.inputs.holdA.asserted s.inputs.holdB.asserted) s = .next t ∧
      t.trunk = { s.trunk with tx := t.trunk.tx } ∧
      ((s.inputs.lines[n]).edge = .none ∨ ((s.inputs.lines[n]).edge = .rise ∧ high = false) ∨
          ((s.inputs.lines[n]).edge = .fall ∧ high = true) →
        t.reporter = s.reporter ∧ t.trunk.tx = s.trunk.tx ∧
        (t.inputs.lines[n]).lost = (s.inputs.lines[n]).lost) ∧
      ((s.inputs.lines[n]).edge = .both ∨ ((s.inputs.lines[n]).edge = .rise ∧ high = true) ∨
          ((s.inputs.lines[n]).edge = .fall ∧ high = false) →
        (t.inputs.lines[n]).lost = ((s.inputs.lines[n]).lost ||
          (s.reporter.mode != .off && s.reporter.enables.getLsbD (s.inputs.lines[n]).cls.val &&
            !s.reporter.queue.any (fun q => q.subject == .input n && q.status == .waiting) &&
            decide (31 ≤ s.reporter.queue.countP (fun q => q.code != .overflow)))) ∧
        ∃ rep : Reporter,
          EventTaken s.reporter
            { subject := .input n, cls := (s.inputs.lines[n]).cls, code := if high then .rise else .fall
              info := .level high, time := s.timeCounter } rep ∧
          (s.trunk.tx ≠ .idle ∨ s.reporter.mode ≠ .unsolicited ∨ s.reporter.state = .stalled ∨
              (s.reporter.state = .outstanding ∧ s.reporter.resendDue = false) ∨
              (s.reporter.state = .idle ∧ NothingEligible rep) →
            t.reporter = rep ∧ t.trunk.tx = s.trunk.tx) ∧
          (∀ d : Byte, s.trunk.tx = .idle → s.reporter.mode = .unsolicited → s.reporter.destination = some d →
            (s.reporter.state = .idle → BatchLaw s.reporter →
              (∃ q ∈ rep.queue, q.status = .waiting ∧ rep.enables.getLsbD q.cls.val = true) →
              NewBatchGranted d s.trunk.address rep t.trunk.tx t.reporter) ∧
            (∀ b : Byte, s.reporter.state = .outstanding → s.reporter.resendDue = true →
              s.reporter.outstanding = some b →
              t.trunk.tx = .reporting (rptFrame d s.trunk.address (batchBytes b rep.batchNow)) ∧
              t.reporter = { rep with
                resendDue := false, sendCount := s.reporter.sendCount + 1, sending := true })))

/-- The third sample of a hold line at the other level, as SAMPLE_INSTANT takes it (R113 to R117, R121, R123):
assertion leads to LENT from IDLE, GUARD and RESUME with HACKx high, xDE low, the framer closed, the timers stopped,
the lent time 0 and a pending configuration applied; it sets drain-requested in SEND and WAIT; deassertion clears
drain-requested there and reclaims a LENT segment into RESUME with HACKx low and the guard timer started. The other
segment and its hold line at rest are unchanged. Where no input line offers an event at the same sample, the entry to
LENT offers SEGMENT LENT and the reclaim SEGMENT RECLAIMED, taken or lost as `EventTaken` says row by row (R143, R144),
and the arbiter is asked (inside the sample instant, log 15). -/
def Obligations.HoldLendsAndReclaims : Prop :=
  ∀ (s : State) (x : Seg) (inputs : Word) (hreq : Seg → Bool), Acting s → HoldLaw s → OutputLaw s →
    (if x = .a then s.inputs.holdA else s.inputs.holdB) = { asserted := !hreq x, run := 2 } →
    (∀ y : Seg, y ≠ x → (if y = .a then s.inputs.holdA else s.inputs.holdB).asserted = hreq y) →
    ∃ t, exec (.sampleInstant inputs (hreq .a) (hreq .b)) s = .next t ∧
      (∀ y : Seg, y ≠ x → t.seg y = s.seg y) ∧
      (hreq x = true → (s.seg x).state = .idle ∨ (s.seg x).state = .guard ∨ (s.seg x).state = .resume →
        t.seg x = { s.seg x with
          state := .lent, hack := true, de := false, tx := none, current := none, responseTimer := none
          guardTimer := none, lentTime := some 0, drainRequested := false, pendingConfig := none
          config := (s.seg x).pendingConfig.getD (s.seg x).config
          port := { (s.seg x).port with receiver := .closed, framer := Framer.reset } }) ∧
      (hreq x = true → (s.seg x).state = .send ∨ (s.seg x).state = .wait →
        t.seg x = { s.seg x with drainRequested := true }) ∧
      (hreq x = false → (s.seg x).state = .send ∨ (s.seg x).state = .wait →
        t.seg x = { s.seg x with drainRequested := false }) ∧
      (hreq x = false → (s.seg x).state = .lent →
        t.seg x = { s.seg x with
          state := .resume, hack := false, lentExpired := false, lentTime := none
          guardTimer := some (s.seg x).config.guard.toNat
          port := { (s.seg x).port with receiver := .unqualified, framer := Framer.reset } }) ∧
      ((∀ m : Fin 16, (s.inputs.lines[m]).baselineDue = true ∨ (s.inputs.lines[m]).edge = .none ∨
          inputs.getLsbD m.val = (s.inputs.lines[m]).accepted ∨
          (s.inputs.lines[m]).run < (s.inputs.lines[m]).qualification.toNat) →
        (hreq x = true → (s.seg x).state = .idle ∨ (s.seg x).state = .guard ∨ (s.seg x).state = .resume →
          EntersLent x s { t with inputs := s.inputs }) ∧
        (hreq x = false → (s.seg x).state = .lent → IsReclaimed x s { t with inputs := s.inputs }) ∧
        ((s.seg x).state = .send ∨ (s.seg x).state = .wait →
          t.reporter = s.reporter ∧ t.trunk = s.trunk ∧ t.exchange = s.exchange))

/-- Where a hold drains (R79, R98, R102, R104, R105, R115, R116, R123), the events that end the work on the wire are
carried out in full, records and counters included, and lead to LENT in place of GUARD with SEGMENT LENT offered: a
matching RSP or NAK; a corrupt-frame notice or the expiry of the response timer, with and without retries remaining;
the end of a broadcast delivery; and the end of the transmission of a record taken by an abort or a line reset. A
record that completes with 8 frames queued is COMPLETE. That the expiry is a command of its own, taken at timer 0, is
the model's choice (log 9), as is that MATCHING_FRAME and STRAY_FRAME are judged alike (log 19). The delivered frame
stands in the model's own list of deliveries until its command takes it (log 3). -/
def Obligations.DrainEndsInLent : Prop :=
  ∀ (s : State) (x : Seg), Acting s → ExchangeLaw s → (s.seg x).drainRequested = true →
    let ended := fun (t : State) (slot : Slot) (r : Record) (carriage : Carriage) (kind : FrameKind)
        (payload : List Byte) =>
      if s.trunk.queue.length < 8 then { t with exchange := s.exchange.free slot }.replied r kind payload
      else { t with exchange := { s.exchange with
        slots := s.exchange.slots.set slot (some { r with
          state := .complete { kind := kind, payload := payload }, carriage := carriage })
        completion := s.exchange.completion ++ [slot] } }
    let failed := fun (slot : Slot) (r : Record) (c : Single) (i : Instr) (taken : State) (reason : Byte)
        (counted : SegmentCounters) =>
      (∀ n, c.retries = n + 1 →
        ∃ t, exec i s = .next t ∧
          EntersLent x ({ taken with exchange := { s.exchange with slots := s.exchange.slots.set slot (some { r with
            state := .queued, carriage := .single { c with retries := n, segTag := none } }) } }.modSeg x fun g =>
            { g with counters := { counted with retries := satInc counted.retries } }) t) ∧
      (c.retries = 0 →
        ∃ t, exec i s = .next t ∧
          EntersLent x ((ended taken slot r (.single { c with segTag := none }) .nak
            [reason, BitVec.ofNat 8 r.attempts]).modSeg x fun g => { g with counters := counted }) t)
    (∀ (slot : Slot) (r : Record) (c : Single), (s.seg x).state = .wait → (s.seg x).current = some slot →
      s.exchange.record slot = some r → r.carriage = .single c →
      (∀ (f : Frame) (i : Instr), f.goodOnSegment = true → f.kind = .rsp ∨ f.kind = .nak → f.src = r.segAddress →
        f.dest = 254 → c.segTag = some f.tag → i = .matchingFrame x f ∨ i = .strayFrame x f →
        ∃ t, exec i s = .next t ∧
          EntersLent x (ended (s.takenOn x (.frame f)) slot r (.single { c with segTag := none }) f.kind
            (if f.kind = FrameKind.rsp then f.payload else [0x22, f.payload.headD 0])) t) ∧
      failed slot r c (.corruptFrameNotice x) (s.takenOn x .corruptNotice) 0x21
        { (s.seg x).counters with corrupt := satInc (s.seg x).counters.corrupt } ∧
      ((s.seg x).responseTimer = some 0 →
        failed slot r c (.responseTimerExpiry x) s 0x20
          { (s.seg x).counters with timeouts := satInc (s.seg x).counters.timeouts })) ∧
    (∀ (slot : Slot) (r : Record) (c : Broadcast), (s.seg x).state = .send → (s.seg x).current = some slot →
      s.exchange.record slot = some r → r.carriage = .broadcast c →
      ((c.pending.remove x).isEmpty = false →
        ∃ t, exec (.segmentEndOfTransmission x) s = .next t ∧
          EntersLent x { s with exchange := { s.exchange with slots := s.exchange.slots.set slot (some { r with
            state := if (x ≠ Seg.a ∧ s.segA.current = some slot) ∨ (x ≠ Seg.b ∧ s.segB.current = some slot) then
              .active else .queued
            carriage := .broadcast { c with
              pending := c.pending.remove x, delivered := c.delivered.insert x } }) } } t) ∧
      ((c.pending.remove x).isEmpty = true →
        ∃ t, exec (.segmentEndOfTransmission x) s = .next t ∧
          EntersLent x (ended s slot r (.broadcast { c with
            pending := { a := false, b := false }, delivered := c.delivered.insert x }) .rsp
            [(c.delivered.insert x).mask]) t)) ∧
    ((s.seg x).state = .send → (s.seg x).current = none →
      ∃ t, exec (.segmentEndOfTransmission x) s = .next t ∧ EntersLent x s t)

/-! ### Laws that every step keeps -/

/-- HACKx is high exactly while LENT and xDE exactly in SEND, each timer runs in its own states alone, a hold line is
ASSERTED exactly while its segment is lent or drains, and no LENT segment has reached its patience without being
lent-expired: every step keeps it (R89, R114, R115, R117, R119). -/
def Obligations.SegmentsAndHoldsLawKept : Prop :=
  (∀ s t : State, SegmentsLaw s → step s = .next t → SegmentsLaw t) ∧
  (∀ s t : State, HoldLaw s → step s = .next t → HoldLaw t) ∧
  (∀ s t : State, PatienceLaw s → step s = .next t → PatienceLaw t)

/-- The laws of the output queue and the exchange table (R23, R26, R28, R66, R67, R69, R73, R79, R91): every step keeps
them. And every admitted request gets exactly one reply (R78, R79, R87): in every command but a reset that takes effect
or begins, each record that becomes FREE puts one reply with its origin into the trunk output, a record that stays
keeps its origin and a reply once built, and nothing but one immediate or management reply enters beside them. -/
def Obligations.ExchangeLawKept : Prop :=
  (∀ s t : State, ExchangeLaw s → step s = .next t → ExchangeLaw t) ∧
  (∀ (c : Instr) (s t : State), Acting s → ExchangeLaw s → (∀ p, c ≠ .hardReset p) → (∀ h, c ≠ .hardResetBegin h) →
    ¬ (s.resetBound = true ∧ (c = .softReset ∨ c = .endOfTransmission)) →
    exec c s = .next t → RepliesAccounted c s t)

/-- The laws of the report queue and the outstanding batch (R140, R142, R146, R148): every step keeps them. -/
def Obligations.ReporterLawKept : Prop :=
  ∀ s t : State, ReporterLaw s → step s = .next t → ReporterLaw t

/-- The law of the active bank and the valid-entry counts (R36, R51): every step keeps them; and the gateway address,
the trunk rate and parity change by HARD_RESET alone, the strap fault flag by HARD_RESET and, being clear at its start,
by HARD_RESET_BEGIN (R18, R19). -/
def Obligations.RouteTableLawsKept : Prop :=
  (∀ s t : State, ActiveBankLaw s → step s = .next t → ActiveBankLaw t) ∧
  (∀ s t : State, CountLaw s → step s = .next t → CountLaw t) ∧
  (∀ (c : Instr) (s t : State), (∀ p, c ≠ .hardReset p) → exec c s = .next t →
    t.trunk.address = s.trunk.address ∧ t.trunk.rate = s.trunk.rate ∧ t.trunk.parity = s.trunk.parity ∧
    ((∀ h, c ≠ .hardResetBegin h) → t.trunk.strapFault = s.trunk.strapFault) ∧
    ((∃ h, c = .hardResetBegin h) → t.trunk.strapFault = false))

/-- What the framers hold in each state (R10, R12), the run counts (R113, R127) and the frame to which a pending soft
reset is bound (R30, R167): every step keeps each law. -/
def Obligations.FramersInputsAndResetLawsKept : Prop :=
  (∀ s t : State, FramersLaw s → step s = .next t → FramersLaw t) ∧
  (∀ s t : State, InputLaw s.inputs → step s = .next t → InputLaw t.inputs) ∧
  (∀ s t : State, BoundLaw s → step s = .next t → BoundLaw t)

/-- The commit generation changes by a successful COMMIT, which raises it by one from 65535 to 0, and by hard reset,
which sets it to 0, and by no other command (R59). -/
def Obligations.GenerationLaw : Prop :=
  (∀ (p : Straps) (s t : State), exec (.hardReset p) s = .next t → t.routes.generation = 0) ∧
  (∀ (r : Request) (s t : State), exec (.commit r) s = .next t →
    t.routes.generation = s.routes.generation ∨
      (t.routes.generation.toNat = (s.routes.generation.toNat + 1) % 65536 ∧
        t.routes.active = s.routes.staged ∧ t.routes.staged = s.routes.active)) ∧
  (∀ (r : Request) (s t : State), Ready s r → OutputLaw s →
    r.payload = [s.routes.generation.extractLsb' 8 8, s.routes.generation.extractLsb' 0 8] →
    KeysDistinct s.routes.staged →
    (∀ i : Fin 48, (s.routes.staged[i]).map RouteEntry.trunkAddress ≠ some s.trunk.address) →
    exec (.commit r) s = .next t → t.routes.generation.toNat = (s.routes.generation.toNat + 1) % 65536) ∧
  (∀ (c : Instr) (s t : State), (∀ p, c ≠ .hardReset p) → (∀ r, c ≠ .commit r) → exec c s = .next t →
    t.routes.generation = s.routes.generation)

/-- Every law holds in the state after reset. That this state is the one after a power-on with the strap pins low is
the model's choice (log 10, log 11). -/
def Obligations.LawsHoldAtReset : Prop :=
  SegmentsLaw State.reset ∧ HoldLaw State.reset ∧ PatienceLaw State.reset ∧ ExchangeLaw State.reset ∧
  ReporterLaw State.reset ∧ ActiveBankLaw State.reset ∧ CountLaw State.reset ∧ FramersLaw State.reset ∧
  InputLaw State.reset.inputs ∧ BoundLaw State.reset
end

