-- ==== Sys2Proof/Laws/State.lean ====
section
/-! SUPPORT. One lemma per field per update of the state, so that no later proof unfolds a record update. -/

namespace Sys2Proof.Machine

/-! ### Segments: `seg`, `setSeg`, `modSeg` -/

@[simp] theorem State.seg_a (s : State) : s.seg .a = s.segA := rfl
@[simp] theorem State.seg_b (s : State) : s.seg .b = s.segB := rfl
@[simp] theorem State.setSeg_hardReset (s : State) (x : Seg) (g : Segment) : (s.setSeg x g).hardReset = s.hardReset := by cases x <;> rfl
@[simp] theorem State.setSeg_timeCounter (s : State) (x : Seg) (g : Segment) : (s.setSeg x g).timeCounter = s.timeCounter := by cases x <;> rfl
@[simp] theorem State.setSeg_resetCause (s : State) (x : Seg) (g : Segment) : (s.setSeg x g).resetCause = s.resetCause := by cases x <;> rfl
@[simp] theorem State.setSeg_trunk (s : State) (x : Seg) (g : Segment) : (s.setSeg x g).trunk = s.trunk := by cases x <;> rfl
@[simp] theorem State.setSeg_routes (s : State) (x : Seg) (g : Segment) : (s.setSeg x g).routes = s.routes := by cases x <;> rfl
@[simp] theorem State.setSeg_exchange (s : State) (x : Seg) (g : Segment) : (s.setSeg x g).exchange = s.exchange := by cases x <;> rfl
@[simp] theorem State.setSeg_inputs (s : State) (x : Seg) (g : Segment) : (s.setSeg x g).inputs = s.inputs := by cases x <;> rfl
@[simp] theorem State.setSeg_reporter (s : State) (x : Seg) (g : Segment) : (s.setSeg x g).reporter = s.reporter := by cases x <;> rfl
@[simp] theorem State.setSeg_pending (s : State) (x : Seg) (g : Segment) : (s.setSeg x g).pending = s.pending := by cases x <;> rfl
@[simp] theorem State.setSeg_a_segA (s : State) (g : Segment) : (s.setSeg .a g).segA = g := rfl
@[simp] theorem State.setSeg_a_segB (s : State) (g : Segment) : (s.setSeg .a g).segB = s.segB := rfl
@[simp] theorem State.setSeg_b_segA (s : State) (g : Segment) : (s.setSeg .b g).segA = s.segA := rfl
@[simp] theorem State.setSeg_b_segB (s : State) (g : Segment) : (s.setSeg .b g).segB = g := rfl
@[simp] theorem State.setSeg_seg_self (s : State) (x : Seg) (g : Segment) : (s.setSeg x g).seg x = g := by cases x <;> rfl
theorem State.setSeg_seg_other (s : State) (x y : Seg) (g : Segment) (h : y ≠ x) : (s.setSeg x g).seg y = s.seg y := by
  cases x <;> cases y <;> first | rfl | exact absurd rfl h

@[simp] theorem State.modSeg_hardReset (s : State) (x : Seg) (f : Segment → Segment) : (s.modSeg x f).hardReset = s.hardReset := by cases x <;> rfl
@[simp] theorem State.modSeg_timeCounter (s : State) (x : Seg) (f : Segment → Segment) : (s.modSeg x f).timeCounter = s.timeCounter := by cases x <;> rfl
@[simp] theorem State.modSeg_resetCause (s : State) (x : Seg) (f : Segment → Segment) : (s.modSeg x f).resetCause = s.resetCause := by cases x <;> rfl
@[simp] theorem State.modSeg_trunk (s : State) (x : Seg) (f : Segment → Segment) : (s.modSeg x f).trunk = s.trunk := by cases x <;> rfl
@[simp] theorem State.modSeg_routes (s : State) (x : Seg) (f : Segment → Segment) : (s.modSeg x f).routes = s.routes := by cases x <;> rfl
@[simp] theorem State.modSeg_exchange (s : State) (x : Seg) (f : Segment → Segment) : (s.modSeg x f).exchange = s.exchange := by cases x <;> rfl
@[simp] theorem State.modSeg_inputs (s : State) (x : Seg) (f : Segment → Segment) : (s.modSeg x f).inputs = s.inputs := by cases x <;> rfl
@[simp] theorem State.modSeg_reporter (s : State) (x : Seg) (f : Segment → Segment) : (s.modSeg x f).reporter = s.reporter := by cases x <;> rfl
@[simp] theorem State.modSeg_pending (s : State) (x : Seg) (f : Segment → Segment) : (s.modSeg x f).pending = s.pending := by cases x <;> rfl
@[simp] theorem State.modSeg_a_segA (s : State) (f : Segment → Segment) : (s.modSeg .a f).segA = f s.segA := rfl
@[simp] theorem State.modSeg_a_segB (s : State) (f : Segment → Segment) : (s.modSeg .a f).segB = s.segB := rfl
@[simp] theorem State.modSeg_b_segA (s : State) (f : Segment → Segment) : (s.modSeg .b f).segA = s.segA := rfl
@[simp] theorem State.modSeg_b_segB (s : State) (f : Segment → Segment) : (s.modSeg .b f).segB = f s.segB := rfl
@[simp] theorem State.modSeg_seg_self (s : State) (x : Seg) (f : Segment → Segment) : (s.modSeg x f).seg x = f (s.seg x) := by cases x <;> rfl
theorem State.modSeg_seg_other (s : State) (x y : Seg) (f : Segment → Segment) (h : y ≠ x) :
    (s.modSeg x f).seg y = s.seg y := State.setSeg_seg_other s x y _ h


/-! ### `modTrunk` -/

@[simp] theorem State.modTrunk_hardReset (s : State) (f : Trunk → Trunk) : (s.modTrunk f).hardReset = s.hardReset := rfl
@[simp] theorem State.modTrunk_timeCounter (s : State) (f : Trunk → Trunk) : (s.modTrunk f).timeCounter = s.timeCounter := rfl
@[simp] theorem State.modTrunk_resetCause (s : State) (f : Trunk → Trunk) : (s.modTrunk f).resetCause = s.resetCause := rfl
@[simp] theorem State.modTrunk_routes (s : State) (f : Trunk → Trunk) : (s.modTrunk f).routes = s.routes := rfl
@[simp] theorem State.modTrunk_exchange (s : State) (f : Trunk → Trunk) : (s.modTrunk f).exchange = s.exchange := rfl
@[simp] theorem State.modTrunk_segA (s : State) (f : Trunk → Trunk) : (s.modTrunk f).segA = s.segA := rfl
@[simp] theorem State.modTrunk_segB (s : State) (f : Trunk → Trunk) : (s.modTrunk f).segB = s.segB := rfl
@[simp] theorem State.modTrunk_inputs (s : State) (f : Trunk → Trunk) : (s.modTrunk f).inputs = s.inputs := rfl
@[simp] theorem State.modTrunk_reporter (s : State) (f : Trunk → Trunk) : (s.modTrunk f).reporter = s.reporter := rfl
@[simp] theorem State.modTrunk_pending (s : State) (f : Trunk → Trunk) : (s.modTrunk f).pending = s.pending := rfl
@[simp] theorem State.modTrunk_trunk (s : State) (f : Trunk → Trunk) : (s.modTrunk f).trunk = f s.trunk := rfl
@[simp] theorem State.modTrunk_seg (s : State) (f : Trunk → Trunk) (x : Seg) : (s.modTrunk f).seg x = s.seg x := by cases x <;> rfl

/-! ### `modReporter` -/

@[simp] theorem State.modReporter_hardReset (s : State) (f : Reporter → Reporter) : (s.modReporter f).hardReset = s.hardReset := rfl
@[simp] theorem State.modReporter_timeCounter (s : State) (f : Reporter → Reporter) : (s.modReporter f).timeCounter = s.timeCounter := rfl
@[simp] theorem State.modReporter_resetCause (s : State) (f : Reporter → Reporter) : (s.modReporter f).resetCause = s.resetCause := rfl
@[simp] theorem State.modReporter_trunk (s : State) (f : Reporter → Reporter) : (s.modReporter f).trunk = s.trunk := rfl
@[simp] theorem State.modReporter_routes (s : State) (f : Reporter → Reporter) : (s.modReporter f).routes = s.routes := rfl
@[simp] theorem State.modReporter_exchange (s : State) (f : Reporter → Reporter) : (s.modReporter f).exchange = s.exchange := rfl
@[simp] theorem State.modReporter_segA (s : State) (f : Reporter → Reporter) : (s.modReporter f).segA = s.segA := rfl
@[simp] theorem State.modReporter_segB (s : State) (f : Reporter → Reporter) : (s.modReporter f).segB = s.segB := rfl
@[simp] theorem State.modReporter_inputs (s : State) (f : Reporter → Reporter) : (s.modReporter f).inputs = s.inputs := rfl
@[simp] theorem State.modReporter_pending (s : State) (f : Reporter → Reporter) : (s.modReporter f).pending = s.pending := rfl
@[simp] theorem State.modReporter_reporter (s : State) (f : Reporter → Reporter) : (s.modReporter f).reporter = f s.reporter := rfl
@[simp] theorem State.modReporter_seg (s : State) (f : Reporter → Reporter) (x : Seg) : (s.modReporter f).seg x = s.seg x := by cases x <;> rfl

/-! ### `modRoutes` -/

@[simp] theorem State.modRoutes_hardReset (s : State) (f : RouteTable → RouteTable) : (s.modRoutes f).hardReset = s.hardReset := rfl
@[simp] theorem State.modRoutes_timeCounter (s : State) (f : RouteTable → RouteTable) : (s.modRoutes f).timeCounter = s.timeCounter := rfl
@[simp] theorem State.modRoutes_resetCause (s : State) (f : RouteTable → RouteTable) : (s.modRoutes f).resetCause = s.resetCause := rfl
@[simp] theorem State.modRoutes_trunk (s : State) (f : RouteTable → RouteTable) : (s.modRoutes f).trunk = s.trunk := rfl
@[simp] theorem State.modRoutes_exchange (s : State) (f : RouteTable → RouteTable) : (s.modRoutes f).exchange = s.exchange := rfl
@[simp] theorem State.modRoutes_segA (s : State) (f : RouteTable → RouteTable) : (s.modRoutes f).segA = s.segA := rfl
@[simp] theorem State.modRoutes_segB (s : State) (f : RouteTable → RouteTable) : (s.modRoutes f).segB = s.segB := rfl
@[simp] theorem State.modRoutes_inputs (s : State) (f : RouteTable → RouteTable) : (s.modRoutes f).inputs = s.inputs := rfl
@[simp] theorem State.modRoutes_reporter (s : State) (f : RouteTable → RouteTable) : (s.modRoutes f).reporter = s.reporter := rfl
@[simp] theorem State.modRoutes_pending (s : State) (f : RouteTable → RouteTable) : (s.modRoutes f).pending = s.pending := rfl
@[simp] theorem State.modRoutes_routes (s : State) (f : RouteTable → RouteTable) : (s.modRoutes f).routes = f s.routes := rfl
@[simp] theorem State.modRoutes_seg (s : State) (f : RouteTable → RouteTable) (x : Seg) : (s.modRoutes f).seg x = s.seg x := by cases x <;> rfl

/-! ### `modInputs` -/

@[simp] theorem State.modInputs_hardReset (s : State) (f : InputBlock → InputBlock) : (s.modInputs f).hardReset = s.hardReset := rfl
@[simp] theorem State.modInputs_timeCounter (s : State) (f : InputBlock → InputBlock) : (s.modInputs f).timeCounter = s.timeCounter := rfl
@[simp] theorem State.modInputs_resetCause (s : State) (f : InputBlock → InputBlock) : (s.modInputs f).resetCause = s.resetCause := rfl
@[simp] theorem State.modInputs_trunk (s : State) (f : InputBlock → InputBlock) : (s.modInputs f).trunk = s.trunk := rfl
@[simp] theorem State.modInputs_routes (s : State) (f : InputBlock → InputBlock) : (s.modInputs f).routes = s.routes := rfl
@[simp] theorem State.modInputs_exchange (s : State) (f : InputBlock → InputBlock) : (s.modInputs f).exchange = s.exchange := rfl
@[simp] theorem State.modInputs_segA (s : State) (f : InputBlock → InputBlock) : (s.modInputs f).segA = s.segA := rfl
@[simp] theorem State.modInputs_segB (s : State) (f : InputBlock → InputBlock) : (s.modInputs f).segB = s.segB := rfl
@[simp] theorem State.modInputs_reporter (s : State) (f : InputBlock → InputBlock) : (s.modInputs f).reporter = s.reporter := rfl
@[simp] theorem State.modInputs_pending (s : State) (f : InputBlock → InputBlock) : (s.modInputs f).pending = s.pending := rfl
@[simp] theorem State.modInputs_inputs (s : State) (f : InputBlock → InputBlock) : (s.modInputs f).inputs = f s.inputs := rfl
@[simp] theorem State.modInputs_seg (s : State) (f : InputBlock → InputBlock) (x : Seg) : (s.modInputs f).seg x = s.seg x := by cases x <;> rfl

/-! ### Ports -/

@[simp] theorem State.modPort_hardReset (s : State) (p : PortId) (f : Port → Port) : (s.modPort p f).hardReset = s.hardReset := by
 rcases p with _ | ⟨x⟩
 · rfl
 · cases x <;> rfl
@[simp] theorem State.modPort_timeCounter (s : State) (p : PortId) (f : Port → Port) : (s.modPort p f).timeCounter = s.timeCounter := by
 rcases p with _ | ⟨x⟩
 · rfl
 · cases x <;> rfl
@[simp] theorem State.modPort_resetCause (s : State) (p : PortId) (f : Port → Port) : (s.modPort p f).resetCause = s.resetCause := by
 rcases p with _ | ⟨x⟩
 · rfl
 · cases x <;> rfl
@[simp] theorem State.modPort_routes (s : State) (p : PortId) (f : Port → Port) : (s.modPort p f).routes = s.routes := by
 rcases p with _ | ⟨x⟩
 · rfl
 · cases x <;> rfl
@[simp] theorem State.modPort_exchange (s : State) (p : PortId) (f : Port → Port) : (s.modPort p f).exchange = s.exchange := by
 rcases p with _ | ⟨x⟩
 · rfl
 · cases x <;> rfl
@[simp] theorem State.modPort_inputs (s : State) (p : PortId) (f : Port → Port) : (s.modPort p f).inputs = s.inputs := by
 rcases p with _ | ⟨x⟩
 · rfl
 · cases x <;> rfl
@[simp] theorem State.modPort_reporter (s : State) (p : PortId) (f : Port → Port) : (s.modPort p f).reporter = s.reporter := by
 rcases p with _ | ⟨x⟩
 · rfl
 · cases x <;> rfl
@[simp] theorem State.modPort_pending (s : State) (p : PortId) (f : Port → Port) : (s.modPort p f).pending = s.pending := by
 rcases p with _ | ⟨x⟩
 · rfl
 · cases x <;> rfl
@[simp] theorem State.modPort_trunk_port (s : State) (f : Port → Port) : (s.modPort .trunk f).trunk = { s.trunk with port := f s.trunk.port } := rfl
@[simp] theorem State.modPort_trunk_segA (s : State) (f : Port → Port) : (s.modPort .trunk f).segA = s.segA := rfl
@[simp] theorem State.modPort_trunk_segB (s : State) (f : Port → Port) : (s.modPort .trunk f).segB = s.segB := rfl
@[simp] theorem State.modPort_segment_trunk (s : State) (x : Seg) (f : Port → Port) : (s.modPort (.segment x) f).trunk = s.trunk := by cases x <;> rfl
@[simp] theorem State.modPort_segment_seg (s : State) (x : Seg) (f : Port → Port) : (s.modPort (.segment x) f).seg x = (s.seg x).modPort f := by cases x <;> rfl
@[simp] theorem Segment.modPort_counters (g : Segment) (f : Port → Port) : (g.modPort f).counters = g.counters := rfl
@[simp] theorem Segment.modPort_state (g : Segment) (f : Port → Port) : (g.modPort f).state = g.state := rfl
@[simp] theorem Segment.modPort_current (g : Segment) (f : Port → Port) : (g.modPort f).current = g.current := rfl
@[simp] theorem Segment.modPort_tagCounter (g : Segment) (f : Port → Port) : (g.modPort f).tagCounter = g.tagCounter := rfl
@[simp] theorem Segment.modPort_responseTimer (g : Segment) (f : Port → Port) : (g.modPort f).responseTimer = g.responseTimer := rfl
@[simp] theorem Segment.modPort_guardTimer (g : Segment) (f : Port → Port) : (g.modPort f).guardTimer = g.guardTimer := rfl
@[simp] theorem Segment.modPort_config (g : Segment) (f : Port → Port) : (g.modPort f).config = g.config := rfl
@[simp] theorem Segment.modPort_pendingConfig (g : Segment) (f : Port → Port) : (g.modPort f).pendingConfig = g.pendingConfig := rfl
@[simp] theorem Segment.modPort_drainRequested (g : Segment) (f : Port → Port) : (g.modPort f).drainRequested = g.drainRequested := rfl
@[simp] theorem Segment.modPort_lentExpired (g : Segment) (f : Port → Port) : (g.modPort f).lentExpired = g.lentExpired := rfl
@[simp] theorem Segment.modPort_lentTime (g : Segment) (f : Port → Port) : (g.modPort f).lentTime = g.lentTime := rfl
@[simp] theorem Segment.modPort_tx (g : Segment) (f : Port → Port) : (g.modPort f).tx = g.tx := rfl
@[simp] theorem Segment.modPort_de (g : Segment) (f : Port → Port) : (g.modPort f).de = g.de := rfl
@[simp] theorem Segment.modPort_hack (g : Segment) (f : Port → Port) : (g.modPort f).hack = g.hack := rfl
@[simp] theorem Segment.modPort_port (g : Segment) (f : Port → Port) : (g.modPort f).port = f g.port := rfl
@[simp] theorem Port.hunt_receiver (p : Port) : (p.hunt).receiver = p.receiver := rfl
@[simp] theorem Port.hunt_framer (p : Port) : (p.hunt).framer = Framer.reset := rfl
@[simp] theorem Port.hunt_counters (p : Port) : (p.hunt).counters = p.counters := rfl
@[simp] theorem Port.hunt_deliveries (p : Port) : (p.hunt).deliveries = p.deliveries := rfl
@[simp] theorem Port.close_receiver (p : Port) : (p.close).receiver = .closed := rfl
@[simp] theorem Port.close_framer (p : Port) : (p.close).framer = Framer.reset := rfl
@[simp] theorem Port.close_counters (p : Port) : (p.close).counters = p.counters := rfl
@[simp] theorem Port.close_deliveries (p : Port) : (p.close).deliveries = p.deliveries := rfl
@[simp] theorem Port.reopen_receiver (p : Port) : (p.reopen).receiver = .unqualified := rfl
@[simp] theorem Port.reopen_framer (p : Port) : (p.reopen).framer = Framer.reset := rfl
@[simp] theorem Port.reopen_counters (p : Port) : (p.reopen).counters = p.counters := rfl
@[simp] theorem Port.reopen_deliveries (p : Port) : (p.reopen).deliveries = p.deliveries := rfl

/-! ### Exchange records -/

@[simp] theorem State.setRecord_hardReset (s : State) (i : Slot) (r : Record) : (s.setRecord i r).hardReset = s.hardReset := rfl
@[simp] theorem State.setRecord_timeCounter (s : State) (i : Slot) (r : Record) : (s.setRecord i r).timeCounter = s.timeCounter := rfl
@[simp] theorem State.setRecord_resetCause (s : State) (i : Slot) (r : Record) : (s.setRecord i r).resetCause = s.resetCause := rfl
@[simp] theorem State.setRecord_trunk (s : State) (i : Slot) (r : Record) : (s.setRecord i r).trunk = s.trunk := rfl
@[simp] theorem State.setRecord_routes (s : State) (i : Slot) (r : Record) : (s.setRecord i r).routes = s.routes := rfl
@[simp] theorem State.setRecord_segA (s : State) (i : Slot) (r : Record) : (s.setRecord i r).segA = s.segA := rfl
@[simp] theorem State.setRecord_segB (s : State) (i : Slot) (r : Record) : (s.setRecord i r).segB = s.segB := rfl
@[simp] theorem State.setRecord_inputs (s : State) (i : Slot) (r : Record) : (s.setRecord i r).inputs = s.inputs := rfl
@[simp] theorem State.setRecord_reporter (s : State) (i : Slot) (r : Record) : (s.setRecord i r).reporter = s.reporter := rfl
@[simp] theorem State.setRecord_pending (s : State) (i : Slot) (r : Record) : (s.setRecord i r).pending = s.pending := rfl
@[simp] theorem State.setRecord_exchange (s : State) (i : Slot) (r : Record) : (s.setRecord i r).exchange = s.exchange.setRecord i r := rfl
@[simp] theorem State.setRecord_seg (s : State) (i : Slot) (r : Record) (x : Seg) : (s.setRecord i r).seg x = s.seg x := by cases x <;> rfl
@[simp] theorem State.freeSlot_hardReset (s : State) (i : Slot) : (s.freeSlot i).hardReset = s.hardReset := rfl
@[simp] theorem State.freeSlot_timeCounter (s : State) (i : Slot) : (s.freeSlot i).timeCounter = s.timeCounter := rfl
@[simp] theorem State.freeSlot_resetCause (s : State) (i : Slot) : (s.freeSlot i).resetCause = s.resetCause := rfl
@[simp] theorem State.freeSlot_trunk (s : State) (i : Slot) : (s.freeSlot i).trunk = s.trunk := rfl
@[simp] theorem State.freeSlot_routes (s : State) (i : Slot) : (s.freeSlot i).routes = s.routes := rfl
@[simp] theorem State.freeSlot_segA (s : State) (i : Slot) : (s.freeSlot i).segA = s.segA := rfl
@[simp] theorem State.freeSlot_segB (s : State) (i : Slot) : (s.freeSlot i).segB = s.segB := rfl
@[simp] theorem State.freeSlot_inputs (s : State) (i : Slot) : (s.freeSlot i).inputs = s.inputs := rfl
@[simp] theorem State.freeSlot_reporter (s : State) (i : Slot) : (s.freeSlot i).reporter = s.reporter := rfl
@[simp] theorem State.freeSlot_pending (s : State) (i : Slot) : (s.freeSlot i).pending = s.pending := rfl
@[simp] theorem State.freeSlot_exchange (s : State) (i : Slot) : (s.freeSlot i).exchange = s.exchange.free i := rfl
@[simp] theorem State.freeSlot_seg (s : State) (i : Slot) (x : Seg) : (s.freeSlot i).seg x = s.seg x := by cases x <;> rfl
@[simp] theorem ExchangeTable.setRecord_admission (t : ExchangeTable) (i : Slot) (r : Record) : (t.setRecord i r).admission = t.admission := rfl
@[simp] theorem ExchangeTable.free_admission (t : ExchangeTable) (i : Slot) : (t.free i).admission = t.admission.erase i := rfl
@[simp] theorem ExchangeTable.setRecord_completion (t : ExchangeTable) (i : Slot) (r : Record) : (t.setRecord i r).completion = t.completion := rfl
@[simp] theorem ExchangeTable.free_completion (t : ExchangeTable) (i : Slot) : (t.free i).completion = t.completion.erase i := rfl
@[simp] theorem ExchangeTable.setRecord_record_self (t : ExchangeTable) (i : Slot) (r : Record) :
    (t.setRecord i r).record i = some r := by simp [ExchangeTable.setRecord, ExchangeTable.record]

theorem ExchangeTable.setRecord_record_other (t : ExchangeTable) (i j : Slot) (r : Record) (h : j ≠ i) :
    (t.setRecord i r).record j = t.record j := by
  have h' : (i : Nat) ≠ j := fun e => h (Fin.ext e.symm)
  simp [ExchangeTable.setRecord, ExchangeTable.record, h']

@[simp] theorem ExchangeTable.free_record_self (t : ExchangeTable) (i : Slot) : (t.free i).record i = none := by
  simp [ExchangeTable.free, ExchangeTable.record]

theorem ExchangeTable.free_record_other (t : ExchangeTable) (i j : Slot) (h : j ≠ i) :
    (t.free i).record j = t.record j := by
  have h' : (i : Nat) ≠ j := fun e => h (Fin.ext e.symm)
  simp [ExchangeTable.free, ExchangeTable.record, h']

/-- The record of a slot after a write: the new one there, the old one elsewhere. -/
theorem ExchangeTable.setRecord_record (t : ExchangeTable) (i j : Slot) (r : Record) :
    (t.setRecord i r).record j = if j = i then some r else t.record j := by
  by_cases h : j = i
  · subst h; simp
  · simp [h, t.setRecord_record_other i j r h]

theorem ExchangeTable.free_record (t : ExchangeTable) (i j : Slot) :
    (t.free i).record j = if j = i then none else t.record j := by
  by_cases h : j = i
  · subst h; simp
  · simp [h, t.free_record_other i j h]

end Sys2Proof.Machine
end

