-- ==== Sys2Proof/Laws/Ops.lean ====
section
/-! SUPPORT. What each shared operation can do, said once: what it leaves alone, and its result where the output queue
keeps its law. -/

namespace Sys2Proof.Machine

/-! ### What no operation inside a command changes -/

/-- The fields that no shared operation but a reset changes: the reset in progress, the time, the reset cause, the
commands that wait, and the settings from the straps. -/
structure SameBase (s t : State) : Prop where
  hardReset : t.hardReset = s.hardReset
  timeCounter : t.timeCounter = s.timeCounter
  resetCause : t.resetCause = s.resetCause
  pending : t.pending = s.pending
  address : t.trunk.address = s.trunk.address
  rate : t.trunk.rate = s.trunk.rate
  parity : t.trunk.parity = s.trunk.parity
  strapFault : t.trunk.strapFault = s.trunk.strapFault

theorem SameBase.refl (s : State) : SameBase s s := ⟨rfl, rfl, rfl, rfl, rfl, rfl, rfl, rfl⟩

theorem SameBase.trans {s t u : State} (h : SameBase s t) (k : SameBase t u) : SameBase s u :=
  ⟨k.1.trans h.1, k.2.trans h.2, k.3.trans h.3, k.4.trans h.4, k.5.trans h.5, k.6.trans h.6, k.7.trans h.7,
   k.8.trans h.8⟩

theorem State.modSeg_base (s : State) (x : Seg) (f : Segment → Segment) : SameBase s (s.modSeg x f) := by
  cases x <;> exact ⟨rfl, rfl, rfl, rfl, rfl, rfl, rfl, rfl⟩

theorem State.modReporter_base (s : State) (f : Reporter → Reporter) : SameBase s (s.modReporter f) :=
  ⟨rfl, rfl, rfl, rfl, rfl, rfl, rfl, rfl⟩

theorem State.modRoutes_base (s : State) (f : RouteTable → RouteTable) : SameBase s (s.modRoutes f) :=
  ⟨rfl, rfl, rfl, rfl, rfl, rfl, rfl, rfl⟩

theorem State.modInputs_base (s : State) (f : InputBlock → InputBlock) : SameBase s (s.modInputs f) :=
  ⟨rfl, rfl, rfl, rfl, rfl, rfl, rfl, rfl⟩

theorem State.modPort_base (s : State) (p : PortId) (f : Port → Port) : SameBase s (s.modPort p f) := by
  rcases p with _ | x
  · exact ⟨rfl, rfl, rfl, rfl, rfl, rfl, rfl, rfl⟩
  · exact s.modSeg_base x (fun g => g.modPort f)

theorem State.takeDelivery_base (s : State) (p : PortId) (d : Delivery) : SameBase s (s.takeDelivery p d) :=
  s.modPort_base p _

theorem State.setRecord_base (s : State) (i : Slot) (r : Record) : SameBase s (s.setRecord i r) :=
  ⟨rfl, rfl, rfl, rfl, rfl, rfl, rfl, rfl⟩

theorem State.freeSlot_base (s : State) (i : Slot) : SameBase s (s.freeSlot i) :=
  ⟨rfl, rfl, rfl, rfl, rfl, rfl, rfl, rfl⟩

/-! ### The output queue and the arbiter -/

theorem State.fillFreedSlot_base (s : State) : SameBase s s.fillFreedSlot := by
  unfold State.fillFreedSlot
  repeat' split
  all_goals exact ⟨rfl, rfl, rfl, rfl, rfl, rfl, rfl, rfl⟩

theorem State.arbitrate_base (s : State) : SameBase s s.arbitrate := by
  unfold State.arbitrate
  split
  · split
    · refine (?_ : SameBase s _).trans (State.fillFreedSlot_base _)
      exact ⟨rfl, rfl, rfl, rfl, rfl, rfl, rfl, rfl⟩
    · repeat' split
      all_goals exact ⟨rfl, rfl, rfl, rfl, rfl, rfl, rfl, rfl⟩
  · exact SameBase.refl s

theorem State.enqueue_base (s : State) (q : QueuedFrame) : SameBase s (s.enqueue q) := by
  refine (?_ : SameBase s _).trans (State.arbitrate_base _)
  exact ⟨rfl, rfl, rfl, rfl, rfl, rfl, rfl, rfl⟩

theorem State.countReplyDrop_base (s : State) : SameBase s s.countReplyDrop :=
  ⟨rfl, rfl, rfl, rfl, rfl, rfl, rfl, rfl⟩

theorem State.countRouteDrop_base (s : State) : SameBase s s.countRouteDrop :=
  ⟨rfl, rfl, rfl, rfl, rfl, rfl, rfl, rfl⟩

theorem State.refuseRouted_base (s : State) (f : Frame) (p : List Byte) : SameBase s (s.refuseRouted f p) := by
  unfold State.refuseRouted
  split
  · exact s.countReplyDrop_base
  · exact s.enqueue_base _

/-- A frame enters an output queue with room (R24, R29), where the queue keeps its law. -/
theorem State.enqueue_placed (s : State) (q : QueuedFrame) (room : s.trunk.queue.length < 8)
    (rest : s.trunk.tx = .idle → s.trunk.queue = [])
    (full : s.exchange.completion ≠ [] → s.trunk.queue.length = 8) : s.enqueue q = s.placed q := by
  have none : s.exchange.completion = [] := by
    by_contra h
    have := full h
    omega
  unfold State.enqueue State.placed State.arbitrate
  rcases htx : s.trunk.tx with _ | t | f
  · simp [State.modTrunk, htx, rest htx, State.fillFreedSlot, none]
  · simp [State.modTrunk, htx]
  · simp [State.modTrunk, htx]

/-- The arbiter changes nothing while a transmission is in progress (R29). -/
theorem State.arbitrate_busy (s : State) (h : s.trunk.tx ≠ .idle) : s.arbitrate = s := by
  unfold State.arbitrate
  split
  · contradiction
  · rfl

/-- With an empty queue the arbiter changes nothing but for the reporter (R28). -/
theorem State.arbitrate_rest (s : State) (hq : s.trunk.queue = []) (hb : s.reporter.hasBatch = false) :
    s.arbitrate = s := by
  unfold State.arbitrate
  split
  · simp [hq, hb]
  · rfl

@[simp] theorem State.fillFreedSlot_routes (s : State) : (s.fillFreedSlot).routes = s.routes := by
  unfold State.fillFreedSlot; repeat' split
  all_goals rfl

@[simp] theorem State.fillFreedSlot_segA (s : State) : (s.fillFreedSlot).segA = s.segA := by
  unfold State.fillFreedSlot; repeat' split
  all_goals rfl

@[simp] theorem State.fillFreedSlot_segB (s : State) : (s.fillFreedSlot).segB = s.segB := by
  unfold State.fillFreedSlot; repeat' split
  all_goals rfl

@[simp] theorem State.fillFreedSlot_inputs (s : State) : (s.fillFreedSlot).inputs = s.inputs := by
  unfold State.fillFreedSlot; repeat' split
  all_goals rfl

@[simp] theorem State.fillFreedSlot_trunk_port (s : State) : (s.fillFreedSlot).trunk.port = s.trunk.port := by
  unfold State.fillFreedSlot; repeat' split
  all_goals rfl

@[simp] theorem State.fillFreedSlot_trunk_counters (s : State) : (s.fillFreedSlot).trunk.counters = s.trunk.counters := by
  unfold State.fillFreedSlot; repeat' split
  all_goals rfl

@[simp] theorem State.fillFreedSlot_trunk_softResetPending (s : State) : (s.fillFreedSlot).trunk.softResetPending = s.trunk.softResetPending := by
  unfold State.fillFreedSlot; repeat' split
  all_goals rfl

@[simp] theorem State.arbitrate_routes (s : State) : s.arbitrate.routes = s.routes := by
  unfold State.arbitrate
  split
  · split
    · exact State.fillFreedSlot_routes _
    · repeat' split
      all_goals rfl
  · rfl

@[simp] theorem State.arbitrate_segA (s : State) : s.arbitrate.segA = s.segA := by
  unfold State.arbitrate
  split
  · split
    · exact State.fillFreedSlot_segA _
    · repeat' split
      all_goals rfl
  · rfl

@[simp] theorem State.arbitrate_segB (s : State) : s.arbitrate.segB = s.segB := by
  unfold State.arbitrate
  split
  · split
    · exact State.fillFreedSlot_segB _
    · repeat' split
      all_goals rfl
  · rfl

@[simp] theorem State.arbitrate_inputs (s : State) : s.arbitrate.inputs = s.inputs := by
  unfold State.arbitrate
  split
  · split
    · exact State.fillFreedSlot_inputs _
    · repeat' split
      all_goals rfl
  · rfl

@[simp] theorem State.arbitrate_trunk_port (s : State) : s.arbitrate.trunk.port = s.trunk.port := by
  unfold State.arbitrate
  split
  · split
    · exact State.fillFreedSlot_trunk_port _
    · repeat' split
      all_goals rfl
  · rfl

@[simp] theorem State.arbitrate_trunk_counters (s : State) : s.arbitrate.trunk.counters = s.trunk.counters := by
  unfold State.arbitrate
  split
  · split
    · exact State.fillFreedSlot_trunk_counters _
    · repeat' split
      all_goals rfl
  · rfl

@[simp] theorem State.arbitrate_trunk_softResetPending (s : State) : s.arbitrate.trunk.softResetPending = s.trunk.softResetPending := by
  unfold State.arbitrate
  split
  · split
    · exact State.fillFreedSlot_trunk_softResetPending _
    · repeat' split
      all_goals rfl
  · rfl

@[simp] theorem State.enqueue_routes (s : State) (q : QueuedFrame) : (s.enqueue q).routes = s.routes :=
  State.arbitrate_routes _

@[simp] theorem State.enqueue_segA (s : State) (q : QueuedFrame) : (s.enqueue q).segA = s.segA :=
  State.arbitrate_segA _

@[simp] theorem State.enqueue_segB (s : State) (q : QueuedFrame) : (s.enqueue q).segB = s.segB :=
  State.arbitrate_segB _

@[simp] theorem State.enqueue_inputs (s : State) (q : QueuedFrame) : (s.enqueue q).inputs = s.inputs :=
  State.arbitrate_inputs _

@[simp] theorem State.enqueue_trunk_port (s : State) (q : QueuedFrame) : (s.enqueue q).trunk.port = s.trunk.port :=
  State.arbitrate_trunk_port _

@[simp] theorem State.enqueue_trunk_counters (s : State) (q : QueuedFrame) : (s.enqueue q).trunk.counters = s.trunk.counters :=
  State.arbitrate_trunk_counters _

@[simp] theorem State.enqueue_trunk_softResetPending (s : State) (q : QueuedFrame) : (s.enqueue q).trunk.softResetPending = s.trunk.softResetPending :=
  State.arbitrate_trunk_softResetPending _

@[simp] theorem State.arbitrate_seg (s : State) (x : Seg) : (s.arbitrate).seg x = s.seg x := by cases x <;> simp

@[simp] theorem State.enqueue_seg (s : State) (q : QueuedFrame) (x : Seg) : (s.enqueue q).seg x = s.seg x := by cases x <;> simp

/-! ### Records and replies -/

theorem State.completeRecord_base (s : State) (slot : Slot) (reply : Reply) :
    SameBase s (s.completeRecord slot reply) := by
  unfold State.completeRecord
  split
  · exact SameBase.refl s
  · split
    · exact ⟨rfl, rfl, rfl, rfl, rfl, rfl, rfl, rfl⟩
    · exact (s.freeSlot_base slot).trans (State.enqueue_base _ _)

@[simp] theorem State.completeRecord_routes (s : State) (slot : Slot) (reply : Reply) :
    (s.completeRecord slot reply).routes = s.routes := by
  unfold State.completeRecord
  split
  · rfl
  · split
    · rfl
    · simp

@[simp] theorem State.completeRecord_segA (s : State) (slot : Slot) (reply : Reply) :
    (s.completeRecord slot reply).segA = s.segA := by
  unfold State.completeRecord
  split
  · rfl
  · split
    · rfl
    · simp

@[simp] theorem State.completeRecord_segB (s : State) (slot : Slot) (reply : Reply) :
    (s.completeRecord slot reply).segB = s.segB := by
  unfold State.completeRecord
  split
  · rfl
  · split
    · rfl
    · simp

@[simp] theorem State.completeRecord_inputs (s : State) (slot : Slot) (reply : Reply) :
    (s.completeRecord slot reply).inputs = s.inputs := by
  unfold State.completeRecord
  split
  · rfl
  · split
    · rfl
    · simp

@[simp] theorem State.completeRecord_trunk_port (s : State) (slot : Slot) (reply : Reply) :
    (s.completeRecord slot reply).trunk.port = s.trunk.port := by
  unfold State.completeRecord
  split
  · rfl
  · split
    · rfl
    · simp

@[simp] theorem State.completeRecord_trunk_counters (s : State) (slot : Slot) (reply : Reply) :
    (s.completeRecord slot reply).trunk.counters = s.trunk.counters := by
  unfold State.completeRecord
  split
  · rfl
  · split
    · rfl
    · simp

@[simp] theorem State.completeRecord_trunk_softResetPending (s : State) (slot : Slot) (reply : Reply) :
    (s.completeRecord slot reply).trunk.softResetPending = s.trunk.softResetPending := by
  unfold State.completeRecord
  split
  · rfl
  · split
    · rfl
    · simp

@[simp] theorem State.completeRecord_seg (s : State) (slot : Slot) (reply : Reply) (x : Seg) :
    (s.completeRecord slot reply).seg x = s.seg x := by cases x <;> simp

/-- A record completes with room in the output queue (R77 to R79). -/
theorem State.completeRecord_room (s : State) (slot : Slot) (r : Record) (reply : Reply)
    (hr : s.exchange.record slot = some r) (room : s.trunk.queue.length < 8)
    (rest : s.trunk.tx = .idle → s.trunk.queue = [])
    (full : s.exchange.completion ≠ [] → s.trunk.queue.length = 8) :
    s.completeRecord slot reply =
      ({ s with exchange := s.exchange.free slot } : State).replied r reply.kind reply.payload := by
  have none : s.exchange.completion = [] := by
    by_contra h
    have := full h
    omega
  have hq : s.queueFull = false := by simp [State.queueFull]; omega
  simp only [State.completeRecord, hr, hq]
  exact State.enqueue_placed _ _ room rest (by simp [none])

/-- A record completes while the output queue holds 8 frames (R26, R79). -/
theorem State.completeRecord_full (s : State) (slot : Slot) (r : Record) (reply : Reply)
    (hr : s.exchange.record slot = some r) (hq : 8 ≤ s.trunk.queue.length) :
    s.completeRecord slot reply = { s with exchange :=
      { s.exchange.setRecord slot { r with state := .complete reply, carriage := r.carriage.finished } with
        completion := s.exchange.completion ++ [slot] } } := by
  have hq : s.queueFull = true := by simpa [State.queueFull] using hq
  simp only [State.completeRecord, hr, hq, if_true]

theorem State.settleBroadcast_base (s : State) (slot : Slot) (r : Record) (c : Broadcast) :
    SameBase s (s.settleBroadcast slot r c) := by
  by_cases hp : c.pending.isEmpty = true
  · simp only [State.settleBroadcast, hp, if_true]
    exact (s.setRecord_base slot _).trans (State.completeRecord_base _ _ _)
  · simp only [State.settleBroadcast, hp]
    exact s.setRecord_base slot _

@[simp] theorem State.settleBroadcast_routes (s : State) (slot : Slot) (r : Record) (c : Broadcast) :
    (s.settleBroadcast slot r c).routes = s.routes := by
  by_cases hp : c.pending.isEmpty = true <;> simp [State.settleBroadcast, hp]

@[simp] theorem State.settleBroadcast_segA (s : State) (slot : Slot) (r : Record) (c : Broadcast) :
    (s.settleBroadcast slot r c).segA = s.segA := by
  by_cases hp : c.pending.isEmpty = true <;> simp [State.settleBroadcast, hp]

@[simp] theorem State.settleBroadcast_segB (s : State) (slot : Slot) (r : Record) (c : Broadcast) :
    (s.settleBroadcast slot r c).segB = s.segB := by
  by_cases hp : c.pending.isEmpty = true <;> simp [State.settleBroadcast, hp]

@[simp] theorem State.settleBroadcast_inputs (s : State) (slot : Slot) (r : Record) (c : Broadcast) :
    (s.settleBroadcast slot r c).inputs = s.inputs := by
  by_cases hp : c.pending.isEmpty = true <;> simp [State.settleBroadcast, hp]

@[simp] theorem State.settleBroadcast_trunk_port (s : State) (slot : Slot) (r : Record) (c : Broadcast) :
    (s.settleBroadcast slot r c).trunk.port = s.trunk.port := by
  by_cases hp : c.pending.isEmpty = true <;> simp [State.settleBroadcast, hp]

@[simp] theorem State.settleBroadcast_trunk_counters (s : State) (slot : Slot) (r : Record) (c : Broadcast) :
    (s.settleBroadcast slot r c).trunk.counters = s.trunk.counters := by
  by_cases hp : c.pending.isEmpty = true <;> simp [State.settleBroadcast, hp]

@[simp] theorem State.settleBroadcast_trunk_softResetPending (s : State) (slot : Slot) (r : Record) (c : Broadcast) :
    (s.settleBroadcast slot r c).trunk.softResetPending = s.trunk.softResetPending := by
  by_cases hp : c.pending.isEmpty = true <;> simp [State.settleBroadcast, hp]

theorem State.takeFromSegment_base (x : Seg) (why : WithdrawReason) (s : State) (slot : Slot) :
    SameBase s (State.takeFromSegment x why s slot) := by
  unfold State.takeFromSegment
  split
  · exact SameBase.refl s
  · split
    · exact s.completeRecord_base _ _
    · exact s.settleBroadcast_base _ _ _

@[simp] theorem State.takeFromSegment_routes (x : Seg) (why : WithdrawReason) (s : State) (slot : Slot) :
    (State.takeFromSegment x why s slot).routes = s.routes := by
  unfold State.takeFromSegment
  split
  · rfl
  · split <;> simp

@[simp] theorem State.takeFromSegment_segA (x : Seg) (why : WithdrawReason) (s : State) (slot : Slot) :
    (State.takeFromSegment x why s slot).segA = s.segA := by
  unfold State.takeFromSegment
  split
  · rfl
  · split <;> simp

@[simp] theorem State.takeFromSegment_segB (x : Seg) (why : WithdrawReason) (s : State) (slot : Slot) :
    (State.takeFromSegment x why s slot).segB = s.segB := by
  unfold State.takeFromSegment
  split
  · rfl
  · split <;> simp

@[simp] theorem State.takeFromSegment_inputs (x : Seg) (why : WithdrawReason) (s : State) (slot : Slot) :
    (State.takeFromSegment x why s slot).inputs = s.inputs := by
  unfold State.takeFromSegment
  split
  · rfl
  · split <;> simp

@[simp] theorem State.takeFromSegment_trunk_port (x : Seg) (why : WithdrawReason) (s : State) (slot : Slot) :
    (State.takeFromSegment x why s slot).trunk.port = s.trunk.port := by
  unfold State.takeFromSegment
  split
  · rfl
  · split <;> simp

@[simp] theorem State.takeFromSegment_trunk_counters (x : Seg) (why : WithdrawReason) (s : State) (slot : Slot) :
    (State.takeFromSegment x why s slot).trunk.counters = s.trunk.counters := by
  unfold State.takeFromSegment
  split
  · rfl
  · split <;> simp

@[simp] theorem State.takeFromSegment_trunk_softResetPending (x : Seg) (why : WithdrawReason) (s : State) (slot : Slot) :
    (State.takeFromSegment x why s slot).trunk.softResetPending = s.trunk.softResetPending := by
  unfold State.takeFromSegment
  split
  · rfl
  · split <;> simp

/-- A base that every element of a list keeps is kept by the fold over it. -/
theorem SameBase.foldl {α : Type} (f : State → α → State) (h : ∀ s a, SameBase s (f s a)) (l : List α) :
    ∀ s : State, SameBase s (l.foldl f s) := by
  induction l with
  | nil => exact SameBase.refl
  | cons a l ih => exact fun s => (h s a).trans (ih (f s a))

/-- A value that every element of a list keeps is kept by the fold over it. -/
theorem State.foldl_kept {α β : Type} (g : State → β) (f : State → α → State) (h : ∀ s a, g (f s a) = g s)
    (l : List α) : ∀ s : State, g (l.foldl f s) = g s := by
  induction l with
  | nil => exact fun _ => rfl
  | cons a l ih => exact fun s => (ih (f s a)).trans (h s a)

/-! ### Report events and lending -/

theorem State.offerEventQuietly_base (s : State) (e : Event) : SameBase s (s.offerEventQuietly e) := by
  unfold State.offerEventQuietly
  repeat' split
  all_goals exact ⟨rfl, rfl, rfl, rfl, rfl, rfl, rfl, rfl⟩

theorem State.offerEvent_base (s : State) (e : Event) : SameBase s (s.offerEvent e) :=
  (s.offerEventQuietly_base e).trans (State.arbitrate_base _)

@[simp] theorem State.offerEventQuietly_routes (s : State) (e : Event) :
    (s.offerEventQuietly e).routes = s.routes := by
  unfold State.offerEventQuietly
  repeat' split
  all_goals rfl

@[simp] theorem State.offerEventQuietly_segA (s : State) (e : Event) :
    (s.offerEventQuietly e).segA = s.segA := by
  unfold State.offerEventQuietly
  repeat' split
  all_goals rfl

@[simp] theorem State.offerEventQuietly_segB (s : State) (e : Event) :
    (s.offerEventQuietly e).segB = s.segB := by
  unfold State.offerEventQuietly
  repeat' split
  all_goals rfl

@[simp] theorem State.offerEventQuietly_exchange (s : State) (e : Event) :
    (s.offerEventQuietly e).exchange = s.exchange := by
  unfold State.offerEventQuietly
  repeat' split
  all_goals rfl

@[simp] theorem State.offerEventQuietly_trunk (s : State) (e : Event) :
    (s.offerEventQuietly e).trunk = s.trunk := by
  unfold State.offerEventQuietly
  repeat' split
  all_goals rfl

@[simp] theorem State.offerEvent_routes (s : State) (e : Event) : (s.offerEvent e).routes = s.routes := by
  simp [State.offerEvent]

@[simp] theorem State.offerEvent_segA (s : State) (e : Event) : (s.offerEvent e).segA = s.segA := by
  simp [State.offerEvent]

@[simp] theorem State.offerEvent_segB (s : State) (e : Event) : (s.offerEvent e).segB = s.segB := by
  simp [State.offerEvent]

@[simp] theorem State.offerEvent_trunk_port (s : State) (e : Event) : (s.offerEvent e).trunk.port = s.trunk.port := by
  simp [State.offerEvent]

@[simp] theorem State.offerEvent_trunk_counters (s : State) (e : Event) : (s.offerEvent e).trunk.counters = s.trunk.counters := by
  simp [State.offerEvent]

@[simp] theorem State.offerEvent_trunk_softResetPending (s : State) (e : Event) : (s.offerEvent e).trunk.softResetPending = s.trunk.softResetPending := by
  simp [State.offerEvent]

@[simp] theorem State.offerEventQuietly_seg (s : State) (e : Event) (x : Seg) :
    (s.offerEventQuietly e).seg x = s.seg x := by cases x <;> simp

@[simp] theorem State.offerEvent_seg (s : State) (e : Event) (x : Seg) : (s.offerEvent e).seg x = s.seg x := by
  cases x <;> simp

/-- A segment event sets no lost flag (R143). -/
@[simp] theorem State.offerEvent_segment_inputs (s : State) (x : Seg) (lent : Bool) (t : Word) :
    (s.offerEvent (segmentEvent x lent t)).inputs = s.inputs := by
  simp [State.offerEvent, State.offerEventQuietly, segmentEvent]

theorem State.enterLent_base (s : State) (x : Seg) : SameBase s (s.enterLent x) :=
  (s.modSeg_base x _).trans (State.offerEvent_base _ _)

@[simp] theorem State.enterLent_routes (s : State) (x : Seg) : (s.enterLent x).routes = s.routes := by
  simp [State.enterLent]

@[simp] theorem State.enterLent_inputs (s : State) (x : Seg) : (s.enterLent x).inputs = s.inputs := by
  simp [State.enterLent]

@[simp] theorem State.enterLent_seg_self (s : State) (x : Seg) : (s.enterLent x).seg x = (s.seg x).toLent := by
  simp [State.enterLent]

theorem State.enterLent_seg_other (s : State) (x y : Seg) (h : y ≠ x) : (s.enterLent x).seg y = s.seg y := by
  simp [State.enterLent, State.modSeg_seg_other, h]

theorem State.leaveWork_base (s : State) (x : Seg) : SameBase s (s.leaveWork x) := by
  unfold State.leaveWork
  split
  · exact s.enterLent_base x
  · exact s.modSeg_base x _

@[simp] theorem State.leaveWork_routes (s : State) (x : Seg) : (s.leaveWork x).routes = s.routes := by
  unfold State.leaveWork
  split <;> simp

@[simp] theorem State.leaveWork_inputs (s : State) (x : Seg) : (s.leaveWork x).inputs = s.inputs := by
  unfold State.leaveWork
  split <;> simp

@[simp] theorem State.leaveWork_seg_self (s : State) (x : Seg) :
    (s.leaveWork x).seg x = if (s.seg x).drainRequested then (s.seg x).toLent else (s.seg x).toGuard := by
  unfold State.leaveWork
  split <;> simp

theorem State.leaveWork_seg_other (s : State) (x y : Seg) (h : y ≠ x) : (s.leaveWork x).seg y = s.seg y := by
  unfold State.leaveWork
  split
  · exact s.enterLent_seg_other x y h
  · exact s.modSeg_seg_other x y _ h

/-- With no hold draining, the end of the work is GUARD and nothing else (R103). -/
theorem State.leaveWork_guard (s : State) (x : Seg) (h : (s.seg x).drainRequested = false) :
    s.leaveWork x = s.modSeg x Segment.toGuard := by
  simp [State.leaveWork, h]

/-! ### The sequencers' work -/

theorem State.release_base (s : State) (x : Seg) : SameBase s (s.release x) := s.modSeg_base x _

theorem State.expirePatience_base (s : State) (x : Seg) : SameBase s (s.expirePatience x) :=
  (s.modSeg_base x _).trans (SameBase.foldl _ (State.takeFromSegment_base x .lent) _ _)

/-- Patience expiry sets lent-expired and changes nothing else of the segments (R119). -/
@[simp] theorem State.expirePatience_seg (s : State) (x y : Seg) :
    (s.expirePatience x).seg y = (s.modSeg x fun g => { g with lentExpired := true }).seg y :=
  State.foldl_kept (fun s => s.seg y) _ (fun s i => by cases y <;> simp [State.seg]) _ _

theorem State.judgePatience_base (s : State) (x : Seg) : SameBase s (s.judgePatience x) := by
  unfold State.judgePatience
  split
  · exact s.expirePatience_base x
  · exact SameBase.refl s

/-- The test a meaning makes is the condition of R119, where the lent time is kept. -/
theorem Segment.patienceReached_iff (g : Segment) : g.patienceReached = true ↔ PatienceReached g := by
  cases h : g.lentTime with
  | none =>
    have : ¬ g.config.patience.toNat = 0 ↔ g.config.patience ≠ 0 := by
      rw [ne_eq, ← BitVec.toNat_inj]; simp
    simp only [Segment.patienceReached, PatienceReached, h]
    simp only [Bool.and_false, Bool.false_eq_true, false_iff, Option.getD_none]
    rintro ⟨-, -, hp, hm⟩
    exact (this.mpr hp) (by omega)
  | some t => simp [Segment.patienceReached, PatienceReached, h, and_assoc]

/-- What the judgement of the patience does, said once (R119). -/
theorem State.judgePatience_reached (s : State) (x : Seg) (h : PatienceReached (s.seg x)) :
    s.judgePatience x = s.expirePatience x := if_pos ((Segment.patienceReached_iff _).mpr h)

theorem State.judgePatience_else (s : State) (x : Seg) (h : ¬ PatienceReached (s.seg x)) :
    s.judgePatience x = s := if_neg fun k => h ((Segment.patienceReached_iff _).mp k)

/-! ### Transmit pins (R5) -/

@[simp] theorem pinLevel_none (p : Parity) (n : Nat) : pinLevel p none n = mark := rfl

theorem State.trunkLine_idle (s : State) (h : s.trunk.tx = .idle) (n : Nat) : s.trunkLine n = mark := by
  simp [State.trunkLine, TrunkTx.frame, h]

theorem Segment.line_rest (g : Segment) (h : g.de = false ∨ g.tx = none) (n : Nat) : g.line n = mark := by
  rcases h with h | h <;> simp [Segment.line, h]

/-- After the last stop bit the pin is at mark. -/
theorem pinLevel_over (p : Parity) (f : Frame) (n : Nat) (h : (lineBits p f).length ≤ n) :
    pinLevel p (some f) n = mark := by
  simp [pinLevel, List.getD, List.getElem?_eq_none h]

theorem State.takeWork_base (s : State) (x : Seg) : SameBase s (s.takeWork x) := by
  unfold State.takeWork
  split
  · split
    · exact SameBase.refl s
    · split
      · exact SameBase.refl s
      · exact (s.setRecord_base _ _).trans (State.modSeg_base _ x _)
  · exact SameBase.refl s

theorem State.enterIdle_base (s : State) (x : Seg) : SameBase s (s.enterIdle x) :=
  (s.modSeg_base x _).trans (State.takeWork_base _ x)

theorem State.failRecord_base (s : State) (x : Seg) (slot : Slot) (why : FailCause) :
    SameBase s (s.failRecord x slot why) := by
  unfold State.failRecord
  split
  · exact SameBase.refl s
  · split
    · exact SameBase.refl s
    · split
      · exact s.completeRecord_base _ _
      · exact (s.setRecord_base _ _).trans (State.modSeg_base _ x _)

theorem State.failAttempt_base (s : State) (x : Seg) (why : FailCause) : SameBase s (s.failAttempt x why) := by
  unfold State.failAttempt
  split
  · exact SameBase.refl s
  · exact ((s.modSeg_base x _).trans (State.failRecord_base _ x _ why)).trans (State.leaveWork_base _ x)

theorem State.dropCurrent_base (s : State) (x : Seg) : SameBase s (s.dropCurrent x) := by
  unfold State.dropCurrent
  split
  · exact (s.release_base x).trans (State.leaveWork_base _ x)
  · exact s.release_base x

theorem State.deliverOnSegment_base (s : State) (x : Seg) (f : Frame) : SameBase s (s.deliverOnSegment x f) := by
  unfold State.deliverOnSegment
  simp only []
  split
  · exact (((s.takeDelivery_base _ _).trans (State.modSeg_base _ x _)).trans
      (State.completeRecord_base _ _ _)).trans (State.leaveWork_base _ x)
  · split
    · exact s.takeDelivery_base _ _
    · exact (s.takeDelivery_base _ _).trans (State.modSeg_base _ x _)

/-! ### Deliveries and management commands -/

theorem State.takeDelivery_trunk (s : State) (f : Frame) : s.takeDelivery .trunk (.frame f) = s.taken f := rfl

theorem State.takeDelivery_segment (s : State) (x : Seg) (d : Delivery) :
    s.takeDelivery (.segment x) d = s.takenOn x d := rfl

/-- A delivery that can come, to a part that acts with no soft reset pending, is acted on (R20). -/
theorem State.trunkDelivery_next (s : State) (f : Frame) (comes : Bool) (act : State → State) (h : Dispatching s)
    (hc : comes = true) : s.trunkDelivery f comes act = .next (act (s.taken f)) := by
  have h1 := h.1
  have h2 : (s.taken f).trunk.softResetPending = false := h.2
  simp [State.trunkDelivery, State.acting, h1, hc, State.takeDelivery_trunk, h2]

/-- A management command with room in the queue is judged by its own meaning (R158). -/
theorem State.management_ready (s : State) (fn : Byte) (r : Request) (judge : State → State) (h : Ready s r) :
    s.management fn r judge = .next (judge (s.taken (s.commandFrame fn r))) := by
  have hq : (s.taken (s.requestFrame .req fn r)).queueFull = false := by
    have := h.2.2
    simp only [State.queueFull, State.taken]
    exact decide_eq_false (by omega)
  unfold State.management
  rw [State.trunkDelivery_next s _ _ _ h.1 h.2.1]
  simp only [hq]
  rfl

/-- A management command that finds 8 frames queued is discarded (R158 step 1). -/
theorem State.management_full (s : State) (fn : Byte) (r : Request) (judge : State → State) (h : Dispatching s)
    (hok : r.ok = true) (hq : 8 ≤ s.trunk.queue.length) :
    s.management fn r judge = .next ((s.taken (s.commandFrame fn r)).countReplyDrop) := by
  have hq : (s.taken (s.requestFrame .req fn r)).queueFull = true := by
    simp only [State.queueFull, State.taken]
    exact decide_eq_true hq
  unfold State.management
  rw [State.trunkDelivery_next s _ _ _ h hok]
  simp only [hq, if_true]
  rfl

/-- The reply of a management command enters a queue that keeps its law (R157, R159). -/
theorem State.respond_answered (s : State) (fn : Byte) (r : Request) (p : List Byte)
    (room : s.trunk.queue.length < 8) (h : OutputLaw s) (act : Acting s) :
    s.respond fn r p = s.answered .rsp fn r p :=
  s.enqueue_placed _ room (h.2 act).1 (h.2 act).2

theorem State.refuse_answered (s : State) (fn : Byte) (r : Request) (p : List Byte)
    (room : s.trunk.queue.length < 8) (h : OutputLaw s) (act : Acting s) :
    s.refuse fn r p = s.answered .nak fn r p :=
  s.enqueue_placed _ room (h.2 act).1 (h.2 act).2

/-- Taking a delivery keeps the law of the output queue. -/
theorem OutputLaw.taken {s : State} (h : OutputLaw s) (f : Frame) : OutputLaw (s.taken f) := h

theorem State.respond_base (s : State) (fn : Byte) (r : Request) (p : List Byte) : SameBase s (s.respond fn r p) :=
  s.enqueue_base _

theorem State.refuse_base (s : State) (fn : Byte) (r : Request) (p : List Byte) : SameBase s (s.refuse fn r p) :=
  s.enqueue_base _

@[simp] theorem State.respond_routes (s : State) (fn : Byte) (r : Request) (p : List Byte) :
    (s.respond fn r p).routes = s.routes := s.enqueue_routes _

@[simp] theorem State.refuse_routes (s : State) (fn : Byte) (r : Request) (p : List Byte) :
    (s.refuse fn r p).routes = s.routes := s.enqueue_routes _

/-! ### What every command of a shape keeps -/

/-- What holds before, and after the action of a part that acts, holds after the command (R170). -/
theorem State.acting_keeps {P : State → Prop} {s : State} (act : State → State) (h : P s)
    (ha : Acting s → P (act s)) : ∀ t, s.acting act = .next t → P t := by
  intro t ht
  simp only [State.acting, Host.Outcome.next.injEq] at ht
  subst ht
  split
  · exact h
  · rename_i hr
    exact ha (by simpa using hr)

/-- The same for the delivery of a good trunk frame (R20, R21). -/
theorem State.trunkDelivery_keeps {P : State → Prop} {s : State} (f : Frame) (comes : Bool) (act : State → State)
    (h : P s) (ht : P (s.taken f)) (ha : Dispatching s → comes = true → P (act (s.taken f))) :
    ∀ t, s.trunkDelivery f comes act = .next t → P t := by
  refine State.acting_keeps _ h fun a => ?_
  split
  · rename_i hc
    have hp : (s.takeDelivery .trunk (.frame f)).trunk.softResetPending = s.trunk.softResetPending := rfl
    simp only [hp]
    split
    · exact ht
    · rename_i hn
      exact ha ⟨a, by simpa using hn⟩ hc
  · exact h

/-- The same for a management command (R157, R158). -/
theorem State.management_keeps {P : State → Prop} {s : State} (fn : Byte) (r : Request) (judge : State → State)
    (h : P s) (ht : P (s.taken (s.commandFrame fn r)))
    (hd : P (s.taken (s.commandFrame fn r)).countReplyDrop)
    (ha : Ready s r → P (judge (s.taken (s.commandFrame fn r)))) :
    ∀ t, s.management fn r judge = .next t → P t := by
  refine State.trunkDelivery_keeps _ _ _ h ht fun hdis hok => ?_
  split
  · exact hd
  · rename_i hq
    refine ha ⟨hdis, hok, ?_⟩
    by_contra hlt
    exact hq (decide_eq_true (by simp only [State.taken]; omega))

/-! ### Check and frame bytes (R7, R9, R173) -/

theorem crcBit_eq (remainder : Word) (bit : Bool) :
    crcBit remainder bit =
      if bit = remainder.getLsbD 15 then remainder <<< 1 else (remainder <<< 1) ^^^ 0x1021 := by
  have hm : remainder.msb = remainder.getLsbD 15 := rfl
  rw [crcBit, hm]
  by_cases h : bit = remainder.getLsbD 15
  · simp [h]
  · rw [if_neg h, if_pos (bne_iff_ne.mpr h)]

theorem kindTagByte_eq (k : FrameKind) (t : Tag) :
    kindTagByte k t = BitVec.ofNat 8 (32 * (kindCode k).toNat + t.toNat) := by
  have h : ∀ (c : BitVec 3) (t : Tag), c ++ t = BitVec.ofNat 8 (32 * c.toNat + t.toNat) := by decide +kernel
  exact h _ _

theorem frameBytes_eq (f : Frame) :
    let covered := [f.dest, f.src, BitVec.ofNat 8 (32 * (kindCode f.kind).toNat + f.tag.toNat), f.fn,
      BitVec.ofNat 8 f.payload.length] ++ f.payload
    let check := covered.foldl crcByte 0xFFFF
    frameBytes f = [0xD5] ++ covered ++ [check.extractLsb' 8 8, check.extractLsb' 0 8] := by
  intro covered check
  have h : frameCovered f = covered := by
    simp only [frameCovered, kindTagByte_eq]
    rfl
  simp only [frameBytes, h]
  rfl

end Sys2Proof.Machine
end

