-- ==== Sys2Proof/Laws/Parts.lean ====
section
/-! SUPPORT. The laws of the parts: each operation of a framer, a sample, a segment, the reporter and the exchange table
keeps the law of its part. -/

namespace Sys2Proof.Machine

/-! ### Ports and framers (R10 to R16) -/

theorem Framer.reset_law : FramerLaw Framer.reset := by decide

theorem Port.hunt_law (p : Port) : FramerLaw p.hunt.framer := Framer.reset_law

theorem Port.leave_law (count : FramerCounters → FramerCounters) (p : Port) : FramerLaw (p.leave count).framer :=
  Framer.reset_law

theorem Port.close_law (p : Port) : FramerLaw p.close.framer := Framer.reset_law

theorem Port.reopen_law (p : Port) : FramerLaw p.reopen.framer := Framer.reset_law

@[simp] theorem Port.qualify_framer (p : Port) : p.qualify.framer = p.framer := by
  unfold Port.qualify; split <;> rfl

@[simp] theorem Port.fall_framer (b : Bool) (p : Port) : (p.fall b).framer = p.framer := by
  unfold Port.fall; split <;> rfl

@[simp] theorem Port.endBreak_framer (p : Port) : p.endBreak.framer = p.framer := by
  unfold Port.endBreak; split <;> rfl

theorem Port.takeBreak_law (p : Port) (h : FramerLaw p.framer) : FramerLaw p.takeBreak.framer := by
  unfold Port.takeBreak; split
  · exact Framer.reset_law
  · exact h

theorem Port.gapExpire_law (p : Port) (h : FramerLaw p.framer) : FramerLaw p.gapExpire.framer := by
  unfold Port.gapExpire; split
  · exact Framer.reset_law
  · exact h

theorem Port.takeBad_law (p : Port) (h : FramerLaw p.framer) : FramerLaw p.takeBad.framer := by
  unfold Port.takeBad; split
  · exact h
  · exact Framer.reset_law

theorem Port.complete_law (t : Bool) (high low : Byte) (p : Port) : FramerLaw (p.complete t high low).framer := by
  unfold Port.complete
  split <;> exact Framer.reset_law

theorem Port.takeHeader_law (limit : Nat) (b : Byte) (p : Port) (h : FramerLaw p.framer)
    (st : p.framer.state = .header) : FramerLaw (p.takeHeader limit b).framer := by
  have hl := (h.2.1 st).1
  unfold Port.takeHeader
  simp only []
  split
  · rename_i h5
    refine ⟨by simp, fun _ => ⟨h5, rfl, rfl⟩, by simp, by simp⟩
  · rename_i h5
    have h4 : p.framer.fields.length = 4 := by simp at h5; omega
    have hg : (p.framer.fields ++ [b]).getD 4 0 = b := by
      rw [List.getD_append_right _ _ _ _ (by omega), h4]; rfl
    split
    · exact Framer.reset_law
    · rename_i h48
      split
      · rename_i h0
        refine ⟨by simp, by simp, by simp, fun _ => ?_⟩
        simp only [hg]
        subst h0
        simp [h4]
      · rename_i h0
        refine ⟨by simp, by simp, fun _ => ?_, by simp⟩
        have hb : b.toNat ≠ 0 := fun hb => h0 (BitVec.eq_of_toNat_eq (by simpa using hb))
        simp only [hg, List.length_append, h4]
        refine ⟨by simp, by omega, by omega, by simp, by simp, by simp⟩

theorem Port.takeBody_law (limit : Nat) (b : Byte) (p : Port) (h : FramerLaw p.framer)
    (st : p.framer.state = .body) : FramerLaw (p.takeBody limit b).framer := by
  obtain ⟨h5, h1, h48, hs, -, -⟩ := h.2.2.1 st
  have hg : (p.framer.fields ++ [b]).getD 4 0 = p.framer.fields.getD 4 0 := by
    rw [List.getD_append _ _ _ _ (by omega)]
  unfold Port.takeBody
  simp only []
  split
  · refine ⟨by simp, by simp, by simp, fun _ => ?_⟩
    simp only [hg, List.length_append, List.length_singleton]
    exact ⟨by trivial, h48, by omega, by trivial⟩
  · refine ⟨by simp, by simp, fun _ => ?_, by simp⟩
    simp only [hg, List.length_append, List.length_singleton]
    exact ⟨by omega, by omega, h48, by omega, by trivial, by trivial⟩

theorem Port.takeGood_law (t : Bool) (limit : Nat) (b : Byte) (p : Port) (h : FramerLaw p.framer) :
    FramerLaw (p.takeGood t limit b).framer := by
  unfold Port.takeGood
  split
  · split
    · exact ⟨by simp, by simp, by simp, by simp⟩
    · exact h
  · rename_i st; exact p.takeHeader_law limit b h st
  · rename_i st; exact p.takeBody_law limit b h st
  · rename_i st
    obtain ⟨h0, h48, hs, -⟩ := h.2.2.2 st
    split
    · exact ⟨by simp [st], by simp [st], by simp [st], fun _ => ⟨h0, h48, hs, rfl⟩⟩
    · exact Port.complete_law _ _ _ _

theorem Port.arrive_law (t : Bool) (limit : Nat) (parity : Parity) (c : RawChar) (p : Port)
    (h : FramerLaw p.framer) : FramerLaw (p.arrive t limit parity c).framer := by
  unfold Port.arrive
  simp only []
  split
  · exact Port.takeGood_law _ _ _ _ h
  · exact Port.takeBad_law _ h

/-! ### Input lines and hold lines (R113, R127, R128) -/

/-- A run count stays at or below 15 at a sample (R127). -/
theorem InputLine.sample_run (l : InputLine) (level : Bool) (h : l.run ≤ 15) : (l.sample level).run ≤ 15 := by
  unfold InputLine.sample
  split
  · simp
  · split
    · simp
    · split
      · simp
      · rename_i hb hl ha
        have := l.qualification.isLt
        simp only [InputLine.accepts] at ha
        have hq : ¬ (l.qualification.toNat + 1 ≤ l.run + 1) := by
          intro hq; apply ha; simp [hb, hq]; exact hl
        simp only; omega

/-- The run count of a hold line stays at or below 2 at a sample (R113). -/
theorem HoldLine.sample_run (h : HoldLine) (level : Bool) (hr : h.run ≤ 2) : (h.sample level).run ≤ 2 := by
  unfold HoldLine.sample
  split
  · simp
  · split
    · simp
    · simp only; omega

/-! ### Segments: each move keeps the law of the segment (R89, R91, R103, R107, R115, R121, R124) -/

theorem Segment.restartGuard_law (g : Segment) (h : SegmentLaw g) : SegmentLaw g.restartGuard := by
  unfold Segment.restartGuard
  split
  · rename_i hs
    obtain ⟨h1, h2, h3, h4, h5, h6, h7, h8, h9, h10, h11, h12⟩ := h
    exact ⟨h1, h2, h3, h4, h5, by simpa using hs, h7, h8, h9, h10, h11, h12⟩
  · exact h

theorem Segment.tick_law (g : Segment) (h : SegmentLaw g) : SegmentLaw g.tick := by
  obtain ⟨h1, h2, h3, h4, h5, h6, h7, h8, h9, h10, h11, h12⟩ := h
  simp_all [Segment.tick, SegmentLaw]

/-- A change of the port that does not open or close the framer keeps the law of the segment. -/
theorem Segment.modPort_law (g : Segment) (f : Port → Port) (h : SegmentLaw g)
    (hf : (f g.port).receiver = .closed ↔ g.port.receiver = .closed) : SegmentLaw (g.modPort f) := by
  obtain ⟨h1, h2, h3, h4, h5, h6, h7, h8, h9, h10, h11, h12⟩ := h
  exact ⟨h1, h2, h3, hf.trans h4, h5, h6, h7, h8, h9, h10, h11, h12⟩

theorem Port.qualify_closed (p : Port) : p.qualify.receiver = .closed ↔ p.receiver = .closed := by
  unfold Port.qualify; split <;> simp_all

theorem Port.fall_closed (b : Bool) (p : Port) : (p.fall b).receiver = .closed ↔ p.receiver = .closed := by
  unfold Port.fall; split <;> simp_all

theorem Port.endBreak_closed (p : Port) : p.endBreak.receiver = .closed ↔ p.receiver = .closed := by
  unfold Port.endBreak; split <;> simp_all

theorem Port.takeBreak_closed (p : Port) : p.takeBreak.receiver = .closed ↔ p.receiver = .closed := by
  unfold Port.takeBreak
  split
  · rename_i h
    simp only [Port.hearing, Bool.or_eq_true, beq_iff_eq] at h
    rcases h with h | h <;> simp [h]
  · rfl

theorem Port.gapExpire_receiver (p : Port) : p.gapExpire.receiver = p.receiver := by
  unfold Port.gapExpire; split <;> rfl

theorem Port.takeGood_receiver (t : Bool) (limit : Nat) (b : Byte) (p : Port) :
    (p.takeGood t limit b).receiver = p.receiver := by
  unfold Port.takeGood Port.takeHeader Port.takeBody Port.complete
  repeat' (first | rfl | (split <;> try rfl) | simp only [])

theorem Port.takeBad_receiver (p : Port) : p.takeBad.receiver = p.receiver := by
  unfold Port.takeBad; split <;> rfl

/-- After a character the receiver is READY (R3). -/
theorem Port.arrive_receiver (t : Bool) (limit : Nat) (parity : Parity) (c : RawChar) (p : Port) :
    (p.arrive t limit parity c).receiver = .ready := by
  unfold Port.arrive
  simp only []
  split
  · rw [Port.takeGood_receiver]
  · rw [Port.takeBad_receiver]

@[simp] theorem Segment.applyConfig_pending (g : Segment) (c : SegConfig) : (g.applyConfig c).pendingConfig = none := by
  unfold Segment.applyConfig; simp only []; split
  · rfl
  · split <;> rfl

/-- Applying a configuration changes the configuration, the pending one and, for a new rate or parity, the port. -/
theorem Segment.applyConfig_eq (g : Segment) (c : SegConfig) :
    ∃ p : Port, (p.receiver = .closed ↔ g.port.receiver = .closed) ∧
      g.applyConfig c = { g with config := c, pendingConfig := none, port := p } := by
  unfold Segment.applyConfig; simp only []; split
  · exact ⟨g.port, Iff.rfl, rfl⟩
  · split
    · exact ⟨g.port.hunt, Iff.rfl, rfl⟩
    · rename_i h; exact ⟨g.port.reopen, by simp [Port.reopen, h], rfl⟩

theorem Segment.applyPending_eq (g : Segment) :
    ∃ p : Port, (p.receiver = .closed ↔ g.port.receiver = .closed) ∧
      g.applyPending = { g with config := g.pendingConfig.getD g.config, pendingConfig := none, port := p } := by
  unfold Segment.applyPending
  split
  · rename_i c h
    obtain ⟨p, hp, he⟩ := g.applyConfig_eq c
    exact ⟨p, hp, by rw [he, h]; rfl⟩
  · rename_i h
    exact ⟨g.port, Iff.rfl, by cases g; simp only at h; subst h; rfl⟩

theorem Segment.applyConfig_law (g : Segment) (c : SegConfig) (h : SegmentLaw g) : SegmentLaw (g.applyConfig c) := by
  obtain ⟨p, hp, he⟩ := g.applyConfig_eq c
  obtain ⟨h1, h2, h3, h4, h5, h6, h7, h8, h9, h10, h11, h12⟩ := h
  rw [he]
  exact ⟨h1, h2, h3, hp.trans h4, h5, h6, h7, h8, h9, by simp, h11, h12⟩

theorem Segment.applyPending_law (g : Segment) (h : SegmentLaw g) : SegmentLaw g.applyPending := by
  obtain ⟨p, hp, he⟩ := g.applyPending_eq
  obtain ⟨h1, h2, h3, h4, h5, h6, h7, h8, h9, h10, h11, h12⟩ := h
  rw [he]
  exact ⟨h1, h2, h3, hp.trans h4, h5, h6, h7, h8, h9, by simp, h11, h12⟩

/-- Entry to LENT makes the law of the segment, whatever held before (R115). -/
theorem Segment.toLent_law (g : Segment) : SegmentLaw g.toLent := by
  obtain ⟨p, hp, he⟩ := g.applyPending_eq
  simp [Segment.toLent, he, SegmentLaw, Segment.modPort, Port.close]

/-- The end of the work in WAIT leads to GUARD (R98, R102). -/
theorem Segment.toGuard_law (g : Segment) (h : SegmentLaw g) (st : g.state = .wait) (hd : g.drainRequested = false) :
    SegmentLaw g.toGuard := by
  obtain ⟨h1, h2, h3, h4, h5, h6, h7, h8, h9, h10, h11, h12⟩ := h
  simp_all [Segment.toGuard, SegmentLaw]

/-- The end of a transmission leads to GUARD (R104, R105, R110). -/
theorem Segment.endTransmission_toGuard_law (g : Segment) (h : SegmentLaw g) (st : g.state = .send)
    (hd : g.drainRequested = false) : SegmentLaw g.endTransmission.toGuard := by
  obtain ⟨h1, h2, h3, h4, h5, h6, h7, h8, h9, h10, h11, h12⟩ := h
  simp_all [Segment.toGuard, Segment.endTransmission, Segment.modPort, Port.reopen, SegmentLaw]

/-- The end of the transmission of an attempt leads to WAIT (R94). -/
theorem Segment.endTransmission_toWait_law (g : Segment) (t : Byte) (h : SegmentLaw g) (st : g.state = .send)
    (hc : g.current.isSome = true) : SegmentLaw (g.endTransmission.toWait t) := by
  obtain ⟨h1, h2, h3, h4, h5, h6, h7, h8, h9, h10, h11, h12⟩ := h
  simp_all [Segment.toWait, Segment.endTransmission, Segment.modPort, Port.reopen, SegmentLaw]

/-- Entry to IDLE from GUARD or RESUME (R91). -/
theorem Segment.toIdle_law (g : Segment) (h : SegmentLaw g) (st : g.state = .guard ∨ g.state = .resume) :
    SegmentLaw g.toIdle := by
  obtain ⟨p, hp, he⟩ := Segment.applyPending_eq { g with state := .idle, guardTimer := none }
  obtain ⟨h1, h2, h3, h4, h5, h6, h7, h8, h9, h10, h11, h12⟩ := h
  unfold Segment.toIdle
  rw [he]
  rcases st with st | st <;> simp_all [SegmentLaw]

theorem Segment.toIdle_state (g : Segment) : g.toIdle.state = .idle := by
  obtain ⟨p, hp, he⟩ := Segment.applyPending_eq { g with state := .idle, guardTimer := none }
  unfold Segment.toIdle
  rw [he]

/-- The beginning of a transmission from IDLE (R93, R104). -/
theorem Segment.begin_law (g : Segment) (slot : Slot) (f : Frame) (h : SegmentLaw g) (st : g.state = .idle) :
    SegmentLaw (g.begin slot f) := by
  obtain ⟨h1, h2, h3, h4, h5, h6, h7, h8, h9, h10, h11, h12⟩ := h
  simp_all [Segment.begin, Segment.modPort, Port.close, SegmentLaw]

/-- Reclaim of a LENT segment (R121). -/
theorem Segment.toResume_law (g : Segment) (h : SegmentLaw g) (st : g.state = .lent) : SegmentLaw g.toResume := by
  obtain ⟨h1, h2, h3, h4, h5, h6, h7, h8, h9, h10, h11, h12⟩ := h
  simp_all [Segment.toResume, Segment.modPort, Port.reopen, SegmentLaw]

/-- A soft reset keeps the law of the segment (R112, R124). -/
theorem Segment.softReset_law (g : Segment) (h : SegmentLaw g) : SegmentLaw g.softReset := by
  obtain ⟨h1, h2, h3, h4, h5, h6, h7, h8, h9, h10, h11, h12⟩ := h
  unfold Segment.softReset
  simp only []
  split
  · rename_i st
    obtain ⟨p, hp, he⟩ := Segment.applyPending_eq
      { g with
        counters := SegmentCounters.zero, current := none, responseTimer := none, guardTimer := none, tx := none,
        de := false, port := { Port.reset with receiver := g.port.receiver } }
    rw [he]
    simp_all [Segment.modPort, Port.close, SegmentLaw]
  · split
    · exact Segment.toLent_law _
    · obtain ⟨p, hp, he⟩ := Segment.applyPending_eq
        { g with
          counters := SegmentCounters.zero, current := none, responseTimer := none, guardTimer := none, tx := none,
          de := false, port := { Port.reset with receiver := g.port.receiver } }
      rw [he]
      simp_all [Segment.modPort, Port.reopen, SegmentLaw]

/-! ### The report queue and the outstanding batch (R140 to R155) -/

theorem countP_map_le {α : Type} (p : α → Bool) (f : α → α) (l : List α) (h : ∀ a ∈ l, p (f a) = true → p a = true) :
    (l.map f).countP p ≤ l.countP p := by
  rw [List.countP_map]
  exact List.countP_mono_left h

/-- The next batch number is never 0 (R146). -/
theorem nextBatchNumber_ne_zero (n : Byte) : nextBatchNumber n ≠ 0 := by
  unfold nextBatchNumber
  split
  · decide
  · rename_i h255
    intro h0
    apply h255
    have : n = n + 1 - 1 := by simp
    rw [this, h0]; rfl

theorem Reporter.recordLoss_queue_law (rep : Reporter) (t : Word) (h : QueueOfReportsLaw rep) :
    QueueOfReportsLaw (rep.recordLoss t) := by
  obtain ⟨h1, h2, h3, h4⟩ := h
  unfold Reporter.recordLoss
  split
  · refine ⟨?_, ?_, fun n => ?_, ?_⟩
    · refine le_trans ?_ h1
      apply countP_map_le
      intro r _; split <;> simp [ReportRecord.isOverflow]
    · refine le_trans ?_ h2
      apply countP_map_le
      intro r _; split <;> simp [ReportRecord.isOverflow]
    · refine le_trans ?_ (h3 n)
      apply countP_map_le
      intro r _; split <;> simp [ReportRecord.waiting]
    · intro r hr hov
      simp only [List.mem_map] at hr
      obtain ⟨q, hq, rfl⟩ := hr
      revert hov
      split
      · intro hov; exact h4 q hq hov
      · exact h4 q hq
  · split
    · exact ⟨h1, h2, h3, h4⟩
    · rename_i hw hov
      have hno : ∀ r ∈ rep.queue, r.isOverflow = false := by
        simpa [Reporter.hasOverflow] using hov
      refine ⟨?_, ?_, fun n => ?_, ?_⟩
      · simpa [Reporter.occupancy, overflowRecord, ReportRecord.isOverflow] using h1
      · have : rep.queue.countP ReportRecord.isOverflow = 0 := by
          rw [List.countP_eq_zero]; intro r hr; simp [hno r hr]
        simp [List.countP_append, this, overflowRecord, ReportRecord.isOverflow]
      · have := h3 n
        simpa [waitingOf, List.countP_append, overflowRecord] using this
      · intro r hr hov'
        simp only [List.mem_append, List.mem_singleton] at hr
        rcases hr with hr | rfl
        · exact h4 r hr hov'
        · rfl

/-- Taking an event keeps the law of the report queue (R140, R142). -/
theorem Reporter.take_queue_law (rep : Reporter) (e : Event) (he : e.code ≠ .overflow) (h : QueueOfReportsLaw rep) :
    QueueOfReportsLaw (rep.take e) := by
  have h' := h
  obtain ⟨h1, h2, h3, h4⟩ := h
  have heb : (e.code == EventCode.overflow) = false := by simpa using he
  unfold Reporter.take
  split
  · exact h'
  · split
    · rename_i hd hc
      have hin : e.subject.isInput = true := by
        simp only [Reporter.coalesces, Bool.and_eq_true] at hc; exact hc.1
      have hov : ∀ r ∈ rep.queue, (r.subject == e.subject && r.waiting) = true → r.isOverflow = false := by
        intro r hr hs
        by_contra hne
        have := h4 r hr (by simpa using hne)
        simp only [Bool.and_eq_true, beq_iff_eq] at hs
        rw [← hs.1, this] at hin
        simp [Subject.isInput] at hin
      refine ⟨?_, ?_, fun n => ?_, ?_⟩
      · refine le_trans ?_ h1
        apply countP_map_le
        intro r hr; split
        · rename_i hs; simp [hov r hr hs]
        · exact id
      · refine le_trans ?_ h2
        apply countP_map_le
        intro r hr; split
        · simp [ReportRecord.isOverflow, ReportRecord.coalesce, heb]
        · exact id
      · refine le_trans ?_ (h3 n)
        apply countP_map_le
        intro r _; split
        · simp [ReportRecord.coalesce, ReportRecord.waiting]
        · exact id
      · intro r hr hov'
        simp only [List.mem_map] at hr
        obtain ⟨q, hq, rfl⟩ := hr
        revert hov'
        split
        · simp [ReportRecord.isOverflow, ReportRecord.coalesce, heb]
        · exact h4 q hq
    · rename_i hd hc
      split
      · rename_i ho
        refine ⟨?_, ?_, fun n => ?_, ?_⟩
        · have : (rep.queue ++ [e.record]).countP (fun r => !r.isOverflow) ≤ rep.queue.countP (fun r => !r.isOverflow) + 1 := by
            rw [List.countP_append]; simp only [List.countP_singleton]; split <;> omega
          simp only [Reporter.occupancy] at ho ⊢
          omega
        · simpa [List.countP_append, Event.record, ReportRecord.isOverflow, heb] using h2
        · simp only [waitingOf, List.countP_append]
          by_cases hs : e.subject = .input n
          · have : rep.queue.countP (fun r => r.subject == .input n && r.waiting) = 0 := by
              rw [List.countP_eq_zero]
              intro r hr hrn
              apply hc
              simp only [Reporter.coalesces, hs, Subject.isInput, Bool.true_and, List.any_eq_true]
              exact ⟨r, hr, hrn⟩
            rw [this]
            simp only [List.countP_singleton]; split <;> omega
          · have := h3 n
            simp only [waitingOf] at this
            have hz : ([e.record].countP fun r => r.subject == .input n && r.waiting) = 0 := by
              simp [Event.record, hs]
            omega
        · intro r hr hov'
          simp only [List.mem_append, List.mem_singleton] at hr
          rcases hr with hr | rfl
          · exact h4 r hr hov'
          · simp [Event.record, ReportRecord.isOverflow, heb] at hov'
      · exact rep.recordLoss_queue_law e.time h'

theorem Reporter.recordLoss_batch_law (rep : Reporter) (t : Word) (h : BatchLaw rep) : BatchLaw (rep.recordLoss t) := by
  obtain ⟨h1, h2, h3, h4⟩ := h
  unfold Reporter.recordLoss
  split
  · refine ⟨h1, h2, h3, ?_⟩
    intro r hr
    simp only [List.mem_map] at hr
    obtain ⟨q, hq, rfl⟩ := hr
    split
    · exact h4 q hq
    · exact h4 q hq
  · split
    · exact ⟨h1, h2, h3, h4⟩
    · refine ⟨h1, h2, h3, ?_⟩
      intro r hr
      simp only [List.mem_append, List.mem_singleton] at hr
      rcases hr with hr | rfl
      · exact h4 r hr
      · exact Or.inl rfl

/-- Taking an event keeps the law of the outstanding batch (R146). -/
theorem Reporter.take_batch_law (rep : Reporter) (e : Event) (h : BatchLaw rep) : BatchLaw (rep.take e) := by
  have h' := h
  obtain ⟨h1, h2, h3, h4⟩ := h
  unfold Reporter.take
  split
  · exact h'
  · split
    · refine ⟨h1, h2, h3, ?_⟩
      intro r hr
      simp only [List.mem_map] at hr
      obtain ⟨q, hq, rfl⟩ := hr
      split
      · exact h4 q hq
      · exact h4 q hq
    · split
      · refine ⟨h1, h2, h3, ?_⟩
        intro r hr
        simp only [List.mem_append, List.mem_singleton] at hr
        rcases hr with hr | rfl
        · exact h4 r hr
        · exact Or.inl rfl
      · exact rep.recordLoss_batch_law e.time h'

theorem Reporter.formBatch_queue (rep : Reporter) (p : ReportRecord → Bool)
    (hp : ∀ (r : ReportRecord) (n : Byte), p { r with status := .inBatch n } = true → p r = true) :
    rep.formBatch.queue.countP p ≤ rep.queue.countP p := by
  have : rep.queue.countP p = rep.queue.zipIdx.countP (p ∘ Prod.fst) := by
    rw [← List.countP_map, List.zipIdx_map_fst]
  rw [this]
  simp only [Reporter.formBatch, List.countP_map]
  apply List.countP_mono_left
  intro q _
  simp only [Function.comp]
  split
  · exact hp _ _
  · exact id

theorem Reporter.mem_formBatch (rep : Reporter) (r : ReportRecord) (h : r ∈ rep.formBatch.queue) :
    ∃ q ∈ rep.queue, r = q ∨ r = { q with status := .inBatch rep.nextBatch } := by
  simp only [Reporter.formBatch, List.mem_map] at h
  obtain ⟨⟨q, i⟩, hq, rfl⟩ := h
  refine ⟨q, List.fst_mem_of_mem_zipIdx hq, ?_⟩
  dsimp only
  split
  · exact Or.inr rfl
  · exact Or.inl rfl

theorem Reporter.formBatch_queue_law (rep : Reporter) (h : QueueOfReportsLaw rep) : QueueOfReportsLaw rep.formBatch := by
  obtain ⟨h1, h2, h3, h4⟩ := h
  refine ⟨le_trans (rep.formBatch_queue _ fun r n => id) h1, le_trans (rep.formBatch_queue _ fun r n => id) h2,
    fun n => le_trans (rep.formBatch_queue _ fun r n => by simp [ReportRecord.waiting]) (h3 n), ?_⟩
  intro r hr hov
  obtain ⟨q, hq, he | he⟩ := rep.mem_formBatch r hr
  · exact h4 r (he ▸ hq) hov
  · subst he; exact h4 q hq hov

/-- Forming a batch with none outstanding keeps the law of the outstanding batch (R146). -/
theorem Reporter.formBatch_batch_law (rep : Reporter) (h : BatchLaw rep) (hi : rep.outstanding = none) :
    BatchLaw rep.formBatch := by
  obtain ⟨h1, h2, h3, h4⟩ := h
  refine ⟨nextBatchNumber_ne_zero _, ?_, ?_, ?_⟩
  · simp [Reporter.formBatch]
  · simpa [Reporter.formBatch] using h1
  · intro r hr
    obtain ⟨q, hq, he | he⟩ := rep.mem_formBatch r hr
    · rcases h4 r (he ▸ hq) with h | h
      · exact Or.inl h
      · rw [hi] at h; cases h
    · subst he; exact Or.inr rfl

theorem Reporter.granted_queue_law (rep : Reporter) (h : QueueOfReportsLaw rep) : QueueOfReportsLaw rep.granted := by
  unfold Reporter.granted
  split
  · exact rep.formBatch_queue_law h
  · exact h

theorem Reporter.granted_batch_law (rep : Reporter) (h : BatchLaw rep) : BatchLaw rep.granted := by
  unfold Reporter.granted
  split
  · rename_i hs; exact rep.formBatch_batch_law h (h.2.1.1 hs)
  · exact h

theorem Reporter.sent_queue_law (rep : Reporter) (h : QueueOfReportsLaw rep) : QueueOfReportsLaw rep.sent := by
  unfold Reporter.sent; split <;> exact h

theorem Reporter.sent_batch_law (rep : Reporter) (h : BatchLaw rep) : BatchLaw rep.sent := by
  unfold Reporter.sent; split <;> exact h

theorem Reporter.expire_queue_law (rep : Reporter) (h : QueueOfReportsLaw rep) : QueueOfReportsLaw rep.expire := by
  unfold Reporter.expire; split <;> exact h

theorem Reporter.expire_batch_law (rep : Reporter) (h : BatchLaw rep) (hs : rep.state = .outstanding) :
    BatchLaw rep.expire := by
  unfold Reporter.expire
  split
  · exact h
  · obtain ⟨h1, h2, h3, h4⟩ := h
    refine ⟨h1, ?_, h3, h4⟩
    have : rep.outstanding ≠ none := fun hn => by have := h2.2 hn; rw [hs] at this; cases this
    simp [this]

/-- Acknowledgement keeps the law of the report queue (R144, R147). -/
theorem Reporter.acknowledge_queue_law (rep : Reporter) (h : QueueOfReportsLaw rep) :
    QueueOfReportsLaw rep.acknowledge := by
  obtain ⟨h1, h2, h3, h4⟩ := h
  have sub : (rep.queue.filter ReportRecord.waiting).Sublist rep.queue := List.filter_sublist
  have k1 := le_trans (sub.countP_le (p := fun r => !r.isOverflow)) h1
  have k2 := le_trans (sub.countP_le (p := ReportRecord.isOverflow)) h2
  have k3 : ∀ n, (rep.queue.filter ReportRecord.waiting).countP (fun r => r.subject == .input n && r.waiting) ≤ 1 :=
    fun n => le_trans sub.countP_le (h3 n)
  have k4 : ∀ r ∈ rep.queue.filter ReportRecord.waiting, r.isOverflow = true → r.subject = .gateway :=
    fun r hr => h4 r (sub.subset hr)
  unfold Reporter.acknowledge
  simp only []
  split
  · rename_i hany
    split
    · exact ⟨k1, k2, k3, k4⟩
    · have hz : (rep.queue.filter ReportRecord.waiting).countP ReportRecord.isOverflow = 0 := by
        rw [List.countP_eq_zero]
        intro r hr hov
        simp only [List.any_eq_true] at hany
        obtain ⟨q, hq, hqo⟩ := hany
        simp only [Bool.and_eq_true, Bool.not_eq_true'] at hqo
        rw [List.mem_filter] at hr
        have hne : r ≠ q := fun he => by rw [he, hqo.2] at hr; exact absurd hr.2 (by simp)
        have : 2 ≤ rep.queue.countP ReportRecord.isOverflow := by
          rw [List.countP_eq_length_filter]
          have hr' : r ∈ rep.queue.filter ReportRecord.isOverflow := List.mem_filter.2 ⟨hr.1, hov⟩
          have hq' : q ∈ rep.queue.filter ReportRecord.isOverflow := List.mem_filter.2 ⟨hq, hqo.1⟩
          rcases hl : rep.queue.filter ReportRecord.isOverflow with _ | ⟨a, _ | ⟨b, t⟩⟩
          · rw [hl] at hr'; simp at hr'
          · rw [hl] at hr' hq'; simp at hr' hq'; exact absurd (hr'.trans hq'.symm) hne
          · simp
        omega
      refine ⟨?_, ?_, fun n => ?_, ?_⟩
      · simpa [Reporter.occupancy, List.countP_append, overflowRecord, ReportRecord.isOverflow] using k1
      · simp only [List.countP_append, hz]; simp [overflowRecord, ReportRecord.isOverflow]
      · have := k3 n
        simp only [waitingOf, List.countP_append]
        have hz : ([overflowRecord rep.carry.count rep.carry.first rep.carry.last].countP
          fun r => r.subject == .input n && r.waiting) = 0 := by simp [overflowRecord]
        omega
      · intro r hr hov
        simp only [List.mem_append, List.mem_singleton] at hr
        rcases hr with hr | rfl
        · exact k4 r hr hov
        · rfl
  · exact ⟨k1, k2, k3, k4⟩

/-- Acknowledgement leaves no batch outstanding (R147). -/
theorem Reporter.acknowledge_batch_law (rep : Reporter) (h : rep.nextBatch ≠ 0) : BatchLaw rep.acknowledge := by
  unfold Reporter.acknowledge
  simp only []
  have k : ∀ r ∈ rep.queue.filter ReportRecord.waiting, r.waiting = true := fun r hr => (List.mem_filter.1 hr).2
  split
  · refine ⟨h, by simp [Reporter.toIdle], by simp [Reporter.toIdle], ?_⟩
    intro r hr
    left
    dsimp only at hr
    split at hr
    · exact k r hr
    · simp only [List.mem_append, List.mem_singleton] at hr
      rcases hr with hr | rfl
      · exact k r hr
      · rfl
  · exact ⟨h, by simp [Reporter.toIdle], by simp [Reporter.toIdle], fun r hr => Or.inl (k r hr)⟩

theorem Reporter.softReset_queue_law (rep : Reporter) (t : Word) : QueueOfReportsLaw (rep.softReset t) := by
  refine ⟨by simp [Reporter.softReset, Reporter.occupancy, ReportRecord.restart, ReportRecord.isOverflow],
    by simp [Reporter.softReset, ReportRecord.restart, ReportRecord.isOverflow],
    fun n => by simp [Reporter.softReset, waitingOf, ReportRecord.restart], ?_⟩
  intro r hr _
  simp [Reporter.softReset] at hr
  rw [hr]; rfl

theorem Reporter.softReset_batch_law (rep : Reporter) (t : Word) (h : rep.nextBatch ≠ 0) :
    BatchLaw (rep.softReset t) := by
  refine ⟨h, by simp [Reporter.softReset, Reporter.toIdle], by simp [Reporter.softReset, Reporter.toIdle], ?_⟩
  intro r hr
  simp [Reporter.softReset] at hr
  rw [hr]; exact Or.inl rfl


/-! ### Abandonment (R155) -/

theorem Reporter.release_waiting (rep : Reporter) (r : ReportRecord) : (rep.release r).waiting = true := by
  unfold Reporter.release
  split
  · assumption
  · split <;> rfl

@[simp] theorem Reporter.release_subject (rep : Reporter) (r : ReportRecord) : (rep.release r).subject = r.subject := by
  unfold Reporter.release
  split
  · rfl
  · split <;> rfl

@[simp] theorem Reporter.release_code (rep : Reporter) (r : ReportRecord) : (rep.release r).code = r.code := by
  unfold Reporter.release
  split
  · rfl
  · split <;> rfl

/-- What the merged queue keeps while records join it (R155 step 3). -/
structure Merged (acc : List ReportRecord) : Prop where
  waiting : ∀ r ∈ acc, r.waiting = true
  overflow : ∀ r ∈ acc, r.isOverflow = true → r.subject = .gateway
  lines : ∀ n : Fin 16, acc.countP (fun r => r.subject == .input n) ≤ 1

theorem Merged.nil : Merged [] := ⟨by simp, by simp, by simp⟩

theorem Merged.add {acc : List ReportRecord} (h : Merged acc) (r : ReportRecord) (hw : r.waiting = true)
    (ho : r.isOverflow = true → r.subject = .gateway) :
    Merged (addMerged acc r) ∧
      (addMerged acc r).countP (fun r => !r.isOverflow) ≤ (acc ++ [r]).countP (fun r => !r.isOverflow) ∧
      (addMerged acc r).countP ReportRecord.isOverflow ≤ (acc ++ [r]).countP ReportRecord.isOverflow := by
  obtain ⟨h1, h2, h3⟩ := h
  unfold addMerged
  split
  · rename_i hc
    simp only [Bool.and_eq_true] at hc
    have hin := hc.1
    have hr : r.isOverflow = false := by
      by_contra hne
      rw [ho (by simpa using hne)] at hin
      simp [Subject.isInput] at hin
    have hold : ∀ o ∈ acc, o.subject = r.subject → o.isOverflow = false := by
      intro o hm hs
      by_contra hne
      rw [← hs, h2 o hm (by simpa using hne)] at hin
      simp [Subject.isInput] at hin
    have hmr : ∀ o : ReportRecord, (o.merge r).isOverflow = false := fun o => hr
    refine ⟨⟨?_, ?_, fun n => ?_⟩, ?_, ?_⟩
    · intro q hq
      simp only [List.mem_map] at hq
      obtain ⟨o, hm, rfl⟩ := hq
      split
      · exact h1 o hm
      · exact h1 o hm
    · intro q hq hov
      simp only [List.mem_map] at hq
      obtain ⟨o, hm, rfl⟩ := hq
      revert hov
      split
      · simp [hmr]
      · exact h2 o hm
    · refine le_trans (countP_map_le _ _ _ ?_) (h3 n)
      intro o _
      split
      · simp [ReportRecord.merge]
      · exact id
    · refine le_trans (countP_map_le _ _ _ ?_) (by rw [List.countP_append]; omega)
      intro o hm
      split
      · rename_i hs
        intro _
        simp [hold o hm (by simpa using hs)]
      · exact id
    · refine le_trans (countP_map_le _ _ _ ?_) (by rw [List.countP_append]; omega)
      intro o hm
      split
      · simp [hmr]
      · exact id
  · rename_i hc
    refine ⟨⟨?_, ?_, fun n => ?_⟩, le_refl _, le_refl _⟩
    · intro q hq
      simp only [List.mem_append, List.mem_singleton] at hq
      rcases hq with hq | rfl
      · exact h1 q hq
      · exact hw
    · intro q hq
      simp only [List.mem_append, List.mem_singleton] at hq
      rcases hq with hq | rfl
      · exact h2 q hq
      · exact ho
    · rw [List.countP_append]
      by_cases hs : r.subject = .input n
      · have : acc.countP (fun r => r.subject == .input n) = 0 := by
          rw [List.countP_eq_zero]
          intro o hm hon
          apply hc
          simp only [hs, Subject.isInput, Bool.true_and, List.any_eq_true]
          exact ⟨o, hm, hon⟩
        rw [this]
        simp only [List.countP_singleton]; split <;> omega
      · have := h3 n
        simp [hs]; omega

theorem Merged.foldl (l : List ReportRecord) (hl : ∀ r ∈ l, r.waiting = true ∧ (r.isOverflow = true → r.subject = .gateway)) :
    ∀ acc, Merged acc → Merged (l.foldl addMerged acc) ∧
      (l.foldl addMerged acc).countP (fun r => !r.isOverflow) ≤ (acc ++ l).countP (fun r => !r.isOverflow) ∧
      (l.foldl addMerged acc).countP ReportRecord.isOverflow ≤ (acc ++ l).countP ReportRecord.isOverflow := by
  induction l with
  | nil => intro acc h; simp [h]
  | cons r l ih =>
    intro acc h
    obtain ⟨k1, k2, k3⟩ := h.add r (hl r (by simp)).1 (hl r (by simp)).2
    obtain ⟨m1, m2, m3⟩ := ih (fun q hq => hl q (by simp [hq])) _ k1
    refine ⟨m1, le_trans m2 ?_, le_trans m3 ?_⟩
    · simp only [List.countP_append, List.countP_cons, List.countP_nil] at *; omega
    · simp only [List.countP_append, List.countP_cons, List.countP_nil] at *; omega

/-- The queue of an abandoned batch (R155): all WAITING, one record a line, no more records of either kind. -/
theorem Reporter.abandon_merged (rep : Reporter) (h : ∀ r ∈ rep.queue, r.isOverflow = true → r.subject = .gateway) :
    Merged rep.abandon.queue ∧ rep.abandon.occupancy ≤ rep.occupancy ∧
      rep.abandon.queue.countP ReportRecord.isOverflow ≤ rep.queue.countP ReportRecord.isOverflow := by
  obtain ⟨m1, m2, m3⟩ := Merged.foldl (rep.queue.map rep.release) (by
    intro r hr
    simp only [List.mem_map] at hr
    obtain ⟨q, hq, rfl⟩ := hr
    refine ⟨rep.release_waiting q, fun hov => ?_⟩
    rw [rep.release_subject]
    exact h q hq (by simpa [ReportRecord.isOverflow] using hov)) [] Merged.nil
  refine ⟨m1, le_trans m2 ?_, le_trans m3 ?_⟩
  · rw [List.nil_append]
    apply countP_map_le
    intro r _; simp [ReportRecord.isOverflow]
  · rw [List.nil_append]
    apply countP_map_le
    intro r _; simp [ReportRecord.isOverflow]

theorem Reporter.abandon_queue_law (rep : Reporter) (h : QueueOfReportsLaw rep) : QueueOfReportsLaw rep.abandon := by
  obtain ⟨h1, h2, h3, h4⟩ := h
  obtain ⟨m, k1, k2⟩ := rep.abandon_merged h4
  exact ⟨k1.trans h1, k2.trans h2, fun n => (List.countP_mono_left (by
    intro r _ hr; simp only [Bool.and_eq_true] at hr; exact hr.1)).trans (m.lines n), m.overflow⟩

theorem Reporter.abandon_batch_law (rep : Reporter) (h : QueueOfReportsLaw rep) (hn : rep.nextBatch ≠ 0) :
    BatchLaw rep.abandon :=
  ⟨hn, by simp [Reporter.abandon, Reporter.toIdle], by simp [Reporter.abandon, Reporter.toIdle],
    fun r hr => Or.inl ((rep.abandon_merged h.2.2.2).1.waiting r hr)⟩

/-! ### The exchange table (R65 to R79) -/

/-- A freed slot leaves the law of the table (R67, R79). -/
theorem TableLaw.free {t : ExchangeTable} (h : TableLaw t) (i : Slot) : TableLaw (t.free i) := by
  obtain ⟨h1, h2, h3, h4, h5⟩ := h
  refine ⟨h1.erase i, h2.erase i, fun j => ?_, fun j => ?_, fun j k hjk hj => ?_⟩
  · by_cases hji : j = i
    · subst hji; simp [h1.mem_erase_iff]
    · rw [ExchangeTable.free_record_other _ _ _ hji, ← h3 j]
      simp [h1.mem_erase_iff, hji]
  · by_cases hji : j = i
    · subst hji; simp [h2.mem_erase_iff]
    · rw [ExchangeTable.free_record_other _ _ _ hji, ← h4 j]
      simp [h2.mem_erase_iff, hji]
  · by_cases hji : j = i
    · subst hji; simp at hj
    · rw [ExchangeTable.free_record_other _ _ _ hji] at hj ⊢
      by_cases hki : k = i
      · subst hki
        simp only [ExchangeTable.free_record_self]
        obtain ⟨a, ha⟩ := Option.isSome_iff_exists.1 hj
        simp [ha]
      · rw [ExchangeTable.free_record_other _ _ _ hki]
        exact h5 j k hjk hj

/-- A record that keeps its origin and is COMPLETE neither before nor after keeps the law of the table. -/
theorem TableLaw.setRecord {t : ExchangeTable} (h : TableLaw t) (i : Slot) (r q : Record) (hr : t.record i = some r)
    (hp : q.pair = r.pair) (hc : q.state.isComplete = r.state.isComplete) : TableLaw (t.setRecord i q) := by
  obtain ⟨h1, h2, h3, h4, h5⟩ := h
  have hmap : ∀ j, ((t.setRecord i q).record j).map Record.pair = (t.record j).map Record.pair := by
    intro j
    by_cases hji : j = i
    · subst hji; simp [hr, hp]
    · rw [ExchangeTable.setRecord_record_other _ _ _ _ hji]
  have hsome : ∀ j, ((t.setRecord i q).record j).isSome = (t.record j).isSome := by
    intro j
    have := congrArg Option.isSome (hmap j)
    simpa using this
  refine ⟨h1, h2, fun j => ?_, fun j => ?_, fun j k hjk hj => ?_⟩
  · rw [hsome]; exact h3 j
  · by_cases hji : j = i
    · subst hji
      have := h4 j
      simpa [hr, hc] using this
    · rw [ExchangeTable.setRecord_record_other _ _ _ _ hji]; exact h4 j
  · rw [hmap, hmap]; rw [hsome] at hj; exact h5 j k hjk hj

/-- A record that becomes COMPLETE and joins the completion list keeps the law of the table (R79). -/
theorem TableLaw.complete {t : ExchangeTable} (h : TableLaw t) (i : Slot) (r q : Record) (hr : t.record i = some r)
    (hp : q.pair = r.pair) (hr' : r.state.isComplete = false) (hq : q.state.isComplete = true) :
    TableLaw { t.setRecord i q with completion := t.completion ++ [i] } := by
  obtain ⟨h1, h2, h3, h4, h5⟩ := h
  have hrec : ∀ j, ({ t.setRecord i q with completion := t.completion ++ [i] } : ExchangeTable).record j =
    (t.setRecord i q).record j := fun _ => rfl
  have hmap : ∀ j, ((t.setRecord i q).record j).map Record.pair = (t.record j).map Record.pair := by
    intro j
    by_cases hji : j = i
    · subst hji; simp [hr, hp]
    · rw [ExchangeTable.setRecord_record_other _ _ _ _ hji]
  have hsome : ∀ j, ((t.setRecord i q).record j).isSome = (t.record j).isSome := by
    intro j
    have := congrArg Option.isSome (hmap j)
    simpa using this
  have hni : i ∉ t.completion := by rw [h4 i]; simp [hr, hr']
  refine ⟨h1, ?_, fun j => ?_, fun j => ?_, fun j k hjk hj => ?_⟩
  · rw [List.nodup_append]
    refine ⟨h2, by simp, ?_⟩
    intro a ha b hb he
    simp only [List.mem_singleton] at hb
    subst hb; subst he; exact hni ha
  · rw [hrec, hsome]; exact h3 j
  · rw [hrec]
    by_cases hji : j = i
    · subst hji; simp [hq]
    · rw [ExchangeTable.setRecord_record_other _ _ _ _ hji, ← h4 j]
      simp [hji]
  · rw [hrec, hrec, hmap, hmap]; rw [hrec, hsome] at hj; exact h5 j k hjk hj

/-- A record admitted into a FREE slot, its origin held by no other record, keeps the law of the table (R69, R72). -/
theorem TableLaw.admitted {t : ExchangeTable} (h : TableLaw t) (i : Slot) (q : Record) (hi : t.record i = none)
    (hp : ∀ j : Slot, (t.record j).map Record.pair ≠ some q.pair) (hq : q.state.isComplete = false) :
    TableLaw { t.setRecord i q with admission := t.admission ++ [i] } := by
  obtain ⟨h1, h2, h3, h4, h5⟩ := h
  have hrec : ∀ j, ({ t.setRecord i q with admission := t.admission ++ [i] } : ExchangeTable).record j =
    (t.setRecord i q).record j := fun _ => rfl
  have hni : i ∉ t.admission := by rw [h3 i]; simp [hi]
  refine ⟨?_, h2, fun j => ?_, fun j => ?_, fun j k hjk hj => ?_⟩
  · rw [List.nodup_append]
    refine ⟨h1, by simp, ?_⟩
    intro a ha b hb he
    simp only [List.mem_singleton] at hb
    subst hb; subst he; exact hni ha
  · rw [hrec]
    by_cases hji : j = i
    · subst hji; simp
    · rw [ExchangeTable.setRecord_record_other _ _ _ _ hji, ← h3 j]
      simp [hji]
  · rw [hrec]
    by_cases hji : j = i
    · subst hji
      have := h4 j
      simp only [hi] at this
      simpa [hq] using this
    · rw [ExchangeTable.setRecord_record_other _ _ _ _ hji]
      exact h4 j
  · rw [hrec, hrec]
    rw [hrec] at hj
    by_cases hji : j = i
    · subst hji
      rw [ExchangeTable.setRecord_record_self, ExchangeTable.setRecord_record_other _ _ _ _ (Ne.symm hjk)]
      exact fun e => hp k e.symm
    · rw [ExchangeTable.setRecord_record_other _ _ _ _ hji] at hj ⊢
      by_cases hki : k = i
      · subst hki
        rw [ExchangeTable.setRecord_record_self]
        exact hp j
      · rw [ExchangeTable.setRecord_record_other _ _ _ _ hki]
        exact h5 j k hjk hj

end Sys2Proof.Machine
end

