-- ==== Sys2Proof/Laws/Exchange.lean ====
section
/-! SUPPORT. The laws of the output queue, the exchange table and the reporter, carried by each shared operation: one
lemma for each, to be cited in place of unfolding it. -/

namespace Sys2Proof.Machine

/-! ### The output queue and the exchange table (R23 to R29, R77 to R79) -/

/-- The head of the completion list holds a reply (R79). -/
theorem TableLaw.head {t : ExchangeTable} (h : TableLaw t) {i : Slot} {more : List Slot} (hc : t.completion = i :: more) :
    ∃ r reply, t.record i = some r ∧ r.state = .complete reply := by
  have := (h.2.2.2.1 i).1 (by rw [hc]; simp)
  cases hr : t.record i with
  | none => rw [hr] at this; simp at this
  | some r =>
    rw [hr] at this
    simp only [Option.any_some] at this
    cases hs : r.state with
    | complete reply => exact ⟨r, reply, rfl, hs⟩
    | queued => rw [hs] at this; simp [RecordState.isComplete] at this
    | active => rw [hs] at this; simp [RecordState.isComplete] at this

/-- A freed slot of the queue under the law of the table: nothing waits, or the earliest reply enters (R26). -/
theorem State.fillFreedSlot_cases (s : State) (h : TableLaw s.exchange) :
    (s.exchange.completion = [] ∧ s.fillFreedSlot = s) ∨
    (∃ i more q, s.exchange.completion = i :: more ∧ s.fillFreedSlot =
      { s with exchange := s.exchange.free i, trunk := { s.trunk with queue := s.trunk.queue ++ [q] } }) := by
  unfold State.fillFreedSlot
  cases hc : s.exchange.completion with
  | nil => exact Or.inl ⟨rfl, rfl⟩
  | cons i more =>
    obtain ⟨r, reply, hr, hs⟩ := h.head hc
    refine Or.inr ⟨i, more, ⟨r.replyFrame reply, false⟩, rfl, ?_⟩
    simp only [hr, hs]

theorem TableLaw.fillFreedSlot {s : State} (h : TableLaw s.exchange) : TableLaw s.fillFreedSlot.exchange := by
  rcases s.fillFreedSlot_cases h with ⟨-, he⟩ | ⟨i, more, q, -, he⟩
  · rw [he]; exact h
  · rw [he]; exact h.free i

theorem TableLaw.arbitrate {s : State} (h : TableLaw s.exchange) : TableLaw s.arbitrate.exchange := by
  unfold State.arbitrate
  split
  · split
    · exact TableLaw.fillFreedSlot (s := { s with trunk := _ }) h
    · split
      · split
        · exact h
        · exact h
      · exact h
  · exact h

theorem TableLaw.enqueue {s : State} (h : TableLaw s.exchange) (q : QueuedFrame) : TableLaw (s.enqueue q).exchange :=
  TableLaw.arbitrate (s := s.modTrunk _) h

/-- The arbiter leaves the law of the output queue, from any queue of at most 8 frames (R26, R28). -/
theorem OutputLaw.arbitrate {s : State} (h : TableLaw s.exchange) (hq : s.trunk.queue.length ≤ 8)
    (hc : s.exchange.completion ≠ [] → s.trunk.queue.length = 8) : OutputLaw s.arbitrate := by
  unfold State.arbitrate
  split
  · rename_i ht
    split
    · rename_i q rest hqr
      rw [hqr] at hq hc
      simp only [List.length_cons] at hq hc
      rcases State.fillFreedSlot_cases { s with trunk := { s.trunk with queue := rest, tx := .sending q } } h with
        ⟨hn, he⟩ | ⟨i, more, p, hn, he⟩
      · rw [he]
        refine ⟨by simp only; omega, fun _ => ⟨by simp, fun hne => absurd hn hne⟩⟩
      · rw [he]
        have hl := hc (by rw [show s.exchange.completion = i :: more from hn]; simp)
        refine ⟨by simp; omega, fun _ => ⟨by simp, fun _ => by simp; omega⟩⟩
    · rename_i hq0
      have hc0 : s.exchange.completion = [] := by
        by_contra hne
        have := hc hne
        rw [hq0] at this; simp at this
      split
      · split
        · exact ⟨hq, fun _ => ⟨by simp [State.grant], hc⟩⟩
        · exact ⟨hq, fun _ => ⟨fun _ => hq0, hc⟩⟩
      · exact ⟨hq, fun _ => ⟨fun _ => hq0, hc⟩⟩
  · rename_i ht
    exact ⟨hq, fun _ => ⟨fun hidle => absurd hidle (by simpa using ht), hc⟩⟩

/-- A frame that enters a queue with room leaves the law of the queue (R23, R24). -/
theorem OutputLaw.enqueue {s : State} (h : OutputLaw s) (a : Acting s) (room : s.trunk.queue.length < 8)
    (q : QueuedFrame) : OutputLaw (s.enqueue q) := by
  have hc : s.exchange.completion = [] := by
    by_contra hne
    have := (h.2 a).2 hne
    omega
  rw [s.enqueue_placed q room (h.2 a).1 (h.2 a).2]
  unfold State.placed
  split
  · exact ⟨h.1, fun _ => ⟨by simp, fun hne => absurd hc hne⟩⟩
  · rename_i ht
    refine ⟨by simp; omega, fun _ => ⟨fun hi => absurd hi ht, fun hne => absurd hc hne⟩⟩

theorem OutputLaw.refuseRouted {s : State} (h : OutputLaw s) (a : Acting s) (f : Frame) (p : List Byte) :
    OutputLaw (s.refuseRouted f p) := by
  unfold State.refuseRouted
  split
  · exact h
  · rename_i hf
    exact h.enqueue a (by simpa [State.queueFull] using hf) _

/-- A completed record leaves the law of the queue: its reply enters, or it waits COMPLETE behind 8 frames (R79). -/
theorem OutputLaw.completeRecord {s : State} (h : OutputLaw s) (a : Acting s) (i : Slot) (reply : Reply) :
    OutputLaw (s.completeRecord i reply) := by
  unfold State.completeRecord
  split
  · exact h
  · split
    · rename_i hf
      have hf : 8 ≤ s.trunk.queue.length := by simpa [State.queueFull] using hf
      exact ⟨h.1, fun a => ⟨(h.2 a).1, fun _ => le_antisymm h.1 hf⟩⟩
    · rename_i hf
      have room : s.trunk.queue.length < 8 := by simpa [State.queueFull] using hf
      have hc : s.exchange.completion = [] := by
        by_contra hne
        have := (h.2 a).2 hne
        omega
      refine OutputLaw.enqueue (s := s.freeSlot i) ⟨h.1, fun _ => ⟨(h.2 a).1, fun hne => ?_⟩⟩ a room _
      exact absurd (by simp [State.freeSlot, hc]) hne

theorem TableLaw.completeRecord {s : State} (h : TableLaw s.exchange) (i : Slot) (reply : Reply)
    (hn : ∀ r, s.exchange.record i = some r → r.state.isComplete = false) :
    TableLaw (s.completeRecord i reply).exchange := by
  unfold State.completeRecord
  split
  · exact h
  · rename_i r hr
    split
    · exact h.complete i r _ hr rfl (hn r hr) rfl
    · exact TableLaw.enqueue (s := s.freeSlot i) (h.free i) _

theorem OutputLaw.settleBroadcast {s : State} (h : OutputLaw s) (a : Acting s) (i : Slot) (r : Record) (c : Broadcast) :
    OutputLaw (s.settleBroadcast i r c) := by
  unfold State.settleBroadcast
  simp only []
  split
  · exact OutputLaw.completeRecord (s := s.setRecord i _) h a _ _
  · exact h

theorem TableLaw.settleBroadcast {s : State} (h : TableLaw s.exchange) (i : Slot) (r : Record) (c : Broadcast)
    (hr : s.exchange.record i = some r) (hn : r.state.isComplete = false) :
    TableLaw (s.settleBroadcast i r c).exchange := by
  have hc : (if s.served i then RecordState.active else RecordState.queued).isComplete = r.state.isComplete := by
    rw [hn]; split <;> rfl
  have hs := h.setRecord i r
    { r with carriage := .broadcast c, state := if s.served i then .active else .queued } hr rfl hc
  unfold State.settleBroadcast
  simp only []
  split
  · refine TableLaw.completeRecord (s := s.setRecord i _) hs _ _ ?_
    intro q hq
    simp only [State.setRecord, ExchangeTable.setRecord_record_self, Option.some.injEq] at hq
    subst hq
    rw [hc, hn]
  · exact hs

theorem OutputLaw.takeFromSegment {s : State} (h : OutputLaw s) (a : Acting s) (x : Seg) (why : WithdrawReason)
    (i : Slot) : OutputLaw (State.takeFromSegment x why s i) := by
  unfold State.takeFromSegment
  split
  · exact h
  · split
    · exact h.completeRecord a _ _
    · exact h.settleBroadcast a _ _ _

theorem TableLaw.takeFromSegment {s : State} (h : TableLaw s.exchange) (x : Seg) (why : WithdrawReason) (i : Slot)
    (hn : ∀ r, s.exchange.record i = some r → r.state.isComplete = false) :
    TableLaw (State.takeFromSegment x why s i).exchange := by
  unfold State.takeFromSegment
  split
  · exact h
  · rename_i r hr
    split
    · exact h.completeRecord _ _ hn
    · exact h.settleBroadcast _ _ _ hr (hn r hr)

/-! ### The reporter's laws -/

theorem ReporterLaw.same {s t : State} (h : ReporterLaw s) (hr : t.reporter = s.reporter) : ReporterLaw t := by
  unfold ReporterLaw at h ⊢
  rw [hr]; exact h

theorem ReporterLaw.arbitrate {s : State} (h : ReporterLaw s) : ReporterLaw s.arbitrate := by
  unfold State.arbitrate
  split
  · split
    · refine ReporterLaw.same h ?_
      unfold State.fillFreedSlot
      repeat' split
      all_goals rfl
    · split
      · split
        · exact ⟨Reporter.granted_queue_law _ h.1, Reporter.granted_batch_law _ h.2⟩
        · exact h
      · exact h
  · exact h

theorem ReporterLaw.enqueue {s : State} (h : ReporterLaw s) (q : QueuedFrame) : ReporterLaw (s.enqueue q) :=
  ReporterLaw.arbitrate (s := s.modTrunk _) h

theorem ReporterLaw.refuseRouted {s : State} (h : ReporterLaw s) (f : Frame) (p : List Byte) :
    ReporterLaw (s.refuseRouted f p) := by
  unfold State.refuseRouted
  split
  · exact h
  · exact h.enqueue _

theorem ReporterLaw.modSeg {s : State} (h : ReporterLaw s) (x : Seg) (f : Segment → Segment) :
    ReporterLaw (s.modSeg x f) := h.same (by simp)

theorem ReporterLaw.completeRecord {s : State} (h : ReporterLaw s) (i : Slot) (r : Reply) :
    ReporterLaw (s.completeRecord i r) := by
  unfold State.completeRecord
  split
  · exact h
  · split
    · exact h
    · exact ReporterLaw.enqueue (s := s.freeSlot i) h _

theorem ReporterLaw.settleBroadcast {s : State} (h : ReporterLaw s) (i : Slot) (r : Record) (c : Broadcast) :
    ReporterLaw (s.settleBroadcast i r c) := by
  unfold State.settleBroadcast
  simp only []
  split
  · exact ReporterLaw.completeRecord (s := s.setRecord i _) h _ _
  · exact h

theorem ReporterLaw.takeFromSegment {s : State} (h : ReporterLaw s) (x : Seg) (why : WithdrawReason) (i : Slot) :
    ReporterLaw (State.takeFromSegment x why s i) := by
  unfold State.takeFromSegment
  split
  · exact h
  · split
    · exact h.completeRecord _ _
    · exact h.settleBroadcast _ _ _

theorem ReporterLaw.foldl {α : Type} {f : State → α → State} (hf : ∀ s a, ReporterLaw s → ReporterLaw (f s a))
    (l : List α) : ∀ {s : State}, ReporterLaw s → ReporterLaw (l.foldl f s) := by
  induction l with
  | nil => exact fun h => h
  | cons a l ih => exact fun h => ih (hf _ a h)

theorem ReporterLaw.offerEventQuietly {s : State} (h : ReporterLaw s) (e : Event) (he : e.code ≠ .overflow) :
    ReporterLaw (s.offerEventQuietly e) := by
  have k : ReporterLaw { s with reporter := s.reporter.take e } :=
    ⟨Reporter.take_queue_law _ e he h.1, Reporter.take_batch_law _ e h.2⟩
  unfold State.offerEventQuietly
  simp only []
  split
  · split
    · exact k
    · exact k
  · exact k

theorem ReporterLaw.offerEvent {s : State} (h : ReporterLaw s) (e : Event) (he : e.code ≠ .overflow) :
    ReporterLaw (s.offerEvent e) := (h.offerEventQuietly e he).arbitrate

theorem segmentEvent_code (x : Seg) (lent : Bool) (t : Word) : (segmentEvent x lent t).code ≠ .overflow := by
  cases lent <;> simp [segmentEvent]

theorem ReporterLaw.enterLent {s : State} (h : ReporterLaw s) (x : Seg) : ReporterLaw (s.enterLent x) :=
  (h.modSeg x _).offerEvent _ (segmentEvent_code _ _ _)

theorem ReporterLaw.leaveWork {s : State} (h : ReporterLaw s) (x : Seg) : ReporterLaw (s.leaveWork x) := by
  unfold State.leaveWork
  split
  · exact h.enterLent x
  · exact h.modSeg x _

theorem ReporterLaw.takeWork {s : State} (h : ReporterLaw s) (x : Seg) : ReporterLaw (s.takeWork x) := by
  unfold State.takeWork
  split
  · split
    · exact h
    · split
      · exact h
      · exact ReporterLaw.modSeg (s := s.setRecord _ _) h x _
  · exact h

theorem ReporterLaw.failAttempt {s : State} (h : ReporterLaw s) (x : Seg) (why : FailCause) :
    ReporterLaw (s.failAttempt x why) := by
  unfold State.failAttempt
  split
  · exact h
  · refine ReporterLaw.leaveWork ?_ x
    unfold State.failRecord
    split
    · exact h.modSeg x _
    · split
      · exact h.modSeg x _
      · split
        · exact (h.modSeg x _).completeRecord _ _
        · exact ReporterLaw.modSeg (s := State.setRecord _ _ _) (h.modSeg x _) x _

theorem ReporterLaw.dropCurrent {s : State} (h : ReporterLaw s) (x : Seg) : ReporterLaw (s.dropCurrent x) := by
  unfold State.dropCurrent
  split
  · exact ReporterLaw.leaveWork (h.modSeg x _) x
  · exact h.modSeg x _

theorem ReporterLaw.expirePatience {s : State} (h : ReporterLaw s) (x : Seg) : ReporterLaw (s.expirePatience x) :=
  ReporterLaw.foldl (fun _ i k => k.takeFromSegment x .lent i) _ (h.modSeg x _)

theorem ReporterLaw.judgePatience {s : State} (h : ReporterLaw s) (x : Seg) : ReporterLaw (s.judgePatience x) := by
  unfold State.judgePatience
  split
  · exact h.expirePatience x
  · exact h

theorem ReporterLaw.count {s : State} (h : ReporterLaw s) : ReporterLaw s.count := h

/-! ### Replies of management commands -/

/-- A reply that enters after an update that leaves the queue, the transmitter and the completion list alone
(R157, R159). -/
theorem State.respond_after {s : State} {r0 : Request} (h : Ready s r0) (ho : OutputLaw s) (u : State) (fn : Byte)
    (r : Request) (p : List Byte)
    (hu : u.trunk.queue = s.trunk.queue ∧ u.trunk.tx = s.trunk.tx ∧ u.exchange.completion = s.exchange.completion) :
    u.respond fn r p = u.answered .rsp fn r p := by
  apply State.enqueue_placed
  · rw [hu.1]; exact h.2.2
  · rw [hu.1, hu.2.1]; exact (ho.2 h.1.1).1
  · rw [hu.1, hu.2.2]; exact (ho.2 h.1.1).2

theorem State.refuse_after {s : State} {r0 : Request} (h : Ready s r0) (ho : OutputLaw s) (u : State) (fn : Byte)
    (r : Request) (p : List Byte)
    (hu : u.trunk.queue = s.trunk.queue ∧ u.trunk.tx = s.trunk.tx ∧ u.exchange.completion = s.exchange.completion) :
    u.refuse fn r p = u.answered .nak fn r p := by
  apply State.enqueue_placed
  · rw [hu.1]; exact h.2.2
  · rw [hu.1, hu.2.1]; exact (ho.2 h.1.1).1
  · rw [hu.1, hu.2.2]; exact (ho.2 h.1.1).2

end Sys2Proof.Machine
end

