-- ==== Sys2Proof/Laws/Segments.lean ====
section
/-! SUPPORT. The law of the segments, carried by each shared operation: one lemma for each, to be cited in place of
unfolding it. -/

namespace Sys2Proof.Machine

theorem Segment.released_law (g : Segment) (h : SegmentLaw g) (st : g.state ≠ .wait) :
    SegmentLaw { g with current := none } := by
  obtain ⟨h1, h2, h3, h4, h5, h6, h7, h8, h9, h10, h11, h12⟩ := h
  exact ⟨h1, h2, h3, h4, h5, h6, h7, h8, h9, h10, by simp, fun hw => absurd hw st⟩

/-- The end of the work in WAIT leads to GUARD, whatever counters the end counts (R98, R102, R105). -/
theorem Segment.endWork_law (g : Segment) (h : SegmentLaw g) (st : g.state = .wait) (hd : g.drainRequested = false)
    (c : SegmentCounters) (t : Option Nat) (k : Option Slot) :
    SegmentLaw { g with counters := c, responseTimer := t, current := k }.toGuard := by
  obtain ⟨h1, h2, h3, h4, h5, h6, h7, h8, h9, h10, h11, h12⟩ := h
  simp_all [Segment.toGuard, SegmentLaw]

theorem Segment.counted_law (g : Segment) (h : SegmentLaw g) (c : SegmentCounters) :
    SegmentLaw { g with counters := c } := h

theorem Segment.drain_law (g : Segment) (h : SegmentLaw g) (b : Bool) (hb : b = true → g.state = .send ∨ g.state = .wait) :
    SegmentLaw { g with drainRequested := b } := by
  obtain ⟨h1, h2, h3, h4, h5, h6, h7, h8, h9, h10, h11, h12⟩ := h
  exact ⟨h1, h2, h3, h4, h5, h6, h7, h8, hb, h10, h11, h12⟩

theorem Segment.expired_law (g : Segment) (h : SegmentLaw g) (st : g.state = .lent) :
    SegmentLaw { g with lentExpired := true } := by
  obtain ⟨h1, h2, h3, h4, h5, h6, h7, h8, h9, h10, h11, h12⟩ := h
  exact ⟨h1, h2, h3, h4, h5, h6, h7, fun _ => st, h9, h10, h11, h12⟩

theorem Segment.pending_law (g : Segment) (h : SegmentLaw g) (c : Option SegConfig) (st : g.state ≠ .idle ∧ g.state ≠ .lent) :
    SegmentLaw { g with pendingConfig := c } := by
  obtain ⟨h1, h2, h3, h4, h5, h6, h7, h8, h9, h10, h11, h12⟩ := h
  exact ⟨h1, h2, h3, h4, h5, h6, h7, h8, h9, fun _ => st, h11, h12⟩

/-! ### The law of both segments -/

theorem SegmentsLaw.seg {s : State} (h : SegmentsLaw s) (a : Acting s) (x : Seg) : SegmentLaw (s.seg x) := by
  cases x
  · exact (h a).1
  · exact (h a).2

theorem SegmentsLaw.of_seg {s : State} (h : Acting s → ∀ x, SegmentLaw (s.seg x)) : SegmentsLaw s :=
  fun a => ⟨h a .a, h a .b⟩

theorem SegmentsLaw.same {s t : State} (h : SegmentsLaw s) (hr : t.hardReset = s.hardReset)
    (hs : ∀ x, t.seg x = s.seg x) : SegmentsLaw t :=
  SegmentsLaw.of_seg fun a x => by
    rw [hs]; exact h.seg (by rw [Acting, ← hr]; exact a) x

/-- A change of one segment that keeps its law keeps the law of both. -/
theorem SegmentsLaw.one {s t : State} (h : SegmentsLaw s) (x : Seg) (hr : t.hardReset = s.hardReset)
    (hx : SegmentLaw (s.seg x) → SegmentLaw (t.seg x)) (hy : ∀ y, y ≠ x → t.seg y = s.seg y) : SegmentsLaw t :=
  SegmentsLaw.of_seg fun a y => by
    have a' : Acting s := by rw [Acting, ← hr]; exact a
    by_cases hyx : y = x
    · subst hyx; exact hx (h.seg a' y)
    · rw [hy y hyx]; exact h.seg a' y

theorem SegmentsLaw.modSeg {s : State} (h : SegmentsLaw s) (x : Seg) (f : Segment → Segment)
    (hf : SegmentLaw (s.seg x) → SegmentLaw (f (s.seg x))) : SegmentsLaw (s.modSeg x f) :=
  h.one x (by simp) (by simpa using hf) fun y hy => s.modSeg_seg_other x y f hy

theorem SegmentsLaw.arbitrate {s : State} (h : SegmentsLaw s) : SegmentsLaw s.arbitrate :=
  h.same s.arbitrate_base.hardReset fun x => by simp

theorem SegmentsLaw.enqueue {s : State} (h : SegmentsLaw s) (q : QueuedFrame) : SegmentsLaw (s.enqueue q) :=
  h.same (s.enqueue_base q).hardReset fun x => by simp

theorem SegmentsLaw.completeRecord {s : State} (h : SegmentsLaw s) (i : Slot) (r : Reply) :
    SegmentsLaw (s.completeRecord i r) := h.same (s.completeRecord_base i r).hardReset fun x => by simp

theorem SegmentsLaw.offerEvent {s : State} (h : SegmentsLaw s) (e : Event) : SegmentsLaw (s.offerEvent e) :=
  h.same (s.offerEvent_base e).hardReset fun x => by simp

theorem SegmentsLaw.takeFromSegment {s : State} (h : SegmentsLaw s) (x : Seg) (why : WithdrawReason) (i : Slot) :
    SegmentsLaw (State.takeFromSegment x why s i) :=
  h.same (State.takeFromSegment_base x why s i).hardReset fun y => by cases y <;> simp

theorem SegmentsLaw.foldl {α : Type} {f : State → α → State} (hf : ∀ s a, SegmentsLaw s → SegmentsLaw (f s a))
    (l : List α) : ∀ {s : State}, SegmentsLaw s → SegmentsLaw (l.foldl f s) := by
  induction l with
  | nil => exact fun h => h
  | cons a l ih => exact fun h => ih (hf _ a h)

theorem SegmentsLaw.enterLent {s : State} (h : SegmentsLaw s) (x : Seg) : SegmentsLaw (s.enterLent x) :=
  h.one x (s.enterLent_base x).hardReset (fun _ => by rw [State.enterLent_seg_self]; exact Segment.toLent_law _)
    fun y hy => s.enterLent_seg_other x y hy

/-- The end of the work on the wire, the segment as the end leaves it before (R98, R102, R104, R105). -/
theorem SegmentsLaw.leaveWork {s : State} (x : Seg) (hy : Acting s → ∀ y, y ≠ x → SegmentLaw (s.seg y))
    (hx : Acting s → (s.seg x).drainRequested = false → SegmentLaw (s.seg x).toGuard) : SegmentsLaw (s.leaveWork x) :=
  SegmentsLaw.of_seg fun a y => by
    have a' : Acting s := by rw [Acting, ← (s.leaveWork_base x).hardReset]; exact a
    by_cases hyx : y = x
    · subst hyx
      rw [State.leaveWork_seg_self]
      split
      · exact Segment.toLent_law _
      · rename_i hd; exact hx a' (by simpa using hd)
    · rw [s.leaveWork_seg_other x y hyx]; exact hy a' y hyx

theorem SegmentsLaw.expirePatience {s : State} (h : SegmentsLaw s) (x : Seg) (st : (s.seg x).state = .lent) :
    SegmentsLaw (s.expirePatience x) :=
  SegmentsLaw.foldl (fun _ i k => k.takeFromSegment x .lent i) _
    (h.modSeg x _ fun hg => Segment.expired_law _ hg st)

theorem SegmentsLaw.judgePatience {s : State} (h : SegmentsLaw s) (x : Seg) : SegmentsLaw (s.judgePatience x) := by
  by_cases k : PatienceReached (s.seg x)
  · rw [s.judgePatience_reached x k]; exact h.expirePatience x k.1
  · rw [s.judgePatience_else x k]; exact h

theorem SegmentsLaw.count {s : State} (h : SegmentsLaw s) : SegmentsLaw s.count :=
  fun a => ⟨Segment.tick_law _ (h a).1, Segment.tick_law _ (h a).2⟩

theorem SegmentsLaw.takeWork {s : State} (h : SegmentsLaw s) (x : Seg) : SegmentsLaw (s.takeWork x) := by
  unfold State.takeWork
  split
  · rename_i st
    split
    · exact h
    · split
      · exact h
      · rename_i slot _ _ r _
        have h' : SegmentsLaw (s.setRecord slot (r.begin (s.seg x).tagCounter)) :=
          h.same rfl fun y => by cases y <;> rfl
        exact h'.modSeg x _ fun hg => Segment.begin_law _ _ _ hg (by cases x <;> exact st)
  · exact h

theorem SegmentsLaw.enterIdle {s : State} (h : SegmentsLaw s) (x : Seg)
    (st : (s.seg x).state = .guard ∨ (s.seg x).state = .resume) : SegmentsLaw (s.enterIdle x) :=
  SegmentsLaw.takeWork (h.modSeg x _ fun hg => Segment.toIdle_law _ hg st) x

@[simp] theorem State.failRecord_drain (s : State) (x : Seg) (i : Slot) (why : FailCause) :
    ((s.failRecord x i why).seg x).drainRequested = (s.seg x).drainRequested := by
  unfold State.failRecord
  split
  · rfl
  · split
    · rfl
    · split
      · simp
      · cases x <;> rfl

/-- What a failed record does to the segments: the retries counter of its own, nothing else. -/
theorem State.failRecord_seg_self (s : State) (x : Seg) (i : Slot) (why : FailCause) :
    ∃ c, (s.failRecord x i why).seg x = { s.seg x with counters := c } := by
  unfold State.failRecord
  split
  · exact ⟨_, rfl⟩
  · split
    · exact ⟨_, rfl⟩
    · split
      · exact ⟨(s.seg x).counters, by simp⟩
      · cases x
        · exact ⟨_, rfl⟩
        · exact ⟨_, rfl⟩

theorem State.failRecord_seg_other (s : State) (x y : Seg) (i : Slot) (why : FailCause) (h : y ≠ x) :
    (s.failRecord x i why).seg y = s.seg y := by
  unfold State.failRecord
  split
  · rfl
  · split
    · rfl
    · split
      · simp
      · rw [State.modSeg_seg_other _ _ _ _ h]; cases y <;> rfl

theorem SegmentsLaw.failAttempt {s : State} (h : SegmentsLaw s) (x : Seg) (why : FailCause)
    (st : (s.seg x).state = .wait) : SegmentsLaw (s.failAttempt x why) := by
  unfold State.failAttempt
  split
  · exact h
  · rename_i i hi
    refine SegmentsLaw.leaveWork x ?_ ?_
    · intro a y hy
      rw [State.failRecord_seg_other _ _ _ _ _ hy, State.modSeg_seg_other _ _ _ _ hy]
      refine h.seg ?_ y
      rw [Acting, (State.failRecord_base _ x i why).hardReset] at a
      simpa using a
    · intro a hd
      obtain ⟨c, hc⟩ := State.failRecord_seg_self (s.modSeg x fun g =>
        { g with counters := g.counters.countFailure why, responseTimer := none, current := none }) x i why
      rw [hc] at hd ⊢
      simp only [State.modSeg_seg_self] at hd ⊢
      refine Segment.endWork_law (s.seg x) (h.seg ?_ x) st hd c none none
      rw [Acting, (State.failRecord_base _ x i why).hardReset] at a
      simpa using a

theorem SegmentsLaw.dropCurrent {s : State} (h : SegmentsLaw s) (x : Seg) : SegmentsLaw (s.dropCurrent x) := by
  unfold State.dropCurrent
  split
  · rename_i st
    refine SegmentsLaw.leaveWork x ?_ ?_
    · intro a y hy
      simp only [State.release]
      rw [State.modSeg_seg_other _ _ _ _ hy]
      exact h.seg (by rw [Acting, (s.release_base x).hardReset] at a; exact a) y
    · intro a hd
      simp only [State.release, State.modSeg_seg_self] at hd ⊢
      exact Segment.endWork_law (s.seg x) (h.seg (by rw [Acting, (s.release_base x).hardReset] at a; exact a) x) st hd
        (s.seg x).counters (s.seg x).responseTimer none
  · rename_i st
    exact h.modSeg x _ fun hg => Segment.released_law _ hg st

end Sys2Proof.Machine
end

