-- ==== Sys2Proof/Laws/Clearing.lean ====
section
/-! SUPPORT. What the fold of `takeFromSegment` over the records standing on a segment does, said once: the state
`State.cleared` (R75 to R80), for a line reset and for patience expiry alike. -/

namespace Sys2Proof.Machine

/-! ### One record -/

theorem SegSet.foldl_insert (l : List Withdrawal) : ∀ t : SegSet,
    l.foldl (fun t w => t.insert w.segment) t =
      { a := t.a || l.any (fun w => w.segment == .a), b := t.b || l.any (fun w => w.segment == .b) } := by
  induction l with
  | nil => intro t; simp
  | cons w l ih =>
    intro t
    rw [List.foldl_cons, ih]
    obtain ⟨x, y⟩ := w
    have hab : (Seg.a == Seg.b) = false ∧ (Seg.b == Seg.a) = false := by decide
    cases x <;> simp [SegSet.insert, hab]

theorem SegSet.mask_eq (t : SegSet) : t.mask = maskByte t.a t.b := by
  obtain ⟨a, b⟩ := t
  cases a <;> cases b <;> decide

theorem segMask_eq (x : Seg) : segMask x = maskByte (x == .a) (x == .b) := by cases x <;> decide

theorem SegSet.remove_eq (t : SegSet) (x : Seg) : t.remove x = { a := t.a && x != .a, b := t.b && x != .b } := by
  obtain ⟨a, b⟩ := t
  cases x <;> cases a <;> cases b <;> rfl

/-- The reply of a BROADCAST record with no segment pending, as `Record.endsWith` says it (R76). -/
theorem Broadcast.reply_eq (c : Broadcast) :
    c.reply =
      if c.delivered.a || c.delivered.b then { kind := .rsp, payload := [maskByte c.delivered.a c.delivered.b] }
      else if c.withdrawn.head?.any (fun w => w.reason == .lent) then
        { kind := .nak, payload := [0x14, maskByte
          (c.withdrawn.any fun w => w.segment == .a && w.reason == .lent)
          (c.withdrawn.any fun w => w.segment == .b && w.reason == .lent)] }
      else { kind := .nak, payload := [0x23] } := by
  unfold Broadcast.reply
  by_cases hd : c.delivered.isEmpty = true
  · have ha : c.delivered.a = false ∧ c.delivered.b = false := by
      simpa [SegSet.isEmpty] using hd
    simp only [hd, ha, Bool.not_true, Bool.false_eq_true, if_false, Bool.or_self]
    cases hw : c.withdrawn with
    | nil => simp [nakAborted]
    | cons w l =>
      obtain ⟨x, y⟩ := w
      cases y with
      | aborted => simp [nakAborted]
      | lent =>
        simp only [List.head?_cons, Option.any_some, beq_self_eq_true, if_true, nakLent, SegSet.mask_eq,
          SegSet.foldl_insert, SegSet.empty, Bool.false_or, List.any_filter]
        simp [Bool.and_comm]
  · have ha : (c.delivered.a || c.delivered.b) = true := by
      revert hd
      simp only [SegSet.isEmpty]
      cases c.delivered.a <;> cases c.delivered.b <;> simp
    simp [hd, ha, SegSet.mask_eq]

/-- How a BROADCAST record ends: with the reply of R76 where the segment taken was the last one pending. -/
theorem Record.endsWith_broadcast (r : Record) (c : Broadcast) (x : Seg) (why : WithdrawReason)
    (hk : r.carriage = .broadcast c) :
    r.endsWith x why = if (c.pending.remove x).isEmpty then
      some ({ c with pending := c.pending.remove x
                     withdrawn := c.withdrawn ++ [{ segment := x, reason := why }] } : Broadcast).reply
      else none := by
  rw [Broadcast.reply_eq]
  unfold Record.endsWith
  rw [hk]
  have hp : (if x = Seg.a then c.pending.b else c.pending.a) = !(c.pending.remove x).isEmpty := by
    obtain ⟨⟨a, b⟩, -, -⟩ := c
    cases x <;> simp [SegSet.remove, SegSet.isEmpty]
  simp only [hp]
  cases (c.pending.remove x).isEmpty
  · simp
  · simp only [Bool.not_true, Bool.false_eq_true, if_false, if_true]
    split
    · rfl
    · split <;> rfl

theorem Record.endsWith_single (r : Record) (c : Single) (x : Seg) (why : WithdrawReason)
    (hk : r.carriage = .single c) :
    r.endsWith x why = some ⟨.nak, match why with
      | .lent => nakLent (segMask x)
      | .aborted => nakAborted⟩ := by
  unfold Record.endsWith
  rw [hk]
  cases why <;> simp [nakLent, nakAborted, segMask_eq]

theorem SegSet.isEmpty_iff (t : SegSet) : t.isEmpty = true ↔ t = SegSet.empty := by
  obtain ⟨a, b⟩ := t
  cases a <;> cases b <;> simp [SegSet.isEmpty, SegSet.empty]

/-- What a record taken from a segment is, by its carriage. -/
theorem Record.without_broadcast (r : Record) (c : Broadcast) (x : Seg) (why : WithdrawReason) (b : Bool)
    (hk : r.carriage = .broadcast c) :
    r.without x why b = { r with
      state := match r.endsWith x why with
        | some reply => .complete reply
        | none => if b then .active else .queued
      carriage := .broadcast { c with
        pending := c.pending.remove x, withdrawn := c.withdrawn ++ [{ segment := x, reason := why }] } } := by
  unfold Record.without
  rw [hk]
  simp only [SegSet.remove_eq]
  all_goals cases r.endsWith x why <;> rfl

/-- Whether another sequencer than that of `x` serves a slot. -/
def State.servedBeside (s : State) (x : Seg) (slot : Slot) : Bool :=
  (x != .a && s.segA.current == some slot) || (x != .b && s.segB.current == some slot)

theorem State.served_released (s : State) (x : Seg) (slot : Slot) (h : (s.seg x).current = none) :
    s.served slot = s.servedBeside x slot := by
  cases x
  · have h' : s.segA.current = none := h
    simp [State.served, State.servedBeside, h']
  · have h' : s.segB.current = none := h
    simp [State.served, State.servedBeside, h']

theorem Record.without_origin (r : Record) (x : Seg) (why : WithdrawReason) (b : Bool) :
    (r.without x why b).source = r.source ∧ (r.without x why b).dest = r.dest ∧ (r.without x why b).tag = r.tag ∧
      (r.without x why b).fn = r.fn := ⟨rfl, rfl, rfl, rfl⟩

/-- A record that stays: the segment is withdrawn from it and nothing else changes (R75). -/
theorem State.takeFromSegment_stays (s : State) (x : Seg) (why : WithdrawReason) (i : Slot) (r : Record)
    (hr : s.exchange.record i = some r) (hc : (s.seg x).current = none) (he : r.endsWith x why = none) :
    State.takeFromSegment x why s i = s.setRecord i (r.without x why (s.servedBeside x i)) := by
  have hs := s.served_released x i hc
  unfold State.takeFromSegment
  simp only [hr]
  cases hk : r.carriage with
  | single c => rw [r.endsWith_single c x why hk] at he; cases he
  | broadcast c =>
    rw [r.without_broadcast c x why _ hk, he]
    rw [r.endsWith_broadcast c x why hk] at he
    have hp : (c.pending.remove x).isEmpty = false := by
      by_contra h
      simp [h] at he
    simp only [State.settleBroadcast, hp, Bool.false_eq_true, if_false, hs]

/-- A record that ends with room in the output queue: it is FREE and its reply has entered (R77 to R79). -/
theorem State.takeFromSegment_room (s : State) (x : Seg) (why : WithdrawReason) (i : Slot) (r : Record) (reply : Reply)
    (hr : s.exchange.record i = some r) (he : r.endsWith x why = some reply) (room : s.trunk.queue.length < 8)
    (rest : s.trunk.tx = .idle → s.trunk.queue = [])
    (full : s.exchange.completion ≠ [] → s.trunk.queue.length = 8) :
    State.takeFromSegment x why s i =
      ({ s with exchange := s.exchange.free i } : State).replied r reply.kind reply.payload := by
  unfold State.takeFromSegment
  simp only [hr]
  cases hk : r.carriage with
  | single c =>
    rw [r.endsWith_single c x why hk, Option.some.injEq] at he
    simp only []
    rw [s.completeRecord_room i r _ hr room rest full, ← he]
    all_goals cases why <;> rfl
  | broadcast c =>
    rw [r.endsWith_broadcast c x why hk] at he
    by_cases hp : (c.pending.remove x).isEmpty = true
    · simp only [hp, if_true, Option.some.injEq] at he
      simp only [State.settleBroadcast, hp, if_true]
      rw [State.completeRecord_room (s := s.setRecord i _) (hr := by simp [State.setRecord]; rfl) (room := room)
        (rest := rest) (full := full), he]
      simp [State.setRecord, State.replied, State.placed, ExchangeTable.setRecord, ExchangeTable.free]
    · simp [hp] at he

/-- A record that ends while 8 frames are queued: it is COMPLETE with its reply and joins the completion list (R79). -/
theorem State.takeFromSegment_full (s : State) (x : Seg) (why : WithdrawReason) (i : Slot) (r : Record) (reply : Reply)
    (b : Bool) (hr : s.exchange.record i = some r) (he : r.endsWith x why = some reply)
    (full : 8 ≤ s.trunk.queue.length) :
    State.takeFromSegment x why s i = { s with exchange :=
      { s.exchange.setRecord i (r.without x why b) with completion := s.exchange.completion ++ [i] } } := by
  unfold State.takeFromSegment
  simp only [hr]
  cases hk : r.carriage with
  | single c =>
    simp only []
    rw [s.completeRecord_full i r _ hr full]
    simp only [Record.without, he, hk, Carriage.finished]
    rw [r.endsWith_single c x why hk, Option.some.injEq] at he
    rw [← he]
    all_goals cases why <;> rfl
  | broadcast c =>
    rw [r.without_broadcast c x why _ hk, he]
    rw [r.endsWith_broadcast c x why hk] at he
    by_cases hp : (c.pending.remove x).isEmpty = true
    · simp only [hp, if_true, Option.some.injEq] at he
      simp only [State.settleBroadcast, hp, if_true]
      rw [State.completeRecord_full (s := s.setRecord i _) (hr := by simp [State.setRecord]; rfl) (hq := full), he]
      simp [State.setRecord, ExchangeTable.setRecord, Carriage.finished, (SegSet.isEmpty_iff _).mp hp]
    · simp [hp] at he

/-! ### The records of a list of slots -/

/-- The records of `slots` that end, each with its reply frame, in the order of the list. -/
def State.endedOf (s : State) (x : Seg) (why : WithdrawReason) (slots : List Slot) : List (Slot × QueuedFrame) :=
  slots.filterMap fun slot => (s.exchange.record slot).bind fun r =>
    (r.endsWith x why).map fun reply => (slot,
      { frame := { dest := r.source, src := r.dest, kind := reply.kind, tag := r.tag, fn := r.fn,
                   payload := reply.payload }
        bindsReset := false })

/-- The state when the records of `slots` have been taken from a segment: `State.cleared`, for any list of slots. -/
def State.clearedOf (s : State) (x : Seg) (why : WithdrawReason) (slots : List Slot) : State :=
  { (((s.endedOf x why slots).take s.room).map (fun e => e.2)).foldl State.placed s with
    exchange :=
      { slots := Vector.ofFn fun slot => (s.exchange.record slot).bind fun r =>
          if ((s.endedOf x why slots).take s.room).any (fun e => e.1 == slot) then none
          else if slot ∈ slots then some (r.without x why (s.servedBeside x slot))
          else some r
        admission := s.exchange.admission.filter fun slot =>
          !((s.endedOf x why slots).take s.room).any (fun e => e.1 == slot)
        completion := s.exchange.completion ++ ((s.endedOf x why slots).drop s.room).map (fun e => e.1) } }

theorem State.mem_endedOf {s : State} {x : Seg} {why : WithdrawReason} {slots : List Slot} {p : Slot × QueuedFrame}
    (h : p ∈ s.endedOf x why slots) : p.1 ∈ slots := by
  simp only [State.endedOf, List.mem_filterMap, Option.bind_eq_some_iff, Option.map_eq_some_iff] at h
  obtain ⟨i, hi, r, -, reply, -, rfl⟩ := h
  exact hi

theorem State.endedOf_any (s : State) (x : Seg) (why : WithdrawReason) (slots : List Slot) (n : Nat) (i : Slot)
    (h : i ∉ slots) : ((s.endedOf x why slots).take n).any (fun e => e.1 == i) = false := by
  rw [List.any_eq_false]
  intro p hp hpi
  have hpi : p.1 = i := by simpa using hpi
  exact h (hpi ▸ State.mem_endedOf (List.mem_of_mem_take hp))

theorem State.endedOf_same {s t : State} (x : Seg) (why : WithdrawReason) (slots : List Slot)
    (h : ∀ i ∈ slots, t.exchange.record i = s.exchange.record i) : t.endedOf x why slots = s.endedOf x why slots :=
  List.filterMap_congr fun i hi => by rw [h i hi]

theorem State.placed_exchange (s : State) (e : ExchangeTable) (q : QueuedFrame) :
    ({ s with exchange := e } : State).placed q = { s.placed q with exchange := e } := by
  unfold State.placed
  split <;> simp_all

theorem State.foldl_placed_exchange (qs : List QueuedFrame) : ∀ (s : State) (e : ExchangeTable),
    qs.foldl State.placed { s with exchange := e } = { qs.foldl State.placed s with exchange := e } := by
  induction qs with
  | nil => intro s e; rfl
  | cons q qs ih => intro s e; rw [List.foldl_cons, List.foldl_cons, s.placed_exchange, ih]

theorem ExchangeTable.ofFn_record (t : ExchangeTable) : (Vector.ofFn fun i : Slot => t.record i) = t.slots := by
  ext i hi
  simp [ExchangeTable.record]

/-- Two exchange tables with the same records and lists. -/
theorem ExchangeTable.eq_of {t u : ExchangeTable} (h : ∀ i : Slot, t.record i = u.record i)
    (ha : t.admission = u.admission) (hc : t.completion = u.completion) : t = u := by
  obtain ⟨a, b, c⟩ := t
  obtain ⟨a', b', c'⟩ := u
  have : a = a' := by
    ext i hi
    exact congrArg (fun o => o = some _) (h ⟨i, hi⟩) |>.to_iff
  subst this
  simp_all

theorem State.exchange_congr (s : State) {t u : ExchangeTable} (h : t = u) :
    ({ s with exchange := t } : State) = { s with exchange := u } := by rw [h]

@[simp] theorem ExchangeTable.record_ofFn (f : Slot → Option Record) (a c : List Slot) (i : Slot) :
    ({ slots := Vector.ofFn f, admission := a, completion := c } : ExchangeTable).record i = f i := by
  simp [ExchangeTable.record]

theorem State.clearedOf_nil (s : State) (x : Seg) (why : WithdrawReason) : s.clearedOf x why [] = s := by
  simp [State.clearedOf, State.endedOf, ExchangeTable.ofFn_record]

/-- One more record taken first. -/
theorem State.clearedOf_cons (s : State) (x : Seg) (why : WithdrawReason) (i : Slot) (l : List Slot)
    (act : Acting s) (ho : OutputLaw s) (hn : s.exchange.admission.Nodup) (hc : (s.seg x).current = none)
    (hi : i ∉ l) (r : Record) (hr : s.exchange.record i = some r) :
    (State.takeFromSegment x why s i).clearedOf x why l = s.clearedOf x why (i :: l) := by
  have hne : ∀ j ∈ l, j ≠ i := fun j hj h => hi (h ▸ hj)
  cases he : r.endsWith x why with
  | none =>
    rw [s.takeFromSegment_stays x why i r hr hc he]
    have hend : s.endedOf x why (i :: l) = s.endedOf x why l := by
      simp [State.endedOf, hr, he]
    have hsame : (s.setRecord i (r.without x why (s.servedBeside x i))).endedOf x why l = s.endedOf x why l :=
      State.endedOf_same x why l fun j hj => by
        simp only [State.setRecord]; rw [ExchangeTable.setRecord_record_other _ _ _ _ (hne j hj)]
    unfold State.clearedOf
    rw [hsame, hend]
    have hroom : (s.setRecord i (r.without x why (s.servedBeside x i))).room = s.room := rfl
    rw [hroom]
    simp only [State.setRecord]
    rw [State.foldl_placed_exchange]
    refine State.exchange_congr _ (ExchangeTable.eq_of (fun j => ?_) rfl rfl)
    rw [ExchangeTable.record_ofFn, ExchangeTable.record_ofFn, ExchangeTable.setRecord_record]
    by_cases hji : j = i
    · subst hji
      simp [hr, s.endedOf_any x why l s.room j hi, hi]
    · simp [hji]
      rfl
  | some reply =>
    have hend : s.endedOf x why (i :: l) =
        (i, { frame := { dest := r.source, src := r.dest, kind := reply.kind, tag := r.tag, fn := r.fn,
                         payload := reply.payload }
              bindsReset := false }) :: s.endedOf x why l := by
      simp [State.endedOf, hr, he]
    by_cases room : s.trunk.queue.length < 8
    · obtain ⟨rest, full⟩ := ho.2 act
      have hcomp : s.exchange.completion = [] := by
        by_contra h
        have := full h
        omega
      rw [s.takeFromSegment_room x why i r reply hr he room rest full]
      obtain ⟨n, hroom⟩ : ∃ n, s.room = n + 1 := ⟨s.room - 1, by unfold State.room; split <;> omega⟩
      generalize hq : ({ frame := { dest := r.source, src := r.dest, kind := reply.kind, tag := r.tag, fn := r.fn,
                                    payload := reply.payload }
                         bindsReset := false } : QueuedFrame) = q at hend
      have hrep : ({ s with exchange := s.exchange.free i } : State).replied r reply.kind reply.payload =
          { s.placed q with exchange := s.exchange.free i } := by
        rw [State.replied, hq, State.placed_exchange]
      rw [hrep]
      have hroom' : ({ s.placed q with exchange := s.exchange.free i } : State).room = n := by
        have : (s.placed q).room = n := by
          unfold State.room at hroom ⊢
          unfold State.placed
          split
          · rename_i htx
            simp [htx, rest htx] at hroom ⊢
            omega
          · rename_i htx
            simp [htx] at hroom ⊢
            omega
        exact this
      have hsame : ({ s.placed q with exchange := s.exchange.free i } : State).endedOf x why l = s.endedOf x why l :=
        State.endedOf_same x why l fun j hj => ExchangeTable.free_record_other _ _ _ (hne j hj)
      have hbeside : ∀ j, ({ s.placed q with exchange := s.exchange.free i } : State).servedBeside x j =
          s.servedBeside x j := by
        intro j
        unfold State.servedBeside State.placed
        split <;> rfl
      unfold State.clearedOf
      rw [hsame, hend, hroom, hroom', List.take_succ_cons, List.drop_succ_cons, List.map_cons, List.foldl_cons,
        State.foldl_placed_exchange]
      refine State.exchange_congr _ (ExchangeTable.eq_of (fun j => ?_) ?_ ?_)
      · rw [ExchangeTable.record_ofFn, ExchangeTable.record_ofFn, ExchangeTable.free_record]
        by_cases hji : j = i
        · subst hji; simp
        · simp only [hji, if_false, List.mem_cons, false_or, List.any_cons, hbeside]
          have hij : (i == j) = false := by simpa using Ne.symm hji
          simp only [hij, Bool.false_or]
      · simp only [ExchangeTable.free, hn.erase_eq_filter, List.filter_filter, List.any_cons]
        congr 1
        funext j
        by_cases hji : j = i
        · subst hji; simp
        · have hij : (i == j) = false := by simpa using Ne.symm hji
          simp [hji, hij]
      · simp [ExchangeTable.free, hcomp]
    · have full : 8 ≤ s.trunk.queue.length := by omega
      have hroom : s.room = 0 := by
        unfold State.room
        split
        · rename_i htx
          have := (ho.2 act).1 htx
          simp [this] at full
        · omega
      rw [s.takeFromSegment_full x why i r reply (s.servedBeside x i) hr he full]
      have hsame : ({ s with exchange := { s.exchange.setRecord i (r.without x why (s.servedBeside x i)) with
          completion := s.exchange.completion ++ [i] } } : State).endedOf x why l = s.endedOf x why l :=
        State.endedOf_same x why l fun j hj => ExchangeTable.setRecord_record_other _ _ _ _ (hne j hj)
      have hroom' : ({ s with exchange := { s.exchange.setRecord i (r.without x why (s.servedBeside x i)) with
          completion := s.exchange.completion ++ [i] } } : State).room = 0 := hroom
      unfold State.clearedOf
      rw [hsame, hend, hroom, hroom']
      simp only [List.take_zero, List.drop_zero, List.map_nil, List.foldl_nil, List.any_nil, Bool.not_false,
        Bool.false_eq_true, if_false]
      refine State.exchange_congr _ (ExchangeTable.eq_of (fun j => ?_) rfl ?_)
      · rw [ExchangeTable.record_ofFn, ExchangeTable.record_ofFn]
        have hrec : ({ s.exchange.setRecord i (r.without x why (s.servedBeside x i)) with
            completion := s.exchange.completion ++ [i] } : ExchangeTable).record j =
            (s.exchange.setRecord i (r.without x why (s.servedBeside x i))).record j := rfl
        rw [hrec, ExchangeTable.setRecord_record]
        by_cases hji : j = i
        · subst hji
          simp [hr, hi]
        · simp [hji]
          rfl
      · simp

/-- The fold over records that stand in their slots is `State.clearedOf`. -/
theorem State.foldl_takeFromSegment (x : Seg) (why : WithdrawReason) (l : List Slot) :
    ∀ s : State, Acting s → OutputLaw s → TableLaw s.exchange → (s.seg x).current = none → l.Nodup →
      (∀ i ∈ l, ∃ r, s.exchange.record i = some r ∧ r.state.isComplete = false) →
      l.foldl (State.takeFromSegment x why) s = s.clearedOf x why l := by
  induction l with
  | nil => intro s _ _ _ _ _ _; exact (s.clearedOf_nil x why).symm
  | cons i l ih =>
    intro s act ho ht hc hnd hl
    obtain ⟨r, hr, hrc⟩ := hl i (by simp)
    have hi : i ∉ l := (List.nodup_cons.mp hnd).1
    have hcompl : ∀ q, s.exchange.record i = some q → q.state.isComplete = false := by
      intro q hq
      rw [hr] at hq
      cases hq
      exact hrc
    rw [List.foldl_cons, ← s.clearedOf_cons x why i l act ho ht.1 hc hi r hr]
    refine ih _ ?_ (ho.takeFromSegment act x why i) (ht.takeFromSegment x why i hcompl) ?_
      (List.nodup_cons.mp hnd).2 ?_
    · rw [Acting, (State.takeFromSegment_base x why s i).hardReset]; exact act
    · cases x <;> simpa [State.seg] using hc
    · intro j hj
      obtain ⟨q, hq, hqc⟩ := hl j (by simp [hj])
      refine ⟨q, ?_, hqc⟩
      have hji : j ≠ i := fun h => hi (h ▸ hj)
      rw [← hq]
      cases he : r.endsWith x why with
      | none =>
        rw [s.takeFromSegment_stays x why i r hr hc he]
        exact ExchangeTable.setRecord_record_other _ _ _ _ hji
      | some reply =>
        by_cases room : s.trunk.queue.length < 8
        · rw [s.takeFromSegment_room x why i r reply hr he room (ho.2 act).1 (ho.2 act).2, State.replied,
            State.placed_exchange]
          exact ExchangeTable.free_record_other _ _ _ hji
        · rw [s.takeFromSegment_full x why i r reply (s.servedBeside x i) hr he (by omega)]
          exact ExchangeTable.setRecord_record_other _ _ _ _ hji

theorem ExchangeTable.mem_standing (t : ExchangeTable) (h : TableLaw t) (x : Seg) (i : Slot) :
    i ∈ t.standing x ↔ ∃ r, t.record i = some r ∧ r.standsOn x = true := by
  simp only [ExchangeTable.standing, List.mem_filter]
  rw [h.2.2.1 i]
  cases hr : t.record i with
  | none => simp
  | some r => simp

/-- `State.cleared` is `State.clearedOf` of the records standing on the segment. -/
theorem State.cleared_eq (s : State) (h : TableLaw s.exchange) (x : Seg) (why : WithdrawReason) :
    s.cleared x why = s.clearedOf x why (s.exchange.standing x) := by
  refine State.exchange_congr _ (ExchangeTable.eq_of (fun j => ?_) rfl rfl)
  rw [ExchangeTable.record_ofFn, ExchangeTable.record_ofFn]
  cases hr : s.exchange.record j with
  | none => rfl
  | some r =>
    have hm : j ∈ s.exchange.standing x ↔ r.standsOn x = true := by
      rw [s.exchange.mem_standing h x j, hr]
      simp
    by_cases hs : r.standsOn x = true
    · simp only [Option.bind_some, hs, if_true, hm.mpr hs]
      rfl
    · have hn : j ∉ s.exchange.standing x := fun k => hs (hm.mp k)
      simp only [Option.bind_some, hs, hn]
      rfl

/-- Every record standing on a segment is taken from it, in admission order: a line reset after the release of its
sequencer, and patience expiry (R75 to R80, R109, R119). -/
theorem State.foldl_standing (s : State) (act : Acting s) (ho : OutputLaw s) (ht : TableLaw s.exchange) (x : Seg)
    (why : WithdrawReason) (hc : (s.seg x).current = none) :
    (s.exchange.standing x).foldl (State.takeFromSegment x why) s = s.cleared x why := by
  rw [s.cleared_eq ht]
  refine State.foldl_takeFromSegment x why _ s act ho ht hc (ht.1.filter _) fun i hi => ?_
  obtain ⟨r, hr, hs⟩ := (s.exchange.mem_standing ht x i).mp hi
  refine ⟨r, hr, ?_⟩
  simp only [Record.standsOn, Bool.and_eq_true, Bool.not_eq_true'] at hs
  exact hs.1

/-- Patience expiry, said once (R119). -/
theorem State.expirePatience_eq (s : State) (act : Acting s) (h : ExchangeLaw s) (x : Seg)
    (st : (s.seg x).state = .lent) : s.expirePatience x = s.patienceExpired x := by
  have hc : (s.seg x).current = none := by
    have := (h.2.1.seg act x).2.2.2.2.2.2.2.2.2.2.1
    rw [st] at this
    by_contra k
    have := this (Option.isSome_iff_ne_none.mpr k)
    simp at this
  have hx : (s.modSeg x fun g => { g with lentExpired := true }).exchange = s.exchange := by simp
  unfold State.expirePatience State.patienceExpired
  rw [← hx]
  refine State.foldl_standing _ ?_ ?_ ?_ x .lent ?_
  · simpa [Acting] using act
  · simpa [OutputLaw] using h.1
  · rw [hx]; exact h.2.2.1
  · simpa using hc

theorem State.foldl_placed_release (x : Seg) (qs : List QueuedFrame) : ∀ s : State,
    qs.foldl State.placed (s.release x) = (qs.foldl State.placed s).release x := by
  induction qs with
  | nil => intro s; rfl
  | cons q qs ih =>
    intro s
    have : (s.release x).placed q = (s.placed q).release x := by
      have htx : (s.release x).trunk = s.trunk := by simp [State.release]
      unfold State.placed
      rw [htx]
      by_cases h : s.trunk.tx = .idle
      · rw [if_pos h, if_pos h]; cases x <;> rfl
      · rw [if_neg h, if_neg h]; cases x <;> rfl
    rw [List.foldl_cons, List.foldl_cons, this, ih]

/-- The release of the sequencer and the clearing of its segment in either order (R109, R110). -/
theorem State.cleared_release (s : State) (x : Seg) (why : WithdrawReason) :
    (s.release x).cleared x why = (s.cleared x why).release x := by
  unfold State.cleared
  have he : (s.release x).endedBy x why = s.endedBy x why := by
    simp [State.endedBy, State.release]
  have hr : (s.release x).room = s.room := by simp [State.room, State.release]
  rw [he, hr]
  simp only []
  rw [State.foldl_placed_release]
  cases x <;> simp [State.release, State.modSeg, State.setSeg, State.seg]

/-- LINE-RESET after its reply, said once: the segment is cleared, then the sequencer finishes its side (R109, R110). -/
theorem State.lineReset_eq (s : State) (act : Acting s) (ho : OutputLaw s) (ht : TableLaw s.exchange) (x : Seg) :
    s.lineReset x = ((s.cleared x .aborted).release x).dropCurrent x := by
  have hx : (s.release x).exchange = s.exchange := by simp [State.release]
  unfold State.lineReset
  rw [← s.cleared_release x, ← hx]
  congr 1
  refine State.foldl_standing _ ?_ ?_ ?_ x .aborted ?_
  · simpa [Acting, State.release] using act
  · simpa [OutputLaw, State.release] using ho
  · rw [hx]; exact ht
  · simp [State.release]

end Sys2Proof.Machine
end

