-- ==== Sys2Proof/Laws/Reports.lean ====
section
/-! SUPPORT. What an acknowledgement leaves and what a new batch takes, said once: `Reporter.acknowledged`,
`Reporter.nextRecords` and `BatchFormed` (R144 to R147), for RACK, FETCH-REPORTS and the arbiter's grant alike. -/

namespace Sys2Proof.Machine

/-! ### Acknowledgement -/

theorem Reporter.acknowledge_eq (rep : Reporter) : rep.acknowledge = rep.acknowledged := by
  have ho : (rep.queue.any fun r => r.isOverflow && !r.waiting) =
      rep.queue.any fun q => q.code == .overflow && q.status != .waiting := rfl
  have hk : rep.queue.filter ReportRecord.waiting = rep.queue.filter fun q => q.status == .waiting := rfl
  unfold Reporter.acknowledge Reporter.acknowledged
  simp only [ho, hk]
  cases h : rep.queue.any fun q => q.code == .overflow && q.status != .waiting
  · simp [Reporter.toIdle]
  · by_cases hc : rep.carry.count = 0 <;>
      simp [hc, Reporter.toIdle, Carry.zero, overflowRecord]

theorem Reporter.acknowledged_waiting (rep : Reporter) : ∀ q ∈ rep.acknowledged.queue, q.status = .waiting := by
  intro q hq
  simp only [Reporter.acknowledged, List.mem_append, List.mem_filter, beq_iff_eq] at hq
  rcases hq with ⟨-, h⟩ | h
  · exact h
  · split at h
    · rw [List.mem_singleton] at h
      rw [h]
    · cases h

theorem Reporter.eligible_iff (rep : Reporter) (q : ReportRecord) :
    rep.eligible q = true ↔ q.status = .waiting ∧ rep.enables.getLsbD q.cls.val = true := by
  simp [Reporter.eligible, ReportRecord.waiting, Reporter.enabled]

theorem Reporter.nothingEligible_iff (rep : Reporter) :
    NothingEligible rep ↔ rep.queue.any rep.eligible = false := by
  rw [List.any_eq_false]
  refine forall_congr' fun q => imp_congr_right fun _ => ?_
  rw [rep.eligible_iff]
  cases rep.enables.getLsbD q.cls.val <;> simp

/-! ### The records a batch takes -/

/-- The eligible records with their places, by class and within a class by age (R145). -/
def Reporter.ranked (rep : Reporter) : List (ReportRecord × Nat) :=
  ([0, 1, 2, 3] : List (Fin 4)).flatMap fun c => rep.queue.zipIdx.filter fun q => rep.eligible q.1 && q.1.cls == c

theorem Reporter.selection_eq (rep : Reporter) : rep.selection = (rep.ranked.take 4).map (·.2) := by
  simp [Reporter.selection, Reporter.ranked, List.map_take]

theorem Reporter.mem_ranked (rep : Reporter) (q : ReportRecord) (i : Nat) :
    (q, i) ∈ rep.ranked ↔ rep.queue[i]? = some q ∧ rep.eligible q = true := by
  have hc : ∀ c : Fin 4, c ∈ ([0, 1, 2, 3] : List (Fin 4)) := by decide
  simp only [Reporter.ranked, List.mem_flatMap, List.mem_filter, Bool.and_eq_true, beq_iff_eq,
    List.mk_mem_zipIdx_iff_getElem?]
  constructor
  · rintro ⟨c, -, h, he, -⟩
    exact ⟨h, he⟩
  · rintro ⟨h, he⟩
    exact ⟨q.cls, hc _, h, he, rfl⟩

theorem zipIdx_sorted {α : Type} (l : List α) (n : Nat) : (l.zipIdx n).Pairwise fun a b => a.2 < b.2 := by
  induction l generalizing n with
  | nil => simp
  | cons a l ih =>
    rw [List.zipIdx_cons, List.pairwise_cons]
    refine ⟨fun b hb => ?_, ih (n + 1)⟩
    have := List.le_snd_of_mem_zipIdx hb
    simp only
    omega

/-- The order of a batch: by class, and within a class by age (R145). -/
theorem Reporter.ranked_sorted (rep : Reporter) :
    rep.ranked.Pairwise fun a b => a.1.cls < b.1.cls ∨ (a.1.cls = b.1.cls ∧ a.2 < b.2) := by
  have hs := zipIdx_sorted rep.queue 0
  unfold Reporter.ranked
  rw [List.pairwise_flatMap]
  refine ⟨fun c _ => ?_, ?_⟩
  · refine (hs.filter _).imp_of_mem fun {a b} ha hb h => ?_
    simp only [List.mem_filter, Bool.and_eq_true, beq_iff_eq] at ha hb
    exact Or.inr ⟨ha.2.2.trans hb.2.2.symm, h⟩
  · have hc : ([0, 1, 2, 3] : List (Fin 4)).Pairwise (· < ·) := by decide
    refine hc.imp fun {c d} hcd a ha b hb => ?_
    simp only [List.mem_filter, Bool.and_eq_true, beq_iff_eq] at ha hb
    left
    rw [ha.2.2, hb.2.2]
    exact hcd

theorem Reporter.ranked_nodup (rep : Reporter) : rep.ranked.Nodup :=
  rep.ranked_sorted.imp fun {a b} h hab => by
    subst hab
    rcases h with h | ⟨-, h⟩
    · exact absurd h (lt_irrefl _)
    · exact absurd h (lt_irrefl _)

theorem Reporter.selects_iff (rep : Reporter) (i : Nat) (q : ReportRecord) (hq : rep.queue[i]? = some q) :
    rep.selection.contains i = true ↔ (q, i) ∈ rep.ranked.take 4 := by
  rw [rep.selection_eq, List.contains_iff_mem, List.mem_map]
  constructor
  · rintro ⟨⟨p, j⟩, hp, rfl⟩
    have := (rep.mem_ranked p j).mp (List.mem_of_mem_take hp)
    simp only at hq
    rw [hq] at this
    cases this.1
    exact hp
  · intro h
    exact ⟨(q, i), h, rfl⟩

theorem filter_mem_take {α : Type} (l : List α) (h : l.Nodup) (n : Nat) (p : α → Bool)
    (hp : ∀ a, p a = true ↔ a ∈ l.take n) : l.filter p = l.take n := by
  have h' := h
  rw [← List.take_append_drop n l, List.nodup_append] at h'
  have h1 : (l.take n).filter p = l.take n := List.filter_eq_self.mpr fun a ha => (hp a).mpr ha
  have h2 : (l.drop n).filter p = [] :=
    List.filter_eq_nil_iff.mpr fun a ha hm => h'.2.2 a ((hp a).mp hm) a ha rfl
  conv_lhs => rw [← List.take_append_drop n l]
  rw [List.filter_append, h1, h2, List.append_nil]

theorem filter_zipIdx_fst {α : Type} (l : List α) (p : α → Bool) (n : Nat) :
    ((l.zipIdx n).filter fun q => p q.1).map (·.1) = l.filter p := by
  induction l generalizing n with
  | nil => rfl
  | cons a l ih =>
    rw [List.zipIdx_cons, List.filter_cons, List.filter_cons]
    split
    · rw [List.map_cons, ih]
    · exact ih (n + 1)

theorem Reporter.nextRecords_eq (rep : Reporter) : rep.nextRecords = (rep.ranked.take 4).map (·.1) := by
  have hf : ∀ c : Fin 4, (rep.queue.filter fun q =>
      q.status == .waiting && rep.enables.getLsbD c.val && q.cls == c) =
      (rep.queue.zipIdx.filter fun q => rep.eligible q.1 && q.1.cls == c).map (·.1) := by
    intro c
    rw [filter_zipIdx_fst rep.queue (fun q => rep.eligible q && q.cls == c)]
    refine List.filter_congr fun q _ => ?_
    by_cases hc : q.cls = c
    · subst hc; rfl
    · have hf : (q.cls == c) = false := by simpa using hc
      simp only [hf, Bool.and_false]
  simp only [Reporter.nextRecords, hf, Reporter.ranked, List.map_take, List.map_flatMap]

/-- Every eligible record has its place in the order of the batches. -/
theorem Reporter.ranked_length (rep : Reporter) : rep.ranked.length = rep.queue.countP rep.eligible := by
  have h : rep.ranked.Perm (rep.queue.zipIdx.filter fun q => rep.eligible q.1) := by
    refine (List.perm_ext_iff_of_nodup rep.ranked_nodup ?_).mpr fun ⟨q, i⟩ => ?_
    · refine List.Nodup.filter _ ((zipIdx_sorted rep.queue 0).imp fun {a b} h hab => ?_)
      rw [hab] at h
      exact lt_irrefl _ h
    · rw [rep.mem_ranked, List.mem_filter, List.mk_mem_zipIdx_iff_getElem?]
  rw [h.length_eq, ← List.length_map (f := (·.1)), filter_zipIdx_fst rep.queue rep.eligible,
    List.countP_eq_length_filter]

theorem Reporter.formBatch_getElem (rep : Reporter) (i : Nat) (q : ReportRecord) (hq : rep.queue[i]? = some q) :
    rep.formBatch.queue[i]? =
      some (if rep.selection.contains i then { q with status := .inBatch rep.nextBatch } else q) := by
  simp [Reporter.formBatch, hq]

/-- What the formation of a batch makes of the queue (R145). -/
theorem Reporter.formBatch_formed (rep : Reporter) : BatchFormed rep rep.formBatch.queue := by
  refine ⟨fun i => rep.selection.contains i, by simp [Reporter.formBatch], ?_, ?_, ?_, ?_⟩
  · have hn : rep.selection.Nodup := by
      rw [rep.selection_eq]
      refine List.Nodup.map_on (fun a ha b hb hab => ?_) (rep.ranked_nodup.sublist (List.take_sublist _ _))
      have h1 := (rep.mem_ranked a.1 a.2).mp (List.mem_of_mem_take ha)
      have h2 := (rep.mem_ranked b.1 b.2).mp (List.mem_of_mem_take hb)
      rw [hab, h2.1] at h1
      exact Prod.ext (by have := h1.1; simpa using this.symm) hab
    have hlt : ∀ i ∈ rep.selection, i < rep.queue.length := by
      intro i hi
      rw [rep.selection_eq, List.mem_map] at hi
      obtain ⟨⟨q, j⟩, hq, rfl⟩ := hi
      have h1 := (rep.mem_ranked q j).mp (List.mem_of_mem_take hq)
      exact (List.getElem?_eq_some_iff.mp h1.1).1
    have hp : ((List.range rep.queue.length).filter fun i => rep.selection.contains i).Perm rep.selection := by
      refine (List.perm_ext_iff_of_nodup (List.nodup_range.filter _) hn).mpr fun i => ?_
      rw [List.mem_filter, List.mem_range, List.contains_iff_mem]
      exact ⟨fun h => h.2, fun h => ⟨hlt i h, h⟩⟩
    have he : (fun q : ReportRecord => q.status == .waiting && rep.enables.getLsbD q.cls.val) = rep.eligible := rfl
    rw [List.countP_eq_length_filter, hp.length_eq, rep.selection_eq, List.length_map, List.length_take,
      rep.ranked_length, he]
  · exact fun i q hq => rep.formBatch_getElem i q hq
  · intro i q hq ht
    exact (rep.eligible_iff q).mp ((rep.mem_ranked q i).mp (List.mem_of_mem_take ((rep.selects_iff i q hq).mp ht))).2
  · intro i j p q hp hq ht hf hw he
    have h1 := (rep.selects_iff i p hp).mp ht
    have h2 : (q, j) ∈ rep.ranked.drop 4 := by
      have hm := (rep.mem_ranked q j).mpr ⟨hq, (rep.eligible_iff q).mpr ⟨hw, he⟩⟩
      rw [← List.take_append_drop 4 rep.ranked, List.mem_append] at hm
      rcases hm with hm | hm
      · have hf' : rep.selection.contains j = false := hf
        rw [(rep.selects_iff j q hq).mpr hm] at hf'
        cases hf'
      · exact hm
    have hs := rep.ranked_sorted
    rw [← List.take_append_drop 4 rep.ranked, List.pairwise_append] at hs
    exact hs.2.2 (p, i) h1 (q, j) h2

/-- The records of the batch just formed, in batch order, where nothing was outstanding before. -/
theorem Reporter.formBatch_records (rep : Reporter) (hw : ∀ q ∈ rep.queue, q.status = .waiting) :
    rep.formBatch.batchRecords = rep.nextRecords.map fun q => { q with status := .inBatch rep.nextBatch } := by
  have hf : ∀ c : Fin 4, rep.formBatch.queue.filter (fun r => !r.waiting && r.cls == c) =
      ((rep.queue.zipIdx.filter fun q => rep.eligible q.1 && q.1.cls == c).filter
        fun q => decide (q ∈ rep.ranked.take 4)).map
          fun q => { q.1 with status := .inBatch rep.nextBatch } := by
    intro c
    have hmap : ∀ l : List (ReportRecord × Nat), (∀ q ∈ l, q ∈ rep.queue.zipIdx) →
        (l.map fun q => if rep.selection.contains q.2 then
            { q.1 with status := RecordStatus.inBatch rep.nextBatch } else q.1).filter
          (fun r => !r.waiting && r.cls == c) =
        ((l.filter fun q => rep.eligible q.1 && q.1.cls == c).filter fun q => decide (q ∈ rep.ranked.take 4)).map
          fun q => { q.1 with status := .inBatch rep.nextBatch } := by
      intro l
      induction l with
      | nil => intro _; rfl
      | cons a l ih =>
        intro hl
        obtain ⟨q, i⟩ := a
        have hqi := List.mk_mem_zipIdx_iff_getElem?.mp (hl (q, i) (by simp))
        have hwq : q.status = .waiting := hw q (List.mem_of_getElem? hqi)
        have ih := ih fun p hp => hl p (by simp [hp])
        rw [List.map_cons, List.filter_cons, ih]
        by_cases hs : rep.selection.contains i = true
        · have hm := (rep.selects_iff i q hqi).mp hs
          have he := ((rep.mem_ranked q i).mp (List.mem_of_mem_take hm)).2
          by_cases hc : q.cls = c
          · have hc' : (q.cls == c) = true := by simpa using hc
            rw [if_pos hs, List.filter_cons, he, hc', Bool.and_self, if_pos rfl, List.filter_cons, decide_eq_true hm,
              if_pos rfl]
            simp [ReportRecord.waiting, hc]
          · have hc' : (q.cls == c) = false := by simpa using hc
            rw [if_pos hs, List.filter_cons, hc', Bool.and_false, if_neg Bool.false_ne_true]
            simp
        · have hm : (q, i) ∉ rep.ranked.take 4 := fun h => hs ((rep.selects_iff i q hqi).mpr h)
          have hwt : q.waiting = true := by simp [ReportRecord.waiting, hwq]
          by_cases hec : (rep.eligible q && q.cls == c) = true
          · rw [if_neg hs, hwt, Bool.not_true, Bool.false_and, if_neg Bool.false_ne_true, List.filter_cons, if_pos hec,
              List.filter_cons, decide_eq_false hm, if_neg Bool.false_ne_true]
          · rw [if_neg hs, hwt, Bool.not_true, Bool.false_and, if_neg Bool.false_ne_true, List.filter_cons, if_neg hec]
    exact hmap _ fun q hq => hq
  simp only [Reporter.batchRecords, hf, rep.nextRecords_eq, List.map_map]
  rw [← List.map_flatMap, ← List.filter_flatMap]
  have : (List.flatMap (fun c => List.filter (fun q => rep.eligible q.1 && q.1.cls == c) rep.queue.zipIdx)
      ([0, 1, 2, 3] : List (Fin 4))) = rep.ranked := rfl
  rw [this, filter_mem_take _ rep.ranked_nodup 4 _ fun _ => decide_eq_true_iff]
  rfl

/-- The payload of the batch just formed (R145, R178). -/
theorem Reporter.formBatch_payload (rep : Reporter) (hw : ∀ q ∈ rep.queue, q.status = .waiting) :
    rep.formBatch.payload = batchBytes rep.nextBatch rep.nextRecords := by
  have h : rep.formBatch.outstanding = some rep.nextBatch := rfl
  simp only [Reporter.payload, h, rep.formBatch_records hw, batchPayload, batchBytes, List.length_map, byteOf,
    List.flatMap_map]
  rfl

/-! ### The grant -/

/-- The arbiter asked with the transmitter IDLE, nothing queued, and an IDLE reporter in UNSOLICITED mode that holds an
eligible record and nothing of a batch: a new batch is granted and nothing else changes (R28, R149). -/
theorem State.arbitrate_grants (s : State) (d : Byte) (ht : s.trunk.tx = .idle) (hq : s.trunk.queue = [])
    (hm : s.reporter.mode = .unsolicited) (hs : s.reporter.state = .idle) (hd : s.reporter.destination = some d)
    (hw : ∀ q ∈ s.reporter.queue, q.status = .waiting)
    (he : ∃ q ∈ s.reporter.queue, q.status = .waiting ∧ s.reporter.enables.getLsbD q.cls.val = true) :
    ∃ (rep : Reporter) (tx : TrunkTx),
      s.arbitrate = { s with reporter := rep, trunk := { s.trunk with tx := tx } } ∧
      NewBatchGranted d s.trunk.address s.reporter tx rep := by
  have hb : s.reporter.hasBatch = true := by
    have : s.reporter.queue.any s.reporter.eligible = true := by
      obtain ⟨q, hq, h⟩ := he
      exact List.any_eq_true.mpr ⟨q, hq, (s.reporter.eligible_iff q).mpr h⟩
    simp [Reporter.hasBatch, hm, hs, this]
  refine ⟨s.reporter.granted, .reporting (batchFrame d s.trunk.address s.reporter.granted.payload), ?_, ?_, ?_⟩
  · unfold State.arbitrate
    simp only [ht, hq, hb, hd, if_true, State.grant]
  · have : s.reporter.granted.payload = s.reporter.formBatch.payload := by
      simp only [Reporter.granted, hs, if_true]
      rfl
    rw [this, s.reporter.formBatch_payload hw]
    rfl
  · refine ⟨s.reporter.formBatch.queue, ?_, s.reporter.formBatch_formed⟩
    simp only [Reporter.granted, hs, if_true]
    rfl

end Sys2Proof.Machine
end

