-- ==== Sys2Proof/Tests/Slice0.lean ====
section
/-! SUPPORT. The model's own tests: ill-formed commands, worked values of the spec, and for every statement a concrete
state and operands that meet its hypotheses, clause by clause. -/

namespace Sys2Proof.Tests

open Sys2Proof Sys2Proof.Machine

set_option Elab.async false
set_option synthInstance.maxSize 1024
set_option synthInstance.maxHeartbeats 400000

/-! ### Ill-formed commands: one for each check -/

def request (payload : List Byte) : Request := ⟨9, 3, payload⟩

def good : Frame := ⟨10, 9, .req, 3, 7, [1, 2]⟩

theorem test_wf_accepts : (Instr.routedRequest good).wf = true ∧ (Instr.readStatus (request [])).wf = true ∧
    (Instr.unknown 0x03 (request [])).wf = true ∧ (Instr.matchingFrame .a { good with dest := 0 }).wf = true ∧
    (Instr.rack 1 (request [])).wf = true ∧ (Instr.unexpected { good with kind := .nak }).wf = true := by decide

theorem test_wf_destination_zero : (Instr.routedRequest { good with dest := 0 }).wf = false := by decide
theorem test_wf_destination_255 : (Instr.pendingSoftResetDiscard { good with dest := 255 }).wf = false := by decide
theorem test_wf_source_zero : (Instr.routedRequest { good with src := 0 }).wf = false := by decide
theorem test_wf_source_255 : (Instr.strayFrame .b { good with src := 255 }).wf = false := by decide
theorem test_wf_payload_49 : (Instr.routedRequest { good with payload := List.replicate 49 0 }).wf = false := by decide
theorem test_wf_routed_kind : (Instr.routedRequest { good with kind := .rsp }).wf = false := by decide
theorem test_wf_unexpected_kind : (Instr.unexpected good).wf = false := by decide
theorem test_wf_segment_destination_255 : (Instr.matchingFrame .a { good with dest := 255 }).wf = false := by decide
theorem test_wf_unknown_of_the_table : (Instr.unknown 0x7F (request [])).wf = false := by decide
theorem test_wf_request_source : (Instr.commit { request [0, 0] with src := 0 }).wf = false := by decide
theorem test_wf_request_payload : (Instr.rack 1 (request (List.replicate 49 0))).wf = false := by decide

/-! ### Values the spec works out -/

/-- The check of the nine ASCII digits under the polynomial, start value and bit order of R9. -/
theorem test_check_of_digits : crc [0x31, 0x32, 0x33, 0x34, 0x35, 0x36, 0x37, 0x38, 0x39] = 0x29B1 := by
  decide +kernel

theorem test_kind_and_tag : kindTagByte .rsp 17 = 0x51 := by decide

theorem test_character_bits : characterBits .even 0xD5 =
    [false, true, false, true, false, true, false, true, true, true, true] := by decide

def frame0 : Frame := ⟨9, 254, .rsp, 0, 1, []⟩

/-- A pin at rest, the start bit, the first data bit and the stop bit of the lead, and the mark after the frame (R5). -/
theorem test_pin_levels : pinLevel .none none 0 = mark ∧ pinLevel .none (some frame0) 0 = space ∧
    pinLevel .none (some frame0) 1 = true ∧ pinLevel .none (some frame0) 9 = mark ∧
    pinLevel .none (some frame0) 10 = space ∧ pinLevel .none (some frame0) 80 = mark := by decide +kernel

theorem test_restart_record : (ReportRecord.restart .power 0).bytes = [0x20, 0x05, 0x11, 0, 0, 0, 0] := by
  decide +kernel

theorem test_no_word_spells_a_command : ∀ nbits w : Nat, decodeTableWord nbits w = none := fun _ _ => rfl

/-! ### Small states -/

def after (i : Instr) (s : State) : State :=
  match exec i s with
  | .next t => t
  | _ => s

def queued0 : QueuedFrame := ⟨frame0, false⟩

/-- The transmitter is busy and `n` frames wait. -/
def busy (n : Nat) (s : State) : State :=
  { s with trunk := { s.trunk with tx := .sending queued0, queue := List.replicate n queued0 } }

def busy0 : State := busy 0 State.reset
def full : State := busy 8 State.reset

def entry (a : Action) : RouteEntry :=
  ⟨a, 10, some 7, .b, if a = .fanout then 0 else 253, some 0x20, 255, 3, 0xEE, 65535⟩

/-- One active entry, at index 47. -/
def routed (a : Action) (s : State) : State :=
  { s with routes := { s.routes with active := s.routes.active.set 47 (some (entry a)), activeCount := 1 } }

def single (st : RecordState) (x : Seg) (tag : Option Tag) (retries : Nat) : Record :=
  ⟨st, 9, 3, 10, 7, 253, 0x20, [1, 2], 1, .single ⟨x, 255, retries, tag⟩⟩

def broadcast (st : RecordState) (p : SegSet) : Record :=
  ⟨st, 9, 3, 10, 7, 0, 0x20, [1, 2], 1, .broadcast ⟨p, SegSet.empty, []⟩⟩

/-- One record, in slot 15. -/
def holding (r : Record) (s : State) : State :=
  { s with exchange :=
    { s.exchange with slots := s.exchange.slots.set 15 (some r), admission := [15],
                      completion := if r.state.isComplete then [15] else [] } }

def sending (x : Seg) (slot : Option Slot) (s : State) : State :=
  s.modSeg x fun g => { g.modPort Port.close with state := .send, de := true, tx := some good, current := slot }

def waiting (x : Seg) (timer : Nat) (s : State) : State :=
  s.modSeg x fun g => { g with state := .wait, responseTimer := some timer, current := some 15 }

def guarding (x : Seg) (s : State) : State := s.modSeg x fun g => { g with state := .guard, guardTimer := some 2 }

def resuming (x : Seg) (s : State) : State := s.modSeg x fun g => { g with state := .resume, guardTimer := some 2 }

def lent (x : Seg) (time patience : Nat) (expired : Bool) (s : State) : State :=
  s.modSeg x fun g => { g.modPort Port.close with
    state := .lent, hack := true, lentTime := some time, lentExpired := expired,
    config := { g.config with patience := BitVec.ofNat 8 patience } }

def draining (x : Seg) (s : State) : State := s.modSeg x fun g => { g with drainRequested := true }

def pendingSet (x : Seg) (s : State) : State :=
  s.modSeg x fun g => { g with pendingConfig := some ⟨7, .odd, 15, 15, 16, 255⟩ }

/-- An attempt of the record in slot 15 waits for its answer on segment A. -/
def inWait (retries : Nat) : State := waiting .a 0 (holding (single .active .a (some 31) retries) busy0)

def answer (k : FrameKind) : Frame := ⟨254, 253, k, 31, 0xFF, []⟩

def inputRecord (n : Fin 16) (st : RecordStatus) : ReportRecord := ⟨.input n, 3, .rise, .level true, 15, 1, 2, st⟩

def overflowIn (st : RecordStatus) : ReportRecord := ⟨.gateway, 0, .overflow, .absent, 255, 1, 2, st⟩

def reporting (f : Reporter → Reporter) (s : State) : State := { s with reporter := f s.reporter }

/-- Batch 255 is outstanding with the records given. -/
def outstanding (m : ReportMode) (q : List ReportRecord) (rep : Reporter) : Reporter :=
  { rep with mode := m, state := .outstanding, outstanding := some 255, sendCount := 1, queue := q,
             destination := some 9 }

def unsolicited (rep : Reporter) : Reporter := { rep with mode := .unsolicited, destination := some 9 }

def onLine (n : Fin 16) (f : InputLine → InputLine) (s : State) : State :=
  { s with inputs := { s.inputs with lines := s.inputs.lines.set n (f s.inputs.lines[n]) } }

/-- Every baseline is taken and line 15 stands one sample before an accepted change. -/
def qualifying (e : EdgeSelect) (s : State) : State :=
  onLine 15 (fun l => { l with baselineDue := false, run := 15, qualification := 15, edge := e }) s

def bound : State :=
  { State.reset with trunk := { State.reset.trunk with tx := .sending ⟨frame0, true⟩, softResetPending := true } }

def onFramer (p : PortId) (r : Receiver) (f : Framer) (s : State) : State :=
  s.modPort p fun q => { q with receiver := r, framer := f }

def inState (st : FramerState) (fields : List Byte) (expected : Nat) (high : Option Byte) : Framer :=
  ⟨st, fields, expected, crc fields, high, some 4⟩

def char (b : Byte) : RawChar := ⟨b, true, true⟩

/-! ### Each command, once -/

theorem test_hard_reset : (after (.hardReset ⟨200, 7, 2⟩) busy0).trunk.address = 200 ∧
    (after (.hardReset ⟨255, 7, 3⟩) busy0).trunk.strapFault = true ∧
    (after (.hardReset ⟨1, 0, 0⟩) { busy0 with hardReset := some .pin }).resetCause = .pin := by decide +kernel

theorem test_hard_reset_begin : (after (.hardResetBegin .pin) busy0).trunk.tx = .idle ∧
    (after (.hardResetBegin .pin) busy0).hardReset = some .pin ∧
    (after (.hardResetBegin .pin) (after (.hardReset ⟨255, 7, 3⟩) busy0)).trunk.strapFault = false := by decide +kernel

theorem test_soft_reset : (after .softReset bound).resetCause = .command ∧
    (after .softReset bound).trunk.softResetPending = false ∧ after .softReset busy0 = busy0 := by decide +kernel

theorem test_millisecond_tick : (after .millisecondTick { busy0 with timeCounter := 0xFFFF }).timeCounter = 0 := by
  decide +kernel

/-- The tick that reaches the patience expires the segment (R119), and PATIENCE_EXPIRY then finds it done; a patience
raised one tick later changes nothing. -/
theorem test_tick_expires_patience :
    let s := after .millisecondTick (lent .a 25499 255 false (holding (single .queued .a none 3) State.reset))
    s.segA.lentExpired = true ∧ s.trunk.tx = .sending ⟨⟨9, 10, .nak, 3, 7, [0x14, 1]⟩, false⟩ ∧
    s.exchange.admission = [] ∧ after (.patienceExpiry .a) s = s ∧
    (after (.setSegment (request [1, 3, 0, 4, 2, 8, 0])) s).segA.lentExpired = true := by decide +kernel

theorem test_idle_qualification :
    ((after (.idleQualification .trunk) State.reset).trunk.port.receiver) = .ready := by decide +kernel

theorem test_fall_to_space :
    (after (.fallToSpace .trunk true) (onFramer .trunk .ready Framer.reset State.reset)).trunk.port.receiver
      = .receiving := by decide +kernel

theorem test_arrival : (after (.arrival .trunk (char 0xD5))
    (onFramer .trunk .receiving Framer.reset State.reset)).trunk.port.framer.state = .header := by decide +kernel

theorem test_break : (after (.lineBreak (.segment .a))
    (onFramer (.segment .a) .receiving Framer.reset State.reset)).segA.port.counters.brk = 1 := by decide +kernel

theorem test_break_end : (after (.breakEnd .trunk)
    (onFramer .trunk .inBreak Framer.reset State.reset)).trunk.port.receiver = .unqualified := by decide +kernel

theorem test_gap_timer_expiry : (after (.gapTimerExpiry .trunk)
    (onFramer .trunk .ready (inState .header [] 0 none) State.reset)).trunk.port.counters.gap = 1 := by decide +kernel

theorem test_routed_request_forward : ((after (.routedRequest good) (routed .forward State.reset)).segB.tx) =
      some ⟨253, 254, .req, 0, 0x20, [1, 2]⟩ ∧
    (after (.routedRequest good) (routed .forward State.reset)).segB.de = true := by decide +kernel

theorem test_routed_request_miss : (after (.routedRequest good) State.reset).trunk.tx =
    .sending ⟨⟨9, 10, .nak, 3, 7, [0x11]⟩, false⟩ := by decide +kernel

theorem test_unexpected :
    (after (.unexpected { good with kind := .rpt }) State.reset).trunk.counters.unexpected = 1 := by
  decide +kernel

theorem test_pending_soft_reset_discard : after (.pendingSoftResetDiscard good) bound = bound := by decide +kernel

theorem test_rack : (after (.rack 1 (request [])) State.reset).trunk.counters.rackIgnored = 1 := by decide +kernel

theorem test_unknown : (after (.unknown 0x03 (request [])) State.reset).trunk.tx =
    .sending ⟨⟨9, 254, .nak, 3, 0x03, [0x01]⟩, false⟩ := by decide +kernel

/-- The reply in transmission after a management command is taken in a state whose transmitter rests. -/
def reply (i : Instr) (s : State) : List Byte :=
  match (after i s).trunk.tx with
  | .sending q => q.frame.payload
  | _ => []

theorem test_read_status : reply (.readStatus (request [])) State.reset =
    [254, 0x11, 0, 0, 0, 0, 0, 0, 0, 16, 0, 0, 0, 0, 0, 0, 0, 1, 0, 0, 1, 0] := by decide +kernel

theorem test_read_counters : reply (.readCounters (request [2, 1])) State.reset =
    2 :: List.replicate 22 0 := by decide +kernel

theorem test_stage_entry : reply (.stageEntry (request [47, 1, 10, 0, 0x07, 253, 0x20, 255, 3, 0])) State.reset =
    [47, 1] := by decide +kernel

theorem test_clear_stage : (after (.clearStage (request [])) State.reset).routes.stagedCount = 0 := by decide +kernel

theorem test_read_entry : reply (.readEntry (request [0, 47])) (routed .forward State.reset) =
    [47, 1, 10, 7, 0x06, 253, 0x20, 255, 3, 0xEE, 0xFF, 0xFF] := by decide +kernel

theorem test_commit : reply (.commit (request [0, 0])) State.reset = [0, 1] ∧
    reply (.commit (request [0, 1])) State.reset = [0x05, 0, 0] := by decide +kernel

theorem test_set_miss_policy : (after (.setMissPolicy (request [1])) State.reset).routes.missPolicy = .drop := by
  decide +kernel

theorem test_read_exchanges :
    ((reply (.readExchanges (request [])) (holding (broadcast .active SegSet.both) State.reset)).drop 45) =
      [0x1E, 9, 0x23] := by decide +kernel

theorem test_abort_exchange :
    reply (.abortExchange (request [9, 3])) (holding (single .queued .a none 3) State.reset) = [15] ∧
    (after (.abortExchange (request [9, 3])) (holding (single .queued .a none 3) State.reset)).trunk.queue =
      [⟨⟨9, 10, .nak, 3, 7, [0x23]⟩, false⟩] := by decide +kernel

theorem test_line_reset :
    reply (.lineReset (request [1])) (holding (single .queued .a none 3) State.reset) = [1] ∧
    (after (.lineReset (request [1])) (holding (single .queued .a none 3) State.reset)).exchange.admission = [] := by
  decide +kernel

theorem test_set_segment : reply (.setSegment (request [1, 7, 2, 15, 15, 16, 255])) State.reset = [0] ∧
    reply (.setSegment (request [1, 7, 2, 15, 15, 16, 255])) (guarding .a State.reset) = [1] := by decide +kernel

theorem test_read_segment : reply (.readSegment (request [2])) State.reset =
    [2, 3, 0, 4, 2, 8, 0, 0, 0, 0, 0, 0, 0, 0, 0, 0, 0] := by decide +kernel

theorem test_read_inputs :
    reply (.readInputs (request [1])) (onLine 15 (fun l => { l with raw := true, lost := true }) State.reset) =
      [0, 0, 0x80, 0, 0x80, 0] := by decide +kernel

theorem test_set_input : ((after (.setInput (request [15, 15, 3, 0])) State.reset).inputs.lines[15]).edge = .both := by
  decide +kernel

theorem test_set_sample_period :
    (after (.setSamplePeriod (request [3])) State.reset).inputs.sampleTimer = 10 := by decide +kernel

theorem test_report_control :
    (after (.reportControl (request [2, 15, 1])) State.reset).reporter.destination = some 9 := by decide +kernel

theorem test_fetch_reports : reply (.fetchReports (request [0])) State.reset =
    [1, 1, 0x20, 0x05, 0x11, 0, 0, 0, 0] := by decide +kernel

theorem test_gateway_reset : (after (.gatewayReset (request [])) State.reset).trunk.softResetPending = true := by
  decide +kernel

theorem test_end_of_transmission : (after .endOfTransmission full).trunk.queue.length = 7 ∧
    (after .endOfTransmission busy0).trunk.tx = .idle := by decide +kernel

theorem test_report_timer_expiry :
    (after .reportTimerExpiry (reporting (fun r => { outstanding .unsolicited [] r with timer := some 0 }) busy0)
      ).reporter.resendDue = true := by decide +kernel

theorem test_segment_end_of_transmission :
    (after (.segmentEndOfTransmission .a) (sending .a (some 15)
      (holding (single .active .a (some 31) 3) State.reset))).segA.responseTimer = some 1275 := by decide +kernel

theorem test_matching_frame : (after (.matchingFrame .a (answer .nak)) (inWait 0)).trunk.queue =
    [⟨⟨9, 10, .nak, 3, 7, [0x22, 0]⟩, false⟩] := by decide +kernel

theorem test_stray_frame : (after (.strayFrame .b good) State.reset).segB.counters.stray = 1 := by decide +kernel

theorem test_corrupt_frame_notice : (after (.corruptFrameNotice .a) (inWait 0)).trunk.queue =
    [⟨⟨9, 10, .nak, 3, 7, [0x21, 1]⟩, false⟩] := by decide +kernel

theorem test_response_timer_expiry : (after (.responseTimerExpiry .a) (inWait 3)).segA.counters.retries = 1 := by
  decide +kernel

theorem test_guard_timer_expiry : (after (.guardTimerExpiry .a) (guarding .a
    (holding (single .queued .a none 3) State.reset))).segA.state = .send := by decide +kernel

theorem test_sample_instant : (after (.sampleInstant 0x8000 false false) State.reset).inputs.lines[15].accepted = true ∧
    (after (.sampleInstant 0x8000 false false) (qualifying .both State.reset)).reporter.occupancy = 2 := by
  decide +kernel

/-- The frame of reports in transmission after a command. -/
def reportSent (i : Instr) (s : State) : List Byte :=
  match (after i s).trunk.tx with
  | .reporting f => f.payload
  | _ => []

/-- The sample that accepts the change sends it at once in UNSOLICITED mode, and the sample timer starts again. -/
theorem test_sample_reports_at_once :
    reportSent (.sampleInstant 0x8000 false false) (reporting (fun r => { r with queue := [] })
      (reporting unsolicited (qualifying .both State.reset))) = [1, 1, 15, 0x31, 0x81, 0, 0, 0, 0] ∧
    (after (.sampleInstant 0 false false) State.reset).inputs.sampleTimer = 2 := by decide +kernel

/-- A RACK, or a FETCH-REPORTS, that acknowledges batch 255 with the OVERFLOW record in it and a carry: the next batch,
of the fresh OVERFLOW record, follows in the same event. -/
theorem test_acknowledged_batch_gives_the_next :
    let c := fun m => reporting (fun r => { outstanding m [overflowIn (.inBatch 255)] r with carry := ⟨200, 3, 4⟩ })
      State.reset
    reportSent (.rack 255 (request [])) (c .unsolicited) = [1, 1, 0x20, 0x06, 200, 0, 3, 0, 4] ∧
    reply (.fetchReports (request [255])) (c .polled) = [1, 1, 0x20, 0x06, 200, 0, 3, 0, 4] := by decide +kernel

theorem test_patience_expiry : (after (.patienceExpiry .a) (lent .a 100 1 false
    (holding (single .queued .a none 3) State.reset))).trunk.tx = .sending ⟨⟨9, 10, .nak, 3, 7, [0x14, 1]⟩, false⟩ := by
  decide +kernel

/-! ### For each statement, a state and operands that meet its hypotheses -/

/-- A front command and an empty queue. -/
theorem test_witness_StepRunsFrontCommand :
    ({ State.reset with pending := [.softReset, .millisecondTick] } : State).pending =
      .softReset :: [.millisecondTick] ∧ State.reset.pending = [] := by
  and_intros <;> decide +kernel

theorem test_witness_CommandsWithoutEffect : (Instr.routedRequest { good with kind := .rsp }).wf = false ∧
    ({ State.reset with hardReset := some .pin } : State).hardReset.isSome = true ∧
    (∀ p, Instr.softReset ≠ .hardReset p) ∧ (∀ h, Instr.softReset ≠ .hardResetBegin h) := by
  refine ⟨by decide, by decide, ?_, ?_⟩ <;> intro _ h <;> cases h

theorem test_witness_SoftResetState : Acting bound ∧ bound.trunk.softResetPending = true ∧
    bound.trunk.tx = .sending ⟨frame0, true⟩ ∧ (⟨frame0, true⟩ : QueuedFrame).bindsReset = true ∧
    bound.reporter.mode ≠ .unsolicited := by
  and_intros <;> decide +kernel

/-- Segment A lent, segment B draining; and both at rest. -/
theorem test_witness_SoftResetSegments :
    let s := draining .b (sending .b none (lent .a 25500 255 true bound))
    Acting s ∧ SegmentsLaw s ∧ s.trunk.softResetPending = true ∧ s.trunk.tx = .sending ⟨frame0, true⟩ ∧
    s.segA.state = .lent ∧ s.segB.drainRequested = true ∧ SegmentsLaw bound ∧ bound.segA.state ≠ .lent ∧
    bound.segA.drainRequested = false := by
  and_intros <;> decide +kernel

/-- POLLED; UNSOLICITED with class 0 enabled under batch number 255; with class 0 disabled and nothing eligible; with
class 0 disabled and both segments entering LENT; and with class 1 disabled and one segment lent before. -/
theorem test_witness_SoftResetReporter :
    let s := fun enables => reporting (fun r => { unsolicited r with nextBatch := 255, enables := enables }) bound
    let both := draining .a (sending .a none (draining .b (sending .b none (s 14))))
    let one := lent .a 7 0 false (draining .b (sending .b none (s 13)))
    Acting bound ∧ bound.trunk.softResetPending = true ∧ bound.trunk.tx = .sending ⟨frame0, true⟩ ∧
    bound.reporter.mode ≠ .unsolicited ∧ (s 15).reporter.mode = .unsolicited ∧
    (s 15).reporter.enables.getLsbD 0 = true ∧ (s 15).reporter.destination = some 9 ∧
    (s 14).reporter.enables.getLsbD 0 = false ∧ (s 14).segA.drainRequested = false ∧
    (s 14).segB.drainRequested = false ∧ Acting both ∧ both.trunk.tx = .sending ⟨frame0, true⟩ ∧
    both.reporter.enables.getLsbD 1 = true ∧ both.segA.state ≠ .lent ∧ both.segA.drainRequested = true ∧
    both.segB.drainRequested = true ∧ SegmentsLaw both ∧ one.segA.state = .lent ∧
    one.reporter.enables.getLsbD 1 = false ∧ one.segB.drainRequested = true ∧ SegmentsLaw one := by
  and_intros <;> decide +kernel

/-- Neither segment at its patience (at rest, one tick below it, with patience 0 and already expired), A alone, B alone,
and both. -/
theorem test_witness_MillisecondTickCounts :
    let ticked := fun g : Segment => { g with responseTimer := g.responseTimer.map (fun m => m - 1),
                                              lentTime := g.lentTime.map (fun m => min 25500 (m + 1)) }
    let one := fun x => lent x 25499 255 false State.reset
    let both := lent .a 99 1 false (lent .b 99 1 false (holding (broadcast .queued SegSet.both) State.reset))
    Acting State.reset ∧ ¬ PatienceReached (ticked State.reset.segA) ∧
    ¬ PatienceReached (ticked (lent .a 25498 255 false State.reset).segA) ∧
    ¬ PatienceReached (ticked (lent .a 25500 0 false State.reset).segA) ∧
    ¬ PatienceReached (ticked (lent .a 25500 255 true State.reset).segA) ∧
    ExchangeLaw (one .a) ∧ PatienceReached (ticked (one .a).segA) ∧ ¬ PatienceReached (ticked (one .a).segB) ∧
    ExchangeLaw (one .b) ∧ PatienceReached (ticked (one .b).segB) ∧ ¬ PatienceReached (ticked (one .b).segA) ∧
    Acting both ∧ ExchangeLaw both ∧ PatienceReached (ticked both.segA) ∧ PatienceReached (ticked both.segB) := by
  and_intros <;> decide +kernel

/-- Every condition of a receiver, on the trunk and on a segment in GUARD and in IDLE. -/
theorem test_witness_ReceiverConditions : Acting State.reset ∧ State.reset.trunk.port.receiver = .unqualified ∧
    ((onFramer .trunk .inBreak Framer.reset State.reset).port .trunk).receiver = .inBreak ∧
    ((onFramer (.segment .b) .ready Framer.reset State.reset).port (.segment .b)).receiver = .ready ∧
    ((onFramer (.segment .b) .receiving Framer.reset State.reset).port (.segment .b)).receiver = .receiving ∧
    ((lent .a 0 0 false State.reset).port (.segment .a)).receiver = .closed ∧
    (guarding .a State.reset).segA.state = .guard ∧ (resuming .a State.reset).segA.state = .resume ∧
    State.reset.segA.state ≠ .guard ∧ State.reset.segA.state ≠ .resume := by
  and_intros <;> decide +kernel

theorem test_witness_HuntTakesTheLeadAlone :
    let s := onFramer (.segment .a) .receiving Framer.reset State.reset
    Acting s ∧ (s.port (.segment .a)).receiver = .receiving ∧ (s.port (.segment .a)).framer.state = .hunt ∧
    charGood (s.parity (.segment .a)) (char 0xD5) = true ∧ (char 0xD5).data = 0xD5 ∧
    charGood (s.parity (.segment .a)) ⟨0xD5, true, false⟩ = false ∧ (char 0xD4).data ≠ 0xD5 := by
  and_intros <;> decide +kernel

/-- HEADER with 0 and with 4 bytes, lengths 0, 1, 48 and 49, BODY with 2 bytes and with 1 byte to come, CHECK. -/
theorem test_witness_HeaderAndBodyCollect :
    let at' := fun st fs n => (onFramer .trunk .ready (inState st fs n none) State.reset).port .trunk
    Acting State.reset ∧ charGood .none (char 0) = true ∧
    (at' .header [] 0).framer.fields.length < 4 ∧ (at' .header [] 0).framer.state = .header ∧
    (at' .header [10, 9, 0x23, 7] 0).framer.fields.length = 4 ∧ 48 < (char 49).data.toNat ∧ (char 0).data = 0 ∧
    1 ≤ (char 1).data.toNat ∧ (char 48).data.toNat ≤ 48 ∧
    (at' .body [10, 9, 0x23, 7, 2] 2).framer.state = .body ∧ 1 < (at' .body [10, 9, 0x23, 7, 2] 2).framer.expected ∧
    (at' .body [10, 9, 0x23, 7, 1] 1).framer.expected = 1 ∧
    (at' .check [10, 9, 0x23, 7, 0] 0).framer.state = .check ∧
    (at' .check [10, 9, 0x23, 7, 0] 0).framer.highCheck = none ∧
    (at' .check [10, 9, 0x23, 7, 0] 0).receiver = .ready := by
  and_intros <;> decide +kernel

theorem test_witness_FaultsAbandonTheFrame :
    let s := onFramer .trunk .receiving (inState .header [] 0 none) State.reset
    Acting s ∧ (s.port .trunk).receiver = .receiving ∧ (s.port .trunk).framer.state ≠ .hunt ∧
    charGood (s.parity .trunk) ⟨0, true, false⟩ = false ∧ (s.port .trunk).framer.gapTimer.isSome = true ∧
    (State.reset.port .trunk).framer.gapTimer = none := by
  and_intros <;> decide +kernel

/-- A bad check; kinds 0, 6 and 7 and destination 255; a good frame with the largest kind, on the trunk. -/
theorem test_witness_CompletionIsJudged :
    let fields := fun (dest kt : Byte) => [dest, 9, kt, 7, 0]
    let s := fun (dest kt : Byte) => onFramer .trunk .receiving
      (inState .check (fields dest kt) 0 (some (hiByte (crc (fields dest kt))))) State.reset
    let low := fun (dest kt : Byte) => loByte (crc (fields dest kt))
    Acting (s 10 0x23) ∧ ((s 10 0x23).port .trunk).receiver = .receiving ∧
    ((s 10 0x23).port .trunk).framer.fields = [10, 9, 0x23, 7, 0] ++ [] ∧
    ((s 10 0x23).port .trunk).framer.remainder ≠ hiByte (crc (fields 10 0x23)) ++ (low 10 0x23 + 1) ∧
    ((s 10 0xE3).port .trunk).framer.remainder = hiByte (crc (fields 10 0xE3)) ++ low 10 0xE3 ∧
    6 ≤ (0xE3#8).toNat / 32 ∧ (0x03#8).toNat / 32 = 0 ∧
    ((s 255 0x23).port .trunk).framer.remainder = hiByte (crc (fields 255 0x23)) ++ low 255 0x23 ∧
    ((s 254 0xBF).port .trunk).framer.remainder = hiByte (crc (fields 254 0xBF)) ++ low 254 0xBF ∧
    (0xBF#8).toNat / 32 = (kindCode .rack).toNat := by
  and_intros <;> decide +kernel

/-- The trunk, and a segment in IDLE with a frame to station 0 of 48 payload bytes. -/
theorem test_witness_FramesRoundTrip :
    let f : Frame := { good with dest := 0, payload := List.replicate 48 0xD5 }
    let s := onFramer (.segment .b) .ready Framer.reset (onFramer .trunk .ready Framer.reset State.reset)
    Acting s ∧ (s.port .trunk).receiver = .ready ∧ (s.port .trunk).framer = Framer.reset ∧
    (s.port (.segment .b)).receiver = .ready ∧ (s.port (.segment .b)).framer = Framer.reset ∧
    s.segB.state = .idle ∧ good.goodOnTrunk = true ∧ f.goodOnSegment = true := by
  and_intros <;> decide +kernel

/-- The pins: at rest, each kind of transmission in progress, and the first and last character of a frame. -/
theorem test_witness_FramesRoundTrip_pins : State.reset.trunk.tx = .idle ∧ busy0.trunk.tx = .sending queued0 ∧
    ({ State.reset with trunk := { State.reset.trunk with tx := .reporting frame0 } } : State).trunk.tx =
      .reporting frame0 ∧
    State.reset.segA.de = false ∧ (sending .a none State.reset).segA.de = true ∧
    (sending .a none State.reset).segA.tx = some good ∧ (frameBytes good)[0]? = some 0xD5 ∧
    (frameBytes good)[9]?.isSome = true ∧ (frameBytes good)[10]? = none := by
  and_intros <;> decide +kernel

/-- The exact key, ANY alone, and neither, in the bank with one entry at index 47. -/
theorem test_witness_LookupByKey :
    let exact := (routed .forward State.reset).routes
    let any := { exact with active := exact.active.set 47 (some { entry .forward with fnMatch := none }) }
    KeysDistinct exact.active ∧ exact.active[47] = some (entry .forward) ∧
    KeysDistinct any.active ∧ any.active[47] = some { entry .forward with fnMatch := none } ∧
    KeysDistinct Bank.empty ∧ (∀ j : Fin 48, Bank.empty[j] = none) := by
  and_intros <;> decide +kernel

theorem test_witness_RequestsEndedAtDispatch :
    let drops := { busy0 with routes := { busy0.routes with missPolicy := .drop } }
    good.goodOnTrunk = true ∧ good.kind = .req ∧
    Dispatching drops ∧ OutputLaw drops ∧ good.dest ≠ drops.trunk.address ∧
    drops.routes.lookup good.dest good.fn = none ∧ drops.routes.missPolicy = .drop ∧
    Dispatching full ∧ OutputLaw full ∧ full.trunk.queue.length = 8 ∧ full.routes.missPolicy = .refuse ∧
    full.routes.lookup good.dest good.fn = none ∧ busy0.trunk.queue.length < 8 := by
  and_intros <;> decide +kernel

theorem test_witness_RequestsEndedAtDispatch_entries :
    let s := routed .refuse (busy 7 State.reset)
    let d := routed .drop full
    good.goodOnTrunk = true ∧ good.kind = .req ∧ Dispatching s ∧ OutputLaw s ∧ good.dest ≠ s.trunk.address ∧
    s.routes.lookup good.dest good.fn = some 47 ∧ s.routes.active[47] = some (entry .refuse) ∧
    s.trunk.queue.length < 8 ∧ OutputLaw d ∧ Dispatching d ∧ d.routes.lookup good.dest good.fn = some 47 ∧
    d.routes.active[47] = some (entry .drop) ∧ OutputLaw (routed .refuse full) ∧
    (routed .refuse full).trunk.queue.length = 8 := by
  and_intros <;> decide +kernel

/-- DUPLICATE in slot 15; LENT of segment B; BUSY at a depth of 1. -/
theorem test_witness_ForwardOffersRefused :
    let s := routed .forward (busy 7 State.reset)
    let dup := holding (single .queued .b none 3) s
    let gone := lent .b 100 1 true s
    let deep := holding { single .queued .b none 3 with source := 8 }
      (s.modSeg .b fun g => { g with config := { g.config with depth := 1 } })
    Dispatching s ∧ OutputLaw s ∧ good.dest ≠ s.trunk.address ∧ s.routes.lookup good.dest good.fn = some 47 ∧
    s.routes.active[47] = some (entry .forward) ∧ OutputLaw dup ∧
    (dup.exchange.record 15).map Record.pair = some (good.src, good.tag) ∧
    (∀ slot : Slot, (gone.exchange.record slot).map Record.pair ≠ some (good.src, good.tag)) ∧
    gone.segB.lentExpired = true ∧ deep.segB.lentExpired = false ∧
    (∀ slot : Slot, (deep.exchange.record slot).map Record.pair ≠ some (good.src, good.tag)) ∧
    deep.segB.config.depth.toNat ≤ (deep.exchange.standing .b).length ∧
    OutputLaw (routed .forward full) ∧ (routed .forward full).trunk.queue.length = 8 := by
  and_intros <;> decide +kernel

/-- A sequencer in GUARD and one in IDLE; slot 0 is the lowest FREE slot. -/
theorem test_witness_ForwardIsAdmitted :
    let s := routed .forward State.reset
    let g := guarding .b s
    Dispatching s ∧ ExchangeLaw s ∧ good.goodOnTrunk = true ∧ good.kind = .req ∧ good.dest ≠ s.trunk.address ∧
    s.routes.lookup good.dest good.fn = some 47 ∧ s.routes.active[47] = some (entry .forward) ∧
    (∀ j : Slot, (s.exchange.record j).map Record.pair ≠ some (good.src, good.tag)) ∧
    s.segB.lentExpired = false ∧ s.exchange.record 0 = none ∧ (∀ j : Slot, j < 0 → s.exchange.record j ≠ none) ∧
    (s.exchange.standing .b).length < s.segB.config.depth.toNat ∧ s.segB.state = .idle ∧
    Dispatching g ∧ ExchangeLaw g ∧ g.segB.state ≠ .idle ∧
    (g.exchange.standing .b).length < g.segB.config.depth.toNat := by
  and_intros <;> decide +kernel

/-- DUPLICATE in slot 15; both segments LENT, at 0 and at 8 frames queued; BUSY at a depth of 1 on segment B, and with
segment B lent-expired on segment A alone. -/
theorem test_witness_FanoutIsAdmitted_refused :
    let s := routed .fanout State.reset
    let dup := guarding .a (guarding .b (holding (broadcast .queued SegSet.both) s))
    let both := fun t => lent .a 100 1 true (lent .b 100 1 true (routed .fanout t))
    let deep := fun x => guarding x ((holding { single .queued x none 3 with source := 8 } s).modSeg x fun g =>
      { g with config := { g.config with depth := 1 } })
    let alone := lent .b 100 1 true (deep .a)
    good.goodOnTrunk = true ∧ good.kind = .req ∧ Dispatching dup ∧ ExchangeLaw dup ∧ good.dest ≠ dup.trunk.address ∧
    dup.routes.lookup good.dest good.fn = some 47 ∧ dup.routes.active[47] = some (entry .fanout) ∧
    (dup.exchange.record 15).map Record.pair = some (good.src, good.tag) ∧
    ExchangeLaw (both State.reset) ∧ (both State.reset).segA.lentExpired = true ∧
    (both State.reset).segB.lentExpired = true ∧ (both State.reset).trunk.queue.length < 8 ∧
    (∀ j : Slot, ((both State.reset).exchange.record j).map Record.pair ≠ some (good.src, good.tag)) ∧
    Dispatching (both full) ∧ ExchangeLaw (both full) ∧ (both full).trunk.queue.length = 8 ∧
    ExchangeLaw (deep .b) ∧ (deep .b).segA.lentExpired = false ∧ (deep .b).segB.lentExpired = false ∧
    (∀ j : Slot, ((deep .b).exchange.record j).map Record.pair ≠ some (good.src, good.tag)) ∧
    (deep .b).segB.config.depth.toNat ≤ ((deep .b).exchange.standing .b).length ∧
    ExchangeLaw alone ∧ alone.segB.lentExpired = true ∧ alone.segA.lentExpired = false ∧
    alone.segA.config.depth.toNat ≤ (alone.exchange.standing .a).length := by
  and_intros <;> decide +kernel

/-- Both sequencers in IDLE; one in GUARD; one lent-expired beside one in GUARD. -/
theorem test_witness_FanoutIsAdmitted :
    let s := routed .fanout State.reset
    let g := guarding .a s
    let l := lent .a 100 1 true (guarding .b s)
    let ready := fun t : State => Dispatching t ∧ ExchangeLaw t ∧ t.routes.lookup good.dest good.fn = some 47 ∧
      t.routes.active[47] = some (entry .fanout) ∧ t.exchange.record 0 = none ∧
      (∀ j : Slot, (t.exchange.record j).map Record.pair ≠ some (good.src, good.tag)) ∧
      (∀ x : Seg, (t.seg x).lentExpired = false → (t.exchange.standing x).length < (t.seg x).config.depth.toNat)
    ready s ∧ s.segA.state = .idle ∧ s.segB.state = .idle ∧ s.segA.lentExpired = false ∧
    ready g ∧ g.segA.state ≠ .idle ∧ g.segB.state = .idle ∧
    ready l ∧ l.segA.lentExpired = true ∧ l.segB.lentExpired = false ∧ l.segB.state ≠ .idle ∧
    good.goodOnTrunk = true ∧ good.kind = .req ∧ good.dest ≠ s.trunk.address ∧ (entry .fanout).action = .fanout := by
  and_intros <;> first | decide +kernel | (intro x; cases x <;> decide +kernel)

theorem test_witness_DiscardedTrunkFrames : Dispatching State.reset ∧ { good with kind := .rpt }.goodOnTrunk = true ∧
    { good with kind := .rack }.dest ≠ State.reset.trunk.address ∧ Acting bound ∧
    bound.trunk.softResetPending = true ∧ good.goodOnTrunk = true ∧ good.kind = .req ∧
    good.dest ≠ bound.trunk.address ∧ (request []).ok = true := by
  and_intros <;> decide +kernel

/-- Batch 255 acknowledged with the transmitter busy (a record, or the OVERFLOW record, in the batch), and at rest with
no class enabled; at rest with an eligible record left, and with the OVERFLOW record and a carry, which is eligible
then; and a RACK of another number or in another mode. -/
theorem test_witness_RackIsJudged :
    let s := reporting (outstanding .unsolicited [inputRecord 15 (.inBatch 255)]) busy0
    let o := reporting (outstanding .unsolicited [overflowIn (.inBatch 255)]) busy0
    let e := reporting (fun r => { outstanding .unsolicited [inputRecord 15 (.inBatch 255)] r with enables := 0 })
      State.reset
    let m := reporting (outstanding .unsolicited [inputRecord 15 (.inBatch 255), inputRecord 15 .waiting]) State.reset
    let c := reporting (fun r => { outstanding .unsolicited [overflowIn (.inBatch 255)] r with carry := ⟨255, 3, 4⟩ })
      State.reset
    Dispatching s ∧ OutputLaw s ∧ (request []).ok = true ∧ s.reporter.mode = .unsolicited ∧
    s.reporter.outstanding = some 255 ∧ s.trunk.tx ≠ .idle ∧ o.trunk.tx ≠ .idle ∧
    Dispatching e ∧ OutputLaw e ∧ e.trunk.tx = .idle ∧ NothingEligible e.reporter.acknowledged ∧
    Dispatching m ∧ OutputLaw m ∧ m.trunk.tx = .idle ∧ m.reporter.destination = some 9 ∧
    m.reporter.acknowledged.queue = [inputRecord 15 .waiting] ∧
    m.reporter.acknowledged.enables.getLsbD (inputRecord 15 .waiting).cls.val = true ∧
    Dispatching c ∧ OutputLaw c ∧ c.trunk.tx = .idle ∧ c.reporter.destination = some 9 ∧
    c.reporter.acknowledged.queue = [⟨.gateway, 0, .overflow, .absent, 255, 3, 4, .waiting⟩] ∧
    c.reporter.acknowledged.carry = ⟨0, 0, 0⟩ ∧ c.reporter.acknowledged.enables.getLsbD 0 = true ∧
    s.reporter.outstanding ≠ some 254 ∧ State.reset.reporter.mode ≠ .unsolicited := by
  and_intros <;> decide +kernel

theorem test_witness_FullQueueDiscardsCommands : Dispatching full ∧ (request []).ok = true ∧
    8 ≤ full.trunk.queue.length := by
  and_intros <;> decide +kernel

/-- An unknown function, a length one above, and every first field at the edge of its range or one beyond. -/
theorem test_witness_UnknownAndWrongLengthRefused : Ready (busy 7 State.reset) (request [0]) ∧
    OutputLaw (busy 7 State.reset) ∧ commandLength 0x03 = none ∧ commandLength 0x7F = some 0 ∧
    (request [0]).payload.length ≠ 0 := by
  and_intros <;> decide +kernel

theorem test_witness_FirstFieldOutOfRangeRefused : Ready State.reset (request [15, 15, 3, 4]) ∧ OutputLaw State.reset ∧
    commandLength 0x31 = some (request [15, 15, 3, 4]).payload.length ∧
    ¬ fieldInRange 0x31 (request [15, 15, 3, 4]).payload 3 ∧
    (∀ o, o < 3 → fieldInRange 0x31 (request [15, 15, 3, 4]).payload o) := by
  refine ⟨by decide +kernel, by decide +kernel, by decide, ?_, ?_⟩
  · simp [fieldInRange, request]
  · intro o h
    match o, h with
    | 0, _ => simp [fieldInRange, request]
    | 1, _ => simp [fieldInRange, request]
    | 2, _ => simp [fieldInRange, request]

theorem test_witness_ReadCommandsReply :
    let s := routed .forward (busy 7 State.reset)
    Ready s (request [0, 47]) ∧ OutputLaw s ∧ (47#8).toNat < 48 ∧ s.routes.active[47] = some (entry .forward) ∧
    s.routes.staged[47] = none ∧ Ready s (request []) ∧ (request []).payload = [] ∧
    Ready s (request [2]) ∧ (request [2]).payload = [if Seg.b = .a then 1 else 2] := by
  and_intros <;> decide +kernel

theorem test_witness_CountersReadAndCleared : Ready State.reset (request [0, 1]) ∧ OutputLaw State.reset ∧
    (1#8).toNat ≤ 1 ∧ (request [0, 1]).payload = [0, 1] ∧
    (request [2, 0]).payload = [if Seg.b = .a then 1 else 2, 0] := by
  and_intros <;> decide +kernel

/-- FORWARD at every edge of its fields, and action 0 over a valid entry. -/
theorem test_witness_StageEntryWrites :
    let r := request [47, 1, 254, 0, 7, 253, 0, 1, 3, 0]
    let e := request [47, 0, 0, 1, 255, 255, 0, 0, 255, 0]
    Ready State.reset r ∧ OutputLaw State.reset ∧ (47#8).toNat < 48 ∧ (1#8 : Byte) = actionCode .forward ∧
    (∀ o, o < 10 → fieldInRange 0x10 r.payload o) ∧ Ready State.reset e ∧
    (∀ o, o < 10 → fieldInRange 0x10 e.payload o) := by
  refine ⟨by decide +kernel, by decide +kernel, by decide, by decide, ?_, by decide +kernel, ?_⟩ <;>
  · intro o h
    match o, h with
    | 0, _ => simp [fieldInRange, request]
    | 1, _ => simp [fieldInRange, request]
    | 2, _ => simp [fieldInRange, request]
    | 3, _ => simp [fieldInRange, request]
    | 4, _ => simp [fieldInRange, request]
    | 5, _ => simp [fieldInRange, request]
    | 6, _ => simp [fieldInRange]
    | 7, _ => simp [fieldInRange, request]
    | 8, _ => simp [fieldInRange, request]
    | 9, _ => simp [fieldInRange]

theorem test_witness_ClearStageEmpties : Ready State.reset (request []) ∧ Ready State.reset (request [0]) ∧
    OutputLaw State.reset ∧ (request []).payload = [] ∧ (request [0]).payload ≠ [] := by
  and_intros <;> decide +kernel

/-- A stale generation; an entry for the gateway address at index 47; the empty staged bank. -/
theorem test_witness_CommitInThreeSteps :
    let bad := { State.reset with routes := { State.reset.routes with
      staged := State.reset.routes.staged.set 47 (some { entry .forward with trunkAddress := 254 }) } }
    Ready State.reset (request [0xFF, 0xFF]) ∧ OutputLaw State.reset ∧
    State.reset.routes.generation ≠ 0xFF#8 ++ 0xFF#8 ∧ Ready bad (request [0, 0]) ∧ OutputLaw bad ∧
    bad.routes.generation = 0#8 ++ 0#8 ∧
    bad.routes.staged[47] = some { entry .forward with trunkAddress := 254 } ∧ bad.trunk.address = 254 ∧
    (∀ k : Fin 48, k < 47 → bad.routes.staged[k] = none) ∧ KeysDistinct State.reset.routes.staged ∧
    (∀ i : Fin 48, (State.reset.routes.staged[i]).map RouteEntry.trunkAddress ≠ some State.reset.trunk.address) := by
  and_intros <;> decide +kernel

theorem test_witness_MissPolicyIsSet : Dispatching full ∧ (request [1]).ok = true ∧ OutputLaw full ∧
    full.trunk.queue.length = 8 ∧ OutputLaw (busy 7 State.reset) ∧ (busy 7 State.reset).trunk.queue.length < 8 ∧
    (request []).payload.length ≠ 1 ∧ 1 < (2#8).toNat ∧ (request [1]).payload = [1] ∧ (1#8).toNat ≤ 1 := by
  and_intros <;> decide +kernel

/-- QUEUED with 0 and with 7 frames queued; served in SEND; and a pair no record has. -/
theorem test_witness_AbortEndsTheExchange :
    let r := request [9, 3]
    let q := guarding .a (holding (single .queued .a none 3) State.reset)
    let q7 := guarding .a (holding (single .queued .a none 3) (busy 7 State.reset))
    let snd := sending .a (some 15) (holding (single .active .a (some 31) 3) (busy 6 State.reset))
    Ready q r ∧ ExchangeLaw q ∧ r.payload = [9, 3] ∧ q.trunk.tx = .idle ∧ q.served 15 = false ∧
    q.exchange.record 15 = some (single .queued .a none 3) ∧ ExchangeLaw State.reset ∧
    ExchangeLaw snd ∧ Ready snd r ∧ snd.segA.current = some 15 ∧ snd.segB.current ≠ some 15 ∧
    snd.segA.state = .send ∧ snd.trunk.queue.length < 7 ∧
    ExchangeLaw q7 ∧ Ready q7 r ∧ q7.trunk.queue.length = 7 ∧ q7.trunk.tx ≠ .idle ∧ q7.served 15 = false := by
  and_intros <;> decide +kernel

/-- A BROADCAST record served on both segments, and on one with 7 frames queued; WAIT, with and without a drain, with 0
and with 7 frames queued. -/
theorem test_witness_AbortEndsTheExchange_served :
    let r := request [9, 3]
    let both := sending .a (some 15) (sending .b (some 15) (holding (broadcast .active SegSet.both) State.reset))
    let one := sending .b (some 15) (guarding .a (holding (broadcast .active SegSet.both) (busy 7 State.reset)))
    let w7 := waiting .a 0 (holding (single .active .a (some 31) 3) (busy 7 State.reset))
    let d := draining .a (inWait 3)
    let d7 := draining .a w7
    Ready both r ∧ ExchangeLaw both ∧ both.segA.current = some 15 ∧ both.segB.current = some 15 ∧
    Ready one r ∧ ExchangeLaw one ∧ one.segB.current = some 15 ∧ one.segA.current ≠ some 15 ∧
    one.segB.state = .send ∧ one.trunk.queue.length = 7 ∧
    Ready (inWait 3) r ∧ ExchangeLaw (inWait 3) ∧ (inWait 3).segA.state = .wait ∧
    (inWait 3).segA.drainRequested = false ∧ Ready w7 r ∧ ExchangeLaw w7 ∧ w7.segA.current = some 15 ∧
    w7.segA.state = .wait ∧ Ready d r ∧ ExchangeLaw d ∧ d.segA.current = some 15 ∧ d.segA.state = .wait ∧
    d.segA.drainRequested = true ∧ Ready d7 r ∧ ExchangeLaw d7 ∧ d7.trunk.queue.length = 7 ∧
    d7.segA.drainRequested = true := by
  and_intros <;> decide +kernel

/-- A SINGLE record in WAIT, with and without a drain; a BROADCAST record pending on both. -/
theorem test_witness_LineResetClearsTheSegment :
    let r := request [1]
    let b := guarding .a (guarding .b (holding (broadcast .queued SegSet.both) State.reset))
    Ready (inWait 3) r ∧ ExchangeLaw (inWait 3) ∧ r.payload = [if Seg.a = .a then 1 else 2] ∧
    (inWait 3).exchange.record 15 = some (single .active .a (some 31) 3) ∧
    (single .active .a (some 31) 3).standsOn .a = true ∧ (inWait 3).segA.state = .wait ∧
    ExchangeLaw (draining .a (inWait 3)) ∧ (draining .a (inWait 3)).segA.drainRequested = true ∧
    Ready (draining .a (inWait 3)) r ∧ (draining .a (inWait 3)).segA.state = .wait ∧
    (inWait 3).segA.drainRequested = false ∧
    ExchangeLaw b ∧ Ready b r ∧ (broadcast .queued SegSet.both).standsOn .a = true ∧
    (SegSet.both.remove .a).isEmpty = false ∧ b.segA.state ≠ .wait := by
  and_intros <;> decide +kernel

/-- Busy, IDLE, LENT below its patience and LENT at it, at the edges of every range. -/
theorem test_witness_SetSegmentAppliesOrDefers :
    let r := request [1, 7, 2, 15, 15, 16, 255]
    Ready (guarding .a State.reset) r ∧ OutputLaw (guarding .a State.reset) ∧ SegmentsLaw (guarding .a State.reset) ∧
    (guarding .a State.reset).segA.state ≠ .idle ∧ (2#8 : Byte) = parityCode .odd ∧
    Ready State.reset r ∧ SegmentsLaw State.reset ∧ State.reset.segA.state = .idle ∧
    (BitVec.ofNat 3 7 ≠ State.reset.segA.config.rate) ∧
    SegmentsLaw (lent .a 25499 0 false State.reset) ∧
    (lent .a 25499 0 false State.reset).segA.lentTime = some 25499 ∧ 25499 < (255#8).toNat * 100 ∧
    Ready (lent .a 25500 0 false State.reset) r ∧ ExchangeLaw (lent .a 25500 0 false State.reset) ∧
    (lent .a 25500 0 false State.reset).segA.state = .lent ∧
    (lent .a 25500 0 false State.reset).segA.lentExpired = false ∧ (255#8 : Byte) ≠ 0 ∧
    (lent .a 25500 0 false State.reset).segA.lentTime = some 25500 ∧ (255#8).toNat * 100 ≤ 25500 ∧
    (lent .a 25500 255 true State.reset).segA.lentExpired = true ∧
    BitVec.ofNat 3 3 = State.reset.segA.config.rate ∧ Parity.none = State.reset.segA.config.parity ∧
    r.payload = [if Seg.a = .a then 1 else 2, 7, 2, 15, 15, 16, 255] := by
  and_intros <;> decide +kernel

theorem test_witness_SetSegmentAppliesOrDefers_ranges :
    ∀ o, o < 7 → fieldInRange 0x23 (request [1, 7, 2, 15, 15, 16, 255]).payload o := by
  intro o h
  match o, h with
  | 0, _ => simp [fieldInRange, request]
  | 1, _ => simp [fieldInRange, request]
  | 2, _ => simp [fieldInRange, request]
  | 3, _ => simp [fieldInRange, request]
  | 4, _ => simp [fieldInRange, request]
  | 5, _ => simp [fieldInRange, request]
  | 6, _ => simp [fieldInRange]

theorem test_witness_InputCommands : Ready State.reset (request [1]) ∧ OutputLaw State.reset ∧ (1#8).toNat ≤ 1 ∧
    Ready State.reset (request [15, 15, 3, 3]) ∧ (request [15, 15, 3, 3]).payload = [BitVec.ofNat 8 15, 15, 3, 3] ∧
    (15#8).toNat ≤ 15 ∧ (3#8 : Byte) = edgeCode .both ∧ (3#8).toNat < 4 ∧
    Ready State.reset (request [3]) ∧ (3#8).toNat ≤ 3 := by
  and_intros <;> decide +kernel

/-- Nothing outstanding; batch 255 outstanding with the OVERFLOW record in it, a carry, and two records of line 15; and
with a WAITING OVERFLOW record. -/
theorem test_witness_ReportControlSets :
    let s := reporting (fun r =>
      { outstanding .polled [inputRecord 15 (.inBatch 255), overflowIn (.inBatch 255), inputRecord 15 .waiting] r with
        carry := { count := 255, first := 3, last := 4 } }) State.reset
    let w := reporting (outstanding .polled [inputRecord 15 (.inBatch 255), overflowIn .waiting]) State.reset
    Ready s (request [2, 15, 1]) ∧ OutputLaw s ∧ ReporterLaw s ∧ (2#8 : Byte) = modeCode .unsolicited ∧
    (15#8).toNat ≤ 15 ∧ (1#8 : Byte) ≠ 0 ∧ s.reporter.outstanding ≠ none ∧
    (∃ q ∈ s.reporter.queue, q.code = .overflow ∧ q.status ≠ .waiting) ∧
    Ready w (request [2, 15, 1]) ∧ OutputLaw w ∧ ReporterLaw w ∧
    (∀ q ∈ w.reporter.queue, q.code = .overflow → q.status = .waiting) ∧
    s.reporter.abandonedQueue = [{ inputRecord 15 .waiting with count := 15 },
      { overflowIn .waiting with count := 255, last := 4 }] ∧
    ReporterLaw State.reset ∧ State.reset.reporter.outstanding = none := by
  and_intros <;> decide +kernel

/-- OFF, UNSOLICITED, a batch outstanding named and not named, the OVERFLOW record in it without a carry, and nothing to
return. -/
theorem test_witness_FetchReportsReply :
    let s := reporting (outstanding .polled [inputRecord 15 (.inBatch 255)]) State.reset
    let o := reporting (outstanding .polled [overflowIn (.inBatch 255)]) State.reset
    let d := reporting (fun r => { outstanding .polled [inputRecord 15 (.inBatch 255), inputRecord 15 .waiting] r with
      enables := 7 }) State.reset
    let e := reporting (fun r => { r with queue := [] }) State.reset
    Ready s (request [255]) ∧ OutputLaw s ∧ BatchLaw s.reporter ∧ s.reporter.mode = .polled ∧
    s.reporter.outstanding = some 255 ∧ (254#8 : Byte) ≠ 255 ∧ NothingEligible s.reporter.acknowledged ∧
    BatchLaw o.reporter ∧ o.reporter.outstanding = some 255 ∧ NothingEligible o.reporter.acknowledged ∧
    BatchLaw d.reporter ∧ d.reporter.outstanding = some 255 ∧ d.reporter.acknowledged.queue ≠ [] ∧
    NothingEligible d.reporter.acknowledged ∧
    BatchLaw e.reporter ∧ e.reporter.outstanding = none ∧ NothingEligible e.reporter ∧
    (reporting (fun r => { r with mode := .off }) State.reset).reporter.mode = .off ∧
    BatchLaw (reporting unsolicited State.reset).reporter := by
  and_intros <;> decide +kernel

/-- Nothing outstanding and the record of the reset eligible; and batch 255 acknowledged with an eligible record left, and
with the OVERFLOW record and a carry of 255, which is eligible then. -/
theorem test_witness_BatchTakesByClassThenAge :
    let s := reporting (fun r => { r with nextBatch := 255 }) State.reset
    let m := reporting (outstanding .polled [inputRecord 15 (.inBatch 255), inputRecord 15 .waiting]) State.reset
    let c := reporting (fun r => { outstanding .polled [overflowIn (.inBatch 255)] r with carry := ⟨255, 3, 4⟩ })
      State.reset
    Ready s (request [0]) ∧ OutputLaw s ∧ BatchLaw s.reporter ∧ s.reporter.mode = .polled ∧
    s.reporter.outstanding = none ∧
    (∃ q ∈ s.reporter.queue, q.status = .waiting ∧ s.reporter.enables.getLsbD q.cls.val = true) ∧
    Ready m (request [255]) ∧ OutputLaw m ∧ BatchLaw m.reporter ∧ m.reporter.mode = .polled ∧
    m.reporter.outstanding = some 255 ∧
    (∃ q ∈ m.reporter.acknowledged.queue, q.status = .waiting ∧
      m.reporter.acknowledged.enables.getLsbD q.cls.val = true) ∧
    Ready c (request [255]) ∧ OutputLaw c ∧ BatchLaw c.reporter ∧ c.reporter.outstanding = some 255 ∧
    (∃ q ∈ c.reporter.acknowledged.queue, q.status = .waiting ∧
      c.reporter.acknowledged.enables.getLsbD q.cls.val = true) := by
  and_intros <;> decide +kernel

theorem test_witness_GatewayResetIsAccepted : Ready (busy 7 State.reset) (request []) ∧ OutputLaw (busy 7 State.reset) ∧
    (request []).payload = [] := by
  and_intros <;> decide +kernel

/-- A frame waits; a reply waits COMPLETE behind 8 frames; nothing waits. -/
theorem test_witness_EndOfTransmissionSendsNext :
    let c := holding (single (.complete ⟨.nak, [0x23]⟩) .a none 3) full
    Acting full ∧ full.trunk.tx = .sending queued0 ∧ full.trunk.softResetPending = false ∧
    full.trunk.queue = queued0 :: List.replicate 7 queued0 ∧ full.exchange.completion = [] ∧
    c.exchange.completion = [15] ∧ c.trunk.tx = .sending queued0 ∧
    c.exchange.record 15 = some (single (.complete ⟨.nak, [0x23]⟩) .a none 3) ∧
    busy0.trunk.queue = [] ∧ busy0.reporter.mode ≠ .unsolicited := by
  and_intros <;> decide +kernel

/-- A new batch after a trunk frame and after an acknowledged report frame; a resend; the end of a report frame with its
batch outstanding. -/
theorem test_witness_ReporterIsGranted :
    let s := reporting unsolicited busy0
    let n := reporting unsolicited { State.reset with trunk := { State.reset.trunk with tx := .reporting frame0 } }
    let d := reporting (fun r => { outstanding .unsolicited [inputRecord 15 (.inBatch 255)] r with
      resendDue := true, sendCount := 7 }) busy0
    let e := reporting (fun r => { outstanding .unsolicited [inputRecord 15 (.inBatch 255)] r with sending := true })
      { State.reset with trunk := { State.reset.trunk with tx := .reporting frame0 } }
    Acting s ∧ s.trunk.tx = .sending queued0 ∧ s.trunk.softResetPending = false ∧ s.trunk.queue = [] ∧
    s.reporter.mode = .unsolicited ∧ s.reporter.destination = some 9 ∧ s.reporter.state = .idle ∧
    BatchLaw s.reporter ∧
    (∃ q ∈ s.reporter.queue, q.status = .waiting ∧ s.reporter.enables.getLsbD q.cls.val = true) ∧
    Acting n ∧ n.trunk.tx = .reporting frame0 ∧ n.reporter.state = .idle ∧ n.trunk.queue = [] ∧ BatchLaw n.reporter ∧
    d.reporter.state = .outstanding ∧ d.reporter.resendDue = true ∧ d.reporter.outstanding = some 255 ∧
    d.trunk.queue = [] ∧ Acting e ∧ e.trunk.tx = .reporting frame0 ∧ e.trunk.queue = [] ∧
    e.reporter.state = .outstanding ∧ e.reporter.resendDue = false ∧ e.reporter.sending = true := by
  and_intros <;> decide +kernel

/-- The end of a report frame with frames queued, with and without a reply that waits COMPLETE. -/
theorem test_witness_ReporterIsGranted_queued :
    let on := fun s : State => reporting (fun r =>
      { outstanding .unsolicited [inputRecord 15 (.inBatch 255)] r with sending := true })
      { s with trunk := { s.trunk with tx := .reporting frame0 } }
    let c := on (holding (single (.complete ⟨.nak, [0x23]⟩) .a none 3) full)
    Acting (on full) ∧ (on full).trunk.tx = .reporting frame0 ∧
    (on full).trunk.queue = queued0 :: List.replicate 7 queued0 ∧ (on full).exchange.completion = [] ∧
    c.trunk.queue = queued0 :: List.replicate 7 queued0 ∧ c.exchange.completion = [15] ∧
    c.exchange.record 15 = some (single (.complete ⟨.nak, [0x23]⟩) .a none 3) ∧ c.reporter.sending = true := by
  and_intros <;> decide +kernel

theorem test_witness_ReportTimerExpires :
    let s := fun n tx => reporting (fun r => { outstanding .unsolicited [inputRecord 15 (.inBatch 255)] r with
      timer := some 0, sendCount := n }) { State.reset with trunk := { State.reset.trunk with tx := tx } }
    Acting (s 7 .idle) ∧ OutputLaw (s 7 .idle) ∧ (s 7 .idle).reporter.state = .outstanding ∧
    (s 7 .idle).reporter.timer = some 0 ∧ (s 7 .idle).reporter.sendCount < 8 ∧
    (s 7 .idle).reporter.destination = some 9 ∧ (s 7 .idle).reporter.outstanding = some 255 ∧
    OutputLaw (s 7 (.reporting frame0)) ∧ (s 7 (.reporting frame0)).trunk.tx ≠ .idle ∧
    (s 8 .idle).reporter.sendCount = 8 ∧ State.reset.reporter.timer ≠ some 0 := by
  and_intros <;> decide +kernel

theorem test_witness_EndOfAttemptTransmission :
    let s := sending .b (some 15) (holding (single .active .b (some 31) 3) State.reset)
    Acting s ∧ s.segB.state = .send ∧ s.segB.current = some 15 ∧
    s.exchange.record 15 = some (single .active .b (some 31) 3) ∧ s.segA.state ≠ .send ∧
    (sending .a none State.reset).segA.current = none ∧ (sending .a none State.reset).segA.drainRequested = false := by
  and_intros <;> decide +kernel

/-- The other segment pending, served and not; none pending after this delivery, with 7 and with 8 frames queued. -/
theorem test_witness_BroadcastIsDelivered :
    let s := guarding .b (sending .a (some 15) (holding (broadcast .active SegSet.both) State.reset))
    let p := sending .b (some 15) (sending .a (some 15) (holding (broadcast .active SegSet.both) State.reset))
    let l := fun n => sending .a (some 15) (holding (broadcast .active ⟨true, false⟩) (busy n State.reset))
    Acting s ∧ ExchangeLaw s ∧ s.segA.state = .send ∧ s.segA.current = some 15 ∧
    s.exchange.record 15 = some (broadcast .active SegSet.both) ∧ (SegSet.both.remove .a).isEmpty = false ∧
    s.segA.drainRequested = false ∧ Acting p ∧ ExchangeLaw p ∧ p.segB.current = some 15 ∧
    Acting (l 7) ∧ ExchangeLaw (l 7) ∧ (SegSet.remove ⟨true, false⟩ .a).isEmpty = true ∧
    (l 7).trunk.queue.length < 8 ∧ ExchangeLaw (l 8) ∧ (l 8).trunk.queue.length = 8 := by
  and_intros <;> decide +kernel

theorem test_witness_MatchingFrameCompletes :
    let f := answer .nak
    let w := waiting .a 0 (holding (single .active .a (some 31) 0) full)
    Acting (inWait 0) ∧ OutputLaw (inWait 0) ∧ f.goodOnSegment = true ∧ (inWait 0).segA.state = .wait ∧
    (inWait 0).segA.current = some 15 ∧ (inWait 0).exchange.record 15 = some (single .active .a (some 31) 0) ∧
    f.kind = .nak ∧ f.src = (single .active .a (some 31) 0).segAddress ∧ f.dest = 254 ∧ some 31 = some f.tag ∧
    (inWait 0).segA.drainRequested = false ∧ (inWait 0).trunk.queue.length < 8 ∧
    OutputLaw w ∧ w.trunk.queue.length = 8 ∧ (answer .rsp).kind = .rsp := by
  and_intros <;> decide +kernel

/-- In IDLE any frame; in WAIT one of the wrong tag. -/
theorem test_witness_StrayFramesAreCounted :
    Acting State.reset ∧ good.goodOnSegment = true ∧ State.reset.segB.state ≠ .send ∧ State.reset.segB.state ≠ .lent ∧
    State.reset.segB.state ≠ .wait ∧ (inWait 0).segA.state = .wait ∧
    { answer .rsp with tag := 30 }.goodOnSegment = true ∧
    (some 31 : Option Tag) ≠ some { answer .rsp with tag := 30 }.tag := by
  and_intros <;> decide +kernel

theorem test_witness_FailedAttempt :
    Acting (inWait 3) ∧ OutputLaw (inWait 3) ∧ (inWait 3).segA.state = .wait ∧ (inWait 3).segA.current = some 15 ∧
    (inWait 3).exchange.record 15 = some (single .active .a (some 31) 3) ∧ (inWait 3).segA.drainRequested = false ∧
    (inWait 3).segA.responseTimer = some 0 ∧ OutputLaw (inWait 0) ∧ (inWait 0).trunk.queue.length < 8 ∧
    OutputLaw (waiting .a 0 (holding (single .active .a (some 31) 0) full)) ∧
    (waiting .a 0 (holding (single .active .a (some 31) 0) full)).trunk.queue.length = 8 ∧
    (waiting .a 1 (inWait 3)).segA.responseTimer ≠ some 0 := by
  and_intros <;> decide +kernel

/-- GUARD and RESUME: nothing waiting with and without a pending configuration, and a waiting record. -/
theorem test_witness_GuardExpiryTakesWork :
    let s := guarding .a State.reset
    let p := pendingSet .a (resuming .a State.reset)
    let w := guarding .a (holding (single .queued .a none 3) State.reset)
    Acting s ∧ ExchangeLaw s ∧ s.segA.state = .guard ∧ s.exchange.standing .a = [] ∧ s.segA.pendingConfig = none ∧
    ExchangeLaw p ∧ p.segA.state = .resume ∧ p.segA.pendingConfig = some ⟨7, .odd, 15, 15, 16, 255⟩ ∧
    p.exchange.standing .a = [] ∧ ExchangeLaw w ∧ w.exchange.standing .a = [15] ∧
    w.exchange.record 15 = some (single .queued .a none 3) ∧ s.segB.state ≠ .guard ∧ s.segB.state ≠ .resume := by
  and_intros <;> decide +kernel

/-- At the patience with a SINGLE and with a BROADCAST record; one below it, with patience 0, and once expired. -/
theorem test_witness_PatienceExpiryAnswersLent :
    let s := lent .a 25500 255 false (holding (single .queued .a none 3) State.reset)
    let b := guarding .b (lent .a 100 1 false (holding (broadcast .queued SegSet.both) State.reset))
    Acting s ∧ ExchangeLaw s ∧ PatienceReached s.segA ∧ (single .queued .a none 3).standsOn .a = true ∧
    ExchangeLaw b ∧ PatienceReached b.segA ∧ (broadcast .queued SegSet.both).standsOn .a = true ∧
    (SegSet.both.remove .a).isEmpty = false ∧ ¬ PatienceReached (lent .a 99 1 false State.reset).segA ∧
    ¬ PatienceReached (lent .a 25500 0 false State.reset).segA ∧
    ¬ PatienceReached (lent .a 100 1 true State.reset).segA := by
  and_intros <;> decide +kernel

theorem test_witness_SampleQualifiesLevels : Acting State.reset ∧ ExchangeLaw State.reset := by
  and_intros <;> decide +kernel

/-- Line 15 one sample before an accepted change, covered by its edge select and not covered; in POLLED mode, and in
UNSOLICITED mode with the transmitter IDLE and the reporter IDLE, or with a batch outstanding whose resend is due, or
not due. -/
theorem test_witness_AcceptedChangeIsReported :
    let s := fun e => qualifying e State.reset
    let u := reporting unsolicited (s .both)
    let d := fun due => reporting (fun r => { outstanding .unsolicited [inputRecord 15 (.inBatch 255)] r with
      resendDue := due }) (s .both)
    let n : Fin 16 := 15
    Acting (s .both) ∧ OutputLaw (s .both) ∧ SegmentsLaw (s .both) ∧ true = (0x8000#16).getLsbD n.val ∧
    (s .both).reporter.mode ≠ .unsolicited ∧
    (∀ m : Fin 16, m ≠ n → ((s .both).inputs.lines[m]).baselineDue = true) ∧
    ((s .both).inputs.lines[n]).baselineDue = false ∧ true ≠ ((s .both).inputs.lines[n]).accepted ∧
    ((s .both).inputs.lines[n]).qualification.toNat ≤ ((s .both).inputs.lines[n]).run ∧
    ((s .fall).inputs.lines[n]).edge = .fall ∧ ((s .none).inputs.lines[n]).edge = .none ∧
    ((s .rise).inputs.lines[n]).edge = .rise ∧ ((s .both).inputs.lines[n]).edge = .both ∧
    Acting u ∧ OutputLaw u ∧ SegmentsLaw u ∧ BatchLaw u.reporter ∧ u.trunk.tx = .idle ∧
    u.reporter.mode = .unsolicited ∧ u.reporter.destination = some 9 ∧ u.reporter.state = .idle ∧
    Acting (d true) ∧ OutputLaw (d true) ∧ SegmentsLaw (d true) ∧ (d true).trunk.tx = .idle ∧
    (d true).reporter.destination = some 9 ∧ (d true).reporter.state = .outstanding ∧
    (d true).reporter.resendDue = true ∧ (d true).reporter.outstanding = some 255 ∧
    OutputLaw (d false) ∧ (d false).reporter.resendDue = false := by
  and_intros <;> decide +kernel

/-- Each row of `EventTaken` for an event of line 15: mode OFF, a disabled class, a WAITING record of the line, room,
and 31 ordinary records with no OVERFLOW record, with it WAITING, and with it IN-BATCH. -/
theorem test_witness_EventTaken :
    let rep := (qualifying .both State.reset).reporter
    let held := List.replicate 31 (ReportRecord.restart .power 0)
    let e : Event := ⟨.input 15, 3, .rise, .level true, 0⟩
    let waits := fun q : List ReportRecord => ∃ r ∈ q, r.subject = e.subject ∧ r.status = .waiting
    e.subject.isInput = true ∧ ({ rep with mode := .off } : Reporter).mode = .off ∧ rep.mode ≠ .off ∧
    rep.enables.getLsbD e.cls.val = true ∧ ({ rep with enables := 7 } : Reporter).enables.getLsbD e.cls.val = false ∧
    waits [inputRecord 15 .waiting] ∧ ¬ waits rep.queue ∧ ¬ waits [inputRecord 15 (.inBatch 255)] ∧
    rep.queue.countP (fun q => q.code != .overflow) < 31 ∧ ¬ waits (held ++ [overflowIn .waiting]) ∧
    31 ≤ (held ++ [overflowIn .waiting]).countP (fun q => q.code != .overflow) ∧ (∀ q ∈ held, q.code ≠ .overflow) ∧
    (∃ q ∈ held ++ [overflowIn .waiting], q.code = .overflow ∧ q.status = .waiting) ∧
    ¬ waits (held ++ [overflowIn (.inBatch 255)]) ∧
    (∃ q ∈ held ++ [overflowIn (.inBatch 255)], q.code = .overflow) ∧
    (∀ q ∈ held ++ [overflowIn (.inBatch 255)], q.code = .overflow → q.status ≠ .waiting) := by
  and_intros <;> decide +kernel

/-- Assertion in IDLE and in WAIT, deassertion in LENT and while draining: the third sample, every line quiet. -/
theorem test_witness_HoldLendsAndReclaims :
    let hold := fun up s => { s with inputs := { s.inputs with holdA := { asserted := up, run := 2 } } }
    let idle := hold false State.reset
    let resume := hold false (pendingSet .a (resuming .a State.reset))
    let wait := hold false (inWait 3)
    let back := hold true (lent .a 0 0 false State.reset)
    let drop := hold true (draining .a (inWait 3))
    Acting idle ∧ HoldLaw idle ∧ OutputLaw idle ∧ idle.segA.state = .idle ∧
    idle.inputs.holdA = { asserted := !true, run := 2 } ∧ idle.inputs.holdB.asserted = false ∧
    (∀ m : Fin 16, (idle.inputs.lines[m]).baselineDue = true) ∧
    HoldLaw resume ∧ OutputLaw resume ∧ resume.segA.state = .resume ∧ resume.segA.pendingConfig.isSome = true ∧
    HoldLaw wait ∧ OutputLaw wait ∧ wait.segA.state = .wait ∧
    HoldLaw back ∧ OutputLaw back ∧ back.segA.state = .lent ∧
    back.inputs.holdA = { asserted := !false, run := 2 } ∧
    (∀ m : Fin 16, (back.inputs.lines[m]).baselineDue = true) ∧ HoldLaw drop ∧ OutputLaw drop ∧
    drop.segA.state = .wait := by
  and_intros <;> decide +kernel

/-- A SINGLE record in WAIT, with and without retries, with room and with 8 frames queued; and a record taken away. -/
theorem test_witness_DrainEndsInLent :
    let s := draining .a (inWait 3)
    let h := draining .a (waiting .a 0 (holding (single .active .a (some 31) 0) full))
    let e := draining .a (sending .a none State.reset)
    Acting s ∧ ExchangeLaw s ∧ s.segA.drainRequested = true ∧ s.trunk.queue.length < 8 ∧ s.segA.state = .wait ∧
    s.segA.current = some 15 ∧ s.exchange.record 15 = some (single .active .a (some 31) 3) ∧
    s.segA.responseTimer = some 0 ∧ (answer .rsp).goodOnSegment = true ∧ (answer .nak).goodOnSegment = true ∧
    (answer .rsp).src = (single .active .a (some 31) 3).segAddress ∧ (answer .rsp).tag = 31 ∧
    ExchangeLaw (draining .a (inWait 0)) ∧ ExchangeLaw h ∧ h.segA.drainRequested = true ∧
    h.trunk.queue.length = 8 ∧ h.segA.state = .wait ∧ h.segA.responseTimer = some 0 ∧
    ExchangeLaw e ∧ e.segA.drainRequested = true ∧ e.segA.state = .send ∧ e.segA.current = none := by
  and_intros <;> decide +kernel

/-- A BROADCAST delivery, the other segment pending and served, pending and not served, and none pending, with room and
with 8 frames queued. -/
theorem test_witness_DrainEndsInLent_broadcast :
    let s := draining .a (guarding .b (sending .a (some 15) (holding (broadcast .active SegSet.both) State.reset)))
    let p := draining .a (sending .b (some 15) (sending .a (some 15)
      (holding (broadcast .active SegSet.both) State.reset)))
    let l := fun n =>
      draining .a (sending .a (some 15) (holding (broadcast .active ⟨true, false⟩) (busy n State.reset)))
    Acting s ∧ ExchangeLaw s ∧ s.segA.drainRequested = true ∧ s.segA.state = .send ∧ s.segA.current = some 15 ∧
    s.exchange.record 15 = some (broadcast .active SegSet.both) ∧ (SegSet.both.remove .a).isEmpty = false ∧
    ExchangeLaw p ∧ p.segB.current = some 15 ∧ ExchangeLaw (l 0) ∧ ExchangeLaw (l 8) ∧
    (SegSet.remove ⟨true, false⟩ .a).isEmpty = true ∧ (l 0).trunk.queue.length < 8 ∧
    (l 8).trunk.queue.length = 8 := by
  and_intros <;> decide +kernel

/-- A state with work in it keeps every law before a step that changes it, and so does one tick before its patience. -/
theorem test_witness_laws_kept :
    let s := { inWait 0 with pending := [.matchingFrame .a (answer .rsp)] }
    let l := { lent .a 99 1 false State.reset with pending := [.millisecondTick] }
    SegmentsLaw s ∧ HoldLaw s ∧ PatienceLaw s ∧ ExchangeLaw s ∧ ReporterLaw s ∧ ActiveBankLaw s ∧ CountLaw s ∧
    FramersLaw s ∧ InputLaw s.inputs ∧ BoundLaw s ∧ PatienceLaw l ∧ ExchangeLaw l ∧
    (match step s with
      | .next t => decide (t.exchange.admission = [] ∧ t.segA.state = .guard)
      | _ => false) = true := by
  and_intros <;> decide +kernel

/-- A state and a command whose replies are accounted for (R87), and the commands the route table's laws speak of. -/
theorem test_witness_ExchangeLawKept_replies :
    Acting (inWait 0) ∧ ExchangeLaw (inWait 0) ∧ (∀ p, Instr.matchingFrame .a (answer .rsp) ≠ .hardReset p) ∧
    (∀ h, Instr.matchingFrame .a (answer .rsp) ≠ .hardResetBegin h) ∧ (inWait 0).resetBound = false ∧
    (∀ f, Instr.matchingFrame .a (answer .rsp) ≠ .routedRequest f) ∧
    exec (.matchingFrame .a (answer .rsp)) (inWait 0) = .next (after (.matchingFrame .a (answer .rsp)) (inWait 0)) ∧
    exec (.hardResetBegin .pin) busy0 = .next (after (.hardResetBegin .pin) busy0) := by
  refine ⟨by decide +kernel, by decide +kernel, ?_, ?_, by decide +kernel, ?_, rfl, rfl⟩ <;>
  · intro _ h; cases h

theorem test_witness_GenerationLaw : Ready State.reset (request [0, 0]) ∧ OutputLaw State.reset ∧
    (request [0, 0]).payload = [State.reset.routes.generation.extractLsb' 8 8,
      State.reset.routes.generation.extractLsb' 0 8] ∧ KeysDistinct State.reset.routes.staged := by decide +kernel

end Sys2Proof.Tests
end

section
/-! SUPPORT. Updates of one segment or one port, composed and compared; and the action of a part that acts. -/

namespace Sys2Proof.Machine

/-! ### Composing and comparing updates -/

theorem State.modSeg_modSeg (s : State) (x : Seg) (f g : Segment → Segment) :
    (s.modSeg x f).modSeg x g = s.modSeg x fun a => g (f a) := by cases x <;> rfl

theorem State.modSeg_congr {s : State} {x : Seg} {f g : Segment → Segment} (h : f (s.seg x) = g (s.seg x)) :
    s.modSeg x f = s.modSeg x g := congrArg (s.setSeg x) h

theorem State.modSeg_same {s : State} {x : Seg} {f : Segment → Segment} (h : f (s.seg x) = s.seg x) :
    s.modSeg x f = s := by
  have hs : s.modSeg x f = s.setSeg x (s.seg x) := congrArg (s.setSeg x) h
  rw [hs]
  cases x <;> rfl

theorem Segment.modPort_congr {g : Segment} {f h : Port → Port} (e : f g.port = h g.port) :
    g.modPort f = g.modPort h := congrArg (fun q => ({ g with port := q } : Segment)) e

theorem State.modPort_modPort (s : State) (p : PortId) (f g : Port → Port) :
    (s.modPort p f).modPort p g = s.modPort p fun a => g (f a) := by
  rcases p with _ | x
  · rfl
  · exact s.modSeg_modSeg x (fun g => g.modPort f) (fun h => h.modPort g)

theorem State.modPort_congr {s : State} {p : PortId} {f g : Port → Port} (h : f (s.port p) = g (s.port p)) :
    s.modPort p f = s.modPort p g := by
  rcases p with _ | x
  · exact congrArg (fun q => ({ s with trunk := { s.trunk with port := q } } : State)) h
  · exact State.modSeg_congr (f := fun a => a.modPort f) (g := fun a => a.modPort g) (Segment.modPort_congr h)

theorem State.modPort_same {s : State} {p : PortId} {f : Port → Port} (h : f (s.port p) = s.port p) :
    s.modPort p f = s := by
  rcases p with _ | x
  · exact congrArg (fun q => ({ s with trunk := { s.trunk with port := q } } : State)) h
  · exact State.modSeg_same (f := fun a => a.modPort f) (Segment.modPort_congr (h := id) h)

@[simp] theorem State.modPort_port_self (s : State) (p : PortId) (f : Port → Port) :
    (s.modPort p f).port p = f (s.port p) := by
  rcases p with _ | x
  · rfl
  · cases x <;> rfl

theorem State.modPort_port_other (s : State) (p q : PortId) (f : Port → Port) (h : q ≠ p) :
    (s.modPort p f).port q = s.port q := by
  rcases p with _ | x <;> rcases q with _ | y
  · exact absurd rfl h
  · cases y <;> rfl
  · cases x <;> rfl
  · exact congrArg Segment.port (s.modSeg_seg_other x y _ fun e => h (e ▸ rfl))

@[simp] theorem State.modPort_parity (s : State) (p q : PortId) (f : Port → Port) :
    (s.modPort p f).parity q = s.parity q := by
  rcases p with _ | x <;> rcases q with _ | y
  · rfl
  · cases y <;> rfl
  · cases x <;> rfl
  · cases x <;> cases y <;> rfl

@[simp] theorem State.modPort_gapLimit (s : State) (p q : PortId) (f : Port → Port) :
    (s.modPort p f).gapLimit q = s.gapLimit q := by
  rcases p with _ | x <;> rcases q with _ | y
  · rfl
  · cases y <;> rfl
  · cases x <;> rfl
  · cases x <;> cases y <;> rfl

/-- A command of a part that acts is its action (R170). -/
theorem State.acting_next {s : State} (a : Acting s) (act : State → State) : s.acting act = .next (act s) := by
  rw [Acting] at a
  simp [State.acting, a]

end Sys2Proof.Machine
end

section
/-! SUPPORT. What every command keeps of the framers, the run counts and the frame to which a pending soft reset is
bound: one relation between the state before and after, carried by each shared operation. -/

namespace Sys2Proof.Machine

/-- From `s` to `t` the law of each framer (R10, R12), the ranges of the run counts (R113, R127) and the binding of a
pending soft reset (R30, R167) are kept. -/
structure KeepsParts (s t : State) : Prop where
  framers : ∀ p : PortId, FramerLaw (s.port p).framer → FramerLaw (t.port p).framer
  inputs : InputLaw s.inputs → InputLaw t.inputs
  bound : BoundLaw s → BoundLaw t

namespace KeepsParts

theorem refl (s : State) : KeepsParts s s := ⟨fun _ => id, id, id⟩

theorem trans {s t u : State} (h : KeepsParts s t) (k : KeepsParts t u) : KeepsParts s u :=
  ⟨fun p f => k.framers p (h.framers p f), fun i => k.inputs (h.inputs i), fun b => k.bound (h.bound b)⟩

/-- What leaves the ports, the input block and the number of bound frames alone keeps the three laws. -/
theorem of_same {s t : State} (trunk : t.trunk.port = s.trunk.port) (segs : ∀ x, (t.seg x).port = (s.seg x).port)
    (inputs : t.inputs = s.inputs) (hardReset : t.hardReset = s.hardReset)
    (pending : t.trunk.softResetPending = s.trunk.softResetPending)
    (bound : boundFrames t.trunk = boundFrames s.trunk) : KeepsParts s t where
  framers p h := by
    rcases p with _ | x
    · simp only [State.port, trunk]; exact h
    · simp only [State.port, segs]; exact h
  inputs h := by rw [inputs]; exact h
  bound h := by rw [BoundLaw, hardReset, pending, bound]; exact h

theorem foldl {α : Type} {f : State → α → State} (h : ∀ s a, KeepsParts s (f s a)) (l : List α) :
    ∀ s, KeepsParts s (l.foldl f s) := by
  induction l with
  | nil => exact refl
  | cons a l ih => exact fun s => (h s a).trans (ih _)

/-! ### Updates of one block -/

theorem modPort (s : State) (p : PortId) (f : Port → Port)
    (hf : FramerLaw (s.port p).framer → FramerLaw (f (s.port p)).framer) : KeepsParts s (s.modPort p f) where
  framers q h := by
    by_cases hq : q = p
    · subst hq; rw [s.modPort_port_self]; exact hf h
    · rw [s.modPort_port_other p q f hq]; exact h
  inputs h := by rw [s.modPort_inputs]; exact h
  bound h := by
    rcases p with _ | x
    · exact h
    · cases x <;> exact h

theorem modSeg (s : State) (x : Seg) (f : Segment → Segment)
    (hf : FramerLaw (s.seg x).port.framer → FramerLaw (f (s.seg x)).port.framer) : KeepsParts s (s.modSeg x f) where
  framers p h := by
    rcases p with _ | y
    · cases x <;> exact h
    · by_cases hy : y = x
      · subst hy
        simp only [State.port, State.modSeg_seg_self]
        exact hf h
      · simp only [State.port, s.modSeg_seg_other x y f hy]
        exact h
  inputs h := by rw [s.modSeg_inputs]; exact h
  bound h := by cases x <;> exact h

theorem modInputs (s : State) (f : InputBlock → InputBlock) (hf : InputLaw s.inputs → InputLaw (f s.inputs)) :
    KeepsParts s (s.modInputs f) where
  framers p h := by
    rcases p with _ | x
    · exact h
    · cases x <;> exact h
  inputs := hf
  bound h := h

theorem modReporter (s : State) (f : Reporter → Reporter) : KeepsParts s (s.modReporter f) :=
  of_same rfl (fun x => by simp) rfl rfl rfl rfl

theorem modRoutes (s : State) (f : RouteTable → RouteTable) : KeepsParts s (s.modRoutes f) :=
  of_same rfl (fun x => by simp) rfl rfl rfl rfl

theorem modExchange (s : State) (e : ExchangeTable) : KeepsParts s { s with exchange := e } :=
  of_same rfl (fun x => by cases x <;> rfl) rfl rfl rfl rfl

/-- A count in the trunk counters (R32). -/
theorem modTrunkCounters (s : State) (f : TrunkCounters → TrunkCounters) :
    KeepsParts s (s.modTrunk fun t => { t with counters := f t.counters }) :=
  of_same rfl (fun x => by simp) rfl rfl rfl rfl

theorem setRecord (s : State) (i : Slot) (r : Record) : KeepsParts s (s.setRecord i r) := modExchange s _

theorem freeSlot (s : State) (i : Slot) : KeepsParts s (s.freeSlot i) := modExchange s _

theorem takeDelivery (s : State) (p : PortId) (d : Delivery) : KeepsParts s (s.takeDelivery p d) := modPort s p _ id

theorem taken (s : State) (f : Frame) : KeepsParts s (s.taken f) := takeDelivery s .trunk (.frame f)

theorem countReplyDrop (s : State) : KeepsParts s s.countReplyDrop :=
  modTrunkCounters s fun c => { c with replyDrop := satInc c.replyDrop }

end KeepsParts

/-! ### The output queue and the arbiter (R23 to R29) -/

/-- The reply that fills a freed slot of the queue is bound to no soft reset (R26, R167). -/
theorem State.fillFreedSlot_boundFrames (s : State) : boundFrames s.fillFreedSlot.trunk = boundFrames s.trunk := by
  unfold State.fillFreedSlot
  repeat' split
  all_goals simp [boundFrames, List.countP_append]

/-- The arbiter moves the bound frame from the queue to the transmitter or leaves it where it is (R28). -/
theorem State.arbitrate_boundFrames (s : State) : boundFrames s.arbitrate.trunk = boundFrames s.trunk := by
  unfold State.arbitrate
  split
  · rename_i idle
    split
    · rename_i q rest hq
      rw [State.fillFreedSlot_boundFrames]
      simp [boundFrames, idle, hq, List.countP_cons]
    · split
      · split
        · simp [State.grant, boundFrames, idle]
        · rfl
      · rfl
  · rfl

/-- A frame that enters the output is one more bound frame exactly where a soft reset is bound to it (R24, R167). -/
theorem State.enqueue_boundFrames (s : State) (q : QueuedFrame) :
    boundFrames (s.enqueue q).trunk = boundFrames s.trunk + if q.bindsReset then 1 else 0 := by
  unfold State.enqueue
  rw [State.arbitrate_boundFrames]
  simp only [boundFrames, State.modTrunk_trunk, List.countP_append, List.countP_singleton]
  omega

namespace KeepsParts

theorem arbitrate (s : State) : KeepsParts s s.arbitrate :=
  of_same s.arbitrate_trunk_port (fun x => by simp) s.arbitrate_inputs s.arbitrate_base.hardReset
    s.arbitrate_trunk_softResetPending s.arbitrate_boundFrames

theorem enqueue (s : State) (f : Frame) : KeepsParts s (s.enqueue ⟨f, false⟩) :=
  of_same (s.enqueue_trunk_port _) (fun x => by simp) (s.enqueue_inputs _) (s.enqueue_base _).hardReset
    (s.enqueue_trunk_softResetPending _) (s.enqueue_boundFrames _)

theorem respond (s : State) (fn : Byte) (r : Request) (p : List Byte) : KeepsParts s (s.respond fn r p) := enqueue s _

theorem refuse (s : State) (fn : Byte) (r : Request) (p : List Byte) : KeepsParts s (s.refuse fn r p) := enqueue s _

theorem refuseRouted (s : State) (f : Frame) (p : List Byte) : KeepsParts s (s.refuseRouted f p) := by
  unfold State.refuseRouted
  split
  · exact countReplyDrop s
  · exact enqueue s _

/-! ### Records and replies (R75 to R79, R119) -/

theorem completeRecord (s : State) (i : Slot) (reply : Reply) : KeepsParts s (s.completeRecord i reply) := by
  unfold State.completeRecord
  split
  · exact refl s
  · split
    · exact modExchange s _
    · exact (freeSlot s i).trans (enqueue _ _)

theorem settleBroadcast (s : State) (i : Slot) (r : Record) (c : Broadcast) :
    KeepsParts s (s.settleBroadcast i r c) := by
  unfold State.settleBroadcast
  simp only []
  split
  · exact (setRecord s i _).trans (completeRecord _ i _)
  · exact setRecord s i _

theorem takeFromSegment (x : Seg) (why : WithdrawReason) (s : State) (i : Slot) :
    KeepsParts s (State.takeFromSegment x why s i) := by
  unfold State.takeFromSegment
  split
  · exact refl s
  · split
    · exact completeRecord s i _
    · exact settleBroadcast s i _ _

theorem release (s : State) (x : Seg) : KeepsParts s (s.release x) := modSeg s x _ id

theorem expirePatience (s : State) (x : Seg) : KeepsParts s (s.expirePatience x) :=
  (modSeg s x _ id).trans (foldl (takeFromSegment x .lent) _ _)

theorem judgePatience (s : State) (x : Seg) : KeepsParts s (s.judgePatience x) := by
  unfold State.judgePatience
  split
  · exact expirePatience s x
  · exact refl s

/-! ### Report events and lending (R115, R116, R138) -/

theorem offerEventQuietly (s : State) (e : Event) : KeepsParts s (s.offerEventQuietly e) := by
  have hr : KeepsParts s { s with reporter := s.reporter.take e } := modReporter s fun _ => s.reporter.take e
  unfold State.offerEventQuietly
  simp only []
  split
  · rename_i n _
    split
    · refine hr.trans (modInputs _ _ fun ⟨hl, hh⟩ => ⟨fun m => ?_, hh⟩)
      simp only [Fin.getElem_fin, Vector.getElem_set]
      split
      · exact hl n
      · exact hl m
    · exact hr
  · exact hr

theorem offerEvent (s : State) (e : Event) : KeepsParts s (s.offerEvent e) :=
  (offerEventQuietly s e).trans (arbitrate _)

theorem enterLent (s : State) (x : Seg) : KeepsParts s (s.enterLent x) :=
  (modSeg s x _ fun _ => Framer.reset_law).trans (offerEvent _ _)

theorem leaveWork (s : State) (x : Seg) : KeepsParts s (s.leaveWork x) := by
  unfold State.leaveWork
  split
  · exact enterLent s x
  · exact modSeg s x _ id

theorem reclaim (s : State) (x : Seg) : KeepsParts s (s.reclaim x) :=
  (modSeg s x _ fun _ => Framer.reset_law).trans (offerEvent _ _)

end KeepsParts

/-! ### Segments (R91 to R107) -/

/-- Applying a configuration leaves the framer or empties it (R16, R107). -/
theorem Segment.applyConfig_framer_law (g : Segment) (c : SegConfig) (h : FramerLaw g.port.framer) :
    FramerLaw (g.applyConfig c).port.framer := by
  unfold Segment.applyConfig
  simp only []
  split
  · exact h
  · split <;> exact Framer.reset_law

theorem Segment.toIdle_framer_law (g : Segment) (h : FramerLaw g.port.framer) : FramerLaw g.toIdle.port.framer := by
  unfold Segment.toIdle Segment.applyPending
  split
  · exact Segment.applyConfig_framer_law _ _ h
  · exact h

theorem Segment.restartGuard_framer (g : Segment) : g.restartGuard.port = g.port := by
  unfold Segment.restartGuard
  split <;> rfl

namespace KeepsParts

theorem takeWork (s : State) (x : Seg) : KeepsParts s (s.takeWork x) := by
  unfold State.takeWork
  split
  · split
    · exact refl s
    · split
      · exact refl s
      · exact (setRecord s _ _).trans (modSeg _ x _ fun _ => Framer.reset_law)
  · exact refl s

theorem enterIdle (s : State) (x : Seg) : KeepsParts s (s.enterIdle x) :=
  (modSeg s x _ (Segment.toIdle_framer_law _)).trans (takeWork _ x)

theorem failRecord (s : State) (x : Seg) (i : Slot) (why : FailCause) : KeepsParts s (s.failRecord x i why) := by
  unfold State.failRecord
  split
  · exact refl s
  · split
    · exact refl s
    · split
      · exact completeRecord s i _
      · exact (setRecord s i _).trans (modSeg _ x _ id)

theorem failAttempt (s : State) (x : Seg) (why : FailCause) : KeepsParts s (s.failAttempt x why) := by
  unfold State.failAttempt
  split
  · exact refl s
  · exact ((modSeg s x _ id).trans (failRecord _ x _ why)).trans (leaveWork _ x)

theorem dropCurrent (s : State) (x : Seg) : KeepsParts s (s.dropCurrent x) := by
  unfold State.dropCurrent
  split
  · exact (release s x).trans (leaveWork _ x)
  · exact release s x

theorem deliverOnSegment (s : State) (x : Seg) (f : Frame) : KeepsParts s (s.deliverOnSegment x f) := by
  unfold State.deliverOnSegment
  refine (takeDelivery s (.segment x) (.frame f)).trans ?_
  simp only []
  split
  · exact ((modSeg _ x _ id).trans (completeRecord _ _ _)).trans (leaveWork _ x)
  · split
    · exact refl _
    · exact modSeg _ x _ id

theorem restartGuard (s : State) (p : PortId) : KeepsParts s (s.restartGuard p) := by
  rcases p with _ | x
  · exact refl s
  · refine modSeg s x _ fun h => ?_
    rw [Segment.restartGuard_framer]
    exact h

theorem endOfSegmentTransmission (s : State) (x : Seg) : KeepsParts s (s.modSeg x Segment.endTransmission) :=
  modSeg s x _ fun _ => Framer.reset_law

/-! ### Routed requests (R22, R41 to R46, R72) -/

theorem countRouteDrop (s : State) : KeepsParts s s.countRouteDrop :=
  modTrunkCounters s fun c => { c with routeDrop := satInc c.routeDrop }

theorem tellNew (s : State) (on : SegSet) (x : Seg) : KeepsParts s (s.tellNew on x) := by
  unfold State.tellNew
  split
  · exact takeWork s x
  · exact refl s

theorem judgeOffer (s : State) (f : Frame) (r : Record) : KeepsParts s (s.judgeOffer f r) := by
  unfold State.judgeOffer State.admitRecord
  split
  · exact refuseRouted s f _
  · split
    · exact refl s
    · exact ((modExchange s _).trans (tellNew _ _ .a)).trans (tellNew _ _ .b)

theorem act (s : State) (f : Frame) (e : RouteEntry) : KeepsParts s (s.act f e) := by
  unfold State.act
  split
  · exact judgeOffer s f _
  · exact judgeOffer s f _
  · exact refuseRouted s f _
  · exact countRouteDrop s

theorem miss (s : State) (f : Frame) : KeepsParts s (s.miss f) := by
  unfold State.miss
  split
  · exact refuseRouted s f _
  · exact countRouteDrop s

theorem route (s : State) (f : Frame) : KeepsParts s (s.route f) := by
  unfold State.route
  split
  · exact miss s f
  · split
    · exact miss s f
    · exact (modRoutes s _).trans (act _ f _)

/-! ### The sample instant (R113, R126 to R128) -/

theorem sampleLine (inputs : Word) (s : State) (n : Fin 16) : KeepsParts s (State.sampleLine inputs s n) := by
  have hs : KeepsParts s (s.modInputs fun b =>
      { b with lines := b.lines.set n (s.inputs.lines[n].sample (inputs.getLsbD n.val)) }) := by
    refine modInputs s _ fun ⟨hl, hh⟩ => ⟨fun m => ?_, hh⟩
    simp only [Fin.getElem_fin, Vector.getElem_set]
    split
    · exact InputLine.sample_run _ _ (hl n)
    · exact hl m
  unfold State.sampleLine
  simp only []
  split
  · exact hs.trans (offerEvent _ _)
  · exact hs

theorem assertHold (s : State) (x : Seg) : KeepsParts s (s.assertHold x) := by
  unfold State.assertHold
  cases (s.seg x).state with
  | idle => exact enterLent s x
  | guard => exact enterLent s x
  | resume => exact enterLent s x
  | send => exact modSeg s x _ id
  | wait => exact modSeg s x _ id
  | lent => exact refl s

theorem deassertHold (s : State) (x : Seg) : KeepsParts s (s.deassertHold x) := by
  unfold State.deassertHold
  split
  · exact reclaim s x
  · exact modSeg s x _ id

theorem sampleHold (s : State) (x : Seg) (level : Bool) : KeepsParts s (s.sampleHold x level) := by
  have hs : KeepsParts s (s.modInputs fun b => b.setHold x ((s.inputs.hold x).sample level)) := by
    refine modInputs s _ fun ⟨hl, ha, hb⟩ => ?_
    cases x
    · exact ⟨hl, HoldLine.sample_run _ level ha, hb⟩
    · exact ⟨hl, ha, HoldLine.sample_run _ level hb⟩
  unfold State.sampleHold
  simp only []
  split
  · split
    · exact hs.trans (assertHold _ x)
    · exact hs.trans (deassertHold _ x)
  · exact hs

end KeepsParts
end Sys2Proof.Machine
end

section
/-! PROOF. O58: every command keeps the framers' law, the ranges of the run counts and the binding of a pending soft
reset. -/

namespace Sys2Proof.Machine

theorem mapVec_getElem {α β : Type} {n : Nat} (f : α → β) (v : Vector α n) (i : Fin n) :
    (mapVec f v)[i] = f v[i] := by
  simp [mapVec]

/-- A line record without its run is in range (R127). -/
theorem InputLaw.of_cleared {b : InputBlock} {lines : Vector InputLine 16} {f : InputLine → InputLine} {i : BitVec 2}
    {t : Nat} (hf : ∀ l, (f l).run = 0) (hl : lines = mapVec f b.lines) :
    InputLaw ⟨lines, b.holdA.clearRun, b.holdB.clearRun, i, t⟩ := by
  refine ⟨fun n => ?_, by simp [HoldLine.clearRun], by simp [HoldLine.clearRun]⟩
  simp only [hl, mapVec_getElem, hf]
  omega

theorem InputBlock.reset_law : InputLaw InputBlock.reset :=
  ⟨fun n => by simp [InputBlock.reset, InputLine.reset], by decide, by decide⟩

theorem InputBlock.softReset_law (b : InputBlock) : InputLaw b.softReset := InputLaw.of_cleared (fun _ => rfl) rfl

theorem InputBlock.setPeriod_law (b : InputBlock) (i : BitVec 2) : InputLaw (b.setPeriod i) :=
  InputLaw.of_cleared (fun _ => rfl) rfl

/-- Clearing the lost flags leaves the run counts (R132). -/
theorem InputBlock.clearLost_law (b : InputBlock) (h : InputLaw b) : InputLaw b.clearLost := by
  refine ⟨fun n => ?_, h.2⟩
  simp only [InputBlock.clearLost, mapVec_getElem]
  exact h.1 n

/-- Configuring a line leaves its run count (R133, R134). -/
theorem InputBlock.configure_law (b : InputBlock) (n : Nat) (q : BitVec 4) (e : EdgeSelect) (c : Fin 4)
    (h : InputLaw b) : InputLaw (b.configure n q e c) := by
  unfold InputBlock.configure
  split
  · rename_i l hl
    refine ⟨fun m => ?_, h.2⟩
    simp only [Fin.getElem_fin, Vector.getElem_setIfInBounds]
    split
    · rename_i hm
      subst hm
      have hl' : b.lines[m] = l := by simpa using hl
      rw [← hl']
      exact h.1 m
    · exact h.1 m
  · exact h

/-- A soft reset empties every framer (R112, R124). -/
theorem Segment.softReset_framer (g : Segment) : g.softReset.port.framer = Framer.reset := by
  unfold Segment.softReset
  simp only []
  split
  · rfl
  · split <;> rfl

theorem State.txIdle_boundFrames_le (s : State) : boundFrames s.txIdle.trunk ≤ boundFrames s.trunk := by
  simp [State.txIdle, boundFrames]

theorem State.txIdle_boundFrames (s : State) (h : ∀ q, s.trunk.tx = .sending q → q.bindsReset = false) :
    boundFrames s.txIdle.trunk = boundFrames s.trunk := by
  cases htx : s.trunk.tx with
  | idle => simp [State.txIdle, boundFrames, htx]
  | reporting f => simp [State.txIdle, boundFrames, htx]
  | sending q => simp [State.txIdle, boundFrames, htx, h q htx]

namespace KeepsParts

/-! ### Commands of each shape -/

theorem acting {s : State} (act : State → State) (h : Acting s → KeepsParts s (act s)) :
    ∀ t, s.acting act = .next t → KeepsParts s t := State.acting_keeps act (refl s) h

theorem trunkDelivery {s : State} (f : Frame) (comes : Bool) (act : State → State)
    (h : ∀ u, KeepsParts u (act u)) : ∀ t, s.trunkDelivery f comes act = .next t → KeepsParts s t :=
  State.trunkDelivery_keeps f comes act (refl s) (taken s f) fun _ _ => (taken s f).trans (h _)

theorem management {s : State} (fn : Byte) (r : Request) (judge : State → State)
    (h : ∀ u, KeepsParts u (judge u)) : ∀ t, s.management fn r judge = .next t → KeepsParts s t :=
  State.management_keeps fn r judge (refl s) (taken s _) ((taken s _).trans (countReplyDrop _))
    fun _ => (taken s _).trans (h _)

/-! ### Resets and the time base (R164, R169, R170) -/

theorem offerLentAtReset (before : Segment) (x : Seg) (s : State) :
    KeepsParts s (State.offerLentAtReset before x s) := by
  unfold State.offerLentAtReset
  split
  · exact offerEventQuietly s _
  · exact refl s

theorem softReset (s : State) : KeepsParts s s.softReset := by
  unfold State.softReset
  simp only []
  refine trans ?_ ((offerLentAtReset s.segA .a _).trans ((offerLentAtReset s.segB .b _).trans (arbitrate _)))
  refine ⟨fun p _ => ?_, fun _ => InputBlock.softReset_law _, fun _ _ => rfl⟩
  rcases p with _ | x
  · exact Framer.reset_law
  · cases x
    · simp only [State.port, State.seg_a, Segment.softReset_framer]; exact Framer.reset_law
    · simp only [State.port, State.seg_b, Segment.softReset_framer]; exact Framer.reset_law

theorem of_hardReset (p : Straps) (s t : State) (h : execHardReset p s = .next t) : KeepsParts s t := by
  cases h
  refine ⟨fun q _ => ?_, fun _ => InputBlock.reset_law, fun _ _ => rfl⟩
  rcases q with _ | x
  · exact Framer.reset_law
  · cases x <;> exact Framer.reset_law

/-- The end of a transmission to which no pending soft reset is bound (R27, R30). With none pending there is no bound
frame, and with one pending it waits in the queue. -/
theorem txIdle (s : State)
    (h : s.trunk.softResetPending = true → ∀ q, s.trunk.tx = .sending q → q.bindsReset = false) :
    KeepsParts s s.txIdle where
  framers p hp := by
    rcases p with _ | x
    · exact hp
    · cases x <;> exact hp
  inputs := id
  bound hb hr := by
    have hs := hb hr
    change boundFrames s.txIdle.trunk = if s.trunk.softResetPending then 1 else 0
    cases hp : s.trunk.softResetPending with
    | false =>
      have hle := s.txIdle_boundFrames_le
      simp only [hp, Bool.false_eq_true, if_false] at hs ⊢
      omega
    | true => rw [s.txIdle_boundFrames (h hp), hs, hp]

theorem of_hardResetBegin (c : HardCause) (s t : State) (h : execHardResetBegin c s = .next t) : KeepsParts s t := by
  cases h
  refine ⟨fun p hp => ?_, id, fun _ hr => by cases hr⟩
  rcases p with _ | x
  · exact hp
  · cases x <;> exact hp

theorem count (s : State) : KeepsParts s s.count := of_same rfl (fun x => by cases x <;> rfl) rfl rfl rfl rfl

/-! ### Management commands -/

theorem clearCounters (s : State) (p : PortId) : KeepsParts s (s.clearCounters p) := by
  unfold State.clearCounters
  refine trans (modPort s p (fun q => { q with counters := FramerCounters.zero }) id) ?_
  rcases p with _ | x
  · exact modTrunkCounters _ fun _ => TrunkCounters.zero
  · exact modSeg _ x _ id

theorem abort (s : State) (i : Slot) : KeepsParts s (s.abort i) := by
  have hc := completeRecord s i ⟨.nak, nakAborted⟩
  have ha : KeepsParts s (if s.segA.current = some i then (s.completeRecord i ⟨.nak, nakAborted⟩).dropCurrent .a
      else s.completeRecord i ⟨.nak, nakAborted⟩) := by
    split
    · exact hc.trans (dropCurrent _ .a)
    · exact hc
  unfold State.abort
  simp only []
  split
  · exact ha.trans (dropCurrent _ .b)
  · exact ha

theorem lineReset (s : State) (x : Seg) : KeepsParts s (s.lineReset x) :=
  ((release s x).trans (foldl (takeFromSegment x .aborted) _ _)).trans (dropCurrent _ x)

theorem setConfig (s : State) (x : Seg) (c : SegConfig) : KeepsParts s (s.setConfig x c) := by
  unfold State.setConfig
  split
  · exact (modSeg s x _ (Segment.applyConfig_framer_law _ c)).trans (judgePatience _ x)
  · exact modSeg s x _ id

/-- GATEWAY-RESET binds the soft reset to its RSP as it makes it pending, where none was pending (R167). -/
theorem gatewayReset (s : State) (r : Request) (h : Dispatching s) :
    KeepsParts s ((s.enqueue ⟨s.replyFrame .rsp 0x7F r [], true⟩).modTrunk fun t =>
      { t with softResetPending := true }) where
  framers p hp := by
    rcases p with _ | x
    · simpa [State.port] using hp
    · simpa [State.port] using hp
  inputs hi := by simpa using hi
  bound hb _ := by
    have hn : boundFrames s.trunk = 0 := by simpa [h.2] using hb h.1
    have hq := s.enqueue_boundFrames ⟨s.replyFrame .rsp 0x7F r [], true⟩
    rw [hn] at hq
    exact hq

theorem of_setSegment (r : Request) (s t : State) (h : execSetSegment r s = .next t) : KeepsParts s t := by
  refine management 0x23 r _ (fun u => ?_) t h
  split
  · split
    · exact refuse u _ r _
    · exact (respond u _ r _).trans (setConfig _ _ _)
    · exact refl u
  · exact refuse u _ r _


/-! ### Resets and the time base (R164, R169) -/

theorem of_softReset (s t : State) (h : execSoftReset s = .next t) :
    KeepsParts s t := by
  refine acting _ (fun _ => ?_) t h
  split
  · exact softReset s
  · exact refl s

theorem of_millisecondTick (s t : State) (h : execMillisecondTick s = .next t) :
    KeepsParts s t :=
  acting _ (fun _ => ((count s).trans (.judgePatience _ .a)).trans
    (.judgePatience _ .b)) t h

/-! ### Line events (R3, R4, R11 to R14) -/

theorem of_idleQualification (p : PortId) (s t : State) (h : execIdleQualification p s = .next t) :
    KeepsParts s t :=
  acting _ (fun _ => .modPort s p _ (by rw [Port.qualify_framer]; exact id)) t h

theorem of_arrival (p : PortId) (c : RawChar) (s t : State) (h : execArrival p c s = .next t) :
    KeepsParts s t := by
  refine acting _ (fun _ => ?_) t h
  split
  · exact (modPort s p _ (Port.arrive_law _ _ _ c _)).trans (.restartGuard _ p)
  · exact refl s

theorem of_lineBreak (p : PortId) (s t : State) (h : execLineBreak p s = .next t) :
    KeepsParts s t := by
  refine acting _ (fun _ => ?_) t h
  split
  · exact (modPort s p _ (Port.takeBreak_law _)).trans (.restartGuard _ p)
  · exact refl s

theorem of_gapTimerExpiry (p : PortId) (s t : State) (h : execGapTimerExpiry p s = .next t) :
    KeepsParts s t :=
  acting _ (fun _ => .modPort s p _ (Port.gapExpire_law _)) t h

theorem of_breakEnd (p : PortId) (s t : State) (h : execBreakEnd p s = .next t) :
    KeepsParts s t :=
  acting _ (fun _ => .modPort s p _ (by rw [Port.endBreak_framer]; exact id)) t h

theorem of_fallToSpace (p : PortId) (b : Bool) (s t : State) (h : execFallToSpace p b s = .next t) :
    KeepsParts s t := by
  refine acting _ (fun _ => ?_) t h
  split
  · exact restartGuard s p
  · exact modPort s p _ (by rw [Port.fall_framer]; exact id)

/-! ### Deliveries of trunk frames (R20 to R22, R151) -/

theorem of_routedRequest (f : Frame) (s t : State) (h : execRoutedRequest f s = .next t) :
    KeepsParts s t :=
  trunkDelivery f _ _ (fun u => .route u f) t h

theorem of_unexpected (f : Frame) (s t : State) (h : execUnexpected f s = .next t) :
    KeepsParts s t :=
  trunkDelivery f _ _
    (fun u => .modTrunkCounters u fun c => { c with unexpected := satInc c.unexpected }) t h

theorem of_pendingSoftResetDiscard (f : Frame) (s t : State) (h : execPendingSoftResetDiscard f s = .next t) :
    KeepsParts s t :=
  trunkDelivery f _ _ refl t h

theorem of_rack (b : Byte) (r : Request) (s t : State) (h : execRack b r s = .next t) :
    KeepsParts s t := by
  refine trunkDelivery _ _ _ (fun u => ?_) t h
  split
  · exact (modReporter u _).trans (.arbitrate _)
  · exact modTrunkCounters u fun c => { c with rackIgnored := satInc c.rackIgnored }

/-! ### Management commands (R157 to R167) -/

theorem of_unknown (fn : Byte) (r : Request) (s t : State) (h : execUnknown fn r s = .next t) :
    KeepsParts s t := by
  unfold execUnknown at h
  split at h
  · cases h; exact refl s
  · exact management fn r _ (fun u => .refuse u fn r _) t h

theorem of_readStatus (r : Request) (s t : State) (h : execReadStatus r s = .next t) :
    KeepsParts s t := by
  refine management _ r _ (fun u => ?_) t h
  split
  · exact respond u _ r _
  · exact refuse u _ r _

theorem of_readCounters (r : Request) (s t : State) (h : execReadCounters r s = .next t) :
    KeepsParts s t := by
  refine management _ r _ (fun u => ?_) t h
  split
  · split
    · exact refuse u _ r _
    · split
      · exact refuse u _ r _
      · simp only []
        split
        · exact (respond u _ r _).trans (.clearCounters _ _)
        · exact respond u _ r _
  · exact refuse u _ r _

theorem of_stageEntry (r : Request) (s t : State) (h : execStageEntry r s = .next t) :
    KeepsParts s t := by
  refine management _ r _ (fun u => ?_) t h
  split
  · simp only []
    split
    · exact refuse u _ r _
    · exact (modRoutes u _).trans (.respond _ _ r _)
  · exact refuse u _ r _

theorem of_clearStage (r : Request) (s t : State) (h : execClearStage r s = .next t) :
    KeepsParts s t := by
  refine management _ r _ (fun u => ?_) t h
  split
  · exact (modRoutes u _).trans (.respond _ _ r _)
  · exact refuse u _ r _

theorem of_readEntry (r : Request) (s t : State) (h : execReadEntry r s = .next t) :
    KeepsParts s t := by
  refine management _ r _ (fun u => ?_) t h
  split
  · split
    · exact refuse u _ r _
    · exact respond u _ r _
  · exact refuse u _ r _

theorem of_commit (r : Request) (s t : State) (h : execCommit r s = .next t) :
    KeepsParts s t := by
  refine management _ r _ (fun u => ?_) t h
  split
  · split
    · exact refuse u _ r _
    · split
      · exact refuse u _ r _
      · exact (modRoutes u _).trans (.respond _ _ r _)
  · exact refuse u _ r _

theorem of_setMissPolicy (r : Request) (s t : State) (h : execSetMissPolicy r s = .next t) :
    KeepsParts s t := by
  refine management _ r _ (fun u => ?_) t h
  split
  · split
    · exact refuse u _ r _
    · exact (modRoutes u _).trans (.respond _ _ r _)
  · exact refuse u _ r _

theorem of_readExchanges (r : Request) (s t : State) (h : execReadExchanges r s = .next t) :
    KeepsParts s t := by
  refine management _ r _ (fun u => ?_) t h
  split
  · exact respond u _ r _
  · exact refuse u _ r _

theorem of_abortExchange (r : Request) (s t : State) (h : execAbortExchange r s = .next t) :
    KeepsParts s t := by
  refine management _ r _ (fun u => ?_) t h
  split
  · split
    · exact refuse u _ r _
    · split
      · exact refuse u _ r _
      · exact (respond u _ r _).trans (.abort _ _)
  · exact refuse u _ r _

theorem of_lineReset (r : Request) (s t : State) (h : execLineReset r s = .next t) :
    KeepsParts s t := by
  refine management _ r _ (fun u => ?_) t h
  split
  · split
    · exact refuse u _ r _
    · exact (respond u _ r _).trans (.lineReset _ _)
  · exact refuse u _ r _

theorem of_readSegment (r : Request) (s t : State) (h : execReadSegment r s = .next t) :
    KeepsParts s t := by
  refine management _ r _ (fun u => ?_) t h
  split
  · split
    · exact refuse u _ r _
    · exact respond u _ r _
  · exact refuse u _ r _

theorem of_readInputs (r : Request) (s t : State) (h : execReadInputs r s = .next t) :
    KeepsParts s t := by
  refine management _ r _ (fun u => ?_) t h
  split
  · split
    · exact refuse u _ r _
    · simp only []
      split
      · exact (respond u _ r _).trans (.modInputs _ _ (InputBlock.clearLost_law _))
      · exact respond u _ r _
  · exact refuse u _ r _

theorem of_setInput (r : Request) (s t : State) (h : execSetInput r s = .next t) :
    KeepsParts s t := by
  refine management _ r _ (fun u => ?_) t h
  split
  · split
    · exact refuse u _ r _
    · exact (modInputs u _ (InputBlock.configure_law _ _ _ _ _)).trans (.respond _ _ r _)
    · exact refl u
  · exact refuse u _ r _

theorem of_setSamplePeriod (r : Request) (s t : State) (h : execSetSamplePeriod r s = .next t) :
    KeepsParts s t := by
  refine management _ r _ (fun u => ?_) t h
  split
  · split
    · exact refuse u _ r _
    · exact (modInputs u _ fun _ => InputBlock.setPeriod_law _ _).trans (.respond _ _ r _)
  · exact refuse u _ r _

theorem of_reportControl (r : Request) (s t : State) (h : execReportControl r s = .next t) :
    KeepsParts s t := by
  refine management _ r _ (fun u => ?_) t h
  split
  · split
    · exact refuse u _ r _
    · exact (modReporter u _).trans (.respond _ _ r _)
    · exact refl u
  · exact refuse u _ r _

theorem of_fetchReports (r : Request) (s t : State) (h : execFetchReports r s = .next t) :
    KeepsParts s t := by
  refine management _ r _ (fun u => ?_) t h
  split
  · split
    · exact (modReporter u _).trans (.respond _ _ r _)
    · exact refuse u _ r _
  · exact refuse u _ r _

theorem of_gatewayReset (r : Request) (s t : State) (h : execGatewayReset r s = .next t) :
    KeepsParts s t := by
  refine State.management_keeps (P := KeepsParts s) _ r _ (.refl s) (.taken s _)
    ((taken s _).trans (.countReplyDrop _)) (fun hr => (taken s (s.commandFrame 0x7F r)).trans ?_) t h
  split
  · exact gatewayReset _ r hr.1
  · exact refuse _ _ r _

/-! ### The trunk transmitter (R27, R30, R150) -/

theorem of_endOfTransmission (s t : State) (h : execEndOfTransmission s = .next t) :
    KeepsParts s t := by
  refine acting _ (fun _ => ?_) t h
  split
  · exact softReset s
  · rename_i unbound
    split
    · exact refl s
    · rename_i q sends
      exact (txIdle s fun hp => by simpa [State.resetBound, hp, sends] using unbound).trans (.arbitrate _)
    · rename_i f sends
      exact ((txIdle s fun _ => by simp [sends]).trans (.modReporter _ _)).trans (.arbitrate _)

theorem of_reportTimerExpiry (s t : State) (h : execReportTimerExpiry s = .next t) :
    KeepsParts s t := by
  refine acting _ (fun _ => ?_) t h
  split
  · exact (modReporter s _).trans (.arbitrate _)
  · exact refl s

/-! ### Segment events and the sample instant (R94 to R105, R113, R119, R126) -/

theorem of_segmentEndOfTransmission (x : Seg) (s t : State) (h : execSegmentEndOfTransmission x s = .next t) :
    KeepsParts s t := by
  refine acting _ (fun _ => ?_) t h
  split
  · refine (endOfSegmentTransmission s x).trans ?_
    simp only []
    split
    · exact leaveWork _ x
    · split
      · exact leaveWork _ x
      · split
        · exact modSeg _ x _ id
        · exact ((release _ x).trans (.settleBroadcast _ _ _ _)).trans (.leaveWork _ x)
  · exact refl s

theorem of_matchingFrame (x : Seg) (f : Frame) (s t : State) (h : execMatchingFrame x f s = .next t) :
    KeepsParts s t := by
  refine acting _ (fun _ => ?_) t h
  split
  · exact deliverOnSegment s x f
  · exact refl s

theorem of_strayFrame (x : Seg) (f : Frame) (s t : State) (h : execStrayFrame x f s = .next t) :
    KeepsParts s t := by
  refine acting _ (fun _ => ?_) t h
  split
  · exact deliverOnSegment s x f
  · exact refl s

theorem of_corruptFrameNotice (x : Seg) (s t : State) (h : execCorruptFrameNotice x s = .next t) :
    KeepsParts s t := by
  refine acting _ (fun _ => (takeDelivery s (.segment x) .corruptNotice).trans ?_) t h
  simp only []
  split
  · exact failAttempt _ x _
  · exact refl _

theorem of_responseTimerExpiry (x : Seg) (s t : State) (h : execResponseTimerExpiry x s = .next t) :
    KeepsParts s t := by
  refine acting _ (fun _ => ?_) t h
  split
  · exact failAttempt s x _
  · exact refl s

theorem of_guardTimerExpiry (x : Seg) (s t : State) (h : execGuardTimerExpiry x s = .next t) :
    KeepsParts s t := by
  refine acting _ (fun _ => ?_) t h
  split
  · exact enterIdle s x
  · exact refl s

theorem of_sampleInstant (inputs : Word) (a b : Bool) (s t : State)
    (h : execSampleInstant inputs a b s = .next t) : KeepsParts s t :=
  acting _ (fun _ => (((foldl (.sampleLine inputs) inputLines s).trans
    (.sampleHold _ .a a)).trans (.sampleHold _ .b b)).trans (.modInputs _ _ id)) t h

theorem of_patienceExpiry (x : Seg) (s t : State) (h : execPatienceExpiry x s = .next t) :
    KeepsParts s t :=
  acting _ (fun _ => .judgePatience s x) t h

end KeepsParts

/-- What one command, run in any state, keeps of the three laws. -/
theorem exec_keepsParts (c : Instr) (s t : State) (h : exec c s = .next t) : KeepsParts s t := by
  cases c with
  | hardReset p => exact KeepsParts.of_hardReset p s t h
  | hardResetBegin c => exact KeepsParts.of_hardResetBegin c s t h
  | softReset => exact KeepsParts.of_softReset s t h
  | millisecondTick => exact KeepsParts.of_millisecondTick s t h
  | idleQualification p => exact KeepsParts.of_idleQualification p s t h
  | arrival p c => exact KeepsParts.of_arrival p c s t h
  | lineBreak p => exact KeepsParts.of_lineBreak p s t h
  | gapTimerExpiry p => exact KeepsParts.of_gapTimerExpiry p s t h
  | breakEnd p => exact KeepsParts.of_breakEnd p s t h
  | fallToSpace p b => exact KeepsParts.of_fallToSpace p b s t h
  | routedRequest f => exact KeepsParts.of_routedRequest f s t h
  | unexpected f => exact KeepsParts.of_unexpected f s t h
  | pendingSoftResetDiscard f => exact KeepsParts.of_pendingSoftResetDiscard f s t h
  | rack b r => exact KeepsParts.of_rack b r s t h
  | unknown fn r => exact KeepsParts.of_unknown fn r s t h
  | readStatus r => exact KeepsParts.of_readStatus r s t h
  | readCounters r => exact KeepsParts.of_readCounters r s t h
  | stageEntry r => exact KeepsParts.of_stageEntry r s t h
  | clearStage r => exact KeepsParts.of_clearStage r s t h
  | readEntry r => exact KeepsParts.of_readEntry r s t h
  | commit r => exact KeepsParts.of_commit r s t h
  | setMissPolicy r => exact KeepsParts.of_setMissPolicy r s t h
  | readExchanges r => exact KeepsParts.of_readExchanges r s t h
  | abortExchange r => exact KeepsParts.of_abortExchange r s t h
  | lineReset r => exact KeepsParts.of_lineReset r s t h
  | setSegment r => exact KeepsParts.of_setSegment r s t h
  | readSegment r => exact KeepsParts.of_readSegment r s t h
  | readInputs r => exact KeepsParts.of_readInputs r s t h
  | setInput r => exact KeepsParts.of_setInput r s t h
  | setSamplePeriod r => exact KeepsParts.of_setSamplePeriod r s t h
  | reportControl r => exact KeepsParts.of_reportControl r s t h
  | fetchReports r => exact KeepsParts.of_fetchReports r s t h
  | gatewayReset r => exact KeepsParts.of_gatewayReset r s t h
  | endOfTransmission => exact KeepsParts.of_endOfTransmission s t h
  | reportTimerExpiry => exact KeepsParts.of_reportTimerExpiry s t h
  | segmentEndOfTransmission x => exact KeepsParts.of_segmentEndOfTransmission x s t h
  | matchingFrame x f => exact KeepsParts.of_matchingFrame x f s t h
  | strayFrame x f => exact KeepsParts.of_strayFrame x f s t h
  | corruptFrameNotice x => exact KeepsParts.of_corruptFrameNotice x s t h
  | responseTimerExpiry x => exact KeepsParts.of_responseTimerExpiry x s t h
  | guardTimerExpiry x => exact KeepsParts.of_guardTimerExpiry x s t h
  | sampleInstant inputs a b => exact KeepsParts.of_sampleInstant inputs a b s t h
  | patienceExpiry x => exact KeepsParts.of_patienceExpiry x s t h


theorem FramersLaw.iff_ports (s : State) : FramersLaw s ↔ ∀ p, FramerLaw (s.port p).framer := by
  refine ⟨fun ⟨ht, ha, hb⟩ p => ?_, fun h => ⟨h .trunk, h (.segment .a), h (.segment .b)⟩⟩
  rcases p with _ | x
  · exact ht
  · cases x
    · exact ha
    · exact hb

/-- One step keeps what its command keeps; that a command has left the queue of commands concerns no part. -/
theorem step_keepsParts (s t : State) (h : step s = .next t) : KeepsParts s t := by
  unfold step at h
  split at h
  · cases h
    exact KeepsParts.refl s
  · rename_i c rest _
    have popped : KeepsParts s { s with pending := rest } :=
      KeepsParts.of_same rfl (fun x => by cases x <;> rfl) rfl rfl rfl rfl
    exact popped.trans (exec_keepsParts c _ t h)

/-- Settles O58: each law by the relation `KeepsParts` of a step, the one lemma of every command. -/
theorem framersInputsAndResetLawsKept : Obligations.FramersInputsAndResetLawsKept :=
  ⟨fun s t law h => (FramersLaw.iff_ports t).mpr fun p =>
      (step_keepsParts s t h).framers p ((FramersLaw.iff_ports s).mp law p),
    fun s t law h => (step_keepsParts s t h).inputs law,
    fun s t law h => (step_keepsParts s t h).bound law⟩

end Sys2Proof.Machine
end

section
/-! SUPPORT. Receivers and framers (R1, R3, R4, R9 to R16): what each condition and each framer state makes of a
character, said once for a port, and the commands of the lines as updates of their port. -/

namespace Sys2Proof.Machine

/-! ### Characters (R1, R3) -/

/-- The parity of the data bits is the parity of their count of ones (R1). -/
theorem oddOnes_eq (b : Byte) : oddOnes b = decide (((List.range 8).countP fun i => b.getLsbD i) % 2 = 1) := by
  revert b
  decide +kernel

/-- Good characters by R1 and R3: the stop bit at mark, and the ones of data and parity even or odd as the parity is. -/
theorem charGood_iff (par : Parity) (c : RawChar) : charGood par c = true ↔
    c.stopBit = true ∧
    (par = .even → ((List.range 8).countP (fun i => c.data.getLsbD i) + if c.parityBit then 1 else 0) % 2 = 0) ∧
    (par = .odd → ((List.range 8).countP (fun i => c.data.getLsbD i) + if c.parityBit then 1 else 0) % 2 = 1) := by
  rw [charGood, Bool.and_eq_true]
  refine and_congr_right fun _ => ?_
  cases par with
  | none => simp [parityBit]
  | even =>
    simp only [parityBit, oddOnes_eq]
    cases c.parityBit <;> grind
  | odd =>
    simp only [parityBit, oddOnes_eq]
    cases c.parityBit <;> grind

/-! ### The receiver (R3, R4) -/

theorem Port.hearing_iff (q : Port) : q.hearing = true ↔ q.receiver = .ready ∨ q.receiver = .receiving := by
  simp [Port.hearing]

theorem Port.qualify_unqualified {q : Port} (h : q.receiver = .unqualified) :
    q.qualify = { q with receiver := .ready } := if_pos h

theorem Port.qualify_else {q : Port} (h : q.receiver ≠ .unqualified) : q.qualify = q := if_neg h

theorem Port.endBreak_inBreak {q : Port} (h : q.receiver = .inBreak) :
    q.endBreak = { q with receiver := .unqualified } := if_pos h

theorem Port.endBreak_else {q : Port} (h : q.receiver ≠ .inBreak) : q.endBreak = q := if_neg h

theorem Port.fall_ready {q : Port} (h : q.receiver = .ready) : q.fall true = { q with receiver := .receiving } :=
  if_pos ⟨h, rfl⟩

theorem Port.fall_glitch (q : Port) : q.fall false = q := if_neg (by simp)

theorem Port.fall_else {q : Port} (h : q.receiver ≠ .ready) (b : Bool) : q.fall b = q := if_neg fun k => h k.1

theorem Port.takeBreak_hearing {q : Port} (h : q.receiver = .ready ∨ q.receiver = .receiving) :
    q.takeBreak = { q with
      receiver := .inBreak, framer := Framer.reset
      counters := { q.counters with brk := satInc q.counters.brk } } := if_pos (q.hearing_iff.mpr h)

theorem Port.gapExpire_running {q : Port} (h : q.framer.gapTimer.isSome = true) :
    q.gapExpire = { q with
      framer := Framer.reset, counters := { q.counters with gap := satInc q.counters.gap } } := if_pos h

theorem Port.gapExpire_stopped {q : Port} (h : q.framer.gapTimer = none) : q.gapExpire = q := if_neg (by simp [h])

/-! ### A character at the framer (R11 to R15) -/

section Arrival

variable {t : Bool} {limit : Nat} {par : Parity} {c : RawChar} {q : Port}

theorem Port.arrive_good (good : charGood par c = true) :
    q.arrive t limit par c = ({ q with receiver := .ready } : Port).takeGood t limit c.data := if_pos good

theorem Port.arrive_bad (bad : charGood par c = false) :
    q.arrive t limit par c = ({ q with receiver := .ready } : Port).takeBad := if_neg (by simp [bad])

theorem Port.arrive_lead (good : charGood par c = true) (st : q.framer.state = .hunt) (hd : c.data = lead) :
    q.arrive t limit par c = { q with
      receiver := .ready
      framer := { state := .header, fields := [], expected := 0, remainder := 0xFFFF, highCheck := none,
                  gapTimer := some limit } } := by
  rw [Port.arrive_good good]
  simp only [Port.takeGood, st, if_pos hd]
  rfl

/-- In HUNT every character but a good lead is discarded (R11). -/
theorem Port.arrive_discarded (st : q.framer.state = .hunt) (h : charGood par c = false ∨ c.data ≠ lead) :
    q.arrive t limit par c = { q with receiver := .ready } := by
  cases good : charGood par c with
  | false => rw [Port.arrive_bad good]; exact if_pos st
  | true =>
    rw [Port.arrive_good good]
    simp only [Port.takeGood, st, if_neg (h.resolve_left (by simp [good]))]

/-- In a frame a character in error abandons it with CHAR (R14). -/
theorem Port.arrive_error (bad : charGood par c = false) (st : q.framer.state ≠ .hunt) :
    q.arrive t limit par c = { q with
      receiver := .ready, framer := Framer.reset
      counters := { q.counters with char := satInc q.counters.char } } := by
  rw [Port.arrive_bad bad]
  exact if_neg st

theorem Port.arrive_header (good : charGood par c = true) (st : q.framer.state = .header)
    (hl : q.framer.fields.length < 4) :
    q.arrive t limit par c = { q with
      receiver := .ready
      framer := { state := .header, fields := q.framer.fields ++ [c.data], expected := 0,
                  remainder := crcByte q.framer.remainder c.data, highCheck := none, gapTimer := some limit } } := by
  rw [Port.arrive_good good]
  have h5 : (q.framer.fields ++ [c.data]).length < 5 := by simp; omega
  simp only [Port.takeGood, st, Port.takeHeader, if_pos h5]

/-- The fifth header byte is the length: the judgement of R12, before its cases. -/
theorem Port.arrive_length (good : charGood par c = true) (st : q.framer.state = .header)
    (hl : q.framer.fields.length = 4) :
    q.arrive t limit par c =
      if 48 < c.data.toNat then ({ q with receiver := .ready } : Port).leave FramerCounters.incLength
      else { q with
        receiver := .ready
        framer := { state := if c.data = 0 then .check else .body, fields := q.framer.fields ++ [c.data],
                    expected := c.data.toNat, remainder := crcByte q.framer.remainder c.data, highCheck := none,
                    gapTimer := some limit } } := by
  rw [Port.arrive_good good]
  have h5 : ¬ (q.framer.fields ++ [c.data]).length < 5 := by simp; omega
  simp only [Port.takeGood, st, Port.takeHeader, if_neg h5]
  split
  · rfl
  · split
    · rename_i h0; simp [h0]
    · rfl

theorem Port.arrive_length_over (good : charGood par c = true) (st : q.framer.state = .header)
    (hl : q.framer.fields.length = 4) (hd : 48 < c.data.toNat) :
    q.arrive t limit par c = { q with
      receiver := .ready, framer := Framer.reset
      counters := { q.counters with length := satInc q.counters.length } } := by
  rw [Port.arrive_length good st hl, if_pos hd]
  rfl

theorem Port.arrive_length_zero (good : charGood par c = true) (st : q.framer.state = .header)
    (hl : q.framer.fields.length = 4) (hd : c.data = 0) :
    q.arrive t limit par c = { q with
      receiver := .ready
      framer := { state := .check, fields := q.framer.fields ++ [c.data], expected := 0,
                  remainder := crcByte q.framer.remainder c.data, highCheck := none, gapTimer := some limit } } := by
  rw [Port.arrive_length good st hl, if_neg (by simp [hd]), if_pos hd]
  simp [hd]

theorem Port.arrive_length_some (good : charGood par c = true) (st : q.framer.state = .header)
    (hl : q.framer.fields.length = 4) (h1 : 1 ≤ c.data.toNat) (h48 : c.data.toNat ≤ 48) :
    q.arrive t limit par c = { q with
      receiver := .ready
      framer := { state := .body, fields := q.framer.fields ++ [c.data], expected := c.data.toNat,
                  remainder := crcByte q.framer.remainder c.data, highCheck := none, gapTimer := some limit } } := by
  have h0 : c.data ≠ 0 := fun h => by simp [h] at h1
  rw [Port.arrive_length good st hl, if_neg (by omega), if_neg h0]

theorem Port.arrive_body (good : charGood par c = true) (st : q.framer.state = .body) (he : 1 < q.framer.expected) :
    q.arrive t limit par c = { q with
      receiver := .ready
      framer := { state := .body, fields := q.framer.fields ++ [c.data], expected := q.framer.expected - 1,
                  remainder := crcByte q.framer.remainder c.data, highCheck := none, gapTimer := some limit } } := by
  rw [Port.arrive_good good]
  simp only [Port.takeGood, st, Port.takeBody, if_neg (Nat.not_le.mpr he)]

theorem Port.arrive_body_last (good : charGood par c = true) (st : q.framer.state = .body)
    (he : q.framer.expected = 1) :
    q.arrive t limit par c = { q with
      receiver := .ready
      framer := { state := .check, fields := q.framer.fields ++ [c.data], expected := 0,
                  remainder := crcByte q.framer.remainder c.data, highCheck := none, gapTimer := some limit } } := by
  rw [Port.arrive_good good]
  simp only [Port.takeGood, st, Port.takeBody, if_pos (Nat.le_of_eq he)]

theorem Port.arrive_check_high (good : charGood par c = true) (st : q.framer.state = .check)
    (hh : q.framer.highCheck = none) :
    q.arrive t limit par c = { q with
      receiver := .ready
      framer := { q.framer with highCheck := some c.data, gapTimer := some limit } } := by
  rw [Port.arrive_good good]
  simp only [Port.takeGood, st, hh]

/-- The second check byte completes the frame and its judgement follows (R15). -/
theorem Port.arrive_check_low {high : Byte} (good : charGood par c = true) (st : q.framer.state = .check)
    (hh : q.framer.highCheck = some high) :
    q.arrive t limit par c = ({ q with receiver := .ready } : Port).complete t high c.data := by
  rw [Port.arrive_good good]
  simp only [Port.takeGood, st, hh]

end Arrival

/-! ### Completion (R7, R9, R15) -/

theorem kindBits_toNat (kt : Byte) : (kt.extractLsb' 5 3).toNat = kt.toNat / 32 := by
  have := kt.isLt
  simp only [BitVec.extractLsb'_toNat, Nat.shiftRight_eq_div_pow]
  omega

theorem tagBits_eq (kt : Byte) : kt.extractLsb' 0 5 = BitVec.ofNat 5 kt.toNat := by
  apply BitVec.eq_of_toNat_eq
  simp

theorem kindOf_none_iff (c : BitVec 3) : kindOf c = none ↔ c.toNat = 0 ∨ 6 ≤ c.toNat := by
  revert c
  decide

theorem kindOf_kindCode (k : FrameKind) : kindOf (kindCode k) = some k := by cases k <;> rfl

theorem kindOf_eq_some {c : BitVec 3} {k : FrameKind} (h : c.toNat = (kindCode k).toNat) : kindOf c = some k := by
  rw [BitVec.eq_of_toNat_eq h, kindOf_kindCode]

section Judgement

variable {t : Bool} {dest src kt fn len : Byte} {payload : List Byte} {rem : Word}

theorem judgeFrame_checkBad {fields : List Byte} {received : Word} (h : rem ≠ received) :
    judgeFrame t fields rem received = .checkBad := if_pos h

/-- A bad kind, destination or source is FORMAT (R15). -/
theorem judgeFrame_formatInvalid
    (h : kt.toNat / 32 = 0 ∨ 6 ≤ kt.toNat / 32 ∨ dest = 255 ∨ (t = true ∧ dest = 0) ∨ src = 0 ∨ src = 255) :
    judgeFrame t ([dest, src, kt, fn, len] ++ payload) rem rem = .formatInvalid := by
  simp only [judgeFrame, ne_eq, not_true_eq_false, if_false, List.cons_append, List.nil_append]
  cases hk : kindOf (kt.extractLsb' 5 3) with
  | none => rfl
  | some k =>
    have valid : ¬ (kt.toNat / 32 = 0 ∨ 6 ≤ kt.toNat / 32) := by
      rw [← kindBits_toNat, ← kindOf_none_iff, hk]
      simp
    exact if_pos (by tauto)

theorem judgeFrame_good {k : FrameKind} (hk : kt.toNat / 32 = (kindCode k).toNat) (hd : dest ≠ 255)
    (h0 : t = true → dest ≠ 0) (hs : src ≠ 0) (hs' : src ≠ 255) :
    judgeFrame t ([dest, src, kt, fn, len] ++ payload) rem rem =
      .good { dest := dest, src := src, kind := k, tag := BitVec.ofNat 5 kt.toNat, fn := fn, payload := payload } := by
  have hkind : kindOf (kt.extractLsb' 5 3) = some k := kindOf_eq_some ((kindBits_toNat kt).trans hk)
  simp only [judgeFrame, ne_eq, not_true_eq_false, if_false, List.cons_append, List.nil_append, hkind, tagBits_eq]
  exact if_neg (by tauto)

end Judgement

section Completion

variable {t : Bool} {high low : Byte} {q : Port}

theorem Port.complete_checkBad (h : judgeFrame t q.framer.fields q.framer.remainder (high ++ low) = .checkBad) :
    q.complete t high low = { q with
      framer := Framer.reset, counters := { q.counters with check := satInc q.counters.check }
      deliveries := if t then q.deliveries else q.deliveries ++ [.corruptNotice] } := by
  simp only [Port.complete, wordOf, h]
  rfl

theorem Port.complete_formatInvalid
    (h : judgeFrame t q.framer.fields q.framer.remainder (high ++ low) = .formatInvalid) :
    q.complete t high low = { q with
      framer := Framer.reset, counters := { q.counters with format := satInc q.counters.format } } := by
  simp only [Port.complete, wordOf, h]
  rfl

theorem Port.complete_good {f : Frame}
    (h : judgeFrame t q.framer.fields q.framer.remainder (high ++ low) = .good f) :
    q.complete t high low = { q with
      framer := Framer.reset, counters := { q.counters with good := satInc q.counters.good }
      deliveries := q.deliveries ++ [.frame f] } := by
  simp only [Port.complete, wordOf, h]
  rfl

end Completion

/-! ### The commands of the lines -/

theorem onTrunk_iff (p : PortId) : onTrunk p = true ↔ p = .trunk := by cases p <;> simp [onTrunk]

theorem exec_idleQualification {s : State} (a : Acting s) (p : PortId) :
    exec (.idleQualification p) s = .next (s.modPort p Port.qualify) :=
  State.acting_next a fun s => s.modPort p Port.qualify

theorem exec_breakEnd {s : State} (a : Acting s) (p : PortId) :
    exec (.breakEnd p) s = .next (s.modPort p Port.endBreak) :=
  State.acting_next a fun s => s.modPort p Port.endBreak

theorem exec_gapTimerExpiry {s : State} (a : Acting s) (p : PortId) :
    exec (.gapTimerExpiry p) s = .next (s.modPort p Port.gapExpire) :=
  State.acting_next a fun s => s.modPort p Port.gapExpire

theorem exec_fallToSpace_unqualified {s : State} {p : PortId} (a : Acting s) (h : (s.port p).receiver = .unqualified)
    (b : Bool) : exec (.fallToSpace p b) s = .next (s.restartGuard p) := by
  change execFallToSpace p b s = _
  unfold execFallToSpace
  rw [State.acting_next a, if_pos h]

theorem exec_fallToSpace_qualified {s : State} {p : PortId} (a : Acting s) (h : (s.port p).receiver ≠ .unqualified)
    (b : Bool) : exec (.fallToSpace p b) s = .next (s.modPort p (Port.fall b)) := by
  change execFallToSpace p b s = _
  unfold execFallToSpace
  rw [State.acting_next a, if_neg h]

/-- A character that arrives at a receiver that can take one is an update of its port, and a guard timer that runs
restarts (R3, R103). -/
theorem exec_arrival {s : State} {p : PortId} {c : RawChar} {f : Port → Port} (a : Acting s)
    (h : (s.port p).receiver = .ready ∨ (s.port p).receiver = .receiving)
    (hf : (s.port p).arrive (onTrunk p) (s.gapLimit p) (s.parity p) c = f (s.port p)) :
    exec (.arrival p c) s = .next ((s.modPort p f).restartGuard p) := by
  rw [← State.modPort_congr hf]
  exact (State.acting_next a _).trans (congrArg Host.Outcome.next (if_pos ((s.port p).hearing_iff.mpr h)))

theorem exec_lineBreak {s : State} {p : PortId} {f : Port → Port} (a : Acting s)
    (h : (s.port p).receiver = .ready ∨ (s.port p).receiver = .receiving)
    (hf : (s.port p).takeBreak = f (s.port p)) : exec (.lineBreak p) s = .next ((s.modPort p f).restartGuard p) := by
  rw [← State.modPort_congr hf]
  exact (State.acting_next a _).trans (congrArg Host.Outcome.next (if_pos ((s.port p).hearing_iff.mpr h)))

/-- The guard timer restarts in GUARD and RESUME alone (R103, R122). -/
theorem State.restartGuard_running {s : State} {x : Seg} (h : (s.seg x).state = .guard ∨ (s.seg x).state = .resume) :
    s.restartGuard (.segment x) = s.modSeg x fun g => { g with guardTimer := some g.config.guard.toNat } :=
  State.modSeg_congr (if_pos h)

theorem State.restartGuard_stopped {s : State} {x : Seg} (hg : (s.seg x).state ≠ .guard)
    (hr : (s.seg x).state ≠ .resume) : s.restartGuard (.segment x) = s :=
  State.modSeg_same (if_neg (by tauto))

/-- A saturating counter stops at 65535 (R17). -/
theorem satInc_toNat (count : Word) : (satInc count).toNat = min 65535 (count.toNat + 1) := by
  have hc := count.isLt
  unfold satInc
  split
  · rename_i h
    subst h
    rfl
  · rename_i h
    have hne : count.toNat ≠ 65535 := fun e => h (BitVec.eq_of_toNat_eq e)
    rw [BitVec.toNat_add]
    change (count.toNat + 1) % 65536 = _
    omega

end Sys2Proof.Machine
end

section
/-! PROOF. O10 to O14: receivers, the framer's states, its faults and the judgement at completion. -/

namespace Sys2Proof.Machine

/-- Settles O10: each condition by what its command makes of the port. -/
theorem receiverConditions : Obligations.ReceiverConditions := by
  refine ⟨fun s p a => ⟨fun h => ?_, fun h => ?_, fun h => ?_, fun h => ?_, fun h => ⟨?_, ?_⟩, fun h b => ?_,
      fun h b => exec_fallToSpace_unqualified a h b⟩,
    fun s x h => State.restartGuard_running h, fun s x hg hr => State.restartGuard_stopped hg hr, fun s => rfl,
    charGood_iff⟩
  · exact (exec_idleQualification a p).trans (congrArg Host.Outcome.next (State.modPort_congr (Port.qualify_unqualified h)))
  · rw [exec_idleQualification a, State.modPort_same (Port.qualify_else h)]
  · exact (exec_breakEnd a p).trans (congrArg Host.Outcome.next (State.modPort_congr (Port.endBreak_inBreak h)))
  · rw [exec_breakEnd a, State.modPort_same (Port.endBreak_else h)]
  · exact (exec_fallToSpace_qualified a (by simp [h]) true).trans (congrArg Host.Outcome.next (State.modPort_congr (Port.fall_ready h)))
  · rw [exec_fallToSpace_qualified a (by simp [h]), State.modPort_same (Port.fall_glitch _)]
  · have unready : (s.port p).receiver ≠ .ready ∧ (s.port p).receiver ≠ .unqualified := by
      rcases h with h | h | h <;> simp [h]
    rw [exec_fallToSpace_qualified a unready.2, State.modPort_same (Port.fall_else unready.1 b)]

/-- Settles O11: the lead, and what is not one. -/
theorem huntTakesTheLeadAlone : Obligations.HuntTakesTheLeadAlone := fun _ _ _ a hear st =>
  ⟨fun good hd => exec_arrival a hear (Port.arrive_lead good st hd),
    fun h => exec_arrival a hear (Port.arrive_discarded st h)⟩

/-- Settles O12: the remainder bit by bit, and one equation of the port for each place in the frame. -/
theorem headerAndBodyCollect : Obligations.HeaderAndBodyCollect := by
  refine ⟨fun remainder b => ?_, fun s => ⟨rfl, fun x => rfl⟩, fun s p c a hear good => ?_⟩
  · simp only [crcByte, List.foldl_cons, List.foldl_nil, crcBit_eq]
  · exact ⟨fun st hl => exec_arrival a hear (Port.arrive_header good st hl),
      fun st hl hd => exec_arrival a hear (Port.arrive_length_over good st hl hd),
      fun st hl hd => exec_arrival a hear (Port.arrive_length_zero good st hl hd),
      fun st hl h1 h48 => exec_arrival a hear (Port.arrive_length_some good st hl h1 h48),
      fun st he => exec_arrival a hear (Port.arrive_body good st he),
      fun st he => exec_arrival a hear (Port.arrive_body_last good st he),
      fun st hh => exec_arrival a hear (Port.arrive_check_high good st hh)⟩

/-- Settles O13: each fault leaves the frame with its own count. -/
theorem faultsAbandonTheFrame : Obligations.FaultsAbandonTheFrame := by
  refine ⟨fun s p c a hear st bad => exec_arrival a hear (Port.arrive_error bad st),
    fun s p a hear => exec_lineBreak a hear (Port.takeBreak_hearing hear), fun s p a h => ?_, fun s p a h => ?_,
    satInc_toNat, rfl, rfl, rfl⟩
  · exact (exec_gapTimerExpiry a p).trans (congrArg Host.Outcome.next (State.modPort_congr (Port.gapExpire_running h)))
  · rw [exec_gapTimerExpiry a, State.modPort_same (Port.gapExpire_stopped h)]

/-- Settles O14: check, format, good frame, in the order in which a completion judges them. -/
theorem completionIsJudged : Obligations.CompletionIsJudged := by
  intro s p c high dest src kt fn len payload a hear good st hh fields
  have trunk : onTrunk p = true ↔ p = .trunk := onTrunk_iff p
  refine ⟨fun hrem => exec_arrival a hear ?_, fun hrem hbad => exec_arrival a hear ?_,
    fun k hrem hk hd h0 hs hs' => exec_arrival a hear ?_⟩
  · rw [Port.arrive_check_low good st hh, Port.complete_checkBad]
    · simp only [trunk]
    · exact judgeFrame_checkBad hrem
  · rw [Port.arrive_check_low good st hh, Port.complete_formatInvalid]
    rw [← hrem]
    simp only [fields]
    exact judgeFrame_formatInvalid (by simpa only [trunk] using hbad)
  · rw [Port.arrive_check_low good st hh, Port.complete_good]
    rw [← hrem]
    simp only [fields]
    exact judgeFrame_good hk hd (fun ht => h0 (trunk.mp ht)) hs hs'

end Sys2Proof.Machine
end

section
/-! SUPPORT. What the resets leave (R18, R112, R124, R163, R170), a segment at a time. -/

namespace Sys2Proof.Machine

/-! ### Hard reset -/

theorem strapParity_eq (p : Straps) :
    strapParity p = if p.tps = 1 then .even else if p.tps = 2 then .odd else .none := by
  have h : ∀ tps : BitVec 2, strapParity ⟨0, 0, tps⟩ =
      if tps = 1 then .even else if tps = 2 then .odd else .none := by decide
  exact h p.tps

theorem strapsFaulty_iff (p : Straps) : strapsFaulty p = true ↔ p.ads = 0 ∨ p.ads = 255 ∨ p.tps = 3 := by
  simp [strapsFaulty, or_assoc]

/-- A reset that began with RESETn has the cause PIN; any other, and one without a beginning, POWER (R163). -/
theorem resetCauseOf_getD (running : Option HardCause) :
    resetCauseOf (running.getD .power) = if running = some .pin then .pin else .power := by
  rcases running with _ | _ | _ <;> rfl

theorem hardResetCause_eq (running : Option HardCause) (begins : HardCause) :
    hardResetCause running begins = if running = some .power then .power else begins := by
  rcases running with _ | _ | _ <;> rfl

theorem Bank.empty_getElem (i : Fin 48) : Bank.empty[i] = none := by simp [Bank.empty]

theorem ExchangeTable.reset_record (i : Slot) : ExchangeTable.reset.record i = none := by
  simp [ExchangeTable.reset, ExchangeTable.record]

theorem InputBlock.reset_getElem (n : Fin 16) : InputBlock.reset.lines[n] = InputLine.reset := by
  simp [InputBlock.reset]

/-! ### Soft reset -/

/-- What closes or opens the framer forgets what applying a configuration did to the port (R16, R107). -/
theorem Segment.applyPending_modPort (g : Segment) (f : Port → Port) (hunt : ∀ p : Port, f p.hunt = f p)
    (reopen : ∀ p : Port, f p.reopen = f p) :
    g.applyPending.modPort f =
      { g with config := g.pendingConfig.getD g.config, pendingConfig := none, port := f g.port } := by
  unfold Segment.applyPending Segment.applyConfig
  cases hp : g.pendingConfig with
  | none =>
    obtain ⟨⟩ := g
    cases hp
    rfl
  | some c =>
    simp only []
    split
    · rfl
    · split
      · simp only [Segment.modPort, hunt]
        rfl
      · simp only [Segment.modPort, reopen]
        rfl

/-- Entry to LENT in one record (R115). -/
theorem Segment.toLent_eq (g : Segment) : g.toLent = g.lentNow := by
  unfold Segment.toLent
  rw [g.applyPending_modPort Port.close (fun _ => rfl) (fun _ => rfl)]
  rfl

/-- A lent segment stays lent (R112, R124). -/
theorem Segment.softReset_lent {g : Segment} (st : g.state = .lent) :
    g.softReset = { g with
      counters := SegmentCounters.zero, current := none, responseTimer := none, guardTimer := none, tx := none
      de := false, drainRequested := false, config := g.pendingConfig.getD g.config, pendingConfig := none
      port := { Port.reset with receiver := .closed } } := by
  unfold Segment.softReset
  simp only []
  rw [if_pos st, Segment.applyPending_modPort _ Port.close (fun _ => rfl) (fun _ => rfl)]
  rfl

/-- A draining segment enters LENT (R124). -/
theorem Segment.softReset_draining {g : Segment} (st : g.state ≠ .lent) (hd : g.drainRequested = true) :
    g.softReset = { g with
      counters := SegmentCounters.zero, current := none, responseTimer := none, guardTimer := none, tx := none
      de := false, drainRequested := false, config := g.pendingConfig.getD g.config, pendingConfig := none
      port := { Port.reset with receiver := .closed }
      state := .lent, hack := true, lentExpired := false, lentTime := some 0 } := by
  unfold Segment.softReset
  simp only []
  rw [if_neg st, if_pos hd, Segment.toLent_eq]
  rfl

/-- Any other segment is IDLE (R112). -/
theorem Segment.softReset_idle {g : Segment} (st : g.state ≠ .lent) (hd : g.drainRequested = false) :
    g.softReset = { g with
      counters := SegmentCounters.zero, current := none, responseTimer := none, guardTimer := none, tx := none
      de := false, drainRequested := false, config := g.pendingConfig.getD g.config, pendingConfig := none
      port := { Port.reset with receiver := .unqualified }
      state := .idle, hack := false, lentExpired := false, lentTime := none } := by
  unfold Segment.softReset
  simp only []
  rw [if_neg st, if_neg (by simp [hd]), Segment.applyPending_modPort _ Port.reopen (fun _ => rfl) (fun _ => rfl)]
  rfl

@[simp] theorem State.offerLentAtReset_seg (before : Segment) (x y : Seg) (s : State) :
    (State.offerLentAtReset before x s).seg y = s.seg y := by
  unfold State.offerLentAtReset
  split <;> simp

/-- The soft reset takes each segment by itself; the offers after it and the arbiter leave both alone (R169). -/
theorem State.softReset_seg (s : State) (x : Seg) : s.softReset.seg x = (s.seg x).softReset := by
  unfold State.softReset
  simp only [State.arbitrate_seg, State.offerLentAtReset_seg]
  cases x <;> rfl

theorem State.resetBound_of {s : State} {q : QueuedFrame} (hp : s.trunk.softResetPending = true)
    (htx : s.trunk.tx = .sending q) (hq : q.bindsReset = true) : s.resetBound = true := by
  simp [State.resetBound, hp, htx, hq]

/-- The end of the bound RSP's transmission is the soft reset under either command (R30, R167; log 16). -/
theorem exec_softReset_bound {s : State} {c : Instr} (a : Acting s) (bound : s.resetBound = true)
    (hc : c = .softReset ∨ c = .endOfTransmission) : exec c s = .next s.softReset := by
  rcases hc with rfl | rfl
  · change execSoftReset s = _
    unfold execSoftReset
    rw [State.acting_next a, if_pos bound]
  · change execEndOfTransmission s = _
    unfold execEndOfTransmission
    rw [State.acting_next a, if_pos bound]

end Sys2Proof.Machine
end

section
/-! PROOF. O4, O5 and O7: what HARD_RESET leaves, what HARD_RESET_BEGIN cuts, and the segments at a soft reset. -/

namespace Sys2Proof.Machine

/-- Settles O4: block by block, each in its state after reset. -/
theorem hardResetState : Obligations.HardResetState := by
  intro p s
  refine ⟨_, rfl, rfl, rfl, strapParity_eq p, strapsFaulty_iff p, rfl, rfl, rfl, rfl, rfl, rfl, rfl, rfl,
    fun i => ⟨Bank.empty_getElem i, Bank.empty_getElem i⟩, rfl, rfl, rfl, rfl,
    ExchangeTable.reset_record, rfl, rfl, fun x => ?_, InputBlock.reset_getElem, rfl, rfl, rfl, rfl,
    fun n => ⟨rfl, rfl, rfl⟩, rfl, rfl, resetCauseOf_getD s.hardReset,
    rfl, rfl, rfl, rfl, rfl, rfl, rfl, rfl, rfl, rfl, rfl, rfl, rfl⟩
  cases x
  · exact ⟨rfl, rfl, rfl, rfl, rfl, rfl, rfl, rfl, rfl, rfl, rfl, rfl, rfl, rfl, rfl, rfl, rfl, rfl⟩
  · exact ⟨rfl, rfl, rfl, rfl, rfl, rfl, rfl, rfl, rfl, rfl, rfl, rfl, rfl, rfl, rfl, rfl, rfl, rfl⟩

/-- Settles O5: the whole next state, its pins at mark because nothing is in transmission. -/
theorem hardResetBeginCuts : Obligations.HardResetBeginCuts := by
  intro c s
  refine ⟨_, rfl, ?_, fun n => ⟨State.trunkLine_idle _ rfl n, Segment.line_rest _ (.inl rfl) n,
    Segment.line_rest _ (.inl rfl) n⟩⟩
  rw [hardResetCause_eq]
  rfl

/-- Settles O7: the three cases of a segment, each with its whole state after the soft reset. -/
theorem softResetSegments : Obligations.SoftResetSegments := by
  intro s q c x a law hp htx hq hc
  refine ⟨s.softReset, exec_softReset_bound a (State.resetBound_of hp htx hq) hc, ?_⟩
  rw [State.softReset_seg]
  generalize hg : s.seg x = g
  have hack : g.hack = true ↔ g.state = .lent := hg ▸ (law.seg a x).1
  by_cases st : g.state = .lent
  · rw [Segment.softReset_lent st]
    exact ⟨fun _ => ⟨st, hack.mpr st, rfl⟩, fun h => absurd st h, fun _ => ⟨rfl, rfl⟩, fun h => absurd st h,
      rfl, rfl, rfl, rfl, rfl, rfl, rfl, rfl, Segment.line_rest _ (.inl rfl), rfl, rfl, rfl, rfl, rfl⟩
  · cases hd : g.drainRequested with
    | true =>
      rw [Segment.softReset_draining st hd]
      exact ⟨fun _ => ⟨rfl, rfl, rfl⟩, fun _ h => absurd h (by simp), fun h => absurd h st, fun _ => ⟨rfl, rfl⟩,
        rfl, rfl, rfl, rfl, rfl, rfl, rfl, rfl, Segment.line_rest _ (.inl rfl), rfl, rfl, rfl, rfl, rfl⟩
    | false =>
      rw [Segment.softReset_idle st hd]
      exact ⟨fun h => absurd h (by simp [st]), fun _ _ => ⟨rfl, rfl, rfl⟩, fun h => absurd h st,
        fun _ => ⟨rfl, rfl⟩, rfl, rfl, rfl, rfl, rfl, rfl, rfl, rfl, Segment.line_rest _ (.inl rfl), rfl, rfl, rfl,
        rfl, rfl⟩

end Sys2Proof.Machine
end

section
/-! SUPPORT. A configuration and its fields in range (R106, R107), and what an answered management command leaves of the
segments and of the exchange table's law. -/

namespace Sys2Proof.Machine

/-! ### A new configuration (R16, R106, R107) -/

/-- Applying a configuration in one record, where the receiver is closed exactly while LENT: in IDLE and in LENT. -/
theorem Segment.applyConfig_configured (g : Segment) (c : SegConfig)
    (h : g.port.receiver = .closed ↔ g.state = .lent) : g.applyConfig c = g.configured c := by
  unfold Segment.applyConfig Segment.configured
  simp only [h]
  split
  · rfl
  · split
    · rename_i hl
      simp only [Segment.modPort, Port.hunt, h.mpr hl]
    · rfl

theorem SegmentLaw.closed_iff_lent {g : Segment} (h : SegmentLaw g) (st : g.state = .idle ∨ g.state = .lent) :
    g.port.receiver = .closed ↔ g.state = .lent := by
  obtain ⟨-, -, -, closed, -⟩ := h
  rcases st with st | st <;> simpa [st] using closed

@[simp] theorem Segment.configured_state (g : Segment) (c : SegConfig) : (g.configured c).state = g.state := rfl

@[simp] theorem Segment.configured_config (g : Segment) (c : SegConfig) : (g.configured c).config = c := rfl

@[simp] theorem Segment.configured_lentExpired (g : Segment) (c : SegConfig) :
    (g.configured c).lentExpired = g.lentExpired := rfl

@[simp] theorem Segment.configured_lentTime (g : Segment) (c : SegConfig) :
    (g.configured c).lentTime = g.lentTime := rfl

theorem firstOutOfRange_none_iff (tests : List (Byte × Bool)) :
    firstOutOfRange tests = none ↔ ∀ p ∈ tests, p.2 = true := by
  simp [firstOutOfRange]

theorem parityOf_parityCode (p : Parity) : parityOf (parityCode p) = some p := by cases p <;> rfl

theorem segOf_code (x : Seg) : segOf (if x = .a then 1 else 2) = some x := by cases x <;> rfl

/-- Six fields in range are six tests passed (R106). -/
theorem segmentOutOfRange_none {x : Seg} {rate gap guard depth patience : Byte} {par : Parity}
    (h : ∀ o, o < 7 →
      fieldInRange 0x23 [if x = .a then 1 else 2, rate, parityCode par, gap, guard, depth, patience] o) :
    segmentOutOfRange (if x = .a then 1 else 2) rate (parityCode par) gap guard depth = none := by
  have hrate : rate.toNat ≤ 7 := h 1 (by omega)
  have hgap : 2 ≤ gap.toNat ∧ gap.toNat ≤ 15 := h 3 (by omega)
  have hguard : 1 ≤ guard.toNat ∧ guard.toNat ≤ 15 := h 4 (by omega)
  have hdepth : 1 ≤ depth.toNat ∧ depth.toNat ≤ 16 := h 5 (by omega)
  rw [segmentOutOfRange, segOf_code, parityOf_parityCode, firstOutOfRange_none_iff]
  simp [hrate, hgap, hguard, hdepth]

/-! ### After the answer of a management command (R157) -/

@[simp] theorem State.placed_seg (s : State) (q : QueuedFrame) (x : Seg) : (s.placed q).seg x = s.seg x := by
  unfold State.placed
  split <;> cases x <;> rfl

@[simp] theorem State.answered_seg (s : State) (k : FrameKind) (fn : Byte) (r : Request) (p : List Byte) (x : Seg) :
    (s.answered k fn r p).seg x = s.seg x := s.placed_seg _ x

@[simp] theorem State.answered_hardReset (s : State) (k : FrameKind) (fn : Byte) (r : Request) (p : List Byte) :
    (s.answered k fn r p).hardReset = s.hardReset := by
  unfold State.answered State.placed
  split <;> rfl

@[simp] theorem State.answered_exchange (s : State) (k : FrameKind) (fn : Byte) (r : Request) (p : List Byte) :
    (s.answered k fn r p).exchange = s.exchange := by
  unfold State.answered State.placed
  split <;> rfl

@[simp] theorem State.taken_hardReset (s : State) (f : Frame) : (s.taken f).hardReset = s.hardReset := rfl

@[simp] theorem State.taken_seg (s : State) (f : Frame) (x : Seg) : (s.taken f).seg x = s.seg x := by cases x <;> rfl

/-- What leaves the exchange table, the states of the sequencers and the records they serve alone keeps the laws of the
table and of its records; the laws of the output queue and of the segments are shown apart. -/
theorem ExchangeLaw.of_same {s t : State} (h : ExchangeLaw s) (out : OutputLaw t) (segs : SegmentsLaw t)
    (hardReset : t.hardReset = s.hardReset) (exchange : t.exchange = s.exchange)
    (seg : ∀ x, (t.seg x).current = (s.seg x).current ∧ (t.seg x).state = (s.seg x).state) : ExchangeLaw t := by
  obtain ⟨-, -, table, rest⟩ := h
  refine ⟨out, segs, by rw [exchange]; exact table, fun a => ?_⟩
  obtain ⟨servedA, servedB, active, idleA, idleB⟩ := rest (hardReset ▸ a)
  have served : ∀ slot, t.served slot = s.served slot := fun slot => by
    have ha := (seg .a).1
    have hb := (seg .b).1
    simp only [State.seg_a, State.seg_b] at ha hb
    simp only [State.served, ha, hb]
  have servedLaw : ∀ x, ServedLaw s x → ServedLaw t x := fun x hx slot hslot => by
    rw [exchange, (seg x).2]
    exact hx slot ((seg x).1 ▸ hslot)
  have idleLaw : ∀ x, IdleLaw s x → IdleLaw t x := fun x hx hi => by
    rw [exchange]
    exact hx ((seg x).2 ▸ hi)
  refine ⟨servedLaw .a servedA, servedLaw .b servedB, fun slot => ?_, idleLaw .a idleA, idleLaw .b idleB⟩
  simp only [exchange, served]
  exact active slot

theorem ExchangeLaw.answered {s : State} (h : ExchangeLaw s) (a : Acting s) (room : s.trunk.queue.length < 8)
    (fn : Byte) (r : Request) (p : List Byte) : ExchangeLaw (s.answered .rsp fn r p) := by
  have out : OutputLaw (s.respond fn r p) := h.1.enqueue a room _
  rw [s.respond_answered fn r p room h.1 a] at out
  exact h.of_same out (h.2.1.same (by simp) (by simp)) (by simp) (by simp) (by simp)

/-- A new configuration in IDLE or LENT keeps the laws of the exchange table. -/
theorem ExchangeLaw.configure {s : State} (h : ExchangeLaw s) (x : Seg) (c : SegConfig) :
    ExchangeLaw (s.modSeg x fun g => g.applyConfig c) := by
  refine h.of_same ?_ (h.2.1.modSeg x _ fun hg => Segment.applyConfig_law _ c hg) (by simp) (by simp) fun y => ?_
  · simpa [OutputLaw] using h.1
  · by_cases hy : y = x
    · subst hy
      obtain ⟨p, -, he⟩ := (s.seg y).applyConfig_eq c
      simp [he]
    · rw [s.modSeg_seg_other x y _ hy]
      exact ⟨rfl, rfl⟩

end Sys2Proof.Machine
end

section
/-! PROOF. O34 and O43: SET-SEGMENT, and the end of the transmission of an attempt. -/

namespace Sys2Proof.Machine

/-- SET-SEGMENT in range answers with its status and sets the configuration (R106). -/
theorem exec_setSegment {s : State} {r : Request} {x : Seg} {rate gap guard depth patience : Byte} {par : Parity}
    (hr : Ready s r) (ho : OutputLaw s)
    (hp : r.payload = [if x = .a then 1 else 2, rate, parityCode par, gap, guard, depth, patience])
    (range : ∀ o, o < 7 → fieldInRange 0x23 r.payload o) :
    exec (.setSegment r) s =
      .next (((s.taken (s.commandFrame 0x23 r)).answered .rsp 0x23 r
        [if (s.seg x).state = .idle ∨ (s.seg x).state = .lent then 0 else 1]).setConfig x
          ⟨BitVec.ofNat 3 rate.toNat, par, gap, guard, depth, patience⟩) := by
  rw [hp] at range
  change execSetSegment r s = _
  unfold execSetSegment
  rw [State.management_ready s 0x23 r _ hr]
  simp only [hp, segmentOutOfRange_none range, segOf_code, parityOf_parityCode, State.taken_seg,
    BitVec.ofNat_toNat]
  rw [State.respond_answered (s.taken (s.commandFrame 0x23 r)) 0x23 r _ hr.2.2 (ho.taken _) hr.1.1]

section Configure

variable {s : State} {x : Seg} {c : SegConfig}

theorem State.setConfig_defers (hi : (s.seg x).state ≠ .idle) (hl : (s.seg x).state ≠ .lent) :
    s.setConfig x c = s.modSeg x fun g => { g with pendingConfig := some c } := if_neg (by tauto)

/-- In IDLE and in LENT the configuration is applied, then the patience is judged (R107, R119). -/
theorem State.setConfig_applies (law : SegmentLaw (s.seg x))
    (st : (s.seg x).state = .idle ∨ (s.seg x).state = .lent) :
    s.setConfig x c = (s.modSeg x fun g => g.configured c).judgePatience x := by
  unfold State.setConfig
  rw [if_pos st, State.modSeg_congr (g := fun g => g.configured c)
    (Segment.applyConfig_configured _ c (law.closed_iff_lent st))]

end Configure

section Configured

variable {g : Segment} {c : SegConfig}

/-- Neither IDLE nor a LENT segment short of its new patience expires (R119). -/
theorem Segment.configured_early (h : g.state = .idle ∨ (g.state = .lent ∧ (g.lentExpired = true ∨ c.patience = 0 ∨
    ∃ m, g.lentTime = some m ∧ m < c.patience.toNat * 100))) : ¬ PatienceReached (g.configured c) := by
  rintro ⟨hl, hexp, h0, hle⟩
  simp only [Segment.configured_state, Segment.configured_lentExpired, Segment.configured_config,
    Segment.configured_lentTime] at hl hexp h0 hle
  rcases h with st | ⟨-, h | h | ⟨m, hm, hlt⟩⟩
  · simp [st] at hl
  · simp [h] at hexp
  · exact h0 h
  · simp only [hm, Option.getD_some] at hle
    omega

theorem Segment.configured_same_line (hrate : c.rate = g.config.rate) (hpar : c.parity = g.config.parity) :
    g.configured c = { g with pendingConfig := none, config := c } := by
  rw [Segment.configured, if_pos ⟨hrate, hpar⟩]

theorem Segment.configured_new_line (h : c.rate ≠ g.config.rate ∨ c.parity ≠ g.config.parity) :
    g.configured c = { g with
      pendingConfig := none, config := c
      port := { g.port with
        framer := Framer.reset, receiver := if g.state = .lent then .closed else .unqualified } } := by
  rw [Segment.configured, if_neg (by tauto)]

end Configured

/-- The laws of the exchange table hold when a lent segment has been configured, before its patience is judged. -/
theorem ExchangeLaw.answered_configured {s : State} {r : Request} {x : Seg} (h : ExchangeLaw s) (hr : Ready s r)
    (st : (s.seg x).state = .lent) (c : SegConfig) :
    ExchangeLaw (((s.taken (s.commandFrame 0x23 r)).answered .rsp 0x23 r [0]).modSeg x fun g => g.configured c) := by
  have taken : ExchangeLaw (s.taken (s.commandFrame 0x23 r)) :=
    h.of_same (h.1.taken _) (h.2.1.same rfl (by simp)) rfl rfl (by simp)
  have answered := (taken.answered hr.1.1 hr.2.2 0x23 r [0]).configure x c
  have applied := Segment.applyConfig_configured (s.seg x) c ((h.2.1.seg hr.1.1 x).closed_iff_lent (.inr st))
  rwa [State.modSeg_congr (g := fun g => g.configured c) (by simpa using applied)] at answered

/-- Settles O34: pending elsewhere, applied in IDLE and LENT, and the patience judged on the configured segment. -/
theorem setSegmentAppliesOrDefers : Obligations.SetSegmentAppliesOrDefers := by
  rintro s r x rate parity gap guard depth patience par hr ho law hp range rfl
  have run := exec_setSegment hr ho hp range
  have hx : SegmentLaw (s.seg x) := law.seg hr.1.1 x
  have seg : ∀ status, ((s.taken (s.commandFrame 0x23 r)).answered .rsp 0x23 r [status]).seg x = s.seg x := by
    simp
  refine ⟨fun hi hl => ?_, fun st => ?_, fun m st hexp h0 hm hle hlaw => ?_⟩
  · rw [run, if_neg (by tauto), State.setConfig_defers (by rwa [seg]) (by rwa [seg])]
  · have now : (s.seg x).state = .idle ∨ (s.seg x).state = .lent := st.imp id And.left
    rw [run, if_pos now, State.setConfig_applies (by rwa [seg]) (by rwa [seg]),
      State.judgePatience_else _ _ (by rw [State.modSeg_seg_self, seg]; exact Segment.configured_early st)]
    refine ⟨fun hrate hpar => ?_, fun hne => ?_⟩
    · refine congrArg Host.Outcome.next (State.modSeg_congr ?_)
      rw [seg]
      exact Segment.configured_same_line hrate hpar
    · refine congrArg Host.Outcome.next (State.modSeg_congr ?_)
      rw [seg]
      exact Segment.configured_new_line hne
  · have reached : PatienceReached ((s.seg x).configured
        ⟨BitVec.ofNat 3 rate.toNat, par, gap, guard, depth, patience⟩) :=
      ⟨st, hexp, h0, by simpa [hm] using hle⟩
    rw [run, if_pos (.inr st), State.setConfig_applies (by rwa [seg]) (by rw [seg]; exact .inr st),
      State.judgePatience_reached _ _ (by rwa [State.modSeg_seg_self, seg]),
      State.expirePatience_eq _ (by simpa [Acting] using hr.1.1) (hlaw.answered_configured hr st _) x
        (by rw [State.modSeg_seg_self, seg]; exact st)]

/-- Outside SEND the end of a transmission does not come (log 4). -/
theorem exec_segmentEndOfTransmission_else {s : State} {x : Seg} (a : Acting s) (st : (s.seg x).state ≠ .send) :
    exec (.segmentEndOfTransmission x) s = .next s := by
  change execSegmentEndOfTransmission x s = _
  unfold execSegmentEndOfTransmission
  rw [State.acting_next a, if_neg st]

/-- Settles O43: the end of the transmission on the segment, then WAIT with the attempt outstanding or GUARD without
one. -/
theorem endOfAttemptTransmission : Obligations.EndOfAttemptTransmission := by
  intro s x a
  refine ⟨exec_segmentEndOfTransmission_else a, fun slot r c st hc hr hs => ?_, fun st hc hd => ?_⟩
  · change execSegmentEndOfTransmission x s = _
    unfold execSegmentEndOfTransmission
    rw [State.acting_next a, if_pos st]
    have cur : ((s.modSeg x Segment.endTransmission).seg x).current = some slot := by
      rw [State.modSeg_seg_self]; exact hc
    simp only [cur, State.modSeg_exchange, hr, hs]
    rw [State.modSeg_modSeg]
    rfl
  · change execSegmentEndOfTransmission x s = _
    unfold execSegmentEndOfTransmission
    rw [State.acting_next a, if_pos st]
    have cur : ((s.modSeg x Segment.endTransmission).seg x).current = none := by
      rw [State.modSeg_seg_self]; exact hc
    simp only [cur]
    rw [State.leaveWork_guard _ x (by rw [State.modSeg_seg_self]; exact hd), State.modSeg_modSeg]
    refine congrArg Host.Outcome.next (State.modSeg_congr ?_)
    simp only [Segment.toGuard, Segment.endTransmission, Segment.modPort, Port.reopen, hc]

end Sys2Proof.Machine
end

section
/-! SUPPORT. A frame on a line (R1, R5, R6, R9 to R15): its characters fed to a framer one by one, and its levels on a
transmit pin bit time by bit time. -/

namespace Sys2Proof.Machine

/-! ### The bytes of a frame (R6, R9, R173) -/

theorem kindTagByte_toNat (k : FrameKind) (t : Tag) :
    (kindTagByte k t).toNat = 32 * (kindCode k).toNat + t.toNat := by
  have hk := (kindCode k).isLt
  have ht := t.isLt
  rw [kindTagByte_eq, BitVec.toNat_ofNat]
  omega

theorem kindTagByte_kind (k : FrameKind) (t : Tag) : (kindTagByte k t).toNat / 32 = (kindCode k).toNat := by
  have ht := t.isLt
  rw [kindTagByte_toNat]
  omega

theorem kindTagByte_tag (k : FrameKind) (t : Tag) : BitVec.ofNat 5 (kindTagByte k t).toNat = t := by
  have ht := t.isLt
  apply BitVec.eq_of_toNat_eq
  rw [kindTagByte_toNat, BitVec.toNat_ofNat]
  omega

theorem hiByte_append_loByte (w : Word) : hiByte w ++ loByte w = w := by
  apply BitVec.eq_of_getLsbD_eq
  intro i hi
  rw [BitVec.getLsbD_append]
  simp only [hiByte, loByte, BitVec.getLsbD_extractLsb']
  split
  · simp; omega
  · rw [show 8 + (i - 8) = i by omega]
    simp; omega

theorem frameBytes_length (f : Frame) : (frameBytes f).length = 8 + f.payload.length := by
  simp [frameBytes, frameCovered, wordBytes]
  omega

/-- One more byte under the check (R9). -/
theorem crc_append (l : List Byte) (b : Byte) : crc (l ++ [b]) = crcByte (crc l) b := by simp [crc]

/-! ### A frame fed to a framer (R10 to R15) -/

/-- A character as sent is good at a receiver of the same parity (R1, R3). -/
theorem charOf_good (par : Parity) (b : Byte) : charGood par (charOf par b) = true := by
  cases par <;> simp [charGood, charOf, parityBit]

/-- The port after the characters of some bytes, as a transmitter of the line's parity sends them. -/
def Port.feed (t : Bool) (limit : Nat) (par : Parity) (bytes : List Byte) (q : Port) : Port :=
  bytes.foldl (fun q b => q.arrive t limit par (charOf par b)) q

/-- The port in a frame: the bytes taken so far, what is still expected, the check over the bytes taken. -/
def Port.within (q : Port) (limit : Nat) (st : FramerState) (fields : List Byte) (expected : Nat) : Port :=
  { q with
    receiver := .ready
    framer := { state := st, fields := fields, expected := expected, remainder := crc fields, highCheck := none
                gapTimer := some limit } }

section Feed

variable {t : Bool} {limit : Nat} {par : Parity} {q : Port} {l : List Byte} {b : Byte}

theorem Port.feed_cons (bytes : List Byte) :
    q.feed t limit par (b :: bytes) = (q.arrive t limit par (charOf par b)).feed t limit par bytes := rfl

theorem Port.feed_append (bytes more : List Byte) :
    q.feed t limit par (bytes ++ more) = (q.feed t limit par bytes).feed t limit par more := List.foldl_append

theorem Port.arrive_starts (st : q.framer.state = .hunt) :
    q.arrive t limit par (charOf par lead) = q.within limit .header [] 0 :=
  Port.arrive_lead (charOf_good par lead) st rfl

theorem Port.within_header (hl : l.length < 4) :
    (q.within limit .header l 0).arrive t limit par (charOf par b) = q.within limit .header (l ++ [b]) 0 := by
  rw [Port.arrive_header (charOf_good par b) rfl hl]
  simp only [Port.within, crc_append]
  rfl

theorem Port.within_length_zero (hl : l.length = 4) :
    (q.within limit .header l 0).arrive t limit par (charOf par 0) = q.within limit .check (l ++ [0]) 0 := by
  rw [Port.arrive_length_zero (charOf_good par 0) rfl hl rfl]
  simp only [Port.within, crc_append]
  rfl

theorem Port.within_length_some (hl : l.length = 4) (h1 : 1 ≤ b.toNat) (h48 : b.toNat ≤ 48) :
    (q.within limit .header l 0).arrive t limit par (charOf par b) = q.within limit .body (l ++ [b]) b.toNat := by
  rw [Port.arrive_length_some (charOf_good par b) rfl hl h1 h48]
  simp only [Port.within, crc_append]
  rfl

theorem Port.within_body {n : Nat} :
    (q.within limit .body l (n + 2)).arrive t limit par (charOf par b) = q.within limit .body (l ++ [b]) (n + 1) := by
  rw [Port.arrive_body (charOf_good par b) rfl (show 1 < n + 2 by omega)]
  simp only [Port.within, crc_append]
  rfl

theorem Port.within_body_last :
    (q.within limit .body l 1).arrive t limit par (charOf par b) = q.within limit .check (l ++ [b]) 0 := by
  rw [Port.arrive_body_last (charOf_good par b) rfl rfl]
  simp only [Port.within, crc_append]
  rfl

/-- The payload byte by byte: the last one leads to the check (R12). -/
theorem Port.feed_payload (payload : List Byte) : ∀ (l : List Byte) (b : Byte),
    (q.within limit .body l (payload.length + 1)).feed t limit par (b :: payload) =
      q.within limit .check (l ++ b :: payload) 0 := by
  induction payload with
  | nil => exact fun l b => Port.within_body_last
  | cons c payload ih =>
    intro l b
    rw [Port.feed_cons, List.length_cons, Port.within_body, ih, List.append_assoc]
    rfl

/-- The length byte and the payload it announces (R12). -/
theorem Port.feed_length_payload {payload : List Byte} (hl : l.length = 4) (h48 : payload.length ≤ 48) :
    (q.within limit .header l 0).feed t limit par (byteOf payload.length :: payload) =
      q.within limit .check (l ++ byteOf payload.length :: payload) 0 := by
  cases payload with
  | nil => exact Port.within_length_zero hl
  | cons c payload =>
    have hn : (byteOf (c :: payload).length).toNat = payload.length + 1 := by
      rw [List.length_cons] at h48
      rw [byteOf, BitVec.toNat_ofNat, List.length_cons]
      omega
    rw [List.length_cons] at h48
    rw [Port.feed_cons, Port.within_length_some hl (by omega) (by omega), hn, Port.feed_payload, List.append_assoc]
    rfl

/-- Header and payload of a frame, from the lead to the check (R11, R12). -/
theorem Port.feed_covered (f : Frame) (h48 : f.payload.length ≤ 48) :
    (q.within limit .header [] 0).feed t limit par (frameCovered f) = q.within limit .check (frameCovered f) 0 := by
  have split : frameCovered f =
      f.dest :: f.src :: kindTagByte f.kind f.tag :: f.fn :: byteOf f.payload.length :: f.payload := rfl
  rw [split]
  iterate 4 rw [Port.feed_cons, Port.within_header (by simp)]
  exact Port.feed_length_payload rfl h48

/-- A whole frame, from HUNT to HUNT: delivered as it was sent and counted good once (R11 to R15). -/
theorem Port.feed_frame (f : Frame) (st : q.framer.state = .hunt) (h48 : f.payload.length ≤ 48)
    (hd : f.dest ≠ 255) (h0 : t = true → f.dest ≠ 0) (hs : f.src ≠ 0) (hs' : f.src ≠ 255) :
    q.feed t limit par (frameBytes f) = { q with
      receiver := .ready, framer := Framer.reset
      counters := { q.counters with good := satInc q.counters.good }
      deliveries := q.deliveries ++ [.frame f] } := by
  have judged : judgeFrame t (frameCovered f) (crc (frameCovered f)) (crc (frameCovered f)) = .good f := by
    refine (judgeFrame_good (payload := f.payload) (kindTagByte_kind f.kind f.tag) hd h0 hs hs').trans ?_
    rw [kindTagByte_tag]
  rw [frameBytes, Port.feed_cons, Port.arrive_starts st, Port.feed_append, Port.feed_covered f h48, wordBytes,
    Port.feed_cons, Port.arrive_check_high (charOf_good par _) rfl rfl, Port.feed_cons,
    Port.arrive_check_low (charOf_good par _) rfl rfl, Port.complete_good (f := f)]
  · rfl
  · simp only [charOf, hiByte_append_loByte]
    exact judged

end Feed

/-! ### A frame fed to the machine -/

theorem State.modPort_pending_eq (s : State) (p : PortId) (f : Port → Port) (l : List Instr) :
    ({ s with pending := l } : State).modPort p f = { s.modPort p f with pending := l } := by
  rcases p with _ | x
  · rfl
  · cases x <;> rfl

theorem State.pending_port (s : State) (l : List Instr) (p : PortId) :
    ({ s with pending := l } : State).port p = s.port p := by
  rcases p with _ | x
  · rfl
  · cases x <;> rfl

theorem State.pending_gapLimit (s : State) (l : List Instr) (p : PortId) :
    ({ s with pending := l } : State).gapLimit p = s.gapLimit p := by
  rcases p with _ | x
  · rfl
  · cases x <;> rfl

theorem State.pending_parity (s : State) (l : List Instr) (p : PortId) :
    ({ s with pending := l } : State).parity p = s.parity p := by
  rcases p with _ | x
  · rfl
  · cases x <;> rfl

theorem core_run_succ {s t : State} (n : Nat) (h : step s = .next t) :
    Host.Core.run Sys2Proof.core (n + 1) s = Host.Core.run Sys2Proof.core n t := by
  have hs : Sys2Proof.core.step s = .next t := h
  simp only [Host.Core.run, hs]

/-- A port whose arrivals restart no guard timer: the trunk's, or a segment's outside GUARD and RESUME (R103, R122). -/
def State.unguarded (s : State) (p : PortId) : Prop :=
  ∀ x, p = .segment x → (s.seg x).state ≠ .guard ∧ (s.seg x).state ≠ .resume

theorem State.unguarded_modPort {s : State} {p : PortId} (h : s.unguarded p) (f : Port → Port) :
    (s.modPort p f).unguarded p := by
  rintro x rfl
  rw [State.modPort_segment_seg]
  exact h x rfl

theorem State.unguarded_pending {s : State} {p : PortId} (h : s.unguarded p) (l : List Instr) :
    ({ s with pending := l } : State).unguarded p := by
  intro x hx
  cases x <;> exact h _ hx

theorem State.restartGuard_unguarded {s : State} {p : PortId} (h : s.unguarded p) : s.restartGuard p = s := by
  rcases p with _ | x
  · rfl
  · exact State.restartGuard_stopped (h x rfl).1 (h x rfl).2

/-- A character at the front of the queue goes to its port, and nothing else happens. -/
theorem step_arrival {s : State} {p : PortId} (a : Acting s) (ready : (s.port p).receiver = .ready)
    (free : s.unguarded p) (b : Byte) (more : List Instr) :
    step { s with pending := .arrival p (charOf (s.parity p) b) :: more } =
      .next { s.modPort p (Port.arrive (onTrunk p) (s.gapLimit p) (s.parity p) (charOf (s.parity p) b)) with
        pending := more } := by
  refine (exec_arrival (s := { s with pending := more })
    (f := Port.arrive (onTrunk p) (s.gapLimit p) (s.parity p) (charOf (s.parity p) b)) a ?_ ?_).trans ?_
  · exact .inl (by rw [State.pending_port]; exact ready)
  · rw [State.pending_gapLimit, State.pending_parity]
  · rw [State.modPort_pending_eq]
    exact congrArg Host.Outcome.next
      (State.restartGuard_unguarded (State.unguarded_pending (State.unguarded_modPort free _) more))

/-- The characters at the front of the queue, run one by one, are fed to their port and nothing else happens. -/
theorem core_run_arrivals (p : PortId) (rest : List Instr) (bytes : List Byte) : ∀ s : State, Acting s →
    (s.port p).receiver = .ready → s.unguarded p →
    Host.Core.run Sys2Proof.core bytes.length
      { s with pending := bytes.map (fun b => .arrival p (charOf (s.parity p) b)) ++ rest } =
    .next (({ s with pending := rest } : State).modPort p
      (Port.feed (onTrunk p) (s.gapLimit p) (s.parity p) bytes)) := by
  induction bytes with
  | nil => exact fun s _ _ _ => congrArg Host.Outcome.next (State.modPort_same rfl).symm
  | cons b bytes ih =>
    intro s a ready free
    have next := ih (s.modPort p (Port.arrive (onTrunk p) (s.gapLimit p) (s.parity p) (charOf (s.parity p) b)))
      (by simpa [Acting] using a) (by simp [Port.arrive_receiver]) (State.unguarded_modPort free _)
    simp only [State.modPort_parity, State.modPort_gapLimit] at next
    rw [List.length_cons, List.map_cons, List.cons_append, core_run_succ _ (step_arrival a ready free b _), next,
      ← State.modPort_pending_eq, State.modPort_modPort]
    rfl

/-! ### The levels of a transmit pin (R1, R5) -/

/-- The length of a character in bit times (R1). -/
theorem characterBits_length (p : Parity) (b : Byte) :
    (characterBits p b).length = if p = .none then 10 else 11 := by
  cases p <;> simp [characterBits, parityBit]

theorem lineBits_length (p : Parity) (f : Frame) :
    (lineBits p f).length = (8 + f.payload.length) * if p = .none then 10 else 11 := by
  simp only [lineBits, List.length_flatMap, characterBits_length, List.map_const', List.sum_replicate,
    frameBytes_length, smul_eq_mul]

/-- In a list of blocks of one length, the place in the block. -/
theorem getElem?_flatMap_blocks {α β : Type} (g : α → List β) {w : Nat} (hg : ∀ a, (g a).length = w) {i : Nat}
    (hi : i < w) (l : List α) : ∀ (k : Nat) (a : α), l[k]? = some a → (l.flatMap g)[k * w + i]? = (g a)[i]? := by
  induction l with
  | nil => simp
  | cons c l ih =>
    intro k a hk
    rw [List.flatMap_cons]
    cases k with
    | zero =>
      cases hk
      rw [Nat.zero_mul, Nat.zero_add, List.getElem?_append_left (by rw [hg]; exact hi)]
    | succ k =>
      rw [List.getElem?_append_right (by rw [hg, Nat.succ_mul]; omega), hg, ← ih k a (by simpa using hk)]
      congr 1
      rw [Nat.succ_mul]
      omega

/-- The pin carries the bits of the character whose turn it is (R5). -/
theorem pinLevel_character {p : Parity} {f : Frame} {k i w : Nat} {b : Byte} (hw : w = if p = .none then 10 else 11)
    (hk : (frameBytes f)[k]? = some b) (hi : i < w) :
    pinLevel p (some f) (k * w + i) = (characterBits p b).getD i mark := by
  simp only [pinLevel, lineBits, List.getD_eq_getElem?_getD]
  rw [getElem?_flatMap_blocks (characterBits p) (fun a => (characterBits_length p a).trans hw.symm) hi _ k b hk]

/-- The bits of a character in their places (R1). -/
theorem characterBits_start (p : Parity) (b : Byte) : (characterBits p b).getD 0 mark = space := rfl

theorem characterBits_data (p : Parity) (b : Byte) (i : Fin 8) :
    (characterBits p b).getD (1 + i.val) mark = b.getLsbD i.val := by
  fin_cases i <;> rfl

theorem characterBits_parity {p : Parity} (hp : p ≠ .none) (b : Byte) :
    (characterBits p b).getD 9 mark = true ↔
      ((List.range 8).countP fun i => b.getLsbD i) % 2 = if p = .even then 1 else 0 := by
  cases p with
  | none => exact absurd rfl hp
  | even =>
    change oddOnes b = true ↔ _
    simp [oddOnes_eq]
  | odd =>
    change (!oddOnes b) = true ↔ _
    simp [oddOnes_eq]

theorem characterBits_stop (p : Parity) (b : Byte) :
    (characterBits p b).getD ((if p = .none then 10 else 11) - 1) mark = mark := by
  cases p <;> rfl

/-- What a pin carries while a frame is sent (R1, R5). -/
theorem pinLevel_carries (p : Parity) (f : Frame) : LineCarries p f (pinLevel p (some f)) := by
  unfold LineCarries
  intro width
  have wide : 10 ≤ width := by simp only [width]; split <;> omega
  refine ⟨fun k b hk => ⟨?_, fun i => ?_, fun hp => ?_, ?_⟩, fun n hn => ?_⟩
  · exact (pinLevel_character (i := 0) rfl hk (by omega)).trans (characterBits_start p b)
  · rw [Nat.add_assoc]
    exact (pinLevel_character rfl hk (by omega)).trans (characterBits_data p b i)
  · rw [pinLevel_character (w := width) rfl hk (by omega)]
    exact characterBits_parity hp b
  · rw [Nat.add_sub_assoc (by omega)]
    exact (pinLevel_character rfl hk (by omega)).trans (characterBits_stop p b)
  · exact pinLevel_over p f n (by rw [lineBits_length]; exact hn)

end Sys2Proof.Machine
end

section
/-! PROOF. O15: a frame sent is the frame received, and the pins carry its characters. -/

namespace Sys2Proof.Machine

/-- What a good frame of the port's line fulfils for its framer (R12, R15). -/
theorem goodOn_port {p : PortId} {f : Frame}
    (h : (if p = .trunk then f.goodOnTrunk else f.goodOnSegment) = true) :
    f.payload.length ≤ 48 ∧ f.dest ≠ 255 ∧ (onTrunk p = true → f.dest ≠ 0) ∧ f.src ≠ 0 ∧ f.src ≠ 255 := by
  cases p with
  | trunk =>
    simp only [Frame.goodOnTrunk, sourceOk, payloadOk, if_true, Bool.and_eq_true, bne_iff_ne,
      decide_eq_true_eq] at h
    obtain ⟨⟨⟨h0, hd⟩, hs, hs'⟩, h48⟩ := h
    exact ⟨h48, hd, fun _ => h0, hs, hs'⟩
  | segment x =>
    simp only [Frame.goodOnSegment, sourceOk, payloadOk, reduceCtorEq, if_false, Bool.and_eq_true, bne_iff_ne,
      decide_eq_true_eq] at h
    obtain ⟨⟨hd, hs, hs'⟩, h48⟩ := h
    exact ⟨h48, hd, fun ht => absurd ht (by simp [onTrunk]), hs, hs'⟩

/-- The round trip: the characters of a good frame, run one by one from HUNT, deliver that frame. -/
theorem core_run_frame {s : State} {p : PortId} {f : Frame} (rest : List Instr) (a : Acting s)
    (ready : (s.port p).receiver = .ready) (hunt : (s.port p).framer = Framer.reset) (free : s.unguarded p)
    (good : (if p = .trunk then f.goodOnTrunk else f.goodOnSegment) = true) :
    Host.Core.run Sys2Proof.core (8 + f.payload.length)
      { s with pending := (frameBytes f).map (fun b => .arrival p (charOf (s.parity p) b)) ++ rest } =
    .next (({ s with pending := rest } : State).modPort p fun q => { q with
      counters := { q.counters with good := satInc q.counters.good }
      deliveries := q.deliveries ++ [.frame f] }) := by
  obtain ⟨h48, hd, h0, hs, hs'⟩ := goodOn_port good
  rw [← frameBytes_length, core_run_arrivals p rest (frameBytes f) s a ready free]
  refine congrArg Host.Outcome.next (State.modPort_congr ?_)
  rw [State.pending_port, Port.feed_frame f (by rw [hunt]; rfl) h48 hd h0 hs hs', ← ready, ← hunt]

/-- Settles O15: the round trip, the bytes of a frame, and the levels of the three transmit pins. -/
theorem framesRoundTrip : Obligations.FramesRoundTrip := by
  refine ⟨fun s p f rest a ready hunt quiet good => core_run_frame rest a ready hunt (fun x hx => ?_) good,
    ⟨frameBytes_eq, rfl⟩, State.trunkLine_idle, fun s q h => ?_, fun s f h => ?_, Segment.line_rest,
    fun g f hd htx => ?_⟩
  · rcases quiet x hx with h | h <;> simp [h]
  · have line : s.trunkLine = pinLevel s.trunk.parity (some q.frame) := by
      funext n
      simp only [State.trunkLine, h, TrunkTx.frame]
    rw [line]
    exact pinLevel_carries _ _
  · have line : s.trunkLine = pinLevel s.trunk.parity (some f) := by
      funext n
      simp only [State.trunkLine, h, TrunkTx.frame]
    rw [line]
    exact pinLevel_carries _ _
  · have line : g.line = pinLevel g.config.parity (some f) := by
      funext n
      simp only [Segment.line, hd, htx, if_true]
    rw [line]
    exact pinLevel_carries _ _

end Sys2Proof.Machine
end

section
/-! SUPPORT. What a command leaves of the settings from the straps and of the route table (R18, R19, R34 to R64): the
shared operations leave both alone, and so does every command but the resets and those of the route table. -/

namespace Sys2Proof.Machine

/-- A soft reset block by block, before SEGMENT LENT is offered and the arbiter asked (R169). -/
def State.blocksReset (s : State) : State :=
  { s with
    trunk := s.trunk.softReset, exchange := ExchangeTable.reset, segA := s.segA.softReset, segB := s.segB.softReset
    inputs := s.inputs.softReset, reporter := s.reporter.softReset s.timeCounter, resetCause := .command }

theorem State.softReset_eq (s : State) : s.softReset =
    (State.offerLentAtReset s.segB .b (State.offerLentAtReset s.segA .a s.blocksReset)).arbitrate := rfl

/-- The settings from the straps and the route table are those of `s` (R18, R34). -/
structure SameRoutes (s t : State) : Prop where
  address : t.trunk.address = s.trunk.address
  rate : t.trunk.rate = s.trunk.rate
  parity : t.trunk.parity = s.trunk.parity
  strapFault : t.trunk.strapFault = s.trunk.strapFault
  routes : t.routes = s.routes

theorem SameBase.sameRoutes {s t : State} (h : SameBase s t) (hr : t.routes = s.routes) : SameRoutes s t :=
  ⟨h.address, h.rate, h.parity, h.strapFault, hr⟩

namespace SameRoutes

theorem refl (s : State) : SameRoutes s s := ⟨rfl, rfl, rfl, rfl, rfl⟩

theorem trans {s t u : State} (h : SameRoutes s t) (k : SameRoutes t u) : SameRoutes s u :=
  ⟨k.1.trans h.1, k.2.trans h.2, k.3.trans h.3, k.4.trans h.4, k.5.trans h.5⟩

theorem foldl {α : Type} {f : State → α → State} (h : ∀ s a, SameRoutes s (f s a)) (l : List α) :
    ∀ s, SameRoutes s (l.foldl f s) := by
  induction l with
  | nil => exact refl
  | cons a l ih => exact fun s => (h s a).trans (ih _)

/-! ### Updates of one block -/

theorem modSeg (s : State) (x : Seg) (f : Segment → Segment) : SameRoutes s (s.modSeg x f) :=
  (s.modSeg_base x f).sameRoutes (s.modSeg_routes x f)

theorem modPort (s : State) (p : PortId) (f : Port → Port) : SameRoutes s (s.modPort p f) :=
  (s.modPort_base p f).sameRoutes (s.modPort_routes p f)

theorem modReporter (s : State) (f : Reporter → Reporter) : SameRoutes s (s.modReporter f) :=
  (s.modReporter_base f).sameRoutes rfl

theorem modInputs (s : State) (f : InputBlock → InputBlock) : SameRoutes s (s.modInputs f) :=
  (s.modInputs_base f).sameRoutes rfl

theorem modExchange (s : State) (e : ExchangeTable) : SameRoutes s { s with exchange := e } :=
  ⟨rfl, rfl, rfl, rfl, rfl⟩

theorem setRecord (s : State) (i : Slot) (r : Record) : SameRoutes s (s.setRecord i r) :=
  (s.setRecord_base i r).sameRoutes rfl

theorem taken (s : State) (f : Frame) : SameRoutes s (s.taken f) := ⟨rfl, rfl, rfl, rfl, rfl⟩

theorem takeDelivery (s : State) (p : PortId) (d : Delivery) : SameRoutes s (s.takeDelivery p d) := modPort s p _

/-- A count in the trunk counters (R32). -/
theorem modTrunkCounters (s : State) (f : TrunkCounters → TrunkCounters) :
    SameRoutes s (s.modTrunk fun t => { t with counters := f t.counters }) := ⟨rfl, rfl, rfl, rfl, rfl⟩

theorem countReplyDrop (s : State) : SameRoutes s s.countReplyDrop :=
  modTrunkCounters s fun c => { c with replyDrop := satInc c.replyDrop }

/-! ### The shared operations -/

theorem arbitrate (s : State) : SameRoutes s s.arbitrate := s.arbitrate_base.sameRoutes s.arbitrate_routes

theorem enqueue (s : State) (q : QueuedFrame) : SameRoutes s (s.enqueue q) :=
  (s.enqueue_base q).sameRoutes (s.enqueue_routes q)

theorem respond (s : State) (fn : Byte) (r : Request) (p : List Byte) : SameRoutes s (s.respond fn r p) := enqueue s _

theorem refuse (s : State) (fn : Byte) (r : Request) (p : List Byte) : SameRoutes s (s.refuse fn r p) := enqueue s _

theorem refuseRouted (s : State) (f : Frame) (p : List Byte) : SameRoutes s (s.refuseRouted f p) := by
  unfold State.refuseRouted
  split
  · exact countReplyDrop s
  · exact enqueue s _

theorem completeRecord (s : State) (i : Slot) (reply : Reply) : SameRoutes s (s.completeRecord i reply) :=
  (s.completeRecord_base i reply).sameRoutes (s.completeRecord_routes i reply)

theorem settleBroadcast (s : State) (i : Slot) (r : Record) (c : Broadcast) :
    SameRoutes s (s.settleBroadcast i r c) :=
  (s.settleBroadcast_base i r c).sameRoutes (s.settleBroadcast_routes i r c)

theorem takeFromSegment (x : Seg) (why : WithdrawReason) (s : State) (i : Slot) :
    SameRoutes s (State.takeFromSegment x why s i) :=
  (State.takeFromSegment_base x why s i).sameRoutes (State.takeFromSegment_routes x why s i)

theorem offerEvent (s : State) (e : Event) : SameRoutes s (s.offerEvent e) :=
  (s.offerEvent_base e).sameRoutes (s.offerEvent_routes e)

theorem enterLent (s : State) (x : Seg) : SameRoutes s (s.enterLent x) :=
  (s.enterLent_base x).sameRoutes (s.enterLent_routes x)

theorem leaveWork (s : State) (x : Seg) : SameRoutes s (s.leaveWork x) :=
  (s.leaveWork_base x).sameRoutes (s.leaveWork_routes x)

theorem judgePatience (s : State) (x : Seg) : SameRoutes s (s.judgePatience x) := by
  unfold State.judgePatience
  split
  · exact (modSeg s x _).trans (foldl (takeFromSegment x .lent) _ _)
  · exact refl s

theorem takeWork (s : State) (x : Seg) : SameRoutes s (s.takeWork x) := by
  unfold State.takeWork
  split
  · split
    · exact refl s
    · split
      · exact refl s
      · exact (setRecord s _ _).trans (modSeg _ x _)
  · exact refl s

theorem failRecord (s : State) (x : Seg) (i : Slot) (why : FailCause) : SameRoutes s (s.failRecord x i why) := by
  unfold State.failRecord
  split
  · exact refl s
  · split
    · exact refl s
    · split
      · exact completeRecord s i _
      · exact (setRecord s i _).trans (modSeg _ x _)

theorem failAttempt (s : State) (x : Seg) (why : FailCause) : SameRoutes s (s.failAttempt x why) := by
  unfold State.failAttempt
  split
  · exact refl s
  · exact ((modSeg s x _).trans (failRecord _ x _ why)).trans (leaveWork _ x)

theorem dropCurrent (s : State) (x : Seg) : SameRoutes s (s.dropCurrent x) := by
  unfold State.dropCurrent
  split
  · exact (modSeg s x _).trans (leaveWork _ x)
  · exact modSeg s x _

theorem deliverOnSegment (s : State) (x : Seg) (f : Frame) : SameRoutes s (s.deliverOnSegment x f) := by
  unfold State.deliverOnSegment
  refine (takeDelivery s (.segment x) (.frame f)).trans ?_
  simp only []
  split
  · exact ((modSeg _ x _).trans (completeRecord _ _ _)).trans (leaveWork _ x)
  · split
    · exact refl _
    · exact modSeg _ x _

theorem restartGuard (s : State) (p : PortId) : SameRoutes s (s.restartGuard p) := by
  rcases p with _ | x
  · exact refl s
  · exact modSeg s x _

theorem tellNew (s : State) (on : SegSet) (x : Seg) : SameRoutes s (s.tellNew on x) := by
  unfold State.tellNew
  split
  · exact takeWork s x
  · exact refl s

theorem judgeOffer (s : State) (f : Frame) (r : Record) : SameRoutes s (s.judgeOffer f r) := by
  unfold State.judgeOffer State.admitRecord
  split
  · exact refuseRouted s f _
  · split
    · exact refl s
    · exact ((modExchange s _).trans (tellNew _ _ .a)).trans (tellNew _ _ .b)

/-- A request that has been routed leaves the settings, whatever its action (R43 to R46). -/
theorem act (s : State) (f : Frame) (e : RouteEntry) : SameRoutes s (s.act f e) := by
  unfold State.act
  split
  · exact judgeOffer s f _
  · exact judgeOffer s f _
  · exact refuseRouted s f _
  · exact ⟨rfl, rfl, rfl, rfl, rfl⟩

theorem miss (s : State) (f : Frame) : SameRoutes s (s.miss f) := by
  unfold State.miss
  split
  · exact refuseRouted s f _
  · exact ⟨rfl, rfl, rfl, rfl, rfl⟩

theorem sampleLine (inputs : Word) (s : State) (n : Fin 16) : SameRoutes s (State.sampleLine inputs s n) := by
  unfold State.sampleLine
  simp only []
  split
  · exact (modInputs s _).trans (offerEvent _ _)
  · exact modInputs s _

theorem assertHold (s : State) (x : Seg) : SameRoutes s (s.assertHold x) := by
  unfold State.assertHold
  cases (s.seg x).state with
  | idle => exact enterLent s x
  | guard => exact enterLent s x
  | resume => exact enterLent s x
  | send => exact modSeg s x _
  | wait => exact modSeg s x _
  | lent => exact refl s

theorem deassertHold (s : State) (x : Seg) : SameRoutes s (s.deassertHold x) := by
  unfold State.deassertHold
  split
  · exact (modSeg s x Segment.toResume).trans (offerEvent _ _)
  · exact modSeg s x _

theorem sampleHold (s : State) (x : Seg) (level : Bool) : SameRoutes s (s.sampleHold x level) := by
  have sampled := modInputs s fun b => b.setHold x ((s.inputs.hold x).sample level)
  unfold State.sampleHold
  simp only []
  split
  · split
    · exact sampled.trans (assertHold _ x)
    · exact sampled.trans (deassertHold _ x)
  · exact sampled

theorem offerLentAtReset (before : Segment) (x : Seg) (s : State) :
    SameRoutes s (State.offerLentAtReset before x s) := by
  unfold State.offerLentAtReset
  split
  · exact (s.offerEventQuietly_base _).sameRoutes (s.offerEventQuietly_routes _)
  · exact refl s

theorem softReset (s : State) : SameRoutes s s.softReset := by
  have blocks : SameRoutes s s.blocksReset := ⟨rfl, rfl, rfl, rfl, rfl⟩
  rw [s.softReset_eq]
  exact blocks.trans ((offerLentAtReset s.segA .a _).trans ((offerLentAtReset s.segB .b _).trans (arbitrate _)))

/-! ### The commands -/

theorem abort (s : State) (i : Slot) : SameRoutes s (s.abort i) := by
  have done := completeRecord s i ⟨.nak, nakAborted⟩
  unfold State.abort
  simp only []
  repeat' split
  · exact (done.trans (dropCurrent _ .a)).trans (dropCurrent _ .b)
  · exact done.trans (dropCurrent _ .b)
  · exact done.trans (dropCurrent _ .a)
  · exact done

theorem lineReset (s : State) (x : Seg) : SameRoutes s (s.lineReset x) :=
  ((modSeg s x _).trans (foldl (takeFromSegment x .aborted) _ _)).trans (dropCurrent _ x)

theorem setConfig (s : State) (x : Seg) (c : SegConfig) : SameRoutes s (s.setConfig x c) := by
  unfold State.setConfig
  split
  · exact (modSeg s x _).trans (judgePatience _ x)
  · exact modSeg s x _

theorem clearCounters (s : State) (p : PortId) : SameRoutes s (s.clearCounters p) := by
  unfold State.clearCounters
  rcases p with _ | x
  · exact ⟨rfl, rfl, rfl, rfl, rfl⟩
  · exact (modPort s _ _).trans (modSeg _ x _)

theorem acting {s : State} (act : State → State) (h : ∀ u, SameRoutes u (act u)) :
    ∀ t, s.acting act = .next t → SameRoutes s t := State.acting_keeps act (refl s) fun _ => h s

theorem trunkDelivery {s : State} (f : Frame) (comes : Bool) (act : State → State) (h : ∀ u, SameRoutes u (act u)) :
    ∀ t, s.trunkDelivery f comes act = .next t → SameRoutes s t :=
  State.trunkDelivery_keeps f comes act (refl s) (taken s f) fun _ _ => (taken s f).trans (h _)

theorem management {s : State} (fn : Byte) (r : Request) (judge : State → State) (h : ∀ u, SameRoutes u (judge u)) :
    ∀ t, s.management fn r judge = .next t → SameRoutes s t :=
  State.management_keeps fn r judge (refl s) (taken s _) ((taken s _).trans (countReplyDrop _))
    fun _ => (taken s _).trans (h _)

end SameRoutes

end Sys2Proof.Machine
end

section
/-! PROOF. O57: the commands that leave the route table alone, and the laws of the banks under those that do not. -/

namespace Sys2Proof.Machine

namespace SameRoutes

/-! ### Line events (R3, R4, R11 to R14) -/

theorem of_idleQualification (p : PortId) (s t : State) (h : execIdleQualification p s = .next t) :
    SameRoutes s t := acting _ (fun u => modPort u p _) t h

theorem of_arrival (p : PortId) (c : RawChar) (s t : State) (h : execArrival p c s = .next t) : SameRoutes s t := by
  refine acting _ (fun u => ?_) t h
  split
  · exact (modPort u p _).trans (restartGuard _ p)
  · exact refl u

theorem of_lineBreak (p : PortId) (s t : State) (h : execLineBreak p s = .next t) : SameRoutes s t := by
  refine acting _ (fun u => ?_) t h
  split
  · exact (modPort u p _).trans (restartGuard _ p)
  · exact refl u

theorem of_gapTimerExpiry (p : PortId) (s t : State) (h : execGapTimerExpiry p s = .next t) :
    SameRoutes s t := acting _ (fun u => modPort u p _) t h

theorem of_breakEnd (p : PortId) (s t : State) (h : execBreakEnd p s = .next t) :
    SameRoutes s t := acting _ (fun u => modPort u p _) t h

theorem of_fallToSpace (p : PortId) (b : Bool) (s t : State) (h : execFallToSpace p b s = .next t) :
    SameRoutes s t := by
  refine acting _ (fun u => ?_) t h
  split
  · exact restartGuard u p
  · exact modPort u p _

/-! ### Resets, the time base and the trunk (R20, R21, R27, R150, R151, R164, R169) -/

theorem of_softReset (s t : State) (h : execSoftReset s = .next t) : SameRoutes s t := by
  refine acting _ (fun u => ?_) t h
  split
  · exact softReset u
  · exact refl u

theorem count (s : State) : SameRoutes s s.count := ⟨rfl, rfl, rfl, rfl, rfl⟩

theorem of_millisecondTick (s t : State) (h : execMillisecondTick s = .next t) : SameRoutes s t :=
  acting _ (fun u => ((count u).trans (judgePatience _ .a)).trans (judgePatience _ .b)) t h

theorem of_unexpected (f : Frame) (s t : State) (h : execUnexpected f s = .next t) : SameRoutes s t :=
  trunkDelivery f _ _ (fun u => modTrunkCounters u fun c => { c with unexpected := satInc c.unexpected }) t h

theorem of_pendingSoftResetDiscard (f : Frame) (s t : State) (h : execPendingSoftResetDiscard f s = .next t) :
    SameRoutes s t := trunkDelivery f _ _ refl t h

theorem of_rack (b : Byte) (r : Request) (s t : State) (h : execRack b r s = .next t) : SameRoutes s t := by
  refine trunkDelivery _ _ _ (fun u => ?_) t h
  split
  · exact (modReporter u _).trans (arbitrate _)
  · exact modTrunkCounters u fun c => { c with rackIgnored := satInc c.rackIgnored }

theorem txIdle (s : State) : SameRoutes s s.txIdle := ⟨rfl, rfl, rfl, rfl, rfl⟩

theorem of_endOfTransmission (s t : State) (h : execEndOfTransmission s = .next t) : SameRoutes s t := by
  refine acting _ (fun u => ?_) t h
  split
  · exact softReset u
  · split
    · exact refl u
    · exact (txIdle u).trans (arbitrate _)
    · exact ((txIdle u).trans (modReporter _ _)).trans (arbitrate _)

theorem of_reportTimerExpiry (s t : State) (h : execReportTimerExpiry s = .next t) : SameRoutes s t := by
  refine acting _ (fun u => ?_) t h
  split
  · exact (modReporter u _).trans (arbitrate _)
  · exact refl u

/-! ### Management commands of the other blocks (R158) -/

theorem of_unknown (fn : Byte) (r : Request) (s t : State) (h : execUnknown fn r s = .next t) : SameRoutes s t := by
  unfold execUnknown at h
  split at h
  · cases h
    exact refl s
  · exact management fn r _ (fun u => refuse u fn r _) t h

theorem of_readStatus (r : Request) (s t : State) (h : execReadStatus r s = .next t) : SameRoutes s t := by
  refine management _ r _ (fun u => ?_) t h
  split
  · exact respond u _ r _
  · exact refuse u _ r _

theorem of_readCounters (r : Request) (s t : State) (h : execReadCounters r s = .next t) : SameRoutes s t := by
  refine management _ r _ (fun u => ?_) t h
  split
  · split
    · exact refuse u _ r _
    · split
      · exact refuse u _ r _
      · simp only []
        split
        · exact (respond u _ r _).trans (clearCounters _ _)
        · exact respond u _ r _
  · exact refuse u _ r _

theorem of_readEntry (r : Request) (s t : State) (h : execReadEntry r s = .next t) : SameRoutes s t := by
  refine management _ r _ (fun u => ?_) t h
  split
  · split
    · exact refuse u _ r _
    · exact respond u _ r _
  · exact refuse u _ r _

theorem of_readExchanges (r : Request) (s t : State) (h : execReadExchanges r s = .next t) : SameRoutes s t := by
  refine management _ r _ (fun u => ?_) t h
  split
  · exact respond u _ r _
  · exact refuse u _ r _

theorem of_abortExchange (r : Request) (s t : State) (h : execAbortExchange r s = .next t) : SameRoutes s t := by
  refine management _ r _ (fun u => ?_) t h
  split
  · split
    · exact refuse u _ r _
    · split
      · exact refuse u _ r _
      · exact (respond u _ r _).trans (abort _ _)
  · exact refuse u _ r _

theorem of_lineReset (r : Request) (s t : State) (h : execLineReset r s = .next t) : SameRoutes s t := by
  refine management _ r _ (fun u => ?_) t h
  split
  · split
    · exact refuse u _ r _
    · exact (respond u _ r _).trans (lineReset _ _)
  · exact refuse u _ r _

theorem of_setSegment (r : Request) (s t : State) (h : execSetSegment r s = .next t) : SameRoutes s t := by
  refine management _ r _ (fun u => ?_) t h
  split
  · split
    · exact refuse u _ r _
    · exact (respond u _ r _).trans (setConfig _ _ _)
    · exact refl u
  · exact refuse u _ r _

theorem of_readSegment (r : Request) (s t : State) (h : execReadSegment r s = .next t) : SameRoutes s t := by
  refine management _ r _ (fun u => ?_) t h
  split
  · split
    · exact refuse u _ r _
    · exact respond u _ r _
  · exact refuse u _ r _

theorem of_readInputs (r : Request) (s t : State) (h : execReadInputs r s = .next t) : SameRoutes s t := by
  refine management _ r _ (fun u => ?_) t h
  split
  · split
    · exact refuse u _ r _
    · simp only []
      split
      · exact (respond u _ r _).trans (modInputs _ _)
      · exact respond u _ r _
  · exact refuse u _ r _

theorem of_setInput (r : Request) (s t : State) (h : execSetInput r s = .next t) : SameRoutes s t := by
  refine management _ r _ (fun u => ?_) t h
  split
  · split
    · exact refuse u _ r _
    · exact (modInputs u _).trans (respond _ _ r _)
    · exact refl u
  · exact refuse u _ r _

theorem of_setSamplePeriod (r : Request) (s t : State) (h : execSetSamplePeriod r s = .next t) : SameRoutes s t := by
  refine management _ r _ (fun u => ?_) t h
  split
  · split
    · exact refuse u _ r _
    · exact (modInputs u _).trans (respond _ _ r _)
  · exact refuse u _ r _

theorem of_reportControl (r : Request) (s t : State) (h : execReportControl r s = .next t) : SameRoutes s t := by
  refine management _ r _ (fun u => ?_) t h
  split
  · split
    · exact refuse u _ r _
    · exact (modReporter u _).trans (respond _ _ r _)
    · exact refl u
  · exact refuse u _ r _

theorem of_fetchReports (r : Request) (s t : State) (h : execFetchReports r s = .next t) : SameRoutes s t := by
  refine management _ r _ (fun u => ?_) t h
  split
  · split
    · exact (modReporter u _).trans (respond _ _ r _)
    · exact refuse u _ r _
  · exact refuse u _ r _

theorem of_gatewayReset (r : Request) (s t : State) (h : execGatewayReset r s = .next t) : SameRoutes s t := by
  refine management _ r _ (fun u => ?_) t h
  split
  · exact (enqueue u _).trans ⟨rfl, rfl, rfl, rfl, rfl⟩
  · exact refuse u _ r _

/-! ### Segment events and the sample instant (R94 to R105, R113, R119, R126) -/

theorem of_segmentEndOfTransmission (x : Seg) (s t : State) (h : execSegmentEndOfTransmission x s = .next t) :
    SameRoutes s t := by
  refine acting _ (fun u => ?_) t h
  have ended := modSeg u x Segment.endTransmission
  split
  · simp only []
    split
    · exact ended.trans (leaveWork _ x)
    · split
      · exact ended.trans (leaveWork _ x)
      · split
        · exact ended.trans (modSeg _ x _)
        · exact ended.trans (((modSeg _ x _).trans (settleBroadcast _ _ _ _)).trans (leaveWork _ x))
  · exact refl u

theorem of_matchingFrame (x : Seg) (f : Frame) (s t : State) (h : execMatchingFrame x f s = .next t) :
    SameRoutes s t := by
  refine acting _ (fun u => ?_) t h
  split
  · exact deliverOnSegment u x f
  · exact refl u

theorem of_strayFrame (x : Seg) (f : Frame) (s t : State) (h : execStrayFrame x f s = .next t) : SameRoutes s t :=
  of_matchingFrame x f s t h

theorem of_corruptFrameNotice (x : Seg) (s t : State) (h : execCorruptFrameNotice x s = .next t) :
    SameRoutes s t := by
  refine acting _ (fun u => ?_) t h
  simp only []
  split
  · exact (takeDelivery u _ _).trans (failAttempt _ x _)
  · exact takeDelivery u _ _

theorem of_responseTimerExpiry (x : Seg) (s t : State) (h : execResponseTimerExpiry x s = .next t) :
    SameRoutes s t := by
  refine acting _ (fun u => ?_) t h
  split
  · exact failAttempt u x _
  · exact refl u

theorem of_guardTimerExpiry (x : Seg) (s t : State) (h : execGuardTimerExpiry x s = .next t) : SameRoutes s t := by
  refine acting _ (fun u => ?_) t h
  split
  · exact (modSeg u x _).trans (takeWork _ x)
  · exact refl u

theorem of_sampleInstant (inputs : Word) (a b : Bool) (s t : State) (h : execSampleInstant inputs a b s = .next t) :
    SameRoutes s t :=
  acting _ (fun u => (((foldl (sampleLine inputs) inputLines u).trans (sampleHold _ .a a)).trans
    (sampleHold _ .b b)).trans (modInputs _ _)) t h

theorem of_patienceExpiry (x : Seg) (s t : State) (h : execPatienceExpiry x s = .next t) : SameRoutes s t :=
  acting _ (fun u => judgePatience u x) t h

end SameRoutes

end Sys2Proof.Machine
end

section
/-! PROOF. O57: the laws of the active bank and the counts under every command (R36, R51), and what changes the settings
from the straps (R18, R19). -/

namespace Sys2Proof.Machine

/-! ### The banks (R36, R51, R61) -/

theorem bankEntry_eq (b : Bank) {i : Nat} (hi : i < 48) : bankEntry b i = b[i] := by simp [bankEntry, hi]

/-- One entry written: the count of the bank loses the entry before and gains the entry after (R51). -/
theorem bankCount_set (b : Bank) {i : Nat} (hi : i < 48) (e : Option RouteEntry) :
    bankCount (b.setIfInBounds i e) + (if (bankEntry b i).isSome then 1 else 0) =
      bankCount b + if e.isSome then 1 else 0 := by
  have hl : i < b.toList.length := by simpa using hi
  have hb : (if b.toList[i].isSome then 1 else 0) ≤ b.toList.countP Option.isSome := by
    split
    · rename_i hs
      exact List.countP_pos_iff.mpr ⟨_, List.getElem_mem hl, hs⟩
    · exact Nat.zero_le _
  have he : bankEntry b i = b.toList[i] := by rw [bankEntry_eq b hi]; simp
  rw [he, bankCount, Vector.toList_setIfInBounds, List.countP_set hl, bankCount]
  omega

theorem bankCount_empty : bankCount Bank.empty = 0 := by decide +kernel

/-- What the staged count becomes is the count of the bank written (R51, R54). -/
theorem RouteTable.stage_count (t : RouteTable) (m : RouteImage) (hi : m.index.toNat < 48)
    (h : t.stagedCount = bankCount t.staged) : (t.stage m).stagedCount = bankCount (t.stage m).staged := by
  have hc := bankCount_set t.staged hi m.entry
  simp only [RouteTable.stage, h]
  cases hb : bankEntry t.staged m.index.toNat <;> cases ha : m.entry <;>
    simp only [hb, ha, Option.isSome_none, Option.isSome_some, if_true, Bool.false_eq_true, if_false] at hc <;>
    simp only [stagedCountAfter] <;> omega

/-- A hit changes nothing of an entry but its hit count (R39). -/
theorem RouteTable.countHit_map {α : Type} (t : RouteTable) (i : Nat) (g : RouteEntry → α)
    (hg : ∀ e n, g { e with hits := n } = g e) (j : Fin 48) :
    ((t.countHit i).active[j]).map g = (t.active[j]).map g := by
  unfold RouteTable.countHit
  split
  · rename_i e hb
    simp only [Fin.getElem_fin, Vector.getElem_setIfInBounds]
    split
    · rename_i hij
      subst hij
      have hj : t.active[j] = some e := by rw [← hb, bankEntry_eq _ j.isLt]; rfl
      rw [Fin.getElem_fin] at hj
      rw [hj, Option.map_some, Option.map_some, hg]
    · rfl
  · rfl

/-- A hit changes no count of valid entries, and nothing of the staged bank (R39). -/
theorem RouteTable.countHit_count (t : RouteTable) (i : Nat) :
    bankCount (t.countHit i).active = bankCount t.active ∧ (t.countHit i).staged = t.staged ∧
    (t.countHit i).activeCount = t.activeCount ∧ (t.countHit i).stagedCount = t.stagedCount := by
  unfold RouteTable.countHit
  split
  · rename_i e hb
    have hi : i < 48 := by
      by_contra h
      simp [bankEntry, h] at hb
    have := bankCount_set t.active hi (some { e with hits := satInc e.hits })
    exact ⟨by simpa [hb] using this, rfl, rfl, rfl⟩
  · exact ⟨rfl, rfl, rfl, rfl⟩

/-- A bank the consistency check finds nothing in: no entry for the gateway, no key met before, no key twice (R61). -/
theorem conflictFrom_none {gateway : Byte} {l : List (Option RouteEntry)} :
    ∀ {seen : List (Byte × Option Byte)} {i : Nat}, conflictFrom gateway seen i l = none →
      (∀ e, some e ∈ l → e.trunkAddress ≠ gateway ∧ e.key ∉ seen) ∧
      l.Pairwise fun a b => a.isSome = true → a.map RouteEntry.key ≠ b.map RouteEntry.key := by
  induction l with
  | nil => intro seen i _; simp
  | cons o l ih =>
    intro seen i h
    cases o with
    | none =>
      obtain ⟨hl, hp⟩ := ih h
      exact ⟨by simpa using hl, List.pairwise_cons.mpr ⟨by simp, hp⟩⟩
    | some a =>
      rw [conflictFrom] at h
      split at h
      · cases h
      · rename_i ha
        obtain ⟨hl, hp⟩ := ih h
        refine ⟨fun e he => ?_, List.pairwise_cons.mpr ⟨fun b hb _ hk => ?_, hp⟩⟩
        · rcases List.mem_cons.mp he with he | he
          · cases he
            exact not_or.mp ha
          · exact ⟨(hl e he).1, fun hs => (hl e he).2 (List.mem_cons_of_mem _ hs)⟩
        · cases b with
          | none => cases hk
          | some b =>
            refine (hl b hb).2 ?_
            rw [← Option.some.inj hk]
            exact List.mem_cons_self

/-- The staged bank in which the check finds no conflict keeps the law of the active bank (R36, R61). -/
theorem RouteTable.conflict_none {t : RouteTable} {gateway : Byte} (h : t.conflict gateway = none) :
    KeysDistinct t.staged ∧ ∀ i : Fin 48, (t.staged[i]).map RouteEntry.trunkAddress ≠ some gateway := by
  obtain ⟨hl, hp⟩ := conflictFrom_none h
  rw [List.pairwise_iff_getElem] at hp
  have lt : ∀ i j : Fin 48, i < j → (t.staged[i]).isSome = true →
      (t.staged[i]).map RouteEntry.key ≠ (t.staged[j]).map RouteEntry.key := fun i j hij hi => by
    have := hp i j (by simp) (by simp) hij
    simpa using this (by simpa using hi)
  refine ⟨fun i j hij hi => ?_, fun i hi => ?_⟩
  · rcases lt_or_gt_of_ne hij with h | h
    · exact lt i j h hi
    · intro hk
      have hj : (t.staged[j]).isSome = true := by
        rw [← Option.isSome_map (f := RouteEntry.key), ← hk]
        simpa using hi
      exact lt j i h hj hk.symm
  · obtain ⟨e, he, ha⟩ := Option.map_eq_some_iff.mp hi
    exact (hl e (by rw [← he]; simp)).1 ha

/-! ### What a command keeps -/

/-- From `s` to `t` the settings from the straps are the same (R19), and the laws of the active bank (R36) and of the
counts (R51) are kept. -/
structure KeepsRoutes (s t : State) : Prop where
  address : t.trunk.address = s.trunk.address
  rate : t.trunk.rate = s.trunk.rate
  parity : t.trunk.parity = s.trunk.parity
  strapFault : t.trunk.strapFault = s.trunk.strapFault
  bank : ActiveBankLaw s → ActiveBankLaw t
  counts : CountLaw s → CountLaw t

theorem SameRoutes.keeps {s t : State} (h : SameRoutes s t) : KeepsRoutes s t where
  address := h.address
  rate := h.rate
  parity := h.parity
  strapFault := h.strapFault
  bank k := by rw [ActiveBankLaw, h.routes, h.address]; exact k
  counts k := by rw [CountLaw, h.routes]; exact k

namespace KeepsRoutes

theorem refl (s : State) : KeepsRoutes s s := (SameRoutes.refl s).keeps

theorem trans {s t u : State} (h : KeepsRoutes s t) (k : KeepsRoutes t u) : KeepsRoutes s u :=
  ⟨k.1.trans h.1, k.2.trans h.2, k.3.trans h.3, k.4.trans h.4, fun b => k.bank (h.bank b),
   fun c => k.counts (h.counts c)⟩

theorem trunkDelivery {s : State} (f : Frame) (comes : Bool) (act : State → State) (h : ∀ u, KeepsRoutes u (act u)) :
    ∀ t, s.trunkDelivery f comes act = .next t → KeepsRoutes s t :=
  State.trunkDelivery_keeps f comes act (refl s) (SameRoutes.taken s f).keeps fun _ _ =>
    (SameRoutes.taken s f).keeps.trans (h _)

theorem management {s : State} (fn : Byte) (r : Request) (judge : State → State) (h : ∀ u, KeepsRoutes u (judge u)) :
    ∀ t, s.management fn r judge = .next t → KeepsRoutes s t :=
  State.management_keeps fn r judge (refl s) (SameRoutes.taken s _).keeps
    ((SameRoutes.taken s _).trans (SameRoutes.countReplyDrop _)).keeps
    fun _ => (SameRoutes.taken s _).keeps.trans (h _)

theorem refuse (s : State) (fn : Byte) (r : Request) (p : List Byte) : KeepsRoutes s (s.refuse fn r p) :=
  (SameRoutes.refuse s fn r p).keeps

/-- A change of the route table that keeps both laws, and the RSP after it. -/
theorem respond_after (s : State) (f : RouteTable → RouteTable) (fn : Byte) (r : Request) (p : List Byte)
    (bank : ActiveBankLaw s → ActiveBankLaw (s.modRoutes f)) (counts : CountLaw s → CountLaw (s.modRoutes f)) :
    KeepsRoutes s ((s.modRoutes f).respond fn r p) :=
  trans (t := s.modRoutes f) ⟨rfl, rfl, rfl, rfl, bank, counts⟩ (SameRoutes.respond _ fn r p).keeps

/-! ### The commands of the route table -/

theorem countHit (s : State) (i : Nat) : KeepsRoutes s (s.modRoutes fun t => t.countHit i) := by
  obtain ⟨count, staged, activeCount, stagedCount⟩ := s.routes.countHit_count i
  have key := s.routes.countHit_map i RouteEntry.key fun _ _ => rfl
  have address := s.routes.countHit_map i RouteEntry.trunkAddress fun _ _ => rfl
  refine ⟨rfl, rfl, rfl, rfl, fun ⟨distinct, gateway⟩ => ⟨fun j k hjk hj => ?_, fun j => ?_⟩,
    fun ⟨ha, hs⟩ => ⟨?_, ?_⟩⟩
  · rw [State.modRoutes_routes, key, key]
    refine distinct j k hjk ?_
    rw [State.modRoutes_routes] at hj
    have := congrArg Option.isSome (key j)
    simpa only [Option.isSome_map, hj] using this.symm
  · rw [State.modRoutes_routes, address]
    exact gateway j
  · rw [State.modRoutes_routes, activeCount, count]
    exact ha
  · rw [State.modRoutes_routes, stagedCount, staged]
    exact hs

theorem of_routedRequest (f : Frame) (s t : State) (h : execRoutedRequest f s = .next t) : KeepsRoutes s t := by
  refine trunkDelivery f _ _ (fun u => ?_) t h
  unfold State.route
  split
  · exact (SameRoutes.miss u f).keeps
  · split
    · exact (SameRoutes.miss u f).keeps
    · exact (countHit u _).trans (SameRoutes.act _ f _).keeps

theorem of_stageEntry (r : Request) (s t : State) (h : execStageEntry r s = .next t) : KeepsRoutes s t := by
  refine management _ r _ (fun u => ?_) t h
  split
  · simp only []
    split
    · exact refuse u _ r _
    · rename_i inRange
      refine respond_after u _ _ r _ id fun ⟨ha, hs⟩ => ⟨ha, RouteTable.stage_count _ _ ?_ hs⟩
      have := (firstOutOfRange_none_iff _).mp inRange _ (List.mem_cons_self ..)
      simpa using this
  · exact refuse u _ r _

theorem of_clearStage (r : Request) (s t : State) (h : execClearStage r s = .next t) : KeepsRoutes s t := by
  refine management _ r _ (fun u => ?_) t h
  split
  · exact respond_after u _ _ r _ id fun ⟨ha, _⟩ => ⟨ha, bankCount_empty.symm⟩
  · exact refuse u _ r _

theorem of_commit (r : Request) (s t : State) (h : execCommit r s = .next t) : KeepsRoutes s t := by
  refine management _ r _ (fun u => ?_) t h
  split
  · split
    · exact refuse u _ r _
    · split
      · exact refuse u _ r _
      · rename_i consistent
        exact respond_after u _ _ r _ (fun _ => RouteTable.conflict_none consistent) fun ⟨ha, hs⟩ => ⟨hs, ha⟩
  · exact refuse u _ r _

theorem of_setMissPolicy (r : Request) (s t : State) (h : execSetMissPolicy r s = .next t) : KeepsRoutes s t := by
  refine management _ r _ (fun u => ?_) t h
  split
  · split
    · exact refuse u _ r _
    · exact respond_after u _ _ r _ id id
  · exact refuse u _ r _

end KeepsRoutes

/-- What a command that is no hard reset and begins none keeps. -/
theorem exec_keepsRoutes (c : Instr) (s t : State) (hr : ∀ p, c ≠ .hardReset p) (hb : ∀ k, c ≠ .hardResetBegin k)
    (h : exec c s = .next t) : KeepsRoutes s t := by
  cases c with
  | hardReset p => exact absurd rfl (hr p)
  | hardResetBegin k => exact absurd rfl (hb k)
  | routedRequest f => exact KeepsRoutes.of_routedRequest f s t h
  | stageEntry r => exact KeepsRoutes.of_stageEntry r s t h
  | clearStage r => exact KeepsRoutes.of_clearStage r s t h
  | commit r => exact KeepsRoutes.of_commit r s t h
  | setMissPolicy r => exact KeepsRoutes.of_setMissPolicy r s t h
  | softReset => exact (SameRoutes.of_softReset s t h).keeps
  | millisecondTick => exact (SameRoutes.of_millisecondTick s t h).keeps
  | idleQualification p => exact (SameRoutes.of_idleQualification p s t h).keeps
  | arrival p k => exact (SameRoutes.of_arrival p k s t h).keeps
  | lineBreak p => exact (SameRoutes.of_lineBreak p s t h).keeps
  | gapTimerExpiry p => exact (SameRoutes.of_gapTimerExpiry p s t h).keeps
  | breakEnd p => exact (SameRoutes.of_breakEnd p s t h).keeps
  | fallToSpace p b => exact (SameRoutes.of_fallToSpace p b s t h).keeps
  | unexpected f => exact (SameRoutes.of_unexpected f s t h).keeps
  | pendingSoftResetDiscard f => exact (SameRoutes.of_pendingSoftResetDiscard f s t h).keeps
  | rack b r => exact (SameRoutes.of_rack b r s t h).keeps
  | unknown fn r => exact (SameRoutes.of_unknown fn r s t h).keeps
  | readStatus r => exact (SameRoutes.of_readStatus r s t h).keeps
  | readCounters r => exact (SameRoutes.of_readCounters r s t h).keeps
  | readEntry r => exact (SameRoutes.of_readEntry r s t h).keeps
  | readExchanges r => exact (SameRoutes.of_readExchanges r s t h).keeps
  | abortExchange r => exact (SameRoutes.of_abortExchange r s t h).keeps
  | lineReset r => exact (SameRoutes.of_lineReset r s t h).keeps
  | setSegment r => exact (SameRoutes.of_setSegment r s t h).keeps
  | readSegment r => exact (SameRoutes.of_readSegment r s t h).keeps
  | readInputs r => exact (SameRoutes.of_readInputs r s t h).keeps
  | setInput r => exact (SameRoutes.of_setInput r s t h).keeps
  | setSamplePeriod r => exact (SameRoutes.of_setSamplePeriod r s t h).keeps
  | reportControl r => exact (SameRoutes.of_reportControl r s t h).keeps
  | fetchReports r => exact (SameRoutes.of_fetchReports r s t h).keeps
  | gatewayReset r => exact (SameRoutes.of_gatewayReset r s t h).keeps
  | endOfTransmission => exact (SameRoutes.of_endOfTransmission s t h).keeps
  | reportTimerExpiry => exact (SameRoutes.of_reportTimerExpiry s t h).keeps
  | segmentEndOfTransmission x => exact (SameRoutes.of_segmentEndOfTransmission x s t h).keeps
  | matchingFrame x f => exact (SameRoutes.of_matchingFrame x f s t h).keeps
  | strayFrame x f => exact (SameRoutes.of_strayFrame x f s t h).keeps
  | corruptFrameNotice x => exact (SameRoutes.of_corruptFrameNotice x s t h).keeps
  | responseTimerExpiry x => exact (SameRoutes.of_responseTimerExpiry x s t h).keeps
  | guardTimerExpiry x => exact (SameRoutes.of_guardTimerExpiry x s t h).keeps
  | sampleInstant inputs a b => exact (SameRoutes.of_sampleInstant inputs a b s t h).keeps
  | patienceExpiry x => exact (SameRoutes.of_patienceExpiry x s t h).keeps

/-- The route table after a hard reset is empty (R52). -/
theorem routeLaws_of_hardReset (p : Straps) (s t : State) (h : exec (.hardReset p) s = .next t) :
    ActiveBankLaw t ∧ CountLaw t := by
  cases h
  refine ⟨⟨fun i j _ hi => ?_, fun i => ?_⟩, bankCount_empty.symm, bankCount_empty.symm⟩
  · change (Bank.empty[i]).isSome = true at hi
    rw [Bank.empty_getElem] at hi
    cases hi
  · change (Bank.empty[i]).map RouteEntry.trunkAddress ≠ _
    rw [Bank.empty_getElem]
    simp

/-- A law that does not read the queue of commands and that every command keeps is kept by every step. -/
theorem step_keeps {P : State → Prop} (same : ∀ (s : State) (l : List Instr), P s → P { s with pending := l })
    (kept : ∀ c s t, exec c s = .next t → P s → P t) (s t : State) (hs : P s) (h : step s = .next t) : P t := by
  unfold step at h
  split at h
  · cases h
    exact hs
  · exact kept _ _ t h (same s _ hs)

theorem exec_routeLaws (c : Instr) (s t : State) (h : exec c s = .next t) :
    (ActiveBankLaw s → ActiveBankLaw t) ∧ (CountLaw s → CountLaw t) := by
  by_cases hr : ∃ p, c = .hardReset p
  · obtain ⟨p, rfl⟩ := hr
    obtain ⟨bank, counts⟩ := routeLaws_of_hardReset p s t h
    exact ⟨fun _ => bank, fun _ => counts⟩
  · by_cases hb : ∃ k, c = .hardResetBegin k
    · obtain ⟨k, rfl⟩ := hb
      cases h
      exact ⟨id, id⟩
    · have kept := exec_keepsRoutes c s t (fun p e => hr ⟨p, e⟩) (fun k e => hb ⟨k, e⟩) h
      exact ⟨kept.bank, kept.counts⟩

/-- Settles O57: the two laws from step to step, and the settings of the straps command by command. -/
theorem routeTableLawsKept : Obligations.RouteTableLawsKept := by
  refine ⟨step_keeps (fun _ _ h => h) fun c s t h => (exec_routeLaws c s t h).1,
    step_keeps (fun _ _ h => h) fun c s t h => (exec_routeLaws c s t h).2,
    fun c s t hr h => ?_⟩
  by_cases hb : ∃ k, c = .hardResetBegin k
  · obtain ⟨k, rfl⟩ := hb
    cases h
    exact ⟨rfl, rfl, rfl, fun hn => absurd rfl (hn k), fun _ => rfl⟩
  · have kept := exec_keepsRoutes c s t hr (fun k e => hb ⟨k, e⟩) h
    exact ⟨kept.address, kept.rate, kept.parity, fun _ => kept.strapFault, fun he => absurd he hb⟩

end Sys2Proof.Machine
end

section
/-! SUPPORT. Good trunk frames at their delivery (R20 to R25), a request from its lookup to its immediate reply (R22,
R37 to R46), and the checks of an offer to the exchange table (R68 to R72). -/

namespace Sys2Proof.Machine

/-! ### Deliveries (R20, R21) -/

/-- While a soft reset is pending a delivered frame is taken and nothing else happens (R21). -/
theorem State.trunkDelivery_discarded {s : State} (f : Frame) {comes : Bool} (act : State → State) (a : Acting s)
    (pending : s.trunk.softResetPending = true) (hc : comes = true) :
    s.trunkDelivery f comes act = .next (s.taken f) := by
  have hp : (s.taken f).trunk.softResetPending = true := pending
  simp [State.trunkDelivery, State.acting_next a, hc, State.takeDelivery_trunk, hp]

theorem eq_ofNat_of_toNat {b : Byte} {n : Nat} (h : b.toNat = n) : b = BitVec.ofNat 8 n := by
  rw [← h, BitVec.ofNat_toNat, BitVec.setWidth_eq]

/-- A function the command table does not list is unknown (R158 step 2). -/
theorem not_management_of_toNat {fn : Byte} (h : ∀ k ∈ managementFunctions, fn.toNat ≠ k.toNat) :
    managementFunctions.contains fn = false := by
  by_contra hc
  exact h fn (by simpa using hc) rfl

/-- A management command, whatever its function, is a management REQ that is judged in its own way (R158). -/
theorem exec_commandOf (fn : Byte) (r : Request) (s : State) :
    ∃ judge : State → State, exec (commandOf fn r) s = s.management fn r judge := by
  unfold commandOf
  split
  case h_19 =>
    refine ⟨fun u => u.refuse fn r nakUnknown, ?_⟩
    have unknown : managementFunctions.contains fn = false := not_management_of_toNat fun k hk e => by
      simp only [managementFunctions, List.mem_cons, List.not_mem_nil, or_false] at hk
      rcases hk with rfl | rfl | rfl | rfl | rfl | rfl | rfl | rfl | rfl | rfl | rfl | rfl | rfl | rfl | rfl | rfl |
        rfl | rfl <;> contradiction
    change execUnknown fn r s = _
    unfold execUnknown
    rw [unknown]
    rfl
  all_goals
    rename_i hfn
    obtain rfl := eq_ofNat_of_toNat hfn
    simp only [exec, execReadStatus, execReadCounters, execStageEntry, execClearStage, execReadEntry, execCommit,
      execSetMissPolicy, execReadExchanges, execAbortExchange, execLineReset, execSetSegment, execReadSegment,
      execReadInputs, execSetInput, execSetSamplePeriod, execReportControl, execFetchReports, execGatewayReset]
    exact ⟨_, rfl⟩

/-- A frame of the trunk framer that is routed is looked up (R20, R22). -/
theorem exec_routedRequest {s : State} {f : Frame} (d : Dispatching s) (good : f.goodOnTrunk = true)
    (kind : f.kind = .req) (dest : f.dest ≠ s.trunk.address) :
    exec (.routedRequest f) s = .next ((s.taken f).route f) :=
  s.trunkDelivery_next f _ (fun s => s.route f) d (by simp [good, kind, dest])

/-! ### From the lookup to the action (R22, R37 to R39) -/

theorem RouteTable.countHit_eq {t : RouteTable} {i : Fin 48} {e : RouteEntry} (he : t.active[i] = some e) :
    t.countHit i.val = { t with
      active := t.active.setIfInBounds i.val (some { e with hits := satInc e.hits }) } := by
  have hb : bankEntry t.active i.val = some e := by rw [bankEntry_eq _ i.isLt]; exact he
  simp [RouteTable.countHit, hb]

theorem State.route_miss {s : State} {f : Frame} (h : s.routes.lookup f.dest f.fn = none) : s.route f = s.miss f := by
  simp [State.route, h]

theorem State.route_hit {s : State} {f : Frame} {i : Fin 48} {e : RouteEntry}
    (h : s.routes.lookup f.dest f.fn = some i.val) (he : s.routes.active[i] = some e) :
    s.route f = (s.hit i e).act f e := by
  have hb : bankEntry s.routes.active i.val = some e := by rw [bankEntry_eq _ i.isLt]; exact he
  simp only [State.route, h, hb]
  rw [State.modRoutes, RouteTable.countHit_eq he]
  rfl

/-- The state in which a taken request, its hit counted, meets the action of its entry: nothing but the deliveries and
the active bank has changed. -/
theorem State.taken_hit_keeps (s : State) (f : Frame) (i : Nat) (e : RouteEntry) :
    ((s.taken f).hit i e).exchange = s.exchange ∧ (∀ x, ((s.taken f).hit i e).seg x = s.seg x) ∧
      ((s.taken f).hit i e).trunk.queue = s.trunk.queue ∧ ((s.taken f).hit i e).hardReset = s.hardReset :=
  ⟨rfl, fun x => by cases x <;> rfl, rfl, rfl⟩

/-! ### Immediate replies (R22, R25) -/

theorem State.refuseRouted_room {s : State} (a : Acting s) (out : OutputLaw s) (room : s.trunk.queue.length < 8)
    (f : Frame) (p : List Byte) : s.refuseRouted f p = s.nakked f p := by
  have hq : s.queueFull = false := decide_eq_false (by omega)
  simp only [State.refuseRouted, hq]
  exact s.enqueue_placed _ room (out.2 a).1 (out.2 a).2

theorem State.refuseRouted_full {s : State} (full : 8 ≤ s.trunk.queue.length) (f : Frame) (p : List Byte) :
    s.refuseRouted f p = s.countReplyDrop := by
  have hq : s.queueFull = true := decide_eq_true full
  simp only [State.refuseRouted, hq, if_true]

/-! ### The checks of an offer (R68 to R72) -/

/-- Some record that is not FREE has the pair of source and tag (R69). -/
theorem ExchangeTable.duplicate_iff (t : ExchangeTable) (source : Byte) (tag : Tag) :
    t.duplicate source tag = true ↔ ∃ slot : Slot, (t.record slot).map Record.pair = some (source, tag) := by
  simp only [ExchangeTable.duplicate, List.any_eq_true, Vector.mem_toList_iff, Vector.mem_iff_getElem]
  constructor
  · rintro ⟨o, ⟨i, hi, rfl⟩, h⟩
    refine ⟨⟨i, hi⟩, ?_⟩
    change (t.slots[i]).map Record.pair = _
    split at h
    · rename_i r hr
      simp only [Bool.and_eq_true, beq_iff_eq] at h
      rw [hr, Option.map_some, Record.pair, h.1, h.2]
    · cases h
  · rintro ⟨slot, h⟩
    refine ⟨t.slots[slot], ⟨slot.val, slot.isLt, rfl⟩, ?_⟩
    obtain ⟨r, hr, hp⟩ := Option.map_eq_some_iff.mp h
    change t.slots[slot] = some r at hr
    rw [hr]
    cases hp
    simp

theorem mem_allSlots (slot : Slot) : slot ∈ ([0, 1, 2, 3, 4, 5, 6, 7, 8, 9, 10, 11, 12, 13, 14, 15] : List Slot) := by
  revert slot
  decide

theorem ExchangeTable.freeSlotOf_none_iff (t : ExchangeTable) :
    t.freeSlotOf = none ↔ ∀ slot : Slot, t.record slot ≠ none := by
  simp only [ExchangeTable.freeSlotOf, List.find?_eq_none, Option.isNone_iff_eq_none]
  exact ⟨fun h slot => h slot (mem_allSlots slot), fun h slot _ => h slot⟩

/-- The lowest-numbered FREE slot (R72). -/
theorem ExchangeTable.freeSlotOf_eq {t : ExchangeTable} {slot : Slot} (hs : t.record slot = none)
    (lowest : ∀ j : Slot, j < slot → t.record j ≠ none) : t.freeSlotOf = some slot := by
  have split : ∀ slot : Slot, ([0, 1, 2, 3, 4, 5, 6, 7, 8, 9, 10, 11, 12, 13, 14, 15] : List Slot) =
      (List.finRange 16).filter (· < slot) ++ slot :: (List.finRange 16).filter (slot < ·) := by decide
  refine List.find?_eq_some_iff_append.mpr ⟨by rw [hs]; rfl, _, _, split slot, fun j hj => ?_⟩
  have hj : j < slot := by simpa using hj
  obtain ⟨r, hr⟩ := Option.ne_none_iff_exists'.mp (lowest j hj)
  rw [hr]
  rfl

theorem ExchangeTable.freeSlotOf_none_record {t : ExchangeTable} {slot : Slot} (h : t.freeSlotOf = some slot) :
    t.record slot = none := by
  have := List.find?_some h
  simpa using this

/-! ### The offers (R43, R44, R70) -/

theorem segMask_code (x : Seg) : segMask x = if x = .a then 1 else 2 := by cases x <;> rfl

theorem State.offer_forward (s : State) (f : Frame) (e : RouteEntry) :
    s.offer f e false =
      { state := .queued, source := f.src, tag := f.tag, dest := f.dest, fn := f.fn, segAddress := e.segAddress,
        segFn := e.remap.getD f.fn, payload := f.payload, attempts := 0,
        carriage := .single ⟨e.segment, e.timeout, e.retryLimit.toNat, none⟩ } := rfl

/-- A FANOUT offer, the lent-expired segments withdrawn from it, A before B (R44, R70). -/
theorem State.offer_fanout (s : State) (f : Frame) (e : RouteEntry) :
    s.offer f e true =
      { state := .queued, source := f.src, tag := f.tag, dest := f.dest, fn := f.fn, segAddress := 0,
        segFn := e.remap.getD f.fn, payload := f.payload, attempts := 0,
        carriage := .broadcast
          { pending := { a := !s.segA.lentExpired, b := !s.segB.lentExpired }
            delivered := { a := false, b := false }
            withdrawn := (if s.segA.lentExpired then [(⟨.a, .lent⟩ : Withdrawal)] else []) ++
              (if s.segB.lentExpired then [(⟨.b, .lent⟩ : Withdrawal)] else []) } } := by
  unfold State.offer State.withdrawIfExpired
  cases ha : s.segA.lentExpired <;> cases hb : s.segB.lentExpired <;>
    simp [ha, hb, SegSet.both, SegSet.empty, SegSet.remove]

theorem SegSet.mask_insert (x : Seg) : (SegSet.empty.insert x).mask = segMask x := by cases x <;> decide

theorem Carriage.segments_has (c : Carriage) (x : Seg) : c.segments.has x = c.names x := by
  cases c with
  | single c =>
    obtain ⟨y, -, -, -⟩ := c
    cases x <;> cases y <;> rfl
  | broadcast c => rfl

/-! ### What the checks answer (R68 to R71) -/

theorem State.admissionRefusal_duplicate {s : State} {r : Record}
    (h : ∃ slot : Slot, (s.exchange.record slot).map Record.pair = some r.pair) :
    s.admissionRefusal r = some nakDuplicate := by
  have := (s.exchange.duplicate_iff r.source r.tag).mpr h
  simp [State.admissionRefusal, this]

theorem State.admissionRefusal_lent {s : State} {r : Record} {mask : Byte}
    (new : ¬ ∃ slot : Slot, (s.exchange.record slot).map Record.pair = some r.pair)
    (lent : s.lentRefusal r.carriage = some mask) : s.admissionRefusal r = some (nakLent mask) := by
  have : s.exchange.duplicate r.source r.tag = false := by
    rw [← Bool.not_eq_true, ExchangeTable.duplicate_iff]
    exact new
  simp [State.admissionRefusal, this, lent]

theorem State.admissionRefusal_busy {s : State} {r : Record}
    (new : ¬ ∃ slot : Slot, (s.exchange.record slot).map Record.pair = some r.pair)
    (lent : s.lentRefusal r.carriage = none)
    (busy : (∀ slot : Slot, s.exchange.record slot ≠ none) ∨
      ∃ x, r.carriage.names x = true ∧ (s.seg x).config.depth.toNat ≤ (s.exchange.standing x).length) :
    s.admissionRefusal r = some (nakBusy r.carriage.segments.mask) := by
  have hd : s.exchange.duplicate r.source r.tag = false := by
    rw [← Bool.not_eq_true, ExchangeTable.duplicate_iff]
    exact new
  have hb : (s.exchange.freeSlotOf.isNone || (r.carriage.segments.a && s.atDepth .a) ||
      (r.carriage.segments.b && s.atDepth .b)) = true := by
    rcases busy with h | ⟨x, hx, h⟩
    · simp [s.exchange.freeSlotOf_none_iff.mpr h]
    · have deep : s.atDepth x = true := decide_eq_true h
      rw [← Carriage.segments_has] at hx
      cases x
      · have hx : r.carriage.segments.a = true := hx
        simp [hx, deep]
      · have hx : r.carriage.segments.b = true := hx
        simp [hx, deep]
  simp only [State.admissionRefusal, hd, lent, hb, Bool.false_eq_true, if_false, if_true]

/-- An offer that no check refuses (R68). -/
theorem State.admissionRefusal_none {s : State} {r : Record} {slot : Slot}
    (new : ∀ j : Slot, (s.exchange.record j).map Record.pair ≠ some r.pair)
    (lent : s.lentRefusal r.carriage = none) (free : s.exchange.freeSlotOf = some slot)
    (room : ∀ x, r.carriage.names x = true →
      (s.exchange.standing x).length < (s.seg x).config.depth.toNat) : s.admissionRefusal r = none := by
  have hd : s.exchange.duplicate r.source r.tag = false := by
    rw [← Bool.not_eq_true, ExchangeTable.duplicate_iff]
    exact not_exists.mpr new
  have deep : ∀ x, (r.carriage.segments.has x && s.atDepth x) = false := fun x => by
    cases hx : r.carriage.segments.has x with
    | false => rfl
    | true =>
      rw [Carriage.segments_has] at hx
      exact decide_eq_false (by have := room x hx; omega)
  have ha : (r.carriage.segments.a && s.atDepth .a) = false := deep .a
  have hb : (r.carriage.segments.b && s.atDepth .b) = false := deep .b
  simp [State.admissionRefusal, hd, lent, free, ha, hb]

/-- An offer that is refused is answered at once (R22, R68). -/
theorem State.judgeOffer_refused {s : State} {f : Frame} {r : Record} {p : List Byte}
    (h : s.admissionRefusal r = some p) : s.judgeOffer f r = s.refuseRouted f p := by
  simp only [State.judgeOffer, h]

theorem State.judgeOffer_admits {s : State} {f : Frame} {r : Record} (h : s.admissionRefusal r = none) :
    s.judgeOffer f r = s.admitRecord r := by
  simp only [State.judgeOffer, h]

end Sys2Proof.Machine
end

section
/-! PROOF. O17, O18, O21, O23, O31 and O39: requests ended at the dispatcher or by the exchange table, frames for no one,
and three management commands. -/

namespace Sys2Proof.Machine

theorem unexpectedAt_iff {address : Byte} {f : Frame} : unexpectedAt address f = true ↔
    f.kind = .rsp ∨ f.kind = .nak ∨ f.kind = .rpt ∨ (f.kind = .rack ∧ f.dest ≠ address) := by
  cases h : f.kind <;> simp [unexpectedAt, h]

/-- Settles O21: what counts UNEXPECTED, and what a pending soft reset discards. -/
theorem discardedTrunkFrames : Obligations.DiscardedTrunkFrames := by
  refine ⟨fun s f d good kind => ?_, fun s f a pending good => ⟨?_, fun kind dest => ?_, fun kind => ?_⟩,
    fun s r fn a pending ok => ⟨?_, ?_⟩⟩
  · change execUnexpected f s = _
    exact s.trunkDelivery_next f _ _ d (by rw [good, unexpectedAt_iff.mpr kind]; rfl)
  · change execPendingSoftResetDiscard f s = _
    exact s.trunkDelivery_discarded f _ a pending (by simp [good, pending])
  · change execRoutedRequest f s = _
    exact s.trunkDelivery_discarded f _ a pending (by simp [good, kind, dest])
  · change execUnexpected f s = _
    refine s.trunkDelivery_discarded f _ a pending ?_
    rw [good, unexpectedAt_iff.mpr (kind.imp_right fun k => k.imp_right Or.inl)]
    rfl
  · obtain ⟨judge, hj⟩ := exec_commandOf fn r s
    rw [hj]
    exact s.trunkDelivery_discarded _ _ a pending ok
  · change execRack fn r s = _
    exact s.trunkDelivery_discarded _ _ a pending ok

/-- Settles O23: whatever the command, the full queue is judged first. -/
theorem fullQueueDiscardsCommands : Obligations.FullQueueDiscardsCommands := by
  intro s fn r d ok full
  obtain ⟨judge, hj⟩ := exec_commandOf fn r s
  rw [hj]
  exact s.management_full fn r judge d ok full

/-- Settles O39: the RSP enters a queue with room, then the soft reset is pending. -/
theorem gatewayResetIsAccepted : Obligations.GatewayResetIsAccepted := by
  intro s r ready out empty
  have entered := (s.taken (s.commandFrame 0x7F r)).enqueue_placed
    ⟨(s.taken (s.commandFrame 0x7F r)).replyFrame .rsp 0x7F r [], true⟩ ready.2.2 (out.2 ready.1.1).1 (out.2 ready.1.1).2
  change execGatewayReset r s = _
  unfold execGatewayReset
  rw [s.management_ready 0x7F r _ ready, empty]
  simp only []
  rw [entered]
  rfl

/-- The miss policy codes: 0 is REFUSE, 1 is DROP, and no other is in range (R41, R42). -/
theorem missOf_eq (code : Byte) :
    missOf code = if code.toNat ≤ 1 then some (if code = 0 then .refuse else .drop) else none := by
  revert code
  decide +kernel

/-- Settles O31: full queue, length, range, then the policy and its RSP. -/
theorem missPolicyIsSet : Obligations.MissPolicyIsSet := by
  intro s r d ok out
  have answered : ∀ p, (s.taken (s.commandFrame 0x14 r)).trunk.queue.length < 8 →
      (s.taken (s.commandFrame 0x14 r)).refuse 0x14 r p =
        (s.taken (s.commandFrame 0x14 r)).answered .nak 0x14 r p := fun p room =>
    State.refuse_answered _ _ _ _ room (out.taken _) d.1
  refine ⟨fun full => ?_, fun room len => ?_, fun code room hp range => ?_,
    fun code room hp range => ?_⟩
  all_goals
    change execSetMissPolicy r s = _
    unfold execSetMissPolicy
  · exact s.management_full 0x14 r _ d ok full.ge
  all_goals rw [s.management_ready 0x14 r _ ⟨d, ok, room⟩]
  · split
    · rename_i code hp
      simp [hp] at len
    · rw [answered _ room]
      rfl
  · simp only [hp, missOf_eq, if_neg (Nat.not_le.mpr range)]
    rw [answered _ room]
    rfl
  · simp only [hp, missOf_eq, if_pos range]
    refine congrArg Host.Outcome.next (State.respond_after (s := s) ⟨d, ok, room⟩ out _ _ _ _ ?_)
    exact ⟨rfl, rfl, rfl⟩

/-- What refuses at the dispatcher or in the exchange table answers in a queue with room, and counts REPLY-DROP in a
full one (R22, R25). -/
theorem exec_routedRequest_refused {s : State} {f : Frame} {i : Fin 48} {e : RouteEntry} {p : List Byte}
    (d : Dispatching s) (out : OutputLaw s) (good : f.goodOnTrunk = true) (kind : f.kind = .req)
    (dest : f.dest ≠ s.trunk.address) (h : s.routes.lookup f.dest f.fn = some i.val) (he : s.routes.active[i] = some e)
    (refused : ((s.taken f).hit i e).act f e = ((s.taken f).hit i e).refuseRouted f p) :
    (s.trunk.queue.length < 8 → exec (.routedRequest f) s = .next (((s.taken f).hit i e).nakked f p)) ∧
    (s.trunk.queue.length = 8 → exec (.routedRequest f) s = .next (((s.taken f).hit i e).modTrunk fun t =>
      { t with counters := { t.counters with replyDrop := satInc t.counters.replyDrop } })) := by
  have run : exec (.routedRequest f) s = .next (((s.taken f).hit i e).refuseRouted f p) := by
    rw [exec_routedRequest d good kind dest, State.route_hit (s := s.taken f) h he, refused]
  refine ⟨fun room => ?_, fun full => ?_⟩
  · rw [run, State.refuseRouted_room (s := (s.taken f).hit i e) d.1 out room]
  · rw [run, State.refuseRouted_full (s := (s.taken f).hit i e) full.ge]
    rfl

/-- Settles O17: a miss by its policy, then DROP and REFUSE entries after their hit. -/
theorem requestsEndedAtDispatch : Obligations.RequestsEndedAtDispatch := by
  refine ⟨fun s f d out good kind dest none => ?_, fun s f i e d out good kind dest hit he => ?_⟩
  · have run : exec (.routedRequest f) s = .next ((s.taken f).miss f) := by
      rw [exec_routedRequest d good kind dest, State.route_miss (s := s.taken f) none]
    have policy : (s.taken f).routes.missPolicy = s.routes.missPolicy := rfl
    refine ⟨fun drop => ?_, fun refuse room => ?_, fun refuse full => ?_⟩
    · rw [run, State.miss, policy, drop]
      rfl
    · rw [run, State.miss, policy, refuse]
      exact congrArg _ (State.refuseRouted_room (s := s.taken f) d.1 out room f nakNoRoute)
    · rw [run, State.miss, policy, refuse]
      exact congrArg _ (State.refuseRouted_full (s := s.taken f) full.ge f nakNoRoute)
  · refine ⟨fun drop => ?_, fun refuse => ?_, fun refuse => ?_⟩
    · rw [exec_routedRequest d good kind dest, State.route_hit (s := s.taken f) hit he, State.act, drop]
      rfl
    · exact (exec_routedRequest_refused d out good kind dest hit he (by simp only [State.act, refuse]; rfl)).1
    · exact (exec_routedRequest_refused d out good kind dest hit he (by simp only [State.act, refuse]; rfl)).2

/-- Settles O18: the three checks in their order, each with its reply. -/
theorem forwardOffersRefused : Obligations.ForwardOffersRefused := by
  intro s f i e payload d out good kind dest hit he action why
  obtain ⟨exchange, seg, -, -⟩ := s.taken_hit_keeps f i e
  refine exec_routedRequest_refused d out good kind dest hit he ?_
  generalize (s.taken f).hit i e = u at exchange seg ⊢
  have offer : u.act f e = u.judgeOffer f (u.offer f e false) := by rw [State.act, action]
  rw [offer]
  rw [State.offer_forward]
  refine State.judgeOffer_refused ?_
  rw [← exchange, ← seg] at why
  split at why
  · rename_i dup
    rw [why]
    exact State.admissionRefusal_duplicate dup
  · rename_i new
    rw [← segMask_code] at why
    split at why
    · rename_i lent
      rw [why]
      exact State.admissionRefusal_lent new (if_pos lent)
    · rename_i lent
      obtain ⟨busy, rfl⟩ := why
      have refused := State.admissionRefusal_busy (r := u.offer f e false) new (if_neg lent)
        (busy.imp_right fun h => ⟨e.segment, beq_self_eq_true _, h⟩)
      exact refused.trans (congrArg (fun m => some (nakBusy m)) (SegSet.mask_insert e.segment))

end Sys2Proof.Machine
end

section
/-! SUPPORT. The arbiter's decisions, one equation each (R26 to R30, R149), and the end of a transmission (R27, R150). -/

namespace Sys2Proof.Machine

/-! ### The head of the queue (R26, R28) -/

theorem State.arbitrate_head {s : State} {q : QueuedFrame} {rest : List QueuedFrame} (idle : s.trunk.tx = .idle)
    (hq : s.trunk.queue = q :: rest) :
    s.arbitrate = { s with trunk := { s.trunk with queue := rest, tx := .sending q } }.fillFreedSlot := by
  simp only [State.arbitrate, idle, hq]

theorem State.fillFreedSlot_none {s : State} (h : s.exchange.completion = []) : s.fillFreedSlot = s := by
  simp only [State.fillFreedSlot, h]

/-- The reply of the record that became COMPLETE earliest enters, and its slot is FREE (R26, R79). -/
theorem State.fillFreedSlot_some {s : State} {slot : Slot} {more : List Slot} {r : Record} {reply : Reply}
    (hc : s.exchange.completion = slot :: more) (hr : s.exchange.record slot = some r)
    (hs : r.state = .complete reply) :
    s.fillFreedSlot = { s with
      exchange := { slots := s.exchange.slots.set slot none, admission := s.exchange.admission.erase slot
                    completion := more }
      trunk := { s.trunk with queue := s.trunk.queue ++ [⟨r.replyFrame reply, false⟩] } } := by
  simp only [State.fillFreedSlot, hc, hr, hs, ExchangeTable.free, List.erase_cons_head]

/-- With no record COMPLETE the head of the queue is sent and nothing else changes (R28). -/
theorem State.arbitrate_head_only {s : State} {q : QueuedFrame} {rest : List QueuedFrame} (idle : s.trunk.tx = .idle)
    (hq : s.trunk.queue = q :: rest) (none : s.exchange.completion = []) :
    s.arbitrate = { s with trunk := { s.trunk with queue := rest, tx := .sending q } } :=
  (State.arbitrate_head idle hq).trans (State.fillFreedSlot_none none)

/-- The head of the queue is sent, and the slot it leaves is filled (R26, R28). -/
theorem State.arbitrate_head_fills {s : State} {q : QueuedFrame} {rest : List QueuedFrame} {slot : Slot}
    {more : List Slot} {r : Record} {reply : Reply} (idle : s.trunk.tx = .idle) (hq : s.trunk.queue = q :: rest)
    (hc : s.exchange.completion = slot :: more) (hr : s.exchange.record slot = some r)
    (hs : r.state = .complete reply) :
    s.arbitrate = { s with
      exchange := { slots := s.exchange.slots.set slot none, admission := s.exchange.admission.erase slot
                    completion := more }
      trunk := { s.trunk with tx := .sending q, queue := rest ++ [⟨r.replyFrame reply, false⟩] } } :=
  (State.arbitrate_head idle hq).trans (State.fillFreedSlot_some hc hr hs)

/-! ### The reporter's turn (R28, R149) -/

/-- The reporter has no batch to send (R149). -/
theorem Reporter.hasBatch_false {rep : Reporter}
    (h : rep.mode ≠ .unsolicited ∨ (rep.state = .idle ∧ NothingEligible rep) ∨
      (rep.state = .outstanding ∧ rep.resendDue = false) ∨ rep.state = .stalled) : rep.hasBatch = false := by
  rcases h with h | ⟨h, none⟩ | ⟨h, due⟩ | h
  · simp [Reporter.hasBatch, h]
  · simp [Reporter.hasBatch, h, rep.nothingEligible_iff.mp none]
  · simp [Reporter.hasBatch, h, due]
  · simp [Reporter.hasBatch, h]

/-- With an empty queue the arbiter grants the reporter or changes nothing (R28). -/
theorem State.arbitrate_emptyQueue {s : State} (hq : s.trunk.queue = []) :
    s.arbitrate = s ∨ (s.reporter.hasBatch = true ∧ ∃ d, s.arbitrate = s.grant d) := by
  unfold State.arbitrate
  split
  · simp only [hq]
    split
    · rename_i batch
      split
      · exact Or.inr ⟨batch, _, rfl⟩
      · exact Or.inl rfl
    · exact Or.inl rfl
  · exact Or.inl rfl

/-- The outstanding batch is sent once more where its resend is due (R149, R150). -/
theorem State.arbitrate_resends {s : State} {d n : Byte} (idle : s.trunk.tx = .idle) (hq : s.trunk.queue = [])
    (mode : s.reporter.mode = .unsolicited) (dest : s.reporter.destination = some d)
    (st : s.reporter.state = .outstanding) (due : s.reporter.resendDue = true)
    (out : s.reporter.outstanding = some n) :
    s.arbitrate = { s with
      trunk := { s.trunk with
        tx := .reporting (rptFrame d s.trunk.address (batchBytes n s.reporter.batchNow)) }
      reporter := { s.reporter with
        resendDue := false, sendCount := s.reporter.sendCount + 1, sending := true } } := by
  have batch : s.reporter.hasBatch = true := by simp [Reporter.hasBatch, mode, st, due]
  have granted : s.reporter.granted =
      { s.reporter with resendDue := false, sendCount := s.reporter.sendCount + 1, sending := true } := by
    simp [Reporter.granted, st]
  simp only [State.arbitrate, idle, hq, batch, dest, if_true, State.grant, granted, Reporter.payload, out]
  rfl

/-- With nothing outstanding every record waits (R146). -/
theorem BatchLaw.waiting {rep : Reporter} (h : BatchLaw rep) (st : rep.state = .idle) :
    ∀ q ∈ rep.queue, q.status = .waiting := by
  obtain ⟨-, idle, -, ofBatch⟩ := h
  intro q hq
  rcases ofBatch q hq with w | w
  · simpa [ReportRecord.waiting] using w
  · rw [idle.mp st] at w
    cases w

/-! ### The end of a transmission (R27, R30, R150) -/

/-- The reporter as the transmission in progress has ended: the report timer starts where that transmission was of the
batch still outstanding (R150). -/
def State.reporterAtEnd (s : State) : Reporter :=
  match s.trunk.tx with
  | .reporting _ => s.reporter.sent
  | _ => s.reporter

/-- The state with the transmitter at rest and this reporter. -/
def State.atRest (s : State) (rep : Reporter) : State :=
  { s with trunk := { s.trunk with tx := .idle }, reporter := rep }

/-- A transmission is in progress to whose end no soft reset is bound (R30). -/
abbrev EndsUnbound (s : State) : Prop :=
  (∃ sent, s.trunk.tx = .sending sent ∧ (s.trunk.softResetPending = false ∨ sent.bindsReset = false)) ∨
    ∃ f, s.trunk.tx = .reporting f

theorem exec_endOfTransmission_unbound {s : State} (a : Acting s) (h : EndsUnbound s) :
    exec .endOfTransmission s = .next (s.atRest s.reporterAtEnd).arbitrate := by
  change execEndOfTransmission s = _
  unfold execEndOfTransmission State.reporterAtEnd
  rw [State.acting_next a]
  rcases h with ⟨sent, htx, unbound⟩ | ⟨f, htx⟩
  · have hb : s.resetBound = false := by
      rcases unbound with h | h <;> simp [State.resetBound, htx, h]
    simp only [hb, htx]
    rfl
  · have hb : s.resetBound = false := by simp [State.resetBound, htx]
    simp only [hb, htx]
    rfl

end Sys2Proof.Machine
end

section
/-! PROOF. O22, O40 and O41: a RACK, the end of a frame's transmission, and the end of a transmission with the reporter's
turn. -/

namespace Sys2Proof.Machine

/-- Settles O40: the head, the head with the slot filled, and rest. -/
theorem endOfTransmissionSendsNext : Obligations.EndOfTransmissionSendsNext := by
  intro s sent a htx unbound
  have run := exec_endOfTransmission_unbound a (Or.inl ⟨sent, htx, unbound⟩)
  have rep : s.reporterAtEnd = s.reporter := by simp only [State.reporterAtEnd, htx]
  rw [rep] at run
  refine ⟨fun q rest hq none => ?_, fun q rest slot more r reply hq hc hr hs => ?_, fun hq nothing => ?_⟩
  · exact run.trans (congrArg _ (State.arbitrate_head_only (s := s.atRest _) rfl hq none))
  · exact run.trans (congrArg _ (State.arbitrate_head_fills (s := s.atRest _) rfl hq hc hr hs))
  · exact run.trans (congrArg _ (State.arbitrate_rest (s.atRest _) hq (Reporter.hasBatch_false nothing)))

/-- The end of a transmission changes nothing of the reporter but its timer and what it says of the transmission. -/
theorem State.reporterAtEnd_eq (s : State) : s.reporterAtEnd = { s.reporter with
    sending := s.reporterAtEnd.sending, timer := s.reporterAtEnd.timer } := by
  unfold State.reporterAtEnd Reporter.sent
  split
  · split <;> rfl
  · rfl

/-- Settles O41: the timer, then a new batch, the batch once more, rest, or the head of the queue. -/
theorem reporterIsGranted : Obligations.ReporterIsGranted := by
  intro s a ends rep
  have run := exec_endOfTransmission_unbound a ends
  have kept : rep = { s.reporter with sending := rep.sending, timer := rep.timer } := s.reporterAtEnd_eq
  change exec .endOfTransmission s = .next (s.atRest rep).arbitrate at run
  clear_value rep
  generalize rep.sending = sending, rep.timer = timer at kept
  subst kept
  refine ⟨fun d hq mode dest => ⟨fun eligible idle law => ?_, fun n st due out => ?_⟩, fun hq nothing => ?_,
    fun q rest hq none => ?_, fun q rest slot more r reply hq hc hr hs => ?_⟩
  · obtain ⟨rep', tx, he, htx, queue, hrep', formed⟩ := State.arbitrate_grants
      (s.atRest { s.reporter with sending := sending, timer := timer }) d rfl hq mode idle dest (law.waiting idle)
      eligible
    refine ⟨queue, ?_, formed⟩
    rw [run, he, htx, hrep']
    rfl
  · exact run.trans (congrArg _ (State.arbitrate_resends (s := s.atRest _) rfl hq mode dest st due out))
  · exact run.trans (congrArg _ (State.arbitrate_rest (s.atRest _) hq (Reporter.hasBatch_false nothing)))
  · exact run.trans (congrArg _ (State.arbitrate_head_only (s := s.atRest _) rfl hq none))
  · exact run.trans (congrArg _ (State.arbitrate_head_fills (s := s.atRest _) rfl hq hc hr hs))

theorem Reporter.rackMatches_iff (rep : Reporter) (batch : Byte) :
    rep.rackMatches batch = true ↔ rep.mode = .unsolicited ∧ rep.outstanding = some batch := by
  simp [Reporter.rackMatches]

/-- A RACK that can come is judged by whether it names the outstanding batch (R151). -/
theorem exec_rack {s : State} (d : Dispatching s) (batch : Byte) (r : Request) (ok : r.ok = true) :
    exec (.rack batch r) s = .next (
      if s.reporter.rackMatches batch then
        { s.taken { s.commandFrame batch r with kind := .rack } with reporter := s.reporter.acknowledged }.arbitrate
      else (s.taken { s.commandFrame batch r with kind := .rack }).modTrunk fun t =>
        { t with counters := { t.counters with rackIgnored := satInc t.counters.rackIgnored } }) := by
  change execRack batch r s = _
  unfold execRack
  rw [s.trunkDelivery_next _ _ _ d ok, ← s.reporter.acknowledge_eq]
  rfl

/-- Settles O22: an acknowledgement and the arbiter's turn after it, or a count. -/
theorem rackIsJudged : Obligations.RackIsJudged := by
  intro s r batch d out ok taken left
  have run := exec_rack d batch r ok
  have rest := (out.2 d.1).1
  refine ⟨fun mode named => ?_, fun other => ?_⟩
  · rw [if_pos ((s.reporter.rackMatches_iff batch).mpr ⟨mode, named⟩)] at run
    refine ⟨fun nothing => ?_, fun dest idle hd eligible => ?_⟩
    · rw [run]
      refine congrArg Host.Outcome.next ?_
      by_cases idle : s.trunk.tx = .idle
      · have none := nothing.resolve_left (not_not_intro idle)
        exact State.arbitrate_rest _ (rest idle) (Reporter.hasBatch_false (Or.inr (Or.inl ⟨rfl, none⟩)))
      · exact State.arbitrate_busy _ idle
    · obtain ⟨rep, tx, he, granted⟩ := State.arbitrate_grants { taken with reporter := left } dest idle (rest idle)
        mode rfl hd s.reporter.acknowledged_waiting eligible
      exact ⟨rep, tx, run.trans (congrArg Host.Outcome.next he), granted⟩
  · have ignored : ¬ s.reporter.rackMatches batch = true := fun h => by
      obtain ⟨mode, named⟩ := (s.reporter.rackMatches_iff batch).mp h
      exact other.elim (fun k => k mode) fun k => k named
    rw [run, if_neg ignored]

end Sys2Proof.Machine
end

section
/-! SUPPORT. What the soft reset makes of the blocks beside the segments (R33, R52, R88, R137, R169). -/

namespace Sys2Proof.Machine

/-- An event taken changes the report queue and the carry alone (R139, R142 to R144). -/
theorem Reporter.take_eq (rep : Reporter) (e : Event) :
    rep.take e = { rep with queue := (rep.take e).queue, carry := (rep.take e).carry } := by
  unfold Reporter.take Reporter.recordLoss
  repeat' split
  all_goals rfl

theorem State.offerEventQuietly_reporter (s : State) (e : Event) :
    (s.offerEventQuietly e).reporter = s.reporter.take e := by
  unfold State.offerEventQuietly
  repeat' split
  all_goals rfl

/-- SEGMENT LENT at a soft reset changes the reporter alone, and not its mode (R143, R169 step 7). -/
theorem State.offerLentAtReset_keeps (before : Segment) (x : Seg) (s : State) :
    SameBase s (State.offerLentAtReset before x s) ∧ (State.offerLentAtReset before x s).trunk = s.trunk ∧
      (State.offerLentAtReset before x s).exchange = s.exchange ∧
      (State.offerLentAtReset before x s).inputs = s.inputs ∧
      (State.offerLentAtReset before x s).reporter.mode = s.reporter.mode := by
  unfold State.offerLentAtReset
  split
  · refine ⟨s.offerEventQuietly_base _, s.offerEventQuietly_trunk _, s.offerEventQuietly_exchange _, ?_,
      by rw [s.offerEventQuietly_reporter, Reporter.take_eq]⟩
    simp [State.offerEventQuietly, segmentEvent]
  · exact ⟨SameBase.refl s, rfl, rfl, rfl, rfl⟩

/-- The state the arbiter is asked on at a soft reset (R30): the blocks are reset, and the offers have changed nothing of
them but the reporter's queue. -/
theorem State.softReset_asks (s : State) : ∃ u : State, s.softReset = u.arbitrate ∧ SameBase s.blocksReset u ∧
    u.trunk = s.trunk.softReset ∧ u.exchange = ExchangeTable.reset ∧ u.inputs = s.inputs.softReset ∧
    u.reporter.mode = s.reporter.mode := by
  obtain ⟨baseA, trunkA, exchangeA, inputsA, modeA⟩ := State.offerLentAtReset_keeps s.segA .a s.blocksReset
  obtain ⟨baseB, trunkB, exchangeB, inputsB, modeB⟩ :=
    State.offerLentAtReset_keeps s.segB .b (State.offerLentAtReset s.segA .a s.blocksReset)
  exact ⟨_, s.softReset_eq, baseA.trans baseB, trunkB.trans trunkA, exchangeB.trans exchangeA, inputsB.trans inputsA,
    modeB.trans modeA⟩

/-- With an empty queue the arbiter leaves the queue and the exchange table, and the transmitter too outside mode
UNSOLICITED (R28, R149). -/
theorem State.arbitrate_emptyQueue_keeps {s : State} (hq : s.trunk.queue = []) :
    s.arbitrate.trunk.queue = [] ∧ s.arbitrate.exchange = s.exchange ∧
      (s.reporter.mode ≠ .unsolicited → s.arbitrate.trunk.tx = s.trunk.tx) := by
  rcases State.arbitrate_emptyQueue hq with he | ⟨batch, d, he⟩
  · rw [he]
    exact ⟨hq, rfl, fun _ => rfl⟩
  · rw [he]
    refine ⟨hq, rfl, fun mode => ?_⟩
    rw [Reporter.hasBatch_false (Or.inl mode)] at batch
    cases batch

theorem InputBlock.softReset_getElem (b : InputBlock) (n : Fin 16) :
    b.softReset.lines[n] = { b.lines[n] with run := 0, lost := false, baselineDue := true } :=
  mapVec_getElem InputLine.softReset b.lines n

end Sys2Proof.Machine
end

section
/-! PROOF. O6: the soft reset of every block but the segments and the reporter. -/

namespace Sys2Proof.Machine

/-- Settles O6: the blocks as the arbiter finds them, and what its grant leaves alone. -/
theorem softResetState : Obligations.SoftResetState := by
  intro s q c a pending htx binds hc
  obtain ⟨u, he, base, trunk, exchange, inputs, mode⟩ := s.softReset_asks
  have asked := u.arbitrate_base
  have hq : u.trunk.queue = [] := by rw [trunk]; rfl
  obtain ⟨queue, table, tx⟩ := State.arbitrate_emptyQueue_keeps hq
  have strap := SameRoutes.softReset s
  refine ⟨s.softReset, exec_softReset_bound a (s.resetBound_of pending htx binds) hc, strap.address, strap.rate,
    strap.parity, strap.strapFault, ?_⟩
  have port : s.softReset.trunk.port = Port.reset := by rw [he, State.arbitrate_trunk_port, trunk]; rfl
  have counters : s.softReset.trunk.counters = TrunkCounters.zero := by
    rw [he, State.arbitrate_trunk_counters, trunk]; rfl
  have notPending : s.softReset.trunk.softResetPending = false := by
    rw [he, State.arbitrate_trunk_softResetPending, trunk]; rfl
  have exchange : s.softReset.exchange = ExchangeTable.reset := by rw [he, table, exchange]
  have inputs : s.softReset.inputs = s.inputs.softReset := by rw [he, State.arbitrate_inputs, inputs]
  rw [port, counters, notPending, exchange, inputs]
  refine ⟨rfl, rfl, rfl, rfl, rfl, he ▸ queue, rfl, fun hm => ?_, strap.routes, ExchangeTable.reset_record, rfl, rfl,
    s.inputs.softReset_getElem, rfl, rfl, rfl, rfl, ?_⟩
  · rw [he, tx (mode ▸ hm), trunk]
    rfl
  · rw [he]
    exact ⟨(asked.hardReset.trans base.hardReset).trans a, asked.timeCounter.trans base.timeCounter,
      asked.resetCause.trans base.resetCause, asked.pending.trans base.pending⟩

end Sys2Proof.Machine
end

section
/-! SUPPORT. What the reporter makes of an event, row by row (R139, R142 to R144), and a sample instant at which the
change of one line is accepted (R126, R128, R131). -/

namespace Sys2Proof.Machine

/-! ### An event and the reporter (R139, R142 to R144) -/

theorem Reporter.discards_iff (rep : Reporter) (e : Event) :
    rep.discards e = true ↔ rep.mode = .off ∨ rep.enables.getLsbD e.cls.val = false := by
  simp [Reporter.discards, Reporter.enabled]

theorem Reporter.coalesces_iff (rep : Reporter) (e : Event) : rep.coalesces e = true ↔
    e.subject.isInput = true ∧ ∃ q ∈ rep.queue, q.subject = e.subject ∧ q.status = .waiting := by
  simp [Reporter.coalesces, ReportRecord.waiting]

/-- The first loss makes the OVERFLOW record (R144). -/
theorem Reporter.recordLoss_new {rep : Reporter} (t : Word) (none : ∀ q ∈ rep.queue, q.code ≠ .overflow) :
    rep.recordLoss t = { rep with queue := rep.queue ++ [overflowRecord 1 t t] } := by
  have waiting : rep.queue.any (fun r => r.isOverflow && r.waiting) = false := by
    rw [List.any_eq_false]
    intro q hq
    simp [ReportRecord.isOverflow, none q hq]
  have any : rep.hasOverflow = false := by
    rw [Reporter.hasOverflow, List.any_eq_false]
    intro q hq
    simp [ReportRecord.isOverflow, none q hq]
  simp [Reporter.recordLoss, waiting, any]

/-- A later loss counts in the WAITING OVERFLOW record (R144). -/
theorem Reporter.recordLoss_counts {rep : Reporter} (t : Word)
    (some : ∃ q ∈ rep.queue, q.code = .overflow ∧ q.status = .waiting) :
    rep.recordLoss t = { rep with queue := rep.queue.map fun q =>
      if q.code = .overflow ∧ q.status = .waiting then { q with count := min 255 (q.count + 1), last := t }
      else q } := by
  have waiting : rep.queue.any (fun r => r.isOverflow && r.waiting) = true := by
    obtain ⟨q, hq, code, status⟩ := some
    exact List.any_eq_true.mpr ⟨q, hq, by simp [ReportRecord.isOverflow, ReportRecord.waiting, code, status]⟩
  rw [Reporter.recordLoss, if_pos waiting]
  simp [ReportRecord.isOverflow, ReportRecord.waiting, addUpTo]

/-- A loss goes to the carry while the OVERFLOW record is IN-BATCH (R144). -/
theorem Reporter.recordLoss_carries {rep : Reporter} (t : Word) (some : ∃ q ∈ rep.queue, q.code = .overflow)
    (inBatch : ∀ q ∈ rep.queue, q.code = .overflow → q.status ≠ .waiting) :
    rep.recordLoss t = { rep with carry :=
      { count := min 255 (rep.carry.count + 1), first := if rep.carry.count = 0 then t else rep.carry.first
        last := t } } := by
  have waiting : rep.queue.any (fun r => r.isOverflow && r.waiting) = false := by
    rw [List.any_eq_false]
    intro q hq
    simpa [ReportRecord.isOverflow, ReportRecord.waiting] using inBatch q hq
  have any : rep.hasOverflow = true := by
    obtain ⟨q, hq, code⟩ := some
    exact List.any_eq_true.mpr ⟨q, hq, by simp [ReportRecord.isOverflow, code]⟩
  simp [Reporter.recordLoss, waiting, any, addUpTo]

/-- The reporter takes an event as R139 and R142 to R144 say, row by row. -/
theorem Reporter.take_taken (rep : Reporter) (e : Event) : EventTaken rep e (rep.take e) := by
  refine ⟨fun filtered => if_pos ((rep.discards_iff e).mpr filtered), fun mode enabled => ?_⟩
  have passes : ¬ rep.discards e = true := fun h => by
    rcases (rep.discards_iff e).mp h with h | h
    · exact mode h
    · rw [enabled] at h
      cases h
  rw [Reporter.take, if_neg passes, ← rep.coalesces_iff e]
  refine ⟨fun folds => ?_, fun apart => ?_⟩
  · rw [if_pos folds]
    simp [ReportRecord.waiting, ReportRecord.coalesce, addUpTo]
  · rw [if_neg apart]
    refine ⟨fun room => if_pos room, fun full => ?_⟩
    have lost : ¬ rep.occupancy < 31 := Nat.not_lt.mpr full
    rw [if_neg lost]
    exact ⟨Reporter.recordLoss_new e.time, Reporter.recordLoss_counts e.time, Reporter.recordLoss_carries e.time⟩

/-! ### The arbiter and the input block (R29) -/

theorem State.fillFreedSlot_modInputs (s : State) (f : InputBlock → InputBlock) :
    (s.modInputs f).fillFreedSlot = s.fillFreedSlot.modInputs f := by
  unfold State.fillFreedSlot
  rw [State.modInputs_exchange]
  cases s.exchange.completion with
  | nil => rfl
  | cons slot _ =>
    cases hr : s.exchange.record slot with
    | none => simp only [hr]
    | some r =>
      simp only [hr]
      cases r.state <;> rfl

theorem State.arbitrate_modInputs (s : State) (f : InputBlock → InputBlock) :
    (s.modInputs f).arbitrate = s.arbitrate.modInputs f := by
  unfold State.arbitrate
  rw [State.modInputs_trunk, State.modInputs_reporter]
  cases s.trunk.tx with
  | sending q => rfl
  | reporting g => rfl
  | idle =>
    cases s.trunk.queue with
    | cons q rest => exact State.fillFreedSlot_modInputs { s with trunk := _ } f
    | nil =>
      cases s.reporter.hasBatch with
      | false => rfl
      | true => cases s.reporter.destination <;> rfl

/-- The lost flag of a line is set where its event is lost (R132). -/
def InputBlock.markLost (b : InputBlock) (n : Fin 16) (lost : Bool) : InputBlock :=
  if lost then { b with lines := b.lines.set n { b.lines[n] with lost := true } } else b

theorem InputBlock.markLost_keeps (b : InputBlock) (n : Fin 16) (lost : Bool) :
    (b.markLost n lost).holdA = b.holdA ∧ (b.markLost n lost).holdB = b.holdB ∧
      (b.markLost n lost).lines[n].lost = (b.lines[n].lost || lost) ∧
      ∀ m : Fin 16, m ≠ n → (b.markLost n lost).lines[m] = b.lines[m] := by
  cases lost with
  | false => exact ⟨rfl, rfl, by simp [InputBlock.markLost], fun _ _ => rfl⟩
  | true =>
    refine ⟨rfl, rfl, by simp [InputBlock.markLost], fun m hm => ?_⟩
    have hv : n.val ≠ m.val := fun h => hm (Fin.ext h.symm)
    simp [InputBlock.markLost, hv]

/-- An INPUT event: the reporter takes it and the arbiter is asked; a lost one sets the flag of its line (R132). -/
theorem State.offerEvent_input {s : State} {e : Event} {n : Fin 16} (he : e.subject = .input n) :
    s.offerEvent e = ({ s with reporter := s.reporter.take e } : State).arbitrate.modInputs fun b =>
      b.markLost n (s.reporter.loses e) := by
  unfold State.offerEvent State.offerEventQuietly
  rw [he, ← State.arbitrate_modInputs]
  cases h : s.reporter.loses e with
  | false => rfl
  | true => rfl

/-! ### Lines at a sample instant (R126, R128, R131) -/

theorem InputLine.accepts_iff (l : InputLine) (level : Bool) : l.accepts level = true ↔
    l.baselineDue = false ∧ level ≠ l.accepted ∧ l.qualification.toNat ≤ l.run := by
  simp [InputLine.accepts, and_assoc]

@[simp] theorem InputLine.sample_lost (l : InputLine) (level : Bool) : (l.sample level).lost = l.lost := by
  unfold InputLine.sample
  repeat' split
  all_goals rfl

/-- The input block when the lines of a list have taken their samples. -/
def InputBlock.sampled (inputs : Word) (l : List (Fin 16)) (b : InputBlock) : InputBlock :=
  l.foldl (fun b (n : Fin 16) => { b with lines := b.lines.set n (b.lines[n].sample (inputs.getLsbD n.val)) }) b

theorem InputBlock.sampled_hold (inputs : Word) (l : List (Fin 16)) : ∀ b : InputBlock,
    (b.sampled inputs l).holdA = b.holdA ∧ (b.sampled inputs l).holdB = b.holdB := by
  induction l with
  | nil => exact fun _ => ⟨rfl, rfl⟩
  | cons n l ih => exact fun b => ih _

theorem InputBlock.sampled_other (inputs : Word) {m : Fin 16} {l : List (Fin 16)} (hm : m ∉ l) : ∀ b : InputBlock,
    (b.sampled inputs l).lines[m] = b.lines[m] := by
  induction l with
  | nil => exact fun _ => rfl
  | cons n l ih =>
    intro b
    refine (ih (List.not_mem_of_not_mem_cons hm) _).trans ?_
    have hv : n.val ≠ m.val := fun h => List.ne_of_not_mem_cons hm (Fin.ext h.symm)
    simp [hv]

theorem InputBlock.sampled_lost (inputs : Word) (m : Fin 16) (l : List (Fin 16)) : ∀ b : InputBlock,
    (b.sampled inputs l).lines[m].lost = b.lines[m].lost := by
  induction l with
  | nil => exact fun _ => rfl
  | cons n l ih =>
    intro b
    refine (ih _).trans ?_
    simp only [Fin.getElem_fin, Vector.getElem_set]
    split
    · rename_i h
      rw [InputLine.sample_lost]
      congr 2
    · rfl

/-- Lines without an accepted and covered change take their samples, and nothing else happens (R131). -/
theorem State.foldl_sampleLine_quiet (inputs : Word) {l : List (Fin 16)} (nodup : l.Nodup) : ∀ s : State,
    (∀ m ∈ l, (s.inputs.lines[m].accepts (inputs.getLsbD m.val) &&
      s.inputs.lines[m].edge.covers (inputs.getLsbD m.val)) = false) →
    l.foldl (State.sampleLine inputs) s = s.modInputs (InputBlock.sampled inputs l) := by
  induction l with
  | nil => exact fun _ _ => rfl
  | cons n l ih =>
    intro s quiet
    obtain ⟨hn, hl⟩ := List.nodup_cons.mp nodup
    have first : State.sampleLine inputs s n = s.modInputs (InputBlock.sampled inputs [n]) := by
      simp only [State.sampleLine, quiet n List.mem_cons_self, Bool.false_eq_true, if_false]
      rfl
    rw [List.foldl_cons, first]
    refine ih hl _ fun m hm => ?_
    have other : m ∉ [n] := fun h => hn (List.mem_singleton.mp h ▸ hm)
    rw [State.modInputs_inputs, InputBlock.sampled_other inputs other]
    exact quiet m (List.mem_cons_of_mem _ hm)

/-- A hold line that is at its accepted level clears its run and nothing else happens (R113). -/
theorem State.sampleHold_quiet {s : State} {x : Seg} {level : Bool} (h : level = (s.inputs.hold x).asserted) :
    s.sampleHold x level = s.modInputs fun b => b.setHold x (s.inputs.hold x).clearRun := by
  have quiet : (s.inputs.hold x).qualifies level = false := by simp [HoldLine.qualifies, h]
  have run : (s.inputs.hold x).sample level = (s.inputs.hold x).clearRun := if_pos h
  simp only [State.sampleHold, quiet, run, Bool.false_eq_true, if_false]

/-- The end of a sample instant at which no hold line changes touches no line (R113, R125, R126). -/
theorem State.sampleHolds_quiet {u : State} {a b : Bool} (ha : a = u.inputs.holdA.asserted)
    (hb : b = u.inputs.holdB.asserted) : ∃ f : InputBlock → InputBlock,
    ((u.sampleHold .a a).sampleHold .b b).modInputs InputBlock.nextPeriod = u.modInputs f ∧
      (f u.inputs).lines = u.inputs.lines := by
  have first := State.sampleHold_quiet (s := u) (x := .a) ha
  have second := State.sampleHold_quiet (x := .b)
    (s := u.modInputs fun b => b.setHold .a (u.inputs.hold .a).clearRun) hb
  rw [first, second]
  exact ⟨fun b => ((b.setHold .a u.inputs.holdA.clearRun).setHold .b u.inputs.holdB.clearRun).nextPeriod, rfl, rfl⟩

theorem inputLines_split (n : Fin 16) :
    inputLines = inputLines.filter (· < n) ++ n :: inputLines.filter (n < ·) := by
  revert n
  decide

/-- One line samples its level: where the change is accepted and covered its event is offered (R126, R131). -/
theorem State.sampleLine_covered {s : State} {inputs : Word} {n : Fin 16}
    (h : (s.inputs.lines[n].accepts (inputs.getLsbD n.val) &&
      s.inputs.lines[n].edge.covers (inputs.getLsbD n.val)) = true) :
    State.sampleLine inputs s n = (s.modInputs (InputBlock.sampled inputs [n])).offerEvent
      (inputEvent n s.inputs.lines[n].cls (inputs.getLsbD n.val) s.timeCounter) := by
  simp only [State.sampleLine, h, if_true]
  rfl

section
variable {s : State} {inputs : Word} {n : Fin 16}

/-- The sixteen lines where one accepts a change that its edge select covers and every other line is quiet: the event
is taken and the arbiter asked, and beside that the lines alone change (R126, R131, R132). -/
theorem State.foldl_sampleLine_covered
    (quiet : ∀ m : Fin 16, m ≠ n → s.inputs.lines[m].accepts (inputs.getLsbD m.val) = false)
    (covered : (s.inputs.lines[n].accepts (inputs.getLsbD n.val) &&
      s.inputs.lines[n].edge.covers (inputs.getLsbD n.val)) = true) :
    let e := inputEvent n s.inputs.lines[n].cls (inputs.getLsbD n.val) s.timeCounter
    ∃ f : InputBlock → InputBlock,
      inputLines.foldl (State.sampleLine inputs) s =
        ({ s with reporter := s.reporter.take e } : State).arbitrate.modInputs f ∧
      (f s.inputs).holdA = s.inputs.holdA ∧ (f s.inputs).holdB = s.inputs.holdB ∧
      (f s.inputs).lines[n].lost = (s.inputs.lines[n].lost || s.reporter.loses e) := by
  intro e
  have nodup : ∀ p : Fin 16 → Bool, (inputLines.filter p).Nodup := fun p =>
    List.Nodup.filter p (by decide)
  have before : n ∉ inputLines.filter (· < n) := by simp
  have after : n ∉ inputLines.filter (n < ·) := by simp
  have lineN := InputBlock.sampled_other inputs before s.inputs
  have lower := State.foldl_sampleLine_quiet inputs (nodup (· < n)) s fun m hm => by
    rw [quiet m fun h => before (h ▸ hm), Bool.false_and]
  have line := State.sampleLine_covered (s := s.modInputs (InputBlock.sampled inputs (inputLines.filter (· < n))))
    (by rw [State.modInputs_inputs, lineN]; exact covered)
  rw [State.modInputs_inputs, lineN, State.offerEvent_input rfl] at line
  change _ = (({ s with reporter := s.reporter.take e } : State).modInputs fun b =>
    (b.sampled inputs (inputLines.filter (· < n))).sampled inputs [n]).arbitrate.modInputs fun b =>
      b.markLost n (s.reporter.loses e) at line
  have asked := State.arbitrate_modInputs { s with reporter := s.reporter.take e } fun b =>
    (b.sampled inputs (inputLines.filter (· < n))).sampled inputs [n]
  have upper := State.foldl_sampleLine_quiet inputs (nodup (n < ·))
    (({ s with reporter := s.reporter.take e } : State).arbitrate.modInputs fun b =>
      ((b.sampled inputs (inputLines.filter (· < n))).sampled inputs [n]).markLost n (s.reporter.loses e))
    fun m hm => by
      have hmn : m ≠ n := fun h => after (h ▸ hm)
      have hlt : n < m := by simpa using (List.mem_filter.mp hm).2
      rw [State.modInputs_inputs, State.arbitrate_inputs, ((InputBlock.markLost_keeps _ n _).2.2.2 m hmn),
        InputBlock.sampled_other inputs (fun h => hmn (List.mem_singleton.mp h)),
        InputBlock.sampled_other inputs fun h => absurd (List.mem_filter.mp h).2 (by simpa using hlt.le)]
      rw [quiet m hmn, Bool.false_and]
  refine ⟨fun b => (((b.sampled inputs (inputLines.filter (· < n))).sampled inputs [n]).markLost n
    (s.reporter.loses e)).sampled inputs (inputLines.filter (n < ·)), ?_, ?_⟩
  · conv_lhs => rw [inputLines_split n, List.foldl_append, List.foldl_cons, lower, line, asked]
    exact upper
  · obtain ⟨holdA, holdB, lost, -⟩ := InputBlock.markLost_keeps
      ((s.inputs.sampled inputs (inputLines.filter (· < n))).sampled inputs [n]) n (s.reporter.loses e)
    simp only [InputBlock.sampled_hold, InputBlock.sampled_lost, holdA, holdB, lost, and_self]

/-- A sample instant at which one line accepts a change, every other line is quiet and no hold line changes: where the
edge select covers the change the event is taken and the arbiter asked, and beside that the input block alone changes
(R126, R131, R132). -/
theorem exec_sampleInstant_one (a : Acting s)
    (quiet : ∀ m : Fin 16, m ≠ n → s.inputs.lines[m].accepts (inputs.getLsbD m.val) = false)
    (accepted : s.inputs.lines[n].accepts (inputs.getLsbD n.val) = true) :
    let e := inputEvent n s.inputs.lines[n].cls (inputs.getLsbD n.val) s.timeCounter
    let covered := s.inputs.lines[n].edge.covers (inputs.getLsbD n.val)
    ∃ f : InputBlock → InputBlock,
      exec (.sampleInstant inputs s.inputs.holdA.asserted s.inputs.holdB.asserted) s = .next
        ((if covered then ({ s with reporter := s.reporter.take e } : State).arbitrate else s).modInputs f) ∧
      (f s.inputs).lines[n].lost = (s.inputs.lines[n].lost || (covered && s.reporter.loses e)) := by
  intro e covered
  have run : exec (.sampleInstant inputs s.inputs.holdA.asserted s.inputs.holdB.asserted) s = .next
      ((((inputLines.foldl (State.sampleLine inputs) s).sampleHold .a s.inputs.holdA.asserted).sampleHold .b
        s.inputs.holdB.asserted).modInputs InputBlock.nextPeriod) := by
    change execSampleInstant _ _ _ s = _
    unfold execSampleInstant
    exact State.acting_next a _
  rw [run]
  by_cases hc : covered = true
  · obtain ⟨f, lines, holdA, holdB, lost⟩ := State.foldl_sampleLine_covered quiet (by rw [accepted]; exact hc)
    have asked : ({ s with reporter := s.reporter.take e } : State).arbitrate.inputs = s.inputs :=
      State.arbitrate_inputs _
    obtain ⟨g, ends, same⟩ := State.sampleHolds_quiet (a := s.inputs.holdA.asserted) (b := s.inputs.holdB.asserted)
      (u := ({ s with reporter := s.reporter.take e } : State).arbitrate.modInputs f)
      (by rw [State.modInputs_inputs, asked, holdA]) (by rw [State.modInputs_inputs, asked, holdB])
    refine ⟨fun b => g (f b), ?_, ?_⟩
    · rw [lines, ends, if_pos hc]
      rfl
    · rw [State.modInputs_inputs, asked] at same
      rw [hc, Bool.true_and, ← lost, ← same]
  · have lines := State.foldl_sampleLine_quiet inputs (l := inputLines) (by decide) s fun m _ => by
      by_cases hm : m = n
      · subst hm
        rw [Bool.and_eq_false_iff]
        exact Or.inr (Bool.eq_false_iff.mpr hc)
      · rw [quiet m hm, Bool.false_and]
    obtain ⟨g, ends, same⟩ := State.sampleHolds_quiet (a := s.inputs.holdA.asserted) (b := s.inputs.holdB.asserted)
      (u := s.modInputs (InputBlock.sampled inputs inputLines))
      (by rw [State.modInputs_inputs, (InputBlock.sampled_hold inputs _ _).1])
      (by rw [State.modInputs_inputs, (InputBlock.sampled_hold inputs _ _).2])
    refine ⟨fun b => g (b.sampled inputs inputLines), ?_, ?_⟩
    · rw [lines, ends, if_neg hc]
      rfl
    · rw [State.modInputs_inputs] at same
      rw [Bool.eq_false_iff.mpr hc, Bool.false_and, Bool.or_false, same, InputBlock.sampled_lost]

end

/-! ### What the report is (R131, R143, R149) -/

theorem EdgeSelect.covers_iff (e : EdgeSelect) (high : Bool) : e.covers high = true ↔
    e = .both ∨ (e = .rise ∧ high = true) ∨ (e = .fall ∧ high = false) := by
  cases e <;> simp [EdgeSelect.covers]

theorem EdgeSelect.covers_eq_false_iff (e : EdgeSelect) (high : Bool) : e.covers high = false ↔
    e = .none ∨ (e = .rise ∧ high = false) ∨ (e = .fall ∧ high = true) := by
  cases e <;> simp [EdgeSelect.covers]

/-- An INPUT event is lost where the reporter would take it, no WAITING record has its line and 31 records stand
(R143, R144). -/
theorem Reporter.loses_input (rep : Reporter) (n : Fin 16) (cls : Fin 4) (high : Bool) (t : Word) :
    rep.loses (inputEvent n cls high t) =
      (rep.mode != .off && rep.enables.getLsbD cls.val &&
        !rep.queue.any (fun q => q.subject == .input n && q.status == .waiting) &&
        decide (31 ≤ rep.queue.countP fun q => q.code != .overflow)) := by
  have h : rep.queue.countP (fun q => !q.isOverflow) = rep.queue.countP fun q => q.code != .overflow := rfl
  simp [Reporter.loses, Reporter.discards, Reporter.enabled, Reporter.coalesces, Reporter.occupancy, inputEvent,
    Subject.isInput, ReportRecord.waiting, h]
  rfl

theorem State.arbitrate_trunk {s : State} (empty : s.trunk.tx = .idle → s.trunk.queue = []) :
    s.arbitrate.trunk = { s.trunk with tx := s.arbitrate.trunk.tx } := by
  by_cases idle : s.trunk.tx = .idle
  · rcases State.arbitrate_emptyQueue (empty idle) with h | ⟨-, d, h⟩ <;> rw [h]
    rfl
  · rw [s.arbitrate_busy idle]

/-- With nothing to send the arbiter leaves the reporter and the transmitter as they are (R28, R149). -/
theorem State.arbitrate_still {s : State} (empty : s.trunk.tx = .idle → s.trunk.queue = [])
    (h : s.trunk.tx ≠ .idle ∨ s.reporter.hasBatch = false) : s.arbitrate = s := by
  by_cases idle : s.trunk.tx = .idle
  · exact s.arbitrate_rest (empty idle) (h.resolve_left (absurd idle))
  · exact s.arbitrate_busy idle

end Sys2Proof.Machine
end

section
/-! PROOF. A change accepted at a sample instant (R126, R128, R131). -/

namespace Sys2Proof.Machine

/-- Settles O51: the line's event is taken by the reporter where the edge select covers it, then the arbiter is
asked. -/
theorem acceptedChangeIsReported : Obligations.AcceptedChangeIsReported := by
  intro s inputs n high a out segments hh others due changed held
  subst hh
  have empty : s.trunk.tx = .idle → s.trunk.queue = [] := (out.2 a).1
  have quiet : ∀ m : Fin 16, m ≠ n → s.inputs.lines[m].accepts (inputs.getLsbD m.val) = false := fun m hm => by
    rw [← Bool.not_eq_true, InputLine.accepts_iff]
    rintro ⟨notDue, new, -⟩
    rcases others m hm with h | h
    · rw [h] at notDue
      cases notDue
    · exact new h
  obtain ⟨f, run, lost⟩ := exec_sampleInstant_one a quiet ((InputLine.accepts_iff _ _).mpr ⟨due, changed, held⟩)
  generalize he : inputEvent n s.inputs.lines[n].cls (inputs.getLsbD n.val) s.timeCounter = e at run lost
  refine ⟨_, run, ?_, fun uncovered => ?_, fun covered => ?_⟩
  · split
    · exact State.arbitrate_trunk (s := { s with reporter := s.reporter.take e }) empty
    · rfl
  · have hc := (EdgeSelect.covers_eq_false_iff _ _).mpr uncovered
    rw [hc] at lost ⊢
    exact ⟨rfl, rfl, by simpa using lost⟩
  · have hc := (EdgeSelect.covers_iff _ _).mpr covered
    rw [hc, if_pos rfl]
    rw [hc, Bool.true_and, ← he, Reporter.loses_input] at lost
    have kept := s.reporter.take_eq e
    have law : BatchLaw s.reporter → BatchLaw (s.reporter.take e) := s.reporter.take_batch_law e
    refine ⟨?_, s.reporter.take e, he ▸ s.reporter.take_taken _, fun still => ?_, fun d idle mode dest => ?_⟩
    · rw [State.modInputs_inputs, State.arbitrate_inputs]
      exact lost
    · have none : s.trunk.tx ≠ .idle ∨ (s.reporter.take e).hasBatch = false := by
        refine still.imp id fun still => Reporter.hasBatch_false ?_
        rw [kept]
        rcases still with h | h | h | h
        exacts [.inl h, .inr (.inr (.inr h)), .inr (.inr (.inl h)), .inr (.inl ⟨h.1, kept ▸ h.2⟩)]
      rw [State.arbitrate_still (s := { s with reporter := s.reporter.take e }) empty none]
      exact ⟨rfl, rfl⟩
    · generalize s.reporter.take e = rep at kept law
      have hmode := (congrArg Reporter.mode kept).trans mode
      have hdest := (congrArg Reporter.destination kept).trans dest
      have hstate := congrArg Reporter.state kept
      refine ⟨fun st batch eligible => ?_, fun b st resend out => ?_⟩
      · obtain ⟨rep', tx, granted, formed⟩ := State.arbitrate_grants { s with reporter := rep } d idle (empty idle)
          hmode (hstate.trans st) hdest ((law batch).waiting (hstate.trans st)) eligible
        rw [granted]
        exact formed
      · have hdue := (congrArg Reporter.resendDue kept).trans resend
        have hout := (congrArg Reporter.outstanding kept).trans out
        have count := congrArg Reporter.sendCount kept
        rw [State.arbitrate_resends (s := { s with reporter := rep }) idle (empty idle) hmode hdest
          (hstate.trans st) hdue hout, ← count]
        exact ⟨rfl, rfl⟩

end Sys2Proof.Machine
end

section
/-! SUPPORT. The replies of the exchange table, accounted against an earlier table and an earlier trunk output (R78,
R79, R87): what each operation of the table adds to them. -/

namespace Sys2Proof.Machine

/-! ### One record -/

/-- A record goes on: it keeps its origin, and its reply once that is built (R78). -/
structure Record.Continues (r q : Record) : Prop where
  source : q.source = r.source
  tag : q.tag = r.tag
  dest : q.dest = r.dest
  fn : q.fn = r.fn
  complete : r.state.isComplete = true → q = r

theorem Record.Continues.refl (r : Record) : r.Continues r := ⟨rfl, rfl, rfl, rfl, fun _ => rfl⟩

theorem Record.Continues.trans {r q p : Record} (h : r.Continues q) (k : q.Continues p) : r.Continues p where
  source := k.source.trans h.source
  tag := k.tag.trans h.tag
  dest := k.dest.trans h.dest
  fn := k.fn.trans h.fn
  complete hr := by
    have same := h.complete hr
    subst same
    exact k.complete hr

/-- A frame is a reply to a record: it has the record's origin, and the reply that is built if one is (R78). -/
def Record.RepliesWith (r : Record) (q : QueuedFrame) : Prop :=
  ∃ reply : Reply, (r.state.isComplete = true → r.state = .complete reply) ∧ q = ⟨r.replyFrame reply, false⟩

theorem Record.Continues.repliesWith {r q : Record} {f : QueuedFrame} (h : r.Continues q) (k : q.RepliesWith f) :
    r.RepliesWith f := by
  obtain ⟨reply, built, rfl⟩ := k
  refine ⟨reply, fun hr => ?_, ?_⟩
  · have same := h.complete hr
    subst same
    exact built hr
  · simp only [Record.replyFrame, h.source, h.tag, h.dest, h.fn]

theorem Record.RepliesWith.of_running {r : Record} (hr : r.state.isComplete = false) (reply : Reply) :
    r.RepliesWith ⟨r.replyFrame reply, false⟩ :=
  ⟨reply, fun h => absurd h (by simp [hr]), rfl⟩

/-! ### The account -/

/-- The account of the exchange replies since a time with the trunk output `out` and the exchange table `before`: each
record that has left has put one reply into the output, in the order in which they left, and nothing else has entered;
a record that stays goes on, and no slot has been taken (R78, R79, R87). -/
structure Replied (out : List QueuedFrame) (before : ExchangeTable) (t : State) : Prop where
  paid : ∃ done : List (Slot × QueuedFrame),
    t.outgoing = out ++ done.map Prod.snd ∧ (done.map Prod.fst).Nodup ∧
    (∀ i, i ∈ done.map Prod.fst ↔ (before.record i).isSome = true ∧ t.exchange.record i = none) ∧
    ∀ p ∈ done, ∃ r, before.record p.1 = some r ∧ r.RepliesWith p.2
  continued : ∀ i r q, before.record i = some r → t.exchange.record i = some q → r.Continues q
  fresh : ∀ i, before.record i = none → t.exchange.record i = none

/-- Each record of the first table goes on in the second, and no slot has been taken. -/
def ExchangeTable.GoesOn (e e' : ExchangeTable) : Prop :=
  ∀ i, e'.record i = e.record i ∨ ∃ r q, e.record i = some r ∧ e'.record i = some q ∧ r.Continues q

namespace Replied
variable {out : List QueuedFrame} {before : ExchangeTable} {s t : State}

theorem refl (s : State) : Replied s.outgoing s.exchange s where
  paid := ⟨[], by simp, by simp, fun i => by cases s.exchange.record i <;> simp, by simp⟩
  continued i r q hr hq := by
    rw [hr] at hq
    cases hq
    exact .refl r
  fresh _ h := h

/-- Records that go on, with nothing new in the trunk output. -/
theorem goesOn (h : Replied out before s) (ho : t.outgoing = s.outgoing) (he : s.exchange.GoesOn t.exchange) :
    Replied out before t := by
  have none_iff : ∀ i, t.exchange.record i = none ↔ s.exchange.record i = none := fun i => by
    rcases he i with same | ⟨r, q, hr, hq, -⟩
    · rw [same]
    · rw [hr, hq]
      simp
  obtain ⟨done, output, nodup, left, replies⟩ := h.paid
  refine ⟨⟨done, ho.trans output, nodup, fun i => by rw [left, none_iff], replies⟩, fun i r q hr hq => ?_, fun i hi =>
    (none_iff i).mpr (h.fresh i hi)⟩
  rcases he i with same | ⟨r', q', hr', hq', go⟩
  · exact h.continued i r q hr (same ▸ hq)
  · rw [hq'] at hq
    cases hq
    exact (h.continued i r r' hr hr').trans go

theorem same (h : Replied out before s) (ho : t.outgoing = s.outgoing) (he : t.exchange = s.exchange) :
    Replied out before t :=
  h.goesOn ho fun _ => Or.inl (by rw [he])

/-- One record leaves and its reply enters. -/
theorem freed {i : Slot} {r : Record} {f : QueuedFrame} (h : Replied out before s) (hr : s.exchange.record i = some r)
    (reply : r.RepliesWith f) (ho : t.outgoing = s.outgoing ++ [f])
    (he : ∀ j, t.exchange.record j = if j = i then none else s.exchange.record j) : Replied out before t := by
  obtain ⟨done, output, nodup, left, replies⟩ := h.paid
  obtain ⟨r₀, hr₀⟩ : ∃ r₀, before.record i = some r₀ := by
    cases hb : before.record i with
    | none =>
      rw [h.fresh i hb] at hr
      cases hr
    | some r₀ => exact ⟨r₀, rfl⟩
  have stays : i ∉ done.map Prod.fst := fun hi => by
    rw [left, hr] at hi
    exact Option.some_ne_none r hi.2
  refine ⟨⟨done ++ [(i, f)], by simp [ho, output], ?_, fun j => ?_, fun p hp => ?_⟩, fun j a q ha hq => ?_,
    fun j hj => ?_⟩
  · rw [List.map_append, List.nodup_append]
    refine ⟨nodup, by simp, fun a ha b hb hab => ?_⟩
    simp only [List.map_cons, List.map_nil, List.mem_singleton] at hb
    exact stays (hb ▸ hab ▸ ha)
  · rw [List.map_append, List.mem_append, left, he]
    by_cases hj : j = i
    · subst hj
      simp [hr₀]
    · simp [hj]
  · rcases List.mem_append.mp hp with hp | hp
    · exact replies p hp
    · cases List.mem_singleton.mp hp
      exact ⟨r₀, hr₀, (h.continued i r₀ r hr₀ hr).repliesWith reply⟩
  · rw [he] at hq
    split at hq
    · cases hq
    · exact h.continued j a q ha hq
  · rw [he, h.fresh j hj, ite_self]

/-! ### The operations of the output and of the table -/

theorem fillFreedSlot (h : Replied out before s) : Replied out before s.fillFreedSlot := by
  cases hc : s.exchange.completion with
  | nil => rwa [State.fillFreedSlot_none hc]
  | cons i more =>
    cases hr : s.exchange.record i with
    | none => simpa only [State.fillFreedSlot, hc, hr] using h
    | some r =>
      cases hs : r.state with
      | queued => simpa only [State.fillFreedSlot, hc, hr, hs] using h
      | active => simpa only [State.fillFreedSlot, hc, hr, hs] using h
      | complete reply =>
        refine h.freed hr ⟨reply, fun _ => hs, rfl⟩ ?_ fun j => ?_
        · simp only [State.fillFreedSlot, hc, hr, hs, State.outgoing, List.append_assoc]
        · simp only [State.fillFreedSlot, hc, hr, hs, ExchangeTable.free_record]

theorem arbitrate (h : Replied out before s) : Replied out before s.arbitrate := by
  by_cases idle : s.trunk.tx = .idle
  · cases hq : s.trunk.queue with
    | cons q rest =>
      rw [State.arbitrate_head idle hq]
      exact fillFreedSlot (s := { s with trunk := { s.trunk with queue := rest, tx := .sending q } })
        (h.same (by simp [State.outgoing, idle, hq]) rfl)
    | nil =>
      rcases State.arbitrate_emptyQueue hq with e | ⟨-, d, e⟩ <;> rw [e]
      · exact h
      · exact h.same (by simp [State.outgoing, State.grant, idle]) rfl
  · rwa [s.arbitrate_busy idle]

theorem enqueue (s : State) (q : QueuedFrame) : Replied (s.outgoing ++ [q]) s.exchange (s.enqueue q) := by
  refine arbitrate (s := s.modTrunk fun t => { t with queue := t.queue ++ [q] }) ?_
  have ho : (s.modTrunk fun t => { t with queue := t.queue ++ [q] }).outgoing = s.outgoing ++ [q] := by
    simp [State.outgoing, State.modTrunk]
  exact ho ▸ refl _

theorem completeRecord {i : Slot} {r : Record} (h : Replied out before s) (hr : s.exchange.record i = some r)
    (running : r.state.isComplete = false) (reply : Reply) : Replied out before (s.completeRecord i reply) := by
  simp only [State.completeRecord, hr]
  split
  · refine h.goesOn rfl fun j => ?_
    change (s.exchange.setRecord i _).record j = _ ∨ ∃ r q, _ ∧ (s.exchange.setRecord i _).record j = _ ∧ _
    rw [ExchangeTable.setRecord_record]
    by_cases hj : j = i
    · subst hj
      exact Or.inr ⟨r, _, hr, if_pos rfl, rfl, rfl, rfl, rfl, fun k => absurd k (by simp [running])⟩
    · exact Or.inl (if_neg hj)
  · refine arbitrate (s := (s.freeSlot i).modTrunk fun t => { t with queue := t.queue ++ [_] }) ?_
    refine h.freed hr (.of_running running reply) ?_ (s.exchange.free_record i)
    simp [State.outgoing, State.modTrunk]

end Replied

theorem ExchangeTable.goesOn_setRecord {e : ExchangeTable} {i : Slot} {r q : Record} (hr : e.record i = some r)
    (h : r.Continues q) : e.GoesOn (e.setRecord i q) := fun j => by
  rw [ExchangeTable.setRecord_record]
  by_cases hj : j = i
  · subst hj
    exact Or.inr ⟨r, q, hr, if_pos rfl, h⟩
  · exact Or.inl (if_neg hj)

end Sys2Proof.Machine
end

section
/-! SUPPORT. The law of the exchange table and of the sequencers, one slot at a time (R65, R66, R75, R89, R91). -/

namespace Sys2Proof.Machine

/-! ### The law of one slot -/

/-- The carriage of a SINGLE record, to one segment (R65). -/
def Carriage.isSingle : Carriage → Bool
  | .single _ => true
  | .broadcast _ => false

/-- The segment tag of a SINGLE record is held exactly while it is ACTIVE; a BROADCAST record that is not COMPLETE has
a segment pending (R65, R75). -/
def Record.Fits (r : Record) : Prop :=
  match r.carriage with
  | .single c => c.segTag.isSome = (r.state == .active)
  | .broadcast c => r.state.isComplete = true ∨ c.pending.isEmpty = false

/-- What holds of the record of a slot: a sequencer that serves it has it ACTIVE and standing on its segment, SINGLE in
WAIT; ACTIVE it is served; and on no segment in IDLE it stands, the segments of `due` apart, whose sequencers are about
to take work (R65, R66, R75, R89, R91). -/
structure RecordLaw (due : List Seg) (s : State) (i : Slot) (r : Record) : Prop where
  served : ∀ x, (s.seg x).current = some i →
    r.standsOn x = true ∧ r.state = .active ∧ ((s.seg x).state = .wait → r.carriage.isSingle = true)
  active : r.state = .active → ∃ x, (s.seg x).current = some i
  fits : r.Fits
  idle : ∀ x, x ∉ due → (s.seg x).state = .idle → r.standsOn x = false

/-- What holds of a slot: FREE it is served by none, and otherwise its record keeps its law. -/
structure SlotLaw (due : List Seg) (s : State) (i : Slot) : Prop where
  free : s.exchange.record i = none → ∀ x, (s.seg x).current ≠ some i
  held : ∀ r, s.exchange.record i = some r → RecordLaw due s i r

theorem SlotLaw.of_some {due : List Seg} {s : State} {i : Slot} {r : Record} (hr : s.exchange.record i = some r)
    (law : RecordLaw due s i r) : SlotLaw due s i where
  free h := by rw [hr] at h; cases h
  held q hq := by
    rw [hr] at hq
    cases hq
    exact law

theorem Seg.forall_iff {p : Seg → Prop} : (∀ x, p x) ↔ p .a ∧ p .b :=
  ⟨fun h => ⟨h _, h _⟩, fun h x => by cases x; exacts [h.1, h.2]⟩

theorem State.served_iff (s : State) (i : Slot) : s.served i = true ↔ ∃ x, (s.seg x).current = some i := by
  simp only [State.served, Bool.or_eq_true, beq_iff_eq]
  refine ⟨fun h => h.elim (fun h => ⟨.a, h⟩) (fun h => ⟨.b, h⟩), fun ⟨x, h⟩ => ?_⟩
  cases x
  · exact Or.inl h
  · exact Or.inr h

theorem Record.fits_iff (r : Record) : (match r.carriage with
    | .single c => c.segTag.isSome == (r.state == .active)
    | .broadcast c => r.state.isComplete || !c.pending.isEmpty) = true ↔ r.Fits := by
  unfold Record.Fits
  cases r.carriage <;> simp

theorem ServedLaw.iff {s : State} {x : Seg} : ServedLaw s x ↔ ∀ i, (s.seg x).current = some i →
    ∃ r, s.exchange.record i = some r ∧ r.standsOn x = true ∧ r.state = .active ∧
      ((s.seg x).state = .wait → r.carriage.isSingle = true) := by
  refine forall_congr' fun i => imp_congr_right fun _ => ?_
  cases s.exchange.record i with
  | none => simp
  | some r =>
    cases hc : r.carriage <;> simp [Carriage.isSingle, and_assoc, hc]

theorem ActiveLaw.iff {s : State} : ActiveLaw s ↔ ∀ i r, s.exchange.record i = some r →
    (r.state = .active → ∃ x, (s.seg x).current = some i) ∧ r.Fits := by
  refine forall_congr' fun i => ?_
  cases s.exchange.record i with
  | none => simp
  | some r =>
    simp only [Option.all_some, Bool.and_eq_true, Option.some.injEq, forall_eq', ← s.served_iff]
    refine and_congr ?_ r.fits_iff
    simp [imp_iff_not_or]

theorem IdleLaw.iff {s : State} (table : TableLaw s.exchange) {x : Seg} : IdleLaw s x ↔
    ∀ i r, s.exchange.record i = some r → (s.seg x).state = .idle → r.standsOn x = false := by
  refine ⟨fun law i r hr st => ?_, fun law st => List.eq_nil_iff_forall_not_mem.mpr fun i hi => ?_⟩
  · by_contra stands
    have mem := (s.exchange.mem_standing table x i).mpr ⟨r, hr, by simpa using stands⟩
    rw [law st] at mem
    cases mem
  · obtain ⟨r, hr, stands⟩ := (s.exchange.mem_standing table x i).mp hi
    rw [law i r hr st] at stands
    cases stands

/-- The laws of the sequencers and their records are the law of every slot. -/
theorem slotLaws_iff {s : State} (table : TableLaw s.exchange) :
    (ServedLaw s .a ∧ ServedLaw s .b ∧ ActiveLaw s ∧ IdleLaw s .a ∧ IdleLaw s .b) ↔ ∀ i, SlotLaw [] s i := by
  have split : (ServedLaw s .a ∧ ServedLaw s .b ∧ ActiveLaw s ∧ IdleLaw s .a ∧ IdleLaw s .b) ↔
      (∀ x, ServedLaw s x) ∧ ActiveLaw s ∧ ∀ x, IdleLaw s x := by
    rw [Seg.forall_iff, Seg.forall_iff, and_assoc]
  rw [split, ActiveLaw.iff]
  simp only [ServedLaw.iff, IdleLaw.iff table]
  constructor
  · rintro ⟨served, active, idle⟩ i
    refine ⟨fun none x hx => ?_, fun r hr => ⟨fun x hx => ?_, (active i r hr).1, (active i r hr).2, fun x _ =>
      idle x i r hr⟩⟩
    · obtain ⟨r, hr, -⟩ := served x i hx
      rw [none] at hr
      cases hr
    · obtain ⟨q, hq, law⟩ := served x i hx
      rw [hr] at hq
      cases hq
      exact law
  · refine fun law => ⟨fun x i hx => ?_, fun i r hr => ⟨((law i).held r hr).active, ((law i).held r hr).fits⟩,
      fun x i r hr => ((law i).held r hr).idle x (by simp)⟩
    cases hr : s.exchange.record i with
    | none => exact absurd hx ((law i).free hr x)
    | some r => exact ⟨r, rfl, ((law i).held r hr).served x hx⟩

/-! ### What leaves the law of a slot alone -/

/-- Of a slot that an operation does not concern: its record is as it was, or was COMPLETE and has left (R26, R79). -/
def Untouched (s t : State) (i : Slot) : Prop :=
  t.exchange.record i = s.exchange.record i ∨
    ∃ r, s.exchange.record i = some r ∧ r.state.isComplete = true ∧ t.exchange.record i = none

theorem Untouched.refl (s : State) (i : Slot) : Untouched s s i := Or.inl rfl

theorem Untouched.trans {s t u : State} {i : Slot} (h : Untouched s t i) (k : Untouched t u i) : Untouched s u i := by
  rcases h with h | ⟨r, hr, done, none⟩
  · rcases k with k | ⟨r, hr, done, none⟩
    · exact Or.inl (k.trans h)
    · exact Or.inr ⟨r, h ▸ hr, done, none⟩
  · refine Or.inr ⟨r, hr, done, ?_⟩
    rcases k with k | ⟨q, hq, -, none'⟩
    · exact k.trans none
    · exact none'

theorem Untouched.running {s t : State} {i : Slot} {r : Record} (h : Untouched s t i)
    (hr : s.exchange.record i = some r) (running : r.state.isComplete = false) : t.exchange.record i = some r := by
  rcases h with h | ⟨q, hq, done, -⟩
  · exact h.trans hr
  · rw [hr] at hq
    cases hq
    rw [running] at done
    cases done

/-- A segment before and after an operation, as a slot sees it: it serves the slot as it did, and it comes neither to
IDLE nor, with the slot in service, to WAIT. -/
structure SameService (i : Slot) (g g' : Segment) : Prop where
  current : g'.current = some i ↔ g.current = some i
  idle : g'.state = .idle → g.state = .idle
  wait : g'.current = some i → g'.state = .wait → g.state = .wait

theorem SameService.of_eq {i : Slot} {g g' : Segment} (current : g'.current = g.current) (state : g'.state = g.state) :
    SameService i g g' := ⟨by rw [current], fun h => state ▸ h, fun _ h => state ▸ h⟩

theorem SameService.refl (i : Slot) (g : Segment) : SameService i g g := .of_eq rfl rfl

theorem RecordLaw.transport {due : List Seg} {s t : State} {i : Slot} {r : Record} (law : RecordLaw due s i r)
    (service : ∀ x, SameService i (s.seg x) (t.seg x)) : RecordLaw due t i r where
  served x hx :=
    have ⟨stands, active, single⟩ := law.served x ((service x).current.mp hx)
    ⟨stands, active, fun st => single ((service x).wait hx st)⟩
  active st := (law.active st).imp fun x hx => (service x).current.mpr hx
  fits := law.fits
  idle x hx st := law.idle x hx ((service x).idle st)

/-- A COMPLETE record is served by none. -/
theorem RecordLaw.unserved {due : List Seg} {s : State} {i : Slot} {r : Record} (law : RecordLaw due s i r)
    (done : r.state.isComplete = true) (x : Seg) : (s.seg x).current ≠ some i := fun hx => by
  rw [(law.served x hx).2.1] at done
  cases done

theorem SlotLaw.transport {due : List Seg} {s t : State} {i : Slot} (law : SlotLaw due s i) (same : Untouched s t i)
    (service : ∀ x, SameService i (s.seg x) (t.seg x)) : SlotLaw due t i := by
  rcases same with same | ⟨r, hr, done, none⟩
  · exact ⟨fun h x hx => law.free (same ▸ h) x ((service x).current.mp hx),
      fun r hr => (law.held r (same ▸ hr)).transport service⟩
  · refine ⟨fun _ x hx => (law.held r hr).unserved done x ((service x).current.mp hx), fun q hq => ?_⟩
    rw [none] at hq
    cases hq

/-- A slot whose record has ended: it is FREE, or COMPLETE without a segment tag (R77, R79). -/
def Ended (s : State) (i : Slot) : Prop := ∀ r, s.exchange.record i = some r → r.state.isComplete = true ∧ r.Fits

theorem Ended.untouched {s t : State} {i : Slot} (h : Ended s i) (same : Untouched s t i) : Ended t i := fun r hr => by
  rcases same with same | ⟨-, -, -, none⟩
  · exact h r (same ▸ hr)
  · rw [none] at hr
    cases hr

/-- A record that has ended, with no sequencer that serves it, keeps its law. -/
theorem SlotLaw.of_ended {due : List Seg} {s : State} {i : Slot} (unserved : ∀ x, (s.seg x).current ≠ some i)
    (ended : Ended s i) : SlotLaw due s i := by
  refine ⟨fun _ => unserved, fun r hr => ?_⟩
  obtain ⟨done, fits⟩ := ended r hr
  refine ⟨fun x hx => absurd hx (unserved x), fun st => ?_, fits, fun x _ _ => by simp [Record.standsOn, done]⟩
  rw [st] at done
  cases done

end Sys2Proof.Machine
end

section
/-! SUPPORT. The ledger of the exchanges: the laws of the output queue, of the table and of every slot with the account
of the replies, carried by each operation on records, outputs and sequencers (R65 to R91). -/

namespace Sys2Proof.Machine

/-! ### What each operation leaves untouched -/

theorem State.fillFreedSlot_untouched (s : State) (i : Slot) : Untouched s s.fillFreedSlot i := by
  unfold State.fillFreedSlot
  split
  · exact .refl s i
  · split
    · rename_i j _ _ _ r hr
      split
      · rename_i reply hs
        by_cases hi : i = j
        · subst hi
          exact Or.inr ⟨r, hr, by rw [hs]; rfl, s.exchange.free_record_self i⟩
        · exact Or.inl (s.exchange.free_record_other j i hi)
      · exact .refl s i
    · exact .refl s i

theorem State.arbitrate_untouched (s : State) (i : Slot) : Untouched s s.arbitrate i := by
  by_cases idle : s.trunk.tx = .idle
  · cases hq : s.trunk.queue with
    | cons q rest =>
      rw [State.arbitrate_head idle hq]
      exact State.fillFreedSlot_untouched { s with trunk := _ } i
    | nil =>
      rcases State.arbitrate_emptyQueue hq with e | ⟨-, d, e⟩ <;> rw [e]
      · exact .refl s i
      · exact Or.inl rfl
  · rw [s.arbitrate_busy idle]
    exact .refl s i

theorem State.enqueue_untouched (s : State) (q : QueuedFrame) (i : Slot) : Untouched s (s.enqueue q) i :=
  State.arbitrate_untouched (s.modTrunk _) i

theorem State.completeRecord_untouched (s : State) {i j : Slot} (reply : Reply) (h : j ≠ i) :
    Untouched s (s.completeRecord i reply) j := by
  unfold State.completeRecord
  split
  · exact .refl s j
  · split
    · exact Or.inl (s.exchange.setRecord_record_other i j _ h)
    · exact Untouched.trans (Or.inl (s.exchange.free_record_other i j h)) ((s.freeSlot i).enqueue_untouched _ j)

theorem State.settleBroadcast_untouched (s : State) {i j : Slot} (r : Record) (c : Broadcast) (h : j ≠ i) :
    Untouched s (s.settleBroadcast i r c) j := by
  have set : ∀ q, Untouched s (s.setRecord i q) j := fun q => Or.inl (s.exchange.setRecord_record_other i j q h)
  unfold State.settleBroadcast
  simp only []
  split
  · exact (set _).trans (State.completeRecord_untouched _ _ h)
  · exact set _

theorem State.takeFromSegment_untouched (x : Seg) (why : WithdrawReason) (s : State) {i j : Slot} (h : j ≠ i) :
    Untouched s (State.takeFromSegment x why s i) j := by
  unfold State.takeFromSegment
  split
  · exact .refl s j
  · split
    · exact s.completeRecord_untouched _ h
    · exact s.settleBroadcast_untouched _ _ h

/-! ### A record whose service has ended -/

/-- A completed record is FREE, or COMPLETE without a segment tag (R77, R79). -/
theorem State.completeRecord_ended {s : State} {i : Slot} {r : Record} (hr : s.exchange.record i = some r)
    (reply : Reply) : Ended (s.completeRecord i reply) i := by
  intro q hq
  simp only [State.completeRecord, hr] at hq
  split at hq
  · cases (s.exchange.setRecord_record_self i _).symm.trans hq
    refine ⟨rfl, ?_⟩
    unfold Record.Fits Carriage.finished
    cases hc : r.carriage with
    | single c => rfl
    | broadcast c => exact Or.inl rfl
  · rcases (s.freeSlot i).enqueue_untouched ⟨r.replyFrame reply, false⟩ i with same | ⟨p, hp, -⟩
    · rw [same] at hq
      cases (s.exchange.free_record_self i).symm.trans hq
    · cases (s.exchange.free_record_self i).symm.trans hp

theorem SlotLaw.completed {due : List Seg} {s : State} {i : Slot} {r : Record} (hr : s.exchange.record i = some r)
    (unserved : ∀ x, (s.seg x).current ≠ some i) (reply : Reply) : SlotLaw due (s.completeRecord i reply) i :=
  .of_ended (fun x => by rw [State.completeRecord_seg]; exact unserved x) (State.completeRecord_ended hr reply)

/-- A record that stands on a segment whose sequencer does not serve it, the other sequencer as its law has it. -/
structure Released (s : State) (x : Seg) (i : Slot) (r : Record) : Prop where
  here : s.exchange.record i = some r
  stands : r.standsOn x = true
  free : (s.seg x).current ≠ some i
  beside : ∀ y, (s.seg y).current = some i → r.standsOn y = true ∧ ((s.seg y).state = .wait → r.carriage.isSingle = true)
  idle : ∀ y, y ≠ x → (s.seg y).state = .idle → r.standsOn y = false

theorem Record.standsOn_iff (r : Record) (x : Seg) :
    r.standsOn x = true ↔ r.state.isComplete = false ∧ r.carriage.names x = true := by
  simp [Record.standsOn]

namespace Released
variable {s : State} {x : Seg} {i : Slot} {r : Record}

theorem running (h : Released s x i r) : r.state.isComplete = false := ((r.standsOn_iff x).mp h.stands).1

/-- A record of which another was told (R80): it is as it was. -/
theorem transport {t : State} (h : Released s x i r) (same : Untouched s t i) (seg : ∀ y, t.seg y = s.seg y) :
    Released t x i r where
  here := same.running h.here h.running
  stands := h.stands
  free := by rw [seg]; exact h.free
  beside y := by rw [seg]; exact h.beside y
  idle y := by rw [seg]; exact h.idle y

/-- A SINGLE record stands on one segment alone. -/
theorem unserved (h : Released s x i r) {c : Single} (hc : r.carriage = .single c) (y : Seg) :
    (s.seg y).current ≠ some i := fun hy => by
  have onX := ((r.standsOn_iff x).mp h.stands).2
  have onY := ((r.standsOn_iff y).mp (h.beside y hy).1).2
  simp only [hc, Carriage.names, beq_iff_eq] at onX onY
  exact h.free (onX ▸ onY ▸ hy)

end Released

theorem SegSet.has_remove (t : SegSet) (x y : Seg) : (t.remove x).has y = (t.has y && y != x) := by
  obtain ⟨a, b⟩ := t
  cases x <;> cases y <;> cases a <;> cases b <;> rfl

theorem SegSet.isEmpty_eq_false {t : SegSet} {x : Seg} (h : t.has x = true) : t.isEmpty = false := by
  obtain ⟨a, b⟩ := t
  cases x <;> cases a <;> cases b <;> simp_all [SegSet.has, SegSet.isEmpty]

/-- A BROADCAST record after a segment has left its pending set keeps its law (R66, R75). -/
theorem SlotLaw.settled {s : State} {x : Seg} {i : Slot} {r : Record} {c c' : Broadcast} (h : Released s x i r)
    (hc : r.carriage = .broadcast c) (left : c'.pending = c.pending.remove x) :
    SlotLaw [] (s.settleBroadcast i r c') i := by
  have names : ∀ y, y ≠ x → c'.pending.has y = c.pending.has y := fun y hy => by
    rw [left, SegSet.has_remove, bne_iff_ne.mpr hy, Bool.and_true]
  have pending : ∀ y, (s.seg y).current = some i → c'.pending.has y = true := fun y hy => by
    have on := ((r.standsOn_iff y).mp (h.beside y hy).1).2
    rw [hc] at on
    exact (names y fun e => h.free (e ▸ hy)).trans on
  unfold State.settleBroadcast
  simp only []
  split
  · rename_i empty
    refine .completed (s.exchange.setRecord_record_self i _) (fun y hy => ?_) _
    rw [State.setRecord_seg] at hy
    rw [SegSet.isEmpty_eq_false (pending y hy)] at empty
    cases empty
  · rename_i stays
    have stays : c'.pending.isEmpty = false := by simpa using stays
    have running : (if s.served i then RecordState.active else .queued).isComplete = false := by split <;> rfl
    refine .of_some (s.exchange.setRecord_record_self i _) ⟨fun y hy => ?_, fun st => ?_, Or.inr stays, fun y _ st => ?_⟩
    · rw [State.setRecord_seg] at hy ⊢
      refine ⟨(Record.standsOn_iff _ _).mpr ⟨running, pending y hy⟩, if_pos ((s.served_iff i).mpr ⟨y, hy⟩), fun st => ?_⟩
      have single := (h.beside y hy).2 st
      rw [hc] at single
      cases single
    · simp only [State.setRecord_seg]
      by_contra none
      rw [if_neg (mt (s.served_iff i).mp none)] at st
      cases st
    · rw [State.setRecord_seg] at st
      by_cases hy : y = x
      · simp [Record.standsOn, Carriage.names, left, SegSet.has_remove, hy]
      · have off := h.idle y hy st
        simp only [Record.standsOn, hc, Carriage.names, h.running, Bool.not_false, Bool.true_and] at off
        simp [Record.standsOn, Carriage.names, names y hy, off]

/-- A record taken from a segment keeps its law (R75, R77). -/
theorem SlotLaw.takenFrom {s : State} {x : Seg} {i : Slot} {r : Record} (h : Released s x i r) (why : WithdrawReason) :
    SlotLaw [] (State.takeFromSegment x why s i) i := by
  simp only [State.takeFromSegment, h.here]
  split
  · rename_i c hc
    exact .completed h.here (h.unserved hc) _
  · rename_i c hc
    exact .settled h hc rfl

/-! ### The ledger -/

/-- The laws and the account in the middle of a command, the slots of `loose` and the sequencers of `due` apart: for
those the command has begun what it has not finished. -/
structure Ledger (out : List QueuedFrame) (before : ExchangeTable) (loose : List Slot) (due : List Seg) (t : State) :
    Prop where
  acting : Acting t
  output : OutputLaw t
  table : TableLaw t.exchange
  slots : ∀ i, i ∉ loose → SlotLaw due t i
  replied : Replied out before t

theorem OutputLaw.congr {s t : State} (h : OutputLaw s) (hr : t.hardReset = s.hardReset)
    (queue : t.trunk.queue = s.trunk.queue) (tx : t.trunk.tx = s.trunk.tx)
    (completion : t.exchange.completion = s.exchange.completion) : OutputLaw t := by
  unfold OutputLaw
  rw [hr, queue, tx, completion]
  exact h

theorem State.outgoing_congr {s t : State} (queue : t.trunk.queue = s.trunk.queue) (tx : t.trunk.tx = s.trunk.tx) :
    t.outgoing = s.outgoing := by
  unfold State.outgoing
  rw [queue, tx]

namespace Ledger
variable {out : List QueuedFrame} {before : ExchangeTable} {loose : List Slot} {due : List Seg} {s t : State} {i : Slot}
  {x : Seg} {r : Record}

/-- The ledger opens where the laws hold. -/
theorem begins (a : Acting s) (law : ExchangeLaw s) : Ledger s.outgoing s.exchange [] [] s where
  acting := a
  output := law.1
  table := law.2.2.1
  slots i _ := (slotLaws_iff law.2.2.1).mp (law.2.2.2 a) i
  replied := .refl s

theorem law (h : Ledger out before [] [] t) (segments : SegmentsLaw t) : ExchangeLaw t :=
  ⟨h.output, segments, h.table, fun _ => (slotLaws_iff h.table).mpr fun i => h.slots i (by simp)⟩

theorem loosen (h : Ledger out before loose due t) (i : Slot) : Ledger out before (i :: loose) due t :=
  { h with slots := fun j hj => h.slots j (List.not_mem_of_not_mem_cons hj) }

theorem close (h : Ledger out before (i :: loose) due t) (law : SlotLaw due t i) : Ledger out before loose due t :=
  { h with slots := fun j hj => if hji : j = i then hji ▸ law else h.slots j (by simp [hji, hj]) }

/-- What changes neither the table nor the trunk output, nor the service of a slot. -/
theorem aside (h : Ledger out before loose due s) (hr : t.hardReset = s.hardReset)
    (table : t.exchange = s.exchange) (queue : t.trunk.queue = s.trunk.queue) (tx : t.trunk.tx = s.trunk.tx)
    (service : ∀ i, i ∉ loose → ∀ x, SameService i (s.seg x) (t.seg x)) : Ledger out before loose due t where
  acting := hr.trans h.acting
  output := h.output.congr hr queue tx (by rw [table])
  table := table ▸ h.table
  slots i hi := (h.slots i hi).transport (Or.inl (by rw [table])) (service i hi)
  replied := h.replied.same (State.outgoing_congr queue tx) table

theorem modSeg (h : Ledger out before loose due s) (x : Seg) (f : Segment → Segment)
    (service : ∀ i, i ∉ loose → SameService i (s.seg x) (f (s.seg x))) : Ledger out before loose due (s.modSeg x f) := by
  refine h.aside (s.modSeg_base x f).hardReset (by simp) (by simp) (by simp) fun i hi y => ?_
  by_cases hy : y = x
  · subst hy
    rw [State.modSeg_seg_self]
    exact service i hi
  · rw [State.modSeg_seg_other _ _ _ _ hy]
    exact .refl i _

theorem arbitrate (h : Ledger out before loose due s) : Ledger out before loose due s.arbitrate where
  acting := s.arbitrate_base.hardReset.trans h.acting
  output := .arbitrate h.table h.output.1 (h.output.2 h.acting).2
  table := h.table.arbitrate
  slots i hi := (h.slots i hi).transport (s.arbitrate_untouched i) fun x => by rw [State.arbitrate_seg]; exact .refl i _
  replied := h.replied.arbitrate

/-- A record completes; its slot is loose until it is known that none serves it. -/
theorem completeRecord (h : Ledger out before (i :: loose) due s) (hr : s.exchange.record i = some r)
    (running : r.state.isComplete = false) (reply : Reply) :
    Ledger out before (i :: loose) due (s.completeRecord i reply) where
  acting := (s.completeRecord_base i reply).hardReset.trans h.acting
  output := h.output.completeRecord h.acting i reply
  table := h.table.completeRecord i reply fun q hq => by rw [hr] at hq; cases hq; exact running
  slots j hj := (h.slots j hj).transport (s.completeRecord_untouched reply (List.ne_of_not_mem_cons hj)) fun x => by
    rw [State.completeRecord_seg]
    exact .refl j _
  replied := h.replied.completeRecord hr running reply

/-- A record changes and goes on; its slot is loose until its law is known. -/
theorem setRecord {q : Record} (h : Ledger out before (i :: loose) due s) (hr : s.exchange.record i = some r)
    (running : r.state.isComplete = false) (still : q.state.isComplete = false) (go : r.Continues q) :
    Ledger out before (i :: loose) due (s.setRecord i q) where
  acting := h.acting
  output := h.output
  table := h.table.setRecord i r q hr (by rw [Record.pair, go.source, go.tag]; rfl) (still.trans running.symm)
  slots j hj := (h.slots j hj).transport
    (Or.inl (s.exchange.setRecord_record_other i j q (List.ne_of_not_mem_cons hj))) fun x => by
      rw [State.setRecord_seg]
      exact .refl j _
  replied := h.replied.goesOn rfl (ExchangeTable.goesOn_setRecord hr go)

theorem settleBroadcast {c c' : Broadcast} (h : Ledger out before (i :: loose) [] s) (rel : Released s x i r)
    (hc : r.carriage = .broadcast c) (left : c'.pending = c.pending.remove x) :
    Ledger out before loose [] (s.settleBroadcast i r c') := by
  refine close ?_ (.settled rel hc left)
  have still : (if s.served i then RecordState.active else .queued).isComplete = false := by split <;> rfl
  have set := h.setRecord rel.here rel.running
    (q := { r with carriage := .broadcast c', state := if s.served i then .active else .queued }) still
    ⟨rfl, rfl, rfl, rfl, fun k => absurd k (by simp [rel.running])⟩
  unfold State.settleBroadcast
  simp only []
  split
  · exact set.completeRecord (s.exchange.setRecord_record_self i _) still _
  · exact set

theorem takeFromSegment (h : Ledger out before (i :: loose) [] s) (rel : Released s x i r) (why : WithdrawReason) :
    Ledger out before loose [] (State.takeFromSegment x why s i) := by
  have law := SlotLaw.takenFrom rel why
  simp only [State.takeFromSegment, rel.here] at law ⊢
  split
  · rename_i c hc
    rw [hc] at law
    exact close (h.completeRecord rel.here rel.running _) law
  · rename_i c hc
    exact h.settleBroadcast rel hc rfl

/-- The records of a list are taken from a segment one after another (R80, R109, R119). -/
theorem foldl_takeFromSegment (x : Seg) (why : WithdrawReason) (l : List Slot) : ∀ {s : State}, l.Nodup →
    Ledger out before l [] s → (∀ i ∈ l, ∃ r, Released s x i r) →
    Ledger out before [] [] (l.foldl (State.takeFromSegment x why) s) := by
  induction l with
  | nil => exact fun _ h _ => h
  | cons i l ih =>
    intro s nodup h rel
    obtain ⟨hi, nodup⟩ := List.nodup_cons.mp nodup
    obtain ⟨r, hr⟩ := rel i (by simp)
    refine ih nodup (h.takeFromSegment hr why) fun j hj => ?_
    obtain ⟨q, hq⟩ := rel j (by simp [hj])
    have hji : j ≠ i := fun e => hi (e ▸ hj)
    exact ⟨q, hq.transport (s.takeFromSegment_untouched x why hji) fun y => by cases y <;> simp⟩

/-- Every record standing on a segment is taken from it, the sequencer serving none (R109, R119). -/
theorem foldl_standing (h : Ledger out before (s.exchange.standing x) [] s)
    (rel : ∀ i ∈ s.exchange.standing x, ∃ r, Released s x i r) (why : WithdrawReason) :
    Ledger out before [] [] ((s.exchange.standing x).foldl (State.takeFromSegment x why) s) :=
  foldl_takeFromSegment x why _ (h.table.1.filter _) h rel

end Ledger

end Sys2Proof.Machine
end

section
/-! SUPPORT. The ledger through the moves of the sequencers (R91 to R105, R109, R115 to R121). -/

namespace Sys2Proof.Machine

theorem SegmentLaw.current_none {g : Segment} (h : SegmentLaw g) (send : g.state ≠ .send) (wait : g.state ≠ .wait) :
    g.current = none := by
  obtain ⟨-, -, -, -, -, -, -, -, -, -, working, -⟩ := h
  cases hc : g.current with
  | none => rfl
  | some i => exact absurd (working (by simp [hc])) (by simp [send, wait])

@[simp] theorem Segment.toIdle_current (g : Segment) : g.toIdle.current = g.current := by
  obtain ⟨p, -, e⟩ := Segment.applyPending_eq { g with state := .idle, guardTimer := none }
  unfold Segment.toIdle
  rw [e]

/-- A record that stands on a segment whose sequencer serves none any more. -/
theorem Released.of_stands {s t : State} {x : Seg} {i : Slot} {r : Record} (law : SlotLaw [] s i)
    (here : s.exchange.record i = some r) (stands : r.standsOn x = true) (record : t.exchange.record i = some r)
    (free : (t.seg x).current = none) (other : ∀ y, y ≠ x → t.seg y = s.seg y) : Released t x i r where
  here := record
  stands := stands
  free := by simp [free]
  beside y hy := by
    have hyx : y ≠ x := fun e => by rw [e, free] at hy; cases hy
    rw [other y hyx] at hy ⊢
    have ⟨on, _, single⟩ := (law.held r here).served y hy
    exact ⟨on, single⟩
  idle y hy := by
    rw [other y hy]
    exact (law.held r here).idle y (by simp)

/-- A slot that a sequencer serves holds a record (R66). -/
theorem SlotLaw.held_of_served {due : List Seg} {s : State} {i : Slot} {x : Seg} (law : SlotLaw due s i)
    (serves : (s.seg x).current = some i) : ∃ r, s.exchange.record i = some r ∧ RecordLaw due s i r := by
  cases hr : s.exchange.record i with
  | none => exact absurd serves (law.free hr x)
  | some r => exact ⟨r, rfl, law.held r hr⟩

/-! ### A record whose service begins (R74, R93, R104) -/

theorem Record.begin_names (r : Record) (tag : Tag) (x : Seg) :
    (r.begin tag).carriage.names x = r.carriage.names x := by
  unfold Record.begin
  cases r.carriage <;> rfl

theorem Record.begin_standsOn {r : Record} (tag : Tag) (running : r.state.isComplete = false) (x : Seg) :
    (r.begin tag).standsOn x = r.standsOn x := by
  rw [Record.standsOn, Record.standsOn, r.begin_names, running]
  rfl

theorem Record.begin_isSingle (r : Record) (tag : Tag) : (r.begin tag).carriage.isSingle = r.carriage.isSingle := by
  unfold Record.begin
  cases r.carriage <;> rfl

theorem Record.begin_continues (r : Record) (tag : Tag) (running : r.state.isComplete = false) :
    r.Continues (r.begin tag) := ⟨rfl, rfl, rfl, rfl, fun h => absurd h (by simp [running])⟩

theorem Record.begin_fits {r : Record} (tag : Tag) (running : r.state.isComplete = false) (h : r.Fits) :
    (r.begin tag).Fits := by
  unfold Record.Fits Record.begin at *
  cases hc : r.carriage with
  | single c => rfl
  | broadcast c =>
    rw [hc] at h
    exact Or.inr (h.resolve_left (by simp [running]))

theorem RecordLaw.settleDue {due : List Seg} {s : State} {x : Seg} {i : Slot} {r : Record}
    (law : RecordLaw (x :: due) s i r) (off : (s.seg x).state = .idle → r.standsOn x = false) :
    RecordLaw due s i r := by
  refine { law with idle := fun y hy st => ?_ }
  by_cases e : y = x
  · rw [e] at st ⊢
    exact off st
  · exact law.idle y (by simp [e, hy]) st

/-- A sequencer comes to IDLE and is due to take work (R91). -/
theorem SlotLaw.toIdle {s : State} {x : Seg} {i : Slot} (law : SlotLaw [] s i) (none : (s.seg x).current = none) :
    SlotLaw [x] (s.modSeg x Segment.toIdle) i := by
  have other : ∀ y, y ≠ x → (s.modSeg x Segment.toIdle).seg y = s.seg y := fun y => s.modSeg_seg_other x y _
  have self : ((s.modSeg x Segment.toIdle).seg x).current = (s.seg x).current := by simp
  have current : ∀ y, ((s.modSeg x Segment.toIdle).seg y).current = (s.seg y).current := fun y => by
    by_cases e : y = x
    · rw [e, self]
    · rw [other y e]
  refine ⟨fun free y => ?_, fun r hr => ?_⟩
  · rw [current]
    exact law.free (by simpa using free) y
  · have held := law.held r (by simpa using hr)
    refine ⟨fun y hy => ?_, fun st => (held.active st).imp fun y hy => (current y).trans hy, held.fits,
      fun y hy st => ?_⟩
    · rw [current] at hy
      have e : y ≠ x := fun e => by rw [e, none] at hy; cases hy
      rw [other y e]
      exact held.served y hy
    · rw [other y (by simpa using hy)] at st
      exact held.idle y (by simp) st

/-- A record whose service a sequencer in IDLE begins keeps its law, and that sequencer is due no more. -/
theorem RecordLaw.begun {due : List Seg} {s : State} {x : Seg} {i : Slot} {r : Record}
    (law : RecordLaw (x :: due) s i r) (running : r.state.isComplete = false) (stands : r.standsOn x = true) :
    RecordLaw due ((s.setRecord i (r.begin (s.seg x).tagCounter)).modSeg x fun g =>
      g.begin i (r.requestFrame (s.seg x).tagCounter)) i (r.begin (s.seg x).tagCounter) where
  served y hy := by
    rw [Record.begin_standsOn _ running, Record.begin_isSingle]
    by_cases hyx : y = x
    · subst hyx
      exact ⟨stands, rfl, fun k => by simp [Segment.begin] at k⟩
    · rw [State.modSeg_seg_other _ _ _ _ hyx, State.setRecord_seg] at hy ⊢
      obtain ⟨on, -, single⟩ := law.served y hy
      exact ⟨on, rfl, single⟩
  active _ := ⟨x, by rw [State.modSeg_seg_self]; rfl⟩
  fits := Record.begin_fits _ running law.fits
  idle y hy st := by
    rw [Record.begin_standsOn _ running]
    by_cases hyx : y = x
    · subst hyx
      simp [Segment.begin] at st
    · rw [State.modSeg_seg_other _ _ _ _ hyx, State.setRecord_seg] at st
      exact law.idle y (by simp [hyx, hy]) st

theorem State.takeWork_busy {s : State} {x : Seg} (st : (s.seg x).state ≠ .idle) : s.takeWork x = s := if_neg st

theorem State.takeWork_none {s : State} {x : Seg} (h : s.oldestWaiting x = none) : s.takeWork x = s := by
  unfold State.takeWork
  rw [h]
  exact ite_self s

theorem State.takeWork_some {s : State} {x : Seg} {i : Slot} {r : Record} (st : (s.seg x).state = .idle)
    (h : s.oldestWaiting x = some i) (hr : s.exchange.record i = some r) :
    s.takeWork x = (s.setRecord i (r.begin (s.seg x).tagCounter)).modSeg x fun g =>
      g.begin i (r.requestFrame (s.seg x).tagCounter) := by
  simp only [State.takeWork, st, if_true, h, hr]

namespace Ledger
variable {out : List QueuedFrame} {before : ExchangeTable} {loose : List Slot} {due : List Seg} {s t : State} {i : Slot}
  {x : Seg} {r : Record}

/-! ### Events, lending, the end of work -/

theorem offerEvent (h : Ledger out before loose due s) (e : Event) : Ledger out before loose due (s.offerEvent e) :=
  (h.aside (t := s.offerEventQuietly e) (s.offerEventQuietly_base e).hardReset (by simp) (by simp) (by simp)
    fun i _ x => by rw [State.offerEventQuietly_seg]; exact .refl i _).arbitrate

/-- A sequencer serves no record any more, and no slot but the loose ones is concerned. -/
theorem letGo (h : Ledger out before loose due s) (free : ∀ j, j ∉ loose → (s.seg x).current ≠ some j)
    (f : Segment → Segment) (none : (f (s.seg x)).current = none)
    (idle : (f (s.seg x)).state = .idle → (s.seg x).state = .idle) : Ledger out before loose due (s.modSeg x f) :=
  h.modSeg x f fun j hj => ⟨by simp [none, free j hj], idle, fun k => by rw [none] at k; cases k⟩

theorem release (h : Ledger out before loose due s) (free : ∀ j, j ∉ loose → (s.seg x).current ≠ some j) :
    Ledger out before loose due (s.release x) := h.letGo free _ rfl id

theorem enterLent (h : Ledger out before loose due s) (none : (s.seg x).current = none) :
    Ledger out before loose due (s.enterLent x) :=
  (h.letGo (fun j _ => by simp [none]) _ rfl fun st => by simp [Segment.toLent] at st).offerEvent _

theorem leaveWork (h : Ledger out before loose due s) (none : (s.seg x).current = none) :
    Ledger out before loose due (s.leaveWork x) := by
  unfold State.leaveWork
  split
  · exact h.enterLent none
  · exact h.letGo (fun j _ => by simp [none]) _ rfl fun st => by simp [Segment.toGuard] at st

theorem dropCurrent (h : Ledger out before loose due s) (free : ∀ j, j ∉ loose → (s.seg x).current ≠ some j) :
    Ledger out before loose due (s.dropCurrent x) := by
  unfold State.dropCurrent
  split
  · exact (h.release free).leaveWork (by simp [State.release])
  · exact h.release free

/-! ### A sequencer takes work (R91, R93, R104) -/

/-- A sequencer that was about to take work has none to take, or is not in IDLE. -/
theorem settleDue (h : Ledger out before loose (x :: due) s)
    (off : ∀ i r, s.exchange.record i = some r → (s.seg x).state = .idle → r.standsOn x = false) :
    Ledger out before loose due s :=
  { h with slots := fun i hi => ⟨(h.slots i hi).free, fun r hr => ((h.slots i hi).held r hr).settleDue (off i r hr)⟩ }

/-- A sequencer in IDLE begins the service of the oldest record that waits; with none that waits it stays in IDLE. -/
theorem takeWork (h : Ledger out before [] (x :: due) s) (segment : SegmentLaw (s.seg x)) :
    Ledger out before [] due (s.takeWork x) := by
  by_cases st : (s.seg x).state = .idle
  · have none : (s.seg x).current = none := segment.current_none (by simp [st]) (by simp [st])
    cases hw : s.oldestWaiting x with
    | none =>
      rw [State.takeWork_none hw]
      refine h.settleDue fun i r hr _ => ?_
      by_contra stands
      have mem := (s.exchange.mem_standing h.table x i).mpr ⟨r, hr, by simpa using stands⟩
      have serves := List.find?_eq_none.mp hw i mem
      simp [none] at serves
    | some i =>
      obtain ⟨r, hr, stands⟩ := (s.exchange.mem_standing h.table x i).mp (List.mem_of_find?_eq_some hw)
      have running := ((r.standsOn_iff x).mp stands).1
      have law := (h.slots i (by simp)).held r hr
      rw [State.takeWork_some st hw hr]
      have begun := ((h.loosen i).setRecord hr running rfl (r.begin_continues (s.seg x).tagCounter running)).modSeg x
        (fun g => g.begin i (r.requestFrame (s.seg x).tagCounter)) fun j hj =>
          ⟨by simp [Segment.begin, none, Ne.symm (List.ne_of_not_mem_cons hj)], fun k => by simp [Segment.begin] at k,
            fun _ k => by simp [Segment.begin] at k⟩
      refine (begun.settleDue fun _ _ _ k => ?_).close (.of_some ?_ (law.begun running stands))
      · simp [Segment.begin] at k
      · simp
  · rw [State.takeWork_busy st]
    exact h.settleDue fun _ _ _ k => absurd k st

/-- Entry to IDLE (R91). -/
theorem enterIdle (h : Ledger out before [] [] s) (segment : SegmentLaw (s.seg x))
    (st : (s.seg x).state = .guard ∨ (s.seg x).state = .resume) : Ledger out before [] [] (s.enterIdle x) := by
  have none : (s.seg x).current = none :=
    segment.current_none (by rcases st with st | st <;> simp [st]) (by rcases st with st | st <;> simp [st])
  have moved : Ledger out before [] [x] (s.modSeg x Segment.toIdle) :=
    { acting := (s.modSeg_base x _).hardReset.trans h.acting
      output := h.output.congr (by simp) (by simp) (by simp) (by simp)
      table := by rw [State.modSeg_exchange]; exact h.table
      slots := fun i _ => (h.slots i (by simp)).toIdle none
      replied := h.replied.same (State.outgoing_congr (by simp) (by simp)) (by simp) }
  exact moved.takeWork (by simpa using Segment.toIdle_law _ segment st)

end Ledger

end Sys2Proof.Machine
end

section
/-! SUPPORT. The ledger through the ends of attempts, abort, line reset and patience expiry (R77, R82, R98 to R105, R109,
R119). -/

namespace Sys2Proof.Machine

theorem Carriage.isSingle_iff (c : Carriage) : c.isSingle = true ↔ ∃ d, c = .single d := by
  cases c <;> simp [Carriage.isSingle]

theorem State.attemptMatch_some {s : State} {x : Seg} {f : Frame} {i : Slot} (h : s.attemptMatch x f = some i) :
    (s.seg x).state = .wait ∧ (s.seg x).current = some i := by
  unfold State.attemptMatch at h
  simp only [] at h
  split at h
  · rename_i st
    refine ⟨st, ?_⟩
    repeat' split at h
    all_goals cases h
    assumption
  · cases h

theorem ExchangeTable.abortable_some {e : ExchangeTable} {source tag : Byte} {i : Slot}
    (h : e.abortable source tag = some i) : ∃ r, e.record i = some r ∧ r.state.isComplete = false := by
  have found := List.find?_some h
  cases hr : e.record i with
  | none => simp [hr] at found
  | some r =>
    refine ⟨r, rfl, ?_⟩
    simp only [hr, Bool.and_eq_true, Bool.not_eq_true'] at found
    exact found.2

/-- The release of a sequencer that has dropped its record: it serves none. -/
theorem State.dropCurrent_current (s : State) (x : Seg) : ((s.dropCurrent x).seg x).current = none := by
  unfold State.dropCurrent
  split
  · rw [State.leaveWork_seg_self]
    split <;> rfl
  · simp [State.release]

theorem State.dropCurrent_seg_other (s : State) {x y : Seg} (h : y ≠ x) : (s.dropCurrent x).seg y = s.seg y := by
  unfold State.dropCurrent
  split
  · rw [State.leaveWork_seg_other _ _ _ h, State.release, State.modSeg_seg_other _ _ _ _ h]
  · rw [State.release, State.modSeg_seg_other _ _ _ _ h]

theorem State.offerEvent_untouched (s : State) (e : Event) (i : Slot) : Untouched s (s.offerEvent e) i :=
  Untouched.trans (Or.inl (by rw [State.offerEventQuietly_exchange])) (State.arbitrate_untouched _ i)

theorem State.leaveWork_untouched (s : State) (x : Seg) (i : Slot) : Untouched s (s.leaveWork x) i := by
  have moved : ∀ f, Untouched s (s.modSeg x f) i := fun f => Or.inl (by rw [State.modSeg_exchange])
  unfold State.leaveWork State.enterLent
  split
  · exact (moved _).trans (State.offerEvent_untouched _ _ i)
  · exact moved _

theorem State.dropCurrent_untouched (s : State) (x : Seg) (i : Slot) : Untouched s (s.dropCurrent x) i := by
  have released : Untouched s (s.release x) i := Or.inl (by rw [State.release, State.modSeg_exchange])
  unfold State.dropCurrent
  split
  · exact released.trans (State.leaveWork_untouched _ x i)
  · exact released

/-- The sequencer's side of an abort, where it serves the record (R82, R105). -/
def State.dropIf (s : State) (x : Seg) (i : Slot) : State :=
  if (s.seg x).current = some i then s.dropCurrent x else s

theorem State.dropIf_unserving (s : State) (x : Seg) (i : Slot) : ((s.dropIf x i).seg x).current ≠ some i := by
  unfold State.dropIf
  split
  · simp [s.dropCurrent_current x]
  · assumption

theorem State.dropIf_seg_other (s : State) {x y : Seg} (i : Slot) (h : y ≠ x) : (s.dropIf x i).seg y = s.seg y := by
  unfold State.dropIf
  split
  · exact s.dropCurrent_seg_other h
  · rfl

theorem State.dropIf_untouched (s : State) (x : Seg) (i j : Slot) : Untouched s (s.dropIf x i) j := by
  unfold State.dropIf
  split
  · exact s.dropCurrent_untouched x j
  · exact .refl s j

theorem State.abort_eq (s : State) (i : Slot) :
    s.abort i = ((s.completeRecord i ⟨.nak, nakAborted⟩).dropIf .a i).dropIf .b i := by
  have a : ((s.completeRecord i ⟨.nak, nakAborted⟩).seg .a).current = s.segA.current := by simp
  have b : (((s.completeRecord i ⟨.nak, nakAborted⟩).dropIf .a i).seg .b).current = s.segB.current := by
    rw [State.dropIf_seg_other _ _ (by decide)]
    simp
  unfold State.abort
  rw [State.dropIf, b, State.dropIf, a]

namespace Ledger
variable {out : List QueuedFrame} {before : ExchangeTable} {loose : List Slot} {due : List Seg} {s t : State} {i : Slot}
  {x : Seg} {r : Record}

theorem widen (h : Ledger out before [] due s) (l : List Slot) : Ledger out before l due s :=
  { h with slots := fun i _ => h.slots i (by simp) }

theorem modPort (h : Ledger out before loose due s) (p : PortId) (f : Port → Port) :
    Ledger out before loose due (s.modPort p f) := by
  rcases p with _ | x
  · exact h.aside rfl rfl rfl rfl fun i _ y => .of_eq (by cases y <;> rfl) (by cases y <;> rfl)
  · exact h.modSeg x (fun g => g.modPort f) fun i _ => .of_eq rfl rfl

/-- The one slot that a sequencer lets go of is loose. -/
theorem only_served (serves : (s.seg x).current = some i) : ∀ j, j ∉ [i] → (s.seg x).current ≠ some j := fun j hj => by
  rw [serves]
  exact fun e => hj (by simpa using e.symm)

/-! ### An attempt fails or is answered (R77, R98, R102) -/

theorem failRecord {c : Single} (h : Ledger out before [i] [] s) (rel : Released s x i r) (hc : r.carriage = .single c)
    (st : (s.seg x).state ≠ .idle) (why : FailCause) : Ledger out before [] [] (s.failRecord x i why) := by
  have unserved := rel.unserved hc
  simp only [State.failRecord, rel.here, hc]
  split
  · exact (h.completeRecord rel.here rel.running _).close (.completed rel.here unserved _)
  · have set := h.setRecord (q := { r with
        state := .queued, carriage := .single { c with retries := c.retries - 1, segTag := none } })
      rel.here rel.running rfl ⟨rfl, rfl, rfl, rfl, fun k => absurd k (by simp [rel.running])⟩
    refine (set.close (.of_some (ExchangeTable.setRecord_record_self _ _ _) ?_)).modSeg x
      (fun g => { g with counters := { g.counters with retries := satInc g.counters.retries } })
      fun _ _ => .of_eq rfl rfl
    refine ⟨fun y hy => ?_, fun k => (by cases k), rfl, fun y _ hy => ?_⟩
    · rw [State.setRecord_seg] at hy
      exact absurd hy (unserved y)
    · rw [State.setRecord_seg] at hy
      have off := rel.idle y (fun e => st (e ▸ hy)) hy
      simp only [Record.standsOn, rel.running, hc] at off
      exact off

theorem failAttempt (h : Ledger out before [] [] s) (st : (s.seg x).state = .wait) (why : FailCause) :
    Ledger out before [] [] (s.failAttempt x why) := by
  unfold State.failAttempt
  split
  · exact h
  · rename_i i serves
    obtain ⟨r, hr, law⟩ := (h.slots i (by simp)).held_of_served serves
    obtain ⟨stands, -, single⟩ := law.served x serves
    obtain ⟨c, hc⟩ := (Carriage.isSingle_iff _).mp (single st)
    have gone := (h.loosen i).letGo (only_served serves) (fun g =>
      { g with counters := g.counters.countFailure why, responseTimer := none, current := none }) rfl id
    refine Ledger.leaveWork (gone.failRecord (.of_stands (h.slots i (by simp)) hr stands (by simpa using hr) (by simp)
      fun y hy => s.modSeg_seg_other x y _ hy) hc (by simp [st]) why) ?_
    obtain ⟨counters, e⟩ := State.failRecord_seg_self (s.modSeg x fun g =>
      { g with counters := g.counters.countFailure why, responseTimer := none, current := none }) x i why
    rw [e]
    simp

theorem deliverOnSegment (h : Ledger out before [] [] s) (f : Frame) :
    Ledger out before [] [] (s.deliverOnSegment x f) := by
  unfold State.deliverOnSegment
  have taken : Ledger out before [] [] (s.takeDelivery (.segment x) (.frame f)) := h.modPort _ _
  generalize s.takeDelivery (.segment x) (.frame f) = u at taken
  simp only []
  split
  · rename_i i matched
    obtain ⟨st, serves⟩ := State.attemptMatch_some matched
    obtain ⟨r, hr, law⟩ := (taken.slots i (by simp)).held_of_served serves
    obtain ⟨stands, -, single⟩ := law.served x serves
    obtain ⟨c, hc⟩ := (Carriage.isSingle_iff _).mp (single st)
    have gone := (taken.loosen i).letGo (only_served serves)
      (fun g => { g with responseTimer := none, current := none }) rfl id
    have rel : Released (u.modSeg x fun g => { g with responseTimer := none, current := none }) x i r :=
      .of_stands (taken.slots i (by simp)) hr stands (by simpa using hr) (by simp)
        fun y hy => u.modSeg_seg_other x y _ hy
    exact Ledger.leaveWork ((gone.completeRecord rel.here rel.running _).close (.completed rel.here (rel.unserved hc) _))
      (by simp)
  · split
    · exact taken
    · exact taken.modSeg x _ fun _ _ => .of_eq rfl rfl

/-! ### Abort, line reset, patience expiry (R82, R109, R119) -/


theorem dropIf (h : Ledger out before [i] [] s) (x : Seg) : Ledger out before [i] [] (s.dropIf x i) := by
  unfold State.dropIf
  split
  · rename_i serves
    exact h.dropCurrent (only_served serves)
  · exact h

theorem abort (h : Ledger out before [] [] s) (hr : s.exchange.record i = some r)
    (running : r.state.isComplete = false) : Ledger out before [] [] (s.abort i) := by
  rw [State.abort_eq]
  have told := (((h.loosen i).completeRecord hr running ⟨.nak, nakAborted⟩).dropIf .a).dropIf .b
  refine told.close (.of_ended (fun x => ?_) ?_)
  · cases x with
    | a =>
      rw [State.dropIf_seg_other _ _ (by decide)]
      exact State.dropIf_unserving _ _ _
    | b => exact State.dropIf_unserving _ _ _
  · exact (State.completeRecord_ended hr _).untouched
      ((State.dropIf_untouched _ .a i i).trans (State.dropIf_untouched _ .b i i))

/-- The records standing on a segment are taken from it once its sequencer serves none (R109, R119). -/
theorem takeAll (h : Ledger out before [] [] s) (why : WithdrawReason) (f : Segment → Segment)
    (none : (f (s.seg x)).current = none) (idle : (f (s.seg x)).state = .idle → (s.seg x).state = .idle) :
    Ledger out before [] [] ((s.exchange.standing x).foldl (State.takeFromSegment x why) (s.modSeg x f)) := by
  have gone : Ledger out before (s.exchange.standing x) [] (s.modSeg x f) :=
    (h.widen _).letGo (fun j hj serves => by
      obtain ⟨r, hr, law⟩ := (h.slots j (by simp)).held_of_served serves
      exact hj ((s.exchange.mem_standing h.table x j).mpr ⟨r, hr, (law.served x serves).1⟩)) f none idle
  rw [← State.modSeg_exchange s x f] at gone ⊢
  refine gone.foldl_standing (fun j hj => ?_) why
  obtain ⟨r, hr, stands⟩ := (ExchangeTable.mem_standing _ gone.table x j).mp hj
  rw [State.modSeg_exchange] at hr
  exact ⟨r, .of_stands (h.slots j (by simp)) hr stands (by simpa using hr) (by simpa using none) fun y hy =>
    s.modSeg_seg_other x y f hy⟩

theorem lineReset (h : Ledger out before [] [] s) (x : Seg) : Ledger out before [] [] (s.lineReset x) := by
  refine (h.takeAll (x := x) .aborted (fun g => { g with current := none }) rfl id).dropCurrent fun j _ => ?_
  rw [State.foldl_kept (fun u => (u.seg x).current) _ fun u i => by cases x <;> simp [State.seg]]
  simp

theorem judgePatience (h : Ledger out before [] [] s) (segment : SegmentLaw (s.seg x)) :
    Ledger out before [] [] (s.judgePatience x) := by
  by_cases k : PatienceReached (s.seg x)
  · have none : (s.seg x).current = none := segment.current_none (by simp [k.1]) (by simp [k.1])
    rw [s.judgePatience_reached x k]
    exact h.takeAll .lent (fun g => { g with lentExpired := true }) none id
  · rwa [s.judgePatience_else x k]

/-! ### The end of a segment transmission (R94, R104) -/

theorem toWait {c : Single} (h : Ledger out before [] [] s) (serves : (s.seg x).current = some i)
    (hr : s.exchange.record i = some r) (hc : r.carriage = .single c) (timeout : Byte) :
    Ledger out before [] [] (s.modSeg x fun g => g.toWait timeout) := by
  have law := (h.slots i (by simp)).held r hr
  have waits := (h.loosen i).modSeg x (fun g => g.toWait timeout) fun j hj =>
    ⟨Iff.rfl, fun k => by simp [Segment.toWait] at k, fun k => absurd k (only_served serves j (by simpa using hj))⟩
  refine waits.close (.of_some (by simpa using hr) ⟨fun y hy => ?_,
    fun st => ⟨x, by simpa [Segment.toWait] using serves⟩, law.fits, fun y _ st => ?_⟩)
  · by_cases e : y = x
    · subst e
      exact ⟨(law.served y serves).1, (law.served y serves).2.1, fun _ => (Carriage.isSingle_iff _).mpr ⟨c, hc⟩⟩
    · rw [State.modSeg_seg_other _ _ _ _ e] at hy ⊢
      exact law.served y hy
  · by_cases e : y = x
    · subst e
      simp [Segment.toWait] at st
    · rw [State.modSeg_seg_other _ _ _ _ e] at st
      exact law.idle y (by simp) st

theorem deliverBroadcast {c : Broadcast} (h : Ledger out before [] [] s) (serves : (s.seg x).current = some i)
    (hr : s.exchange.record i = some r) (hc : r.carriage = .broadcast c) :
    Ledger out before [] [] (s.deliverBroadcast x i r c) :=
  ((h.loosen i).release (only_served serves)).settleBroadcast
    (.of_stands (h.slots i (by simp)) hr (((h.slots i (by simp)).held r hr).served x serves).1
      (by simpa [State.release] using hr) (by simp [State.release]) fun y hy => s.modSeg_seg_other x y _ hy) hc rfl

end Ledger

end Sys2Proof.Machine
end

section
/-! SUPPORT. The books of the gateway, the law of the segments and the ledger of the exchanges, through each shared
operation. -/

namespace Sys2Proof.Machine

/-! ### The law of the segments, of the remaining moves -/

@[simp] theorem State.settleBroadcast_seg (s : State) (i : Slot) (r : Record) (c : Broadcast) (x : Seg) :
    (s.settleBroadcast i r c).seg x = s.seg x := by cases x <;> simp

theorem State.dropCurrent_seg_self (s : State) (x : Seg) : (s.dropCurrent x).seg x =
    if (s.seg x).state = .wait then
      if (s.seg x).drainRequested then { s.seg x with current := none }.toLent
      else { s.seg x with current := none }.toGuard
    else { s.seg x with current := none } := by
  unfold State.dropCurrent
  split
  · rw [State.leaveWork_seg_self]
    simp [State.release]
  · simp [State.release]

namespace SegmentsLaw
variable {s t : State} {x : Seg}

/-- The end of the work of one sequencer, from a state that differs in its segment alone. -/
theorem ends (h : SegmentsLaw s) (hr : t.hardReset = s.hardReset) (other : ∀ y, y ≠ x → t.seg y = s.seg y)
    (self : SegmentLaw (s.seg x) → (t.seg x).drainRequested = false → SegmentLaw (t.seg x).toGuard) :
    SegmentsLaw (t.leaveWork x) :=
  SegmentsLaw.leaveWork x (fun a y hy => other y hy ▸ h.seg (hr.symm.trans a) y) fun a drain =>
    self (h.seg (hr.symm.trans a) x) drain

theorem modPort (h : SegmentsLaw s) (p : PortId) (f : Port → Port)
    (closed : (f (s.port p)).receiver = .closed ↔ (s.port p).receiver = .closed) : SegmentsLaw (s.modPort p f) := by
  rcases p with _ | x
  · exact h
  · exact h.modSeg x (fun g => g.modPort f) fun g => Segment.modPort_law _ f g closed

theorem deliverOnSegment (h : SegmentsLaw s) (f : Frame) : SegmentsLaw (s.deliverOnSegment x f) := by
  unfold State.deliverOnSegment
  have taken : SegmentsLaw (s.takeDelivery (.segment x) (.frame f)) := h.modPort _ _ Iff.rfl
  generalize s.takeDelivery (.segment x) (.frame f) = u at taken
  simp only []
  split
  · rename_i i matched
    obtain ⟨st, -⟩ := State.attemptMatch_some matched
    refine taken.ends ?_ (fun y hy => ?_) fun g drain => ?_
    · rw [(State.completeRecord_base _ _ _).hardReset, State.modSeg_hardReset]
    · rw [State.completeRecord_seg, State.modSeg_seg_other _ _ _ _ hy]
    · rw [State.completeRecord_seg, State.modSeg_seg_self] at drain ⊢
      exact Segment.endWork_law (u.seg x) g st drain (u.seg x).counters none none
  · split
    · exact taken
    · exact taken.modSeg x _ id

theorem dropIf (h : SegmentsLaw s) (x : Seg) (i : Slot) : SegmentsLaw (s.dropIf x i) := by
  unfold State.dropIf
  split
  · exact h.dropCurrent x
  · exact h

theorem abort (h : SegmentsLaw s) (i : Slot) : SegmentsLaw (s.abort i) := by
  rw [State.abort_eq]
  exact ((h.completeRecord i _).dropIf .a i).dropIf .b i

/-- A line reset leaves the segments as the sequencer's side of it alone would (R110). -/
theorem lineReset (h : SegmentsLaw s) (x : Seg) : SegmentsLaw (s.lineReset x) := by
  have folded : ∀ y, (((s.exchange.standing x).foldl (State.takeFromSegment x .aborted) (s.release x)).seg y) =
      (s.release x).seg y := fun y =>
    State.foldl_kept (fun u => u.seg y) _ (fun u i => by cases y <;> simp [State.seg]) _ _
  have released : (s.release x).seg x = { s.seg x with current := none } := by simp [State.release]
  refine (h.dropCurrent x).same ?_ fun y => ?_
  · rw [(State.dropCurrent_base _ x).hardReset]
    exact ((State.dropCurrent_base _ x).hardReset.trans
      (SameBase.foldl _ (State.takeFromSegment_base x .aborted) _ _).hardReset).trans (s.release_base x).hardReset
  · by_cases hy : y = x
    · subst hy
      rw [State.lineReset, State.dropCurrent_seg_self, State.dropCurrent_seg_self, folded, released]
    · rw [State.lineReset, State.dropCurrent_seg_other _ hy, State.dropCurrent_seg_other _ hy, folded, State.release,
        State.modSeg_seg_other _ _ _ _ hy]

theorem setConfig (h : SegmentsLaw s) (x : Seg) (c : SegConfig) : SegmentsLaw (s.setConfig x c) := by
  unfold State.setConfig
  split
  · exact (h.modSeg x _ fun g => Segment.applyConfig_law _ c g).judgePatience x
  · rename_i st
    exact h.modSeg x _ fun g => Segment.pending_law _ g _ (not_or.mp st)

end SegmentsLaw

/-! ### The books -/

/-- The law of the segments, and the ledger with nothing loose. -/
structure Books (out : List QueuedFrame) (before : ExchangeTable) (t : State) : Prop where
  segments : SegmentsLaw t
  ledger : Ledger out before [] [] t

namespace Books
variable {out : List QueuedFrame} {before : ExchangeTable} {s t : State} {x : Seg}

theorem begins (a : Acting s) (law : ExchangeLaw s) : Books s.outgoing s.exchange s := ⟨law.2.1, .begins a law⟩

theorem law (h : Books out before t) : ExchangeLaw t := h.ledger.law h.segments

theorem acting (h : Books out before t) : Acting t := h.ledger.acting

theorem segment (h : Books out before t) (x : Seg) : SegmentLaw (t.seg x) := h.segments.seg h.acting x

/-- What concerns neither the table, nor the trunk output, nor a segment. -/
theorem aside (h : Books out before s) (hr : t.hardReset = s.hardReset) (table : t.exchange = s.exchange)
    (queue : t.trunk.queue = s.trunk.queue) (tx : t.trunk.tx = s.trunk.tx) (seg : ∀ x, t.seg x = s.seg x) :
    Books out before t where
  segments := h.segments.same hr seg
  ledger := h.ledger.aside hr table queue tx fun i _ x => by rw [seg]; exact .refl i _

theorem modReporter (h : Books out before s) (f : Reporter → Reporter) : Books out before (s.modReporter f) :=
  h.aside rfl rfl rfl rfl (s.modReporter_seg f)

theorem modRoutes (h : Books out before s) (f : RouteTable → RouteTable) : Books out before (s.modRoutes f) :=
  h.aside rfl rfl rfl rfl (s.modRoutes_seg f)

theorem modInputs (h : Books out before s) (f : InputBlock → InputBlock) : Books out before (s.modInputs f) :=
  h.aside rfl rfl rfl rfl (s.modInputs_seg f)

theorem modTrunk (h : Books out before s) (f : Trunk → Trunk) (queue : (f s.trunk).queue = s.trunk.queue)
    (tx : (f s.trunk).tx = s.trunk.tx) : Books out before (s.modTrunk f) :=
  h.aside rfl rfl queue tx (s.modTrunk_seg f)

theorem modSeg (h : Books out before s) (x : Seg) (f : Segment → Segment)
    (law : SegmentLaw (s.seg x) → SegmentLaw (f (s.seg x))) (current : (f (s.seg x)).current = (s.seg x).current)
    (state : (f (s.seg x)).state = (s.seg x).state) : Books out before (s.modSeg x f) where
  segments := h.segments.modSeg x f law
  ledger := h.ledger.modSeg x f fun _ _ => .of_eq current state

theorem modPort (h : Books out before s) (p : PortId) (f : Port → Port)
    (closed : (f (s.port p)).receiver = .closed ↔ (s.port p).receiver = .closed) : Books out before (s.modPort p f) where
  segments := h.segments.modPort p f closed
  ledger := h.ledger.modPort p f

theorem takeDelivery (h : Books out before s) (p : PortId) (d : Delivery) : Books out before (s.takeDelivery p d) :=
  h.modPort p _ Iff.rfl

theorem restartGuard (h : Books out before s) (p : PortId) : Books out before (s.restartGuard p) := by
  rcases p with _ | x
  · exact h
  · refine h.modSeg x _ (Segment.restartGuard_law _) ?_ ?_ <;> unfold Segment.restartGuard <;> split <;> rfl

theorem arbitrate (h : Books out before s) : Books out before s.arbitrate := ⟨h.segments.arbitrate, h.ledger.arbitrate⟩

theorem offerEvent (h : Books out before s) (e : Event) : Books out before (s.offerEvent e) :=
  ⟨h.segments.offerEvent e, h.ledger.offerEvent e⟩

theorem abort (h : Books out before s) {i : Slot} {r : Record} (hr : s.exchange.record i = some r)
    (running : r.state.isComplete = false) : Books out before (s.abort i) :=
  ⟨h.segments.abort i, h.ledger.abort hr running⟩

theorem lineReset (h : Books out before s) (x : Seg) : Books out before (s.lineReset x) :=
  ⟨h.segments.lineReset x, h.ledger.lineReset x⟩

theorem judgePatience (h : Books out before s) (x : Seg) : Books out before (s.judgePatience x) :=
  ⟨h.segments.judgePatience x, h.ledger.judgePatience (h.segment x)⟩

theorem failAttempt (h : Books out before s) (st : (s.seg x).state = .wait) (why : FailCause) :
    Books out before (s.failAttempt x why) := ⟨h.segments.failAttempt x why st, h.ledger.failAttempt st why⟩

theorem deliverOnSegment (h : Books out before s) (x : Seg) (f : Frame) : Books out before (s.deliverOnSegment x f) :=
  ⟨h.segments.deliverOnSegment f, h.ledger.deliverOnSegment f⟩

theorem enterIdle (h : Books out before s) (st : (s.seg x).state = .guard ∨ (s.seg x).state = .resume) :
    Books out before (s.enterIdle x) := ⟨h.segments.enterIdle x st, h.ledger.enterIdle (h.segment x) st⟩

theorem enterLent (h : Books out before s) (none : (s.seg x).current = none) : Books out before (s.enterLent x) :=
  ⟨h.segments.enterLent x, h.ledger.enterLent none⟩

theorem setConfig (h : Books out before s) (x : Seg) (c : SegConfig) : Books out before (s.setConfig x c) := by
  unfold State.setConfig
  obtain ⟨p, -, e⟩ := Segment.applyConfig_eq (s.seg x) c
  split
  · exact (h.modSeg x _ (fun g => Segment.applyConfig_law _ c g) (by rw [e]) (by rw [e])).judgePatience x
  · rename_i st
    exact h.modSeg x _ (fun g => Segment.pending_law _ g _ (not_or.mp st)) rfl rfl

theorem count (h : Books out before s) : Books out before s.count where
  segments := h.segments.count
  ledger := h.ledger.aside rfl rfl rfl rfl fun i _ x => .of_eq (by cases x <;> rfl) (by cases x <;> rfl)

theorem clearCounters (h : Books out before s) (p : PortId) : Books out before (s.clearCounters p) := by
  unfold State.clearCounters
  have cleared := h.modPort p (fun q => { q with counters := FramerCounters.zero }) Iff.rfl
  rcases p with _ | x
  · exact cleared.modTrunk _ rfl rfl
  · exact cleared.modSeg x _ id rfl rfl

/-! ### The sample instant (R113 to R117, R121, R126) -/

theorem reclaim (h : Books out before s) (st : (s.seg x).state = .lent) : Books out before (s.reclaim x) where
  segments := (h.segments.modSeg x _ fun g => Segment.toResume_law _ g st).offerEvent _
  ledger :=
    have none : (s.seg x).current = none := (h.segment x).current_none (by simp [st]) (by simp [st])
    (h.ledger.letGo (fun j _ => by simp [none]) _ none fun k => by simp [Segment.toResume] at k).offerEvent _

theorem assertHold (h : Books out before s) (x : Seg) : Books out before (s.assertHold x) := by
  have lends : (s.seg x).state ≠ .send → (s.seg x).state ≠ .wait → Books out before (s.enterLent x) := fun send wait =>
    h.enterLent ((h.segment x).current_none send wait)
  have drains : (s.seg x).state = .send ∨ (s.seg x).state = .wait →
      Books out before (s.modSeg x fun g => { g with drainRequested := true }) := fun st =>
    h.modSeg x _ (fun g => Segment.drain_law _ g true fun _ => st) rfl rfl
  unfold State.assertHold
  cases st : (s.seg x).state with
  | idle => exact lends (by simp [st]) (by simp [st])
  | guard => exact lends (by simp [st]) (by simp [st])
  | resume => exact lends (by simp [st]) (by simp [st])
  | send => exact drains (.inl st)
  | wait => exact drains (.inr st)
  | lent => exact h

theorem deassertHold (h : Books out before s) (x : Seg) : Books out before (s.deassertHold x) := by
  unfold State.deassertHold
  split
  · rename_i st
    exact h.reclaim st
  · exact h.modSeg x _ (fun g => Segment.drain_law _ g false fun k => absurd k (by decide)) rfl rfl

theorem sampleHold (h : Books out before s) (x : Seg) (level : Bool) : Books out before (s.sampleHold x level) := by
  have sampled := h.modInputs fun b => b.setHold x ((s.inputs.hold x).sample level)
  unfold State.sampleHold
  simp only []
  split
  · split
    · exact sampled.assertHold x
    · exact sampled.deassertHold x
  · exact sampled

theorem sampleLine (h : Books out before s) (inputs : Word) (n : Fin 16) :
    Books out before (State.sampleLine inputs s n) := by
  have sampled := h.modInputs fun b =>
    { b with lines := b.lines.set n (s.inputs.lines[n].sample (inputs.getLsbD n.val)) }
  unfold State.sampleLine
  simp only []
  split
  · exact sampled.offerEvent _
  · exact sampled

theorem sampleLines (inputs : Word) (l : List (Fin 16)) : ∀ {s : State}, Books out before s →
    Books out before (l.foldl (State.sampleLine inputs) s) := by
  induction l with
  | nil => exact fun h => h
  | cons n l ih => exact fun h => ih (h.sampleLine inputs n)

/-! ### The end of a segment transmission (R94, R104) -/

/-- The work of a sequencer in SEND ends where it serves no record any more (R104, R105). -/
theorem endsSend (h : Books out before s) (st : (s.seg x).state = .send) {u : State}
    (ledger : Ledger out before [] [] u) (hr : u.hardReset = s.hardReset)
    (self : u.seg x = { (s.seg x).endTransmission with current := none }) (other : ∀ y, y ≠ x → u.seg y = s.seg y) :
    Books out before (u.leaveWork x) where
  segments := h.segments.ends hr other fun g drain => by
    rw [self] at drain ⊢
    exact Segment.endTransmission_toGuard_law _ g st drain
  ledger := ledger.leaveWork (by rw [self])

/-- With no record served (R105, R110). -/
theorem endsUnserved (h : Books out before s) (st : (s.seg x).state = .send) (none : (s.seg x).current = none) :
    Books out before ((s.modSeg x Segment.endTransmission).leaveWork x) :=
  h.endsSend st (h.ledger.modSeg x _ fun _ _ => .of_eq rfl rfl) (by simp)
    (by rw [State.modSeg_seg_self, ← none]; rfl) fun y => s.modSeg_seg_other x y _

variable {i : Slot} {r : Record}

/-- With a SINGLE record served (R94, R95). -/
theorem endsSingle {c : Single} (h : Books out before s) (st : (s.seg x).state = .send)
    (serves : (s.seg x).current = some i) (hr : s.exchange.record i = some r) (hc : r.carriage = .single c) :
    Books out before ((s.modSeg x Segment.endTransmission).modSeg x fun g => g.toWait c.timeout) where
  segments := h.segments.one x (by simp)
    (fun g => by
      simpa using Segment.endTransmission_toWait_law _ c.timeout g st (Option.isSome_iff_exists.mpr ⟨i, serves⟩))
    fun y hy => by rw [State.modSeg_seg_other _ _ _ _ hy, State.modSeg_seg_other _ _ _ _ hy]
  ledger := (h.ledger.modSeg x _ fun _ _ => .of_eq rfl rfl).toWait (by rw [State.modSeg_seg_self]; exact serves)
    (by simpa using hr) hc c.timeout

/-- With a BROADCAST record served (R75, R104). -/
theorem endsBroadcast {c : Broadcast} (h : Books out before s) (st : (s.seg x).state = .send)
    (serves : (s.seg x).current = some i) (hr : s.exchange.record i = some r) (hc : r.carriage = .broadcast c) :
    Books out before (((s.modSeg x Segment.endTransmission).deliverBroadcast x i r c).leaveWork x) := by
  refine h.endsSend st ((h.ledger.modSeg x _ fun _ _ => .of_eq rfl rfl).deliverBroadcast
    (by rw [State.modSeg_seg_self]; exact serves) (by simpa using hr) hc) ?_ ?_ fun y hy => ?_
  · rw [State.deliverBroadcast, (State.settleBroadcast_base _ _ _ _).hardReset, (State.release_base _ _).hardReset,
      State.modSeg_hardReset]
  · simp [State.deliverBroadcast, State.release]
  · simp [State.deliverBroadcast, State.release, State.modSeg_seg_other _ _ _ _ hy]

end Books

end Sys2Proof.Machine
end

section
/-! SUPPORT. What each command answers: the laws of the exchange table after it, and its account of the replies
(R78, R79, R87). -/

namespace Sys2Proof.Machine

/-- The account of a command: the laws of the exchange table hold after it, and where the part acts one frame at most
enters the trunk output before the replies of the records that have left (R78, R79, R87). -/
def Answered (s t : State) : Prop :=
  ExchangeLaw t ∧ (Acting s → ∃ front : List QueuedFrame, front.length ≤ 1 ∧ Replied (s.outgoing ++ front) s.exchange t)

/-- A state in which a reply can enter: the part acts, the laws hold, the output queue has room. -/
structure Room (s : State) : Prop where
  acting : Acting s
  law : ExchangeLaw s
  room : s.trunk.queue.length < 8

theorem Books.of_enqueue {s : State} (h : Room s) (q : QueuedFrame) :
    Books (s.outgoing ++ [q]) s.exchange (s.enqueue q) where
  segments := h.law.2.1.enqueue q
  ledger := {
    acting := (s.enqueue_base q).hardReset.trans h.acting
    output := h.law.1.enqueue h.acting h.room q
    table := h.law.2.2.1.enqueue q
    slots := fun i _ => ((Books.begins h.acting h.law).ledger.slots i (by simp)).transport (s.enqueue_untouched q i)
      fun x => by rw [State.enqueue_seg]; exact .refl i _
    replied := .enqueue s q }

namespace Room
variable {s : State}

theorem books (h : Room s) : Books s.outgoing s.exchange s := .begins h.acting h.law

theorem modRoutes (h : Room s) (f : RouteTable → RouteTable) : Room (s.modRoutes f) :=
  ⟨h.acting, (h.books.modRoutes f).law, h.room⟩

theorem modReporter (h : Room s) (f : Reporter → Reporter) : Room (s.modReporter f) :=
  ⟨h.acting, (h.books.modReporter f).law, h.room⟩

theorem modInputs (h : Room s) (f : InputBlock → InputBlock) : Room (s.modInputs f) :=
  ⟨h.acting, (h.books.modInputs f).law, h.room⟩

/-- The RSP of a command enters (R157). -/
theorem respond (h : Room s) (fn : Byte) (r : Request) (p : List Byte) :
    Books (s.outgoing ++ [⟨s.replyFrame .rsp fn r p, false⟩]) s.exchange (s.respond fn r p) := .of_enqueue h _

/-- The NAK of a command enters (R157). -/
theorem refuse (h : Room s) (fn : Byte) (r : Request) (p : List Byte) :
    Books (s.outgoing ++ [⟨s.replyFrame .nak fn r p, false⟩]) s.exchange (s.refuse fn r p) := .of_enqueue h _

end Room

namespace Answered
variable {s t : State}

theorem of_books (h : Books s.outgoing s.exchange t) : Answered s t :=
  ⟨h.law, fun _ => ⟨[], by simp, by simpa using h.ledger.replied⟩⟩

theorem of_front {q : QueuedFrame} (h : Books (s.outgoing ++ [q]) s.exchange t) : Answered s t :=
  ⟨h.law, fun _ => ⟨[q], by simp, h.ledger.replied⟩⟩

theorem refl (law : ExchangeLaw s) : Answered s s := ⟨law, fun _ => ⟨[], by simp, by simpa using Replied.refl s⟩⟩

/-- The taking of the delivery beforehand is no part of the account (R20). -/
theorem of_taken {f : Frame} (h : Answered (s.taken f) t) : Answered s t := h

/-! ### Commands of each shape -/

theorem acting (law : ExchangeLaw s) (act : State → State)
    (h : Books s.outgoing s.exchange s → Books s.outgoing s.exchange (act s)) :
    ∀ t, s.acting act = .next t → Answered s t :=
  State.acting_keeps act (refl law) fun a => of_books (h (.begins a law))

theorem taken (a : Acting s) (law : ExchangeLaw s) (f : Frame) : Books s.outgoing s.exchange (s.taken f) :=
  (Books.begins a law).takeDelivery .trunk (.frame f)

end Answered

theorem ExchangeLaw.taken {s : State} (law : ExchangeLaw s) (f : Frame) : ExchangeLaw (s.taken f) :=
  law.of_same (law.1.taken f) (law.2.1.same rfl (by simp)) rfl rfl (by simp)

namespace Answered
variable {s t : State}

theorem trunkDelivery (law : ExchangeLaw s) (f : Frame) (comes : Bool) (act : State → State)
    (h : ∀ u, Books u.outgoing u.exchange u → Answered u (act u)) :
    ∀ t, s.trunkDelivery f comes act = .next t → Answered s t :=
  State.trunkDelivery_keeps f comes act (refl law) (of_taken (refl (law.taken f))) fun d _ =>
    of_taken (h _ (.begins d.1 (law.taken f)))

theorem countReplyDrop (law : ExchangeLaw s) : Answered s s.countReplyDrop :=
  ⟨law.of_same law.1 (law.2.1.same rfl (by simp [State.countReplyDrop])) rfl rfl (by simp [State.countReplyDrop]),
    fun _ => ⟨[], by simp, by rw [List.append_nil]; exact (Replied.refl s).same rfl rfl⟩⟩

theorem management (law : ExchangeLaw s) (fn : Byte) (r : Request) (judge : State → State)
    (h : ∀ u, Room u → Answered u (judge u)) : ∀ t, s.management fn r judge = .next t → Answered s t :=
  State.management_keeps fn r judge (refl law) (of_taken (refl (law.taken _)))
    (of_taken (countReplyDrop (law.taken _))) fun hr => of_taken (h _ ⟨hr.1.1, law.taken _, hr.2.2⟩)

/-! ### Line events (R3, R4, R11 to R14) -/

theorem of_idleQualification (law : ExchangeLaw s) (p : PortId) (h : execIdleQualification p s = .next t) :
    Answered s t :=
  acting law _ (fun b => b.modPort p _ (Port.qualify_closed _)) t h

theorem of_fallToSpace (law : ExchangeLaw s) (p : PortId) (holds : Bool) (h : execFallToSpace p holds s = .next t) :
    Answered s t := by
  refine acting law _ (fun b => ?_) t h
  split
  · exact b.restartGuard p
  · exact b.modPort p _ (Port.fall_closed holds _)

/-- A character does not close a port that hears (R3, R16). -/
theorem arrive_closed {p : Port} (hears : p.hearing = true) (trunk : Bool) (limit : Nat) (parity : Parity)
    (c : RawChar) :
    (p.arrive trunk limit parity c).receiver = .closed ↔ p.receiver = .closed := by
  rw [Port.arrive_receiver]
  simp only [Port.hearing, Bool.or_eq_true, beq_iff_eq] at hears
  rcases hears with st | st <;> simp [st]

theorem of_arrival (law : ExchangeLaw s) (p : PortId) (c : RawChar) (h : execArrival p c s = .next t) :
    Answered s t := by
  refine acting law _ (fun b => ?_) t h
  split
  · rename_i hears
    exact (b.modPort p _ (arrive_closed hears _ _ _ c)).restartGuard p
  · exact b

theorem of_lineBreak (law : ExchangeLaw s) (p : PortId) (h : execLineBreak p s = .next t) : Answered s t := by
  refine acting law _ (fun b => ?_) t h
  split
  · exact (b.modPort p _ (Port.takeBreak_closed _)).restartGuard p
  · exact b

theorem of_breakEnd (law : ExchangeLaw s) (p : PortId) (h : execBreakEnd p s = .next t) : Answered s t :=
  acting law _ (fun b => b.modPort p _ (Port.endBreak_closed _)) t h

theorem of_gapTimerExpiry (law : ExchangeLaw s) (p : PortId) (h : execGapTimerExpiry p s = .next t) : Answered s t :=
  acting law _ (fun b => b.modPort p _ (by rw [Port.gapExpire_receiver])) t h

/-! ### The time base, the report timer, the segments and the input block -/

theorem of_millisecondTick (law : ExchangeLaw s) (h : execMillisecondTick s = .next t) : Answered s t :=
  acting law _ (fun b => (b.count.judgePatience .a).judgePatience .b) t h

theorem of_reportTimerExpiry (law : ExchangeLaw s) (h : execReportTimerExpiry s = .next t) : Answered s t := by
  refine acting law _ (fun b => ?_) t h
  split
  · exact (b.modReporter _).arbitrate
  · exact b

theorem of_segmentEndOfTransmission (law : ExchangeLaw s) (x : Seg) (h : execSegmentEndOfTransmission x s = .next t) :
    Answered s t := by
  refine acting law _ (fun b => ?_) t h
  split
  · rename_i st
    have current : ((s.modSeg x Segment.endTransmission).seg x).current = (s.seg x).current := by
      rw [State.modSeg_seg_self]
      rfl
    simp only [current, State.modSeg_exchange]
    split
    · rename_i none
      exact b.endsUnserved st none
    · rename_i i serves
      obtain ⟨r, record, -⟩ := (b.ledger.slots i (by simp)).held_of_served serves
      rw [record]
      simp only []
      split
      · rename_i c hc
        exact b.endsSingle st serves record hc
      · rename_i c hc
        exact b.endsBroadcast st serves record hc
  · exact b

theorem of_matchingFrame (law : ExchangeLaw s) (x : Seg) (f : Frame) (h : execMatchingFrame x f s = .next t) :
    Answered s t := by
  refine acting law _ (fun b => ?_) t h
  split
  · exact b.deliverOnSegment x f
  · exact b

theorem of_strayFrame (law : ExchangeLaw s) (x : Seg) (f : Frame) (h : execStrayFrame x f s = .next t) : Answered s t :=
  of_matchingFrame law x f h

theorem of_corruptFrameNotice (law : ExchangeLaw s) (x : Seg) (h : execCorruptFrameNotice x s = .next t) :
    Answered s t := by
  refine acting law _ (fun b => ?_) t h
  have taken := b.takeDelivery (.segment x) .corruptNotice
  simp only []
  split
  · rename_i st
    exact taken.failAttempt st _
  · exact taken

theorem of_responseTimerExpiry (law : ExchangeLaw s) (x : Seg) (h : execResponseTimerExpiry x s = .next t) :
    Answered s t := by
  refine acting law _ (fun b => ?_) t h
  split
  · rename_i st
    exact b.failAttempt st.1 _
  · exact b

theorem of_guardTimerExpiry (law : ExchangeLaw s) (x : Seg) (h : execGuardTimerExpiry x s = .next t) : Answered s t := by
  refine acting law _ (fun b => ?_) t h
  split
  · rename_i st
    exact b.enterIdle st.1
  · exact b

theorem of_patienceExpiry (law : ExchangeLaw s) (x : Seg) (h : execPatienceExpiry x s = .next t) : Answered s t :=
  acting law _ (fun b => b.judgePatience x) t h

theorem of_sampleInstant (law : ExchangeLaw s) (inputs : Word) (a b : Bool)
    (h : execSampleInstant inputs a b s = .next t) : Answered s t :=
  acting law _ (fun k => (((Books.sampleLines inputs inputLines k).sampleHold .a a).sampleHold .b b).modInputs _) t h

/-! ### Deliveries of trunk frames (R20 to R22, R151) -/

theorem of_unexpected (law : ExchangeLaw s) (f : Frame) (h : execUnexpected f s = .next t) : Answered s t :=
  trunkDelivery law f _ _ (fun _ b => of_books (b.modTrunk _ rfl rfl)) t h

theorem of_pendingSoftResetDiscard (law : ExchangeLaw s) (f : Frame) (h : execPendingSoftResetDiscard f s = .next t) :
    Answered s t :=
  trunkDelivery law f _ _ (fun _ b => refl b.law) t h

theorem of_rack (law : ExchangeLaw s) (n : Byte) (r : Request) (h : execRack n r s = .next t) : Answered s t := by
  refine trunkDelivery law _ _ _ (fun u b => ?_) t h
  split
  · exact of_books (b.modReporter _).arbitrate
  · exact of_books (b.modTrunk _ rfl rfl)

/-! ### Management commands (R157 to R167) -/

theorem respond (h : Room s) (fn : Byte) (r : Request) (p : List Byte) : Answered s (s.respond fn r p) :=
  of_front (h.respond fn r p)

theorem refuse (h : Room s) (fn : Byte) (r : Request) (p : List Byte) : Answered s (s.refuse fn r p) :=
  of_front (h.refuse fn r p)

variable (r : Request)

theorem of_unknown (law : ExchangeLaw s) (fn : Byte) (h : execUnknown fn r s = .next t) : Answered s t := by
  unfold execUnknown at h
  split at h
  · cases h
    exact refl law
  · exact management law fn r _ (fun u k => refuse k fn r _) t h

theorem of_readStatus (law : ExchangeLaw s) (h : execReadStatus r s = .next t) : Answered s t := by
  refine management law _ r _ (fun u k => ?_) t h
  split
  · exact respond k _ r _
  · exact refuse k _ r _

theorem of_readCounters (law : ExchangeLaw s) (h : execReadCounters r s = .next t) : Answered s t := by
  refine management law _ r _ (fun u k => ?_) t h
  split
  · split
    · exact refuse k _ r _
    · split
      · exact refuse k _ r _
      · simp only []
        split
        · exact of_front ((k.respond _ r _).clearCounters _)
        · exact respond k _ r _
  · exact refuse k _ r _

theorem of_gatewayReset (law : ExchangeLaw s) (h : execGatewayReset r s = .next t) : Answered s t := by
  refine management law _ r _ (fun u k => ?_) t h
  split
  · exact of_front ((Books.of_enqueue k _).modTrunk _ rfl rfl)
  · exact refuse k _ r _

theorem of_stageEntry (law : ExchangeLaw s) (h : execStageEntry r s = .next t) : Answered s t := by
  refine management law _ r _ (fun u k => ?_) t h
  split
  · simp only []
    split
    · exact refuse k _ r _
    · exact respond (k.modRoutes _) _ r _
  · exact refuse k _ r _

theorem of_clearStage (law : ExchangeLaw s) (h : execClearStage r s = .next t) : Answered s t := by
  refine management law _ r _ (fun u k => ?_) t h
  split
  · exact respond (k.modRoutes _) _ r _
  · exact refuse k _ r _

theorem of_readEntry (law : ExchangeLaw s) (h : execReadEntry r s = .next t) : Answered s t := by
  refine management law _ r _ (fun u k => ?_) t h
  split
  · split
    · exact refuse k _ r _
    · exact respond k _ r _
  · exact refuse k _ r _

theorem of_commit (law : ExchangeLaw s) (h : execCommit r s = .next t) : Answered s t := by
  refine management law _ r _ (fun u k => ?_) t h
  split
  · split
    · exact refuse k _ r _
    · split
      · exact refuse k _ r _
      · exact respond (k.modRoutes _) _ r _
  · exact refuse k _ r _

theorem of_setMissPolicy (law : ExchangeLaw s) (h : execSetMissPolicy r s = .next t) : Answered s t := by
  refine management law _ r _ (fun u k => ?_) t h
  split
  · split
    · exact refuse k _ r _
    · exact respond (k.modRoutes _) _ r _
  · exact refuse k _ r _

theorem of_readExchanges (law : ExchangeLaw s) (h : execReadExchanges r s = .next t) : Answered s t := by
  refine management law _ r _ (fun u k => ?_) t h
  split
  · exact respond k _ r _
  · exact refuse k _ r _

theorem of_lineReset (law : ExchangeLaw s) (h : execLineReset r s = .next t) : Answered s t := by
  refine management law _ r _ (fun u k => ?_) t h
  split
  · split
    · exact refuse k _ r _
    · exact of_front ((k.respond _ r _).lineReset _)
  · exact refuse k _ r _

theorem of_setSegment (law : ExchangeLaw s) (h : execSetSegment r s = .next t) : Answered s t := by
  refine management law _ r _ (fun u k => ?_) t h
  split
  · split
    · exact refuse k _ r _
    · exact of_front ((k.respond _ r _).setConfig _ _)
    · exact refl k.law
  · exact refuse k _ r _

theorem of_readSegment (law : ExchangeLaw s) (h : execReadSegment r s = .next t) : Answered s t := by
  refine management law _ r _ (fun u k => ?_) t h
  split
  · split
    · exact refuse k _ r _
    · exact respond k _ r _
  · exact refuse k _ r _

theorem of_readInputs (law : ExchangeLaw s) (h : execReadInputs r s = .next t) : Answered s t := by
  refine management law _ r _ (fun u k => ?_) t h
  split
  · split
    · exact refuse k _ r _
    · simp only []
      split
      · exact of_front ((k.respond _ r _).modInputs _)
      · exact respond k _ r _
  · exact refuse k _ r _

theorem of_setInput (law : ExchangeLaw s) (h : execSetInput r s = .next t) : Answered s t := by
  refine management law _ r _ (fun u k => ?_) t h
  split
  · split
    · exact refuse k _ r _
    · exact respond (k.modInputs _) _ r _
    · exact refl k.law
  · exact refuse k _ r _

theorem of_setSamplePeriod (law : ExchangeLaw s) (h : execSetSamplePeriod r s = .next t) : Answered s t := by
  refine management law _ r _ (fun u k => ?_) t h
  split
  · split
    · exact refuse k _ r _
    · exact respond (k.modInputs _) _ r _
  · exact refuse k _ r _

theorem of_reportControl (law : ExchangeLaw s) (h : execReportControl r s = .next t) : Answered s t := by
  refine management law _ r _ (fun u k => ?_) t h
  split
  · split
    · exact refuse k _ r _
    · exact respond (k.modReporter _) _ r _
    · exact refl k.law
  · exact refuse k _ r _

theorem of_fetchReports (law : ExchangeLaw s) (h : execFetchReports r s = .next t) : Answered s t := by
  refine management law _ r _ (fun u k => ?_) t h
  split
  · split
    · exact respond (k.modReporter _) _ r _
    · exact refuse k _ r _
  · exact refuse k _ r _

/-- The slot that is aborted still holds its running record after the RSP has entered (R80 to R82). -/
theorem of_abortExchange (law : ExchangeLaw s) (h : execAbortExchange r s = .next t) : Answered s t := by
  refine management law _ r _ (fun u k => ?_) t h
  split
  · split
    · exact refuse k _ r _
    · split
      · exact refuse k _ r _
      · rename_i i found
        obtain ⟨q, hq, running⟩ := ExchangeTable.abortable_some found
        exact of_front ((k.respond _ r _).abort ((u.enqueue_untouched _ i).running hq running) running)
  · exact refuse k _ r _

end Answered

end Sys2Proof.Machine
end

section
/-! SUPPORT. The admission of a request in the ledger (R68 to R72), the trunk transmitter and the resets (R27, R30, R169,
R170). -/

namespace Sys2Proof.Machine

theorem ExchangeTable.GoesOn.trans {e f g : ExchangeTable} (h : e.GoesOn f) (k : f.GoesOn g) : e.GoesOn g := fun i => by
  rcases h i with h | ⟨r, q, hr, hq, rq⟩
  · rcases k i with k | ⟨q, p, hq, hp, qp⟩
    · exact Or.inl (k.trans h)
    · exact Or.inr ⟨q, p, h ▸ hq, hp, qp⟩
  · rcases k i with k | ⟨q', p, hq', hp, qp⟩
    · exact Or.inr ⟨r, q, hr, k ▸ hq, rq⟩
    · rw [hq] at hq'
      cases hq'
      exact Or.inr ⟨r, p, hr, hp, rq.trans qp⟩

/-- The work a sequencer takes changes nothing of the trunk, and every record goes on (R91). -/
theorem State.takeWork_goesOn {s : State} (table : TableLaw s.exchange) (x : Seg) :
    (s.takeWork x).trunk = s.trunk ∧ s.exchange.GoesOn (s.takeWork x).exchange := by
  have same : s.exchange.GoesOn s.exchange := fun _ => Or.inl rfl
  by_cases st : (s.seg x).state = .idle
  · cases hw : s.oldestWaiting x with
    | none =>
      rw [State.takeWork_none hw]
      exact ⟨rfl, same⟩
    | some i =>
      obtain ⟨r, hr, stands⟩ := (s.exchange.mem_standing table x i).mp (List.mem_of_find?_eq_some hw)
      rw [State.takeWork_some st hw hr, State.modSeg_trunk, State.modSeg_exchange]
      exact ⟨rfl, ExchangeTable.goesOn_setRecord hr (r.begin_continues _ ((r.standsOn_iff x).mp stands).1)⟩
  · rw [State.takeWork_busy st]
    exact ⟨rfl, same⟩

theorem State.tellNew_goesOn {s : State} (table : TableLaw s.exchange) (on : SegSet) (x : Seg) :
    (s.tellNew on x).trunk = s.trunk ∧ s.exchange.GoesOn (s.tellNew on x).exchange := by
  unfold State.tellNew
  split
  · exact State.takeWork_goesOn table x
  · exact ⟨rfl, fun _ => Or.inl rfl⟩

theorem SegmentsLaw.tellNew {s : State} (h : SegmentsLaw s) (on : SegSet) (x : Seg) : SegmentsLaw (s.tellNew on x) := by
  unfold State.tellNew
  split
  · exact h.takeWork x
  · exact h

/-- A sequencer is due to take work where a new record stands on its segment (R72). -/
def dueIf (on : SegSet) (x : Seg) (due : List Seg) : List Seg := if on.has x then x :: due else due

/-- The sequencers that a new record stands on are due to take work, until they are told of it (R72). -/
theorem Ledger.tellNew {out : List QueuedFrame} {before : ExchangeTable} {due : List Seg} {s : State} {on : SegSet}
    {x : Seg} (h : Ledger out before [] (dueIf on x due) s) (segment : SegmentLaw (s.seg x)) :
    Ledger out before [] due (s.tellNew on x) := by
  unfold State.tellNew
  unfold dueIf at h
  split
  · rename_i named
    rw [if_pos named] at h
    exact h.takeWork segment
  · rename_i named
    rwa [if_neg named] at h

theorem SlotLaw.owe {s : State} {i : Slot} (law : SlotLaw [] s i) (due : List Seg) : SlotLaw due s i :=
  ⟨law.free, fun r hr => { law.held r hr with idle := fun x _ => (law.held r hr).idle x (by simp) }⟩

/-- The record of an offer, placed in a FREE slot (R72). -/
def State.placedRecord (s : State) (slot : Slot) (r : Record) : State :=
  { s with exchange := { s.exchange.setRecord slot r with admission := s.exchange.admission ++ [slot] } }

theorem State.admitRecord_eq {s : State} {slot : Slot} (free : s.exchange.freeSlotOf = some slot) (r : Record) :
    s.admitRecord r = ((s.placedRecord slot r).tellNew r.carriage.segments .a).tellNew r.carriage.segments .b := by
  simp only [State.admitRecord, free]
  rfl

/-- An offer that the checks let pass (R68 to R72): its slot is FREE, its origin new, and where it is BROADCAST a segment
is pending. -/
structure Admissible (s : State) (slot : Slot) (r : Record) : Prop where
  queued : r.state = .queued
  fits : r.Fits
  free : s.exchange.record slot = none
  new : ∀ j, (s.exchange.record j).map Record.pair ≠ some r.pair

namespace Admissible
variable {s : State} {slot : Slot} {r : Record}

/-- The segments on which the new record stands, as due ones. -/
def due (on : SegSet) : List Seg := dueIf on .a (dueIf on .b [])

theorem mem_due (on : SegSet) (x : Seg) : x ∈ due on ↔ on.has x = true := by
  unfold due dueIf
  cases ha : on.has .a <;> cases hb : on.has .b <;> cases x <;> simp [ha, hb]

theorem placed_other (s : State) {slot j : Slot} (r : Record) (h : j ≠ slot) :
    (s.placedRecord slot r).exchange.record j = s.exchange.record j := s.exchange.setRecord_record_other slot j r h

theorem placed_seg (s : State) (slot : Slot) (r : Record) (x : Seg) : (s.placedRecord slot r).seg x = s.seg x := by
  cases x <;> rfl

theorem placed_self (s : State) (slot : Slot) (r : Record) : (s.placedRecord slot r).exchange.record slot = some r :=
  s.exchange.setRecord_record_self slot r

theorem ledger (h : Admissible s slot r) (a : Acting s) (law : ExchangeLaw s) :
    Ledger (s.placedRecord slot r).outgoing (s.placedRecord slot r).exchange [] (due r.carriage.segments)
      (s.placedRecord slot r) where
  acting := a
  output := law.1
  table := law.2.2.1.admitted slot r h.free h.new (by rw [h.queued]; rfl)
  slots j _ := by
    have slots := (Books.begins a law).ledger.slots j (by simp)
    by_cases hj : j = slot
    · subst hj
      refine .of_some (placed_self s j r) ⟨fun x hx => ?_, fun st => ?_, h.fits, fun x hx _ => ?_⟩
      · rw [placed_seg] at hx
        exact absurd hx (slots.free h.free x)
      · rw [h.queued] at st
        cases st
      · rw [mem_due, Carriage.segments_has] at hx
        simp [Record.standsOn, Bool.eq_false_iff.mpr hx]
    · exact (slots.owe _).transport (Or.inl (placed_other s r hj)) fun x => placed_seg s slot r x ▸ .refl j _
  replied := .refl _

/-- An admitted offer leaves the laws, the trunk output, and every other record going on (R72). -/
theorem admitted (h : Admissible s slot r) (a : Acting s) (law : ExchangeLaw s) :
    let t := ((s.placedRecord slot r).tellNew r.carriage.segments .a).tellNew r.carriage.segments .b
    ExchangeLaw t ∧ t.trunk = s.trunk ∧ (s.placedRecord slot r).exchange.GoesOn t.exchange := by
  intro t
  have segments : SegmentsLaw (s.placedRecord slot r) := law.2.1.same rfl (placed_seg s slot r)
  have placed := h.ledger a law
  have toldA := Ledger.tellNew (x := .a) placed (segments.seg placed.acting .a)
  have segmentsA := segments.tellNew r.carriage.segments .a
  have toldB := Ledger.tellNew (x := .b) toldA (segmentsA.seg toldA.acting .b)
  have goesA := State.tellNew_goesOn placed.table r.carriage.segments .a
  have goesB := State.tellNew_goesOn toldA.table r.carriage.segments .b
  exact ⟨toldB.law (segmentsA.tellNew _ .b), goesB.1.trans goesA.1, goesA.2.trans goesB.2⟩

/-- What an offer that no check refuses is (R68). -/
theorem of_offer {f : Frame} {e : RouteEntry} {fanout : Bool} (free : s.exchange.freeSlotOf = some slot)
    (h : s.admissionRefusal (s.offer f e fanout) = none) : Admissible s slot (s.offer f e fanout) := by
  have new : s.exchange.duplicate (s.offer f e fanout).source (s.offer f e fanout).tag = false := by
    by_contra dup
    rw [Bool.not_eq_false] at dup
    simp [State.admissionRefusal, dup] at h
  refine ⟨rfl, ?_, ExchangeTable.freeSlotOf_none_record free, fun j hj => ?_⟩
  · cases fanout with
    | false => rfl
    | true =>
      refine Or.inr ?_
      by_contra empty
      rw [Bool.not_eq_false] at empty
      have lent : s.lentRefusal (s.offer f e true).carriage = some 3 := if_pos empty
      simp [State.admissionRefusal, new, lent] at h
  · rw [← Bool.not_eq_true, ExchangeTable.duplicate_iff] at new
    exact new ⟨j, hj⟩

end Admissible

/-! ### The account of a command in the words of the statement -/

/-- Between two states where nothing has left and nothing has entered the trunk output, every record goes on. -/
theorem RepliesAccounted.of_goesOn {s t : State} {f : Frame} (output : t.outgoing = s.outgoing)
    (go : ∀ i r, s.exchange.record i = some r → ∃ q, t.exchange.record i = some q ∧ r.Continues q) :
    RepliesAccounted (.routedRequest f) s t := by
  refine ⟨⟨[], [], [], by simp [output], by simp, by simp, fun i => ?_, rfl, by simp⟩, fun i r q hr hq => ?_, fun h =>
    absurd rfl (h f)⟩
  · cases hr : s.exchange.record i with
    | none => simp
    | some r =>
      obtain ⟨q, hq, -⟩ := go i r hr
      simp [hq]
  · obtain ⟨q', hq', h⟩ := go i r hr
    rw [hq] at hq'
    cases hq'
    exact ⟨h.source, h.tag, h.dest, h.fn, h.complete⟩

theorem RepliesAccounted.of_replied {c : Instr} {s t : State} {front : List QueuedFrame} (one : front.length ≤ 1)
    (h : Replied ((if c = .endOfTransmission then s.trunk.queue else s.outgoing) ++ front) s.exchange t) :
    RepliesAccounted c s t := by
  obtain ⟨done, output, nodup, left, replies⟩ := h.paid
  refine ⟨⟨front, done.map Prod.fst, done.map Prod.snd, output, one, nodup, left, by simp, fun p hp => ?_⟩,
    fun i r q hr hq => ?_, fun _ => h.fresh⟩
  · rw [List.zip_map'] at hp
    obtain ⟨r, hr, reply, built, e⟩ := replies p (by simpa using hp)
    exact ⟨r, reply, hr, built, e⟩
  · have k := h.continued i r q hr hq
    exact ⟨k.source, k.tag, k.dest, k.fn, k.complete⟩

/-- What one command does for the laws and for the account. -/
def Accounted (c : Instr) (s t : State) : Prop := ExchangeLaw t ∧ (Acting s → RepliesAccounted c s t)

theorem Answered.accounted {c : Instr} {s t : State} (h : Answered s t) (hc : c ≠ .endOfTransmission) :
    Accounted c s t := by
  refine ⟨h.1, fun a => ?_⟩
  obtain ⟨front, one, replied⟩ := h.2 a
  exact .of_replied one (by rwa [if_neg hc])

/-! ### Routed requests (R22, R41 to R46, R68 to R72) -/

namespace Accounted
variable {s t : State} {f : Frame}

theorem of_answered (h : Answered s t) : Accounted (.routedRequest f) s t := h.accounted (by simp)

theorem refuseRouted (a : Acting s) (law : ExchangeLaw s) (p : List Byte) :
    Accounted (.routedRequest f) s (s.refuseRouted f p) := by
  refine of_answered ?_
  unfold State.refuseRouted
  split
  · exact .countReplyDrop law
  · rename_i room
    exact .of_front (.of_enqueue ⟨a, law, by simpa [State.queueFull] using room⟩ _)

theorem countRouteDrop (a : Acting s) (law : ExchangeLaw s) : Accounted (.routedRequest f) s s.countRouteDrop :=
  of_answered (.of_books ((Books.begins a law).modTrunk _ rfl rfl))

theorem judgeOffer (a : Acting s) (law : ExchangeLaw s) (e : RouteEntry) (fanout : Bool) :
    Accounted (.routedRequest f) s (s.judgeOffer f (s.offer f e fanout)) := by
  cases hp : s.admissionRefusal (s.offer f e fanout) with
  | some p =>
    rw [State.judgeOffer_refused hp]
    exact refuseRouted a law p
  | none =>
    rw [State.judgeOffer_admits hp]
    cases free : s.exchange.freeSlotOf with
    | none =>
      simp only [State.admitRecord, free]
      exact of_answered (.refl law)
    | some slot =>
      have ok := Admissible.of_offer free hp
      rw [State.admitRecord_eq free]
      obtain ⟨after, trunk, go⟩ := ok.admitted a law
      refine ⟨after, fun _ => .of_goesOn (State.outgoing_congr (by rw [trunk]) (by rw [trunk])) fun i r hr => ?_⟩
      have hi : i ≠ slot := fun e => by
        rw [e, ok.free] at hr
        cases hr
      rw [← Admissible.placed_other s (s.offer f e fanout) hi] at hr
      rcases go i with same | ⟨r', q, hr', hq, k⟩
      · exact ⟨r, same.trans hr, .refl r⟩
      · rw [hr] at hr'
        cases hr'
        exact ⟨q, hq, k⟩

theorem act (a : Acting s) (law : ExchangeLaw s) (e : RouteEntry) : Accounted (.routedRequest f) s (s.act f e) := by
  unfold State.act
  split
  · exact judgeOffer a law e false
  · exact judgeOffer a law e true
  · exact refuseRouted a law _
  · exact countRouteDrop a law

theorem miss (a : Acting s) (law : ExchangeLaw s) : Accounted (.routedRequest f) s (s.miss f) := by
  unfold State.miss
  split
  · exact refuseRouted a law _
  · exact countRouteDrop a law

theorem route (a : Acting s) (law : ExchangeLaw s) : Accounted (.routedRequest f) s (s.route f) := by
  unfold State.route
  split
  · exact miss a law
  · split
    · exact miss a law
    · exact act (s := s.modRoutes _) a ((Books.begins a law).modRoutes _).law _

theorem of_routedRequest (law : ExchangeLaw s) (h : execRoutedRequest f s = .next t) :
    Accounted (.routedRequest f) s t :=
  State.trunkDelivery_keeps (P := Accounted (.routedRequest f) s) f _ _ (of_answered (.refl law))
    (of_answered (.of_taken (.refl (law.taken f)))) (fun d _ => route (s := s.taken f) d.1 (law.taken f)) t h

end Accounted

/-! ### The trunk transmitter and the resets (R27, R30, R169, R170) -/

/-- The transmitter is IDLE, a batch frame has told the reporter, and the arbiter decides (R27, R28). -/
theorem Ledger.txIdle {s : State} (a : Acting s) (law : ExchangeLaw s) (f : Reporter → Reporter) :
    Ledger s.trunk.queue s.exchange [] [] (s.txIdle.modReporter f).arbitrate where
  acting := (State.arbitrate_base _).hardReset.trans a
  output := .arbitrate law.2.2.1 law.1.1 (law.1.2 a).2
  table := TableLaw.arbitrate (s := s.txIdle.modReporter f) law.2.2.1
  slots i _ := ((Books.begins a law).ledger.slots i (by simp)).transport
    (Untouched.trans (Or.inl rfl) ((s.txIdle.modReporter f).arbitrate_untouched i)) fun x => by
      rw [State.arbitrate_seg]
      cases x <;> exact .refl i _
  replied := .arbitrate (.refl (s.txIdle.modReporter f))

theorem ExchangeTable.reset_law : TableLaw ExchangeTable.reset := by
  have lists : ExchangeTable.reset.admission = [] ∧ ExchangeTable.reset.completion = [] := ⟨rfl, rfl⟩
  simp [TableLaw, ExchangeTable.reset_record, lists.1, lists.2]

/-- A gateway without records has empty books. -/
theorem Ledger.of_empty {s : State} (a : Acting s) (table : s.exchange = ExchangeTable.reset)
    (queue : s.trunk.queue = []) (free : ∀ x, (s.seg x).current = none) :
    Ledger s.outgoing s.exchange [] [] s where
  acting := a
  output := by simp [OutputLaw, queue, table, ExchangeTable.reset]
  table := table ▸ ExchangeTable.reset_law
  slots i _ := .of_ended (fun x => by simp [free]) fun r hr => by
    rw [table, ExchangeTable.reset_record] at hr
    cases hr
  replied := .refl s

theorem Segment.softReset_current (g : Segment) : g.softReset.current = none := by
  by_cases st : g.state = .lent
  · rw [Segment.softReset_lent st]
  · cases hd : g.drainRequested with
    | true => rw [Segment.softReset_draining st hd]
    | false => rw [Segment.softReset_idle st hd]

theorem ExchangeLaw.softReset {s : State} (law : ExchangeLaw s) (a : Acting s) : ExchangeLaw s.softReset := by
  have segments : SegmentsLaw s.softReset := SegmentsLaw.of_seg fun _ x => by
    rw [State.softReset_seg]
    exact Segment.softReset_law _ (law.2.1.seg a x)
  obtain ⟨u, e, base, trunk, table, -, -⟩ := s.softReset_asks
  refine Ledger.law (out := u.outgoing) (before := u.exchange) ?_ segments
  rw [e]
  refine (Ledger.of_empty (base.hardReset.trans a) table (by rw [trunk]; rfl) fun x => ?_).arbitrate
  rw [← State.arbitrate_seg, ← e, State.softReset_seg, Segment.softReset_current]

end Sys2Proof.Machine
end

section
/-! PROOF. O55: the laws of the exchange table from step to step, and the account of the replies of every command
(R78, R79, R87). -/

namespace Sys2Proof.Machine

theorem ExchangeLaw.of_hardReset {s t : State} (p : Straps) (h : execHardReset p s = .next t) : ExchangeLaw t := by
  cases h
  refine (Ledger.of_empty rfl rfl rfl fun x => by cases x <;> rfl).law fun _ => ?_
  have rest : SegmentLaw Segment.reset := by
    simp [SegmentLaw, Segment.reset, Port.reset]
  exact ⟨rest, rest⟩

theorem ExchangeLaw.of_hardResetBegin {s t : State} (law : ExchangeLaw s) (c : HardCause)
    (h : execHardResetBegin c s = .next t) : ExchangeLaw t := by
  cases h
  exact ⟨⟨law.1.1, fun a => (by cases a)⟩, fun a => (by cases a), law.2.2.1, fun a => (by cases a)⟩

/-- SOFT_RESET leaves the laws; where it takes no effect it answers nothing (R30, R169). -/
theorem execSoftReset_laws {s t : State} (law : ExchangeLaw s) (h : execSoftReset s = .next t) :
    ExchangeLaw t ∧ (s.resetBound ≠ true → Answered s t) := by
  refine State.acting_keeps (P := fun t => ExchangeLaw t ∧ (s.resetBound ≠ true → Answered s t)) _
    ⟨law, fun _ => .refl law⟩ (fun a => ?_) t h
  split
  · rename_i bound
    exact ⟨law.softReset a, fun unbound => absurd bound unbound⟩
  · exact ⟨law, fun _ => .refl law⟩

/-- END_OF_TRANSMISSION: the frame whose transmission ends leaves the account, and the arbiter's turn follows
(R27, R28). -/
theorem execEndOfTransmission_laws {s t : State} (law : ExchangeLaw s) (h : execEndOfTransmission s = .next t) :
    ExchangeLaw t ∧ (Acting s → s.resetBound ≠ true → Replied s.trunk.queue s.exchange t) := by
  by_cases a : Acting s
  · have ends : ∀ f, ExchangeLaw (s.txIdle.modReporter f).arbitrate ∧
        (Acting s → s.resetBound ≠ true → Replied s.trunk.queue s.exchange (s.txIdle.modReporter f).arbitrate) :=
      fun f =>
      have ledger := Ledger.txIdle a law f
      ⟨ledger.law (SegmentsLaw.arbitrate (s := s.txIdle.modReporter f) law.2.1), fun _ _ => ledger.replied⟩
    unfold execEndOfTransmission at h
    rw [State.acting_next a] at h
    cases h
    split
    · rename_i bound
      exact ⟨law.softReset a, fun _ unbound => absurd bound unbound⟩
    · split
      · rename_i idle
        have nothing : s.trunk.queue = s.outgoing := by simp [State.outgoing, idle]
        exact ⟨law, fun _ _ => nothing ▸ .refl s⟩
      · exact ends id
      · exact ends Reporter.sent
  · exact State.acting_keeps (P := fun t => ExchangeLaw t ∧ (Acting s → _)) _ ⟨law, fun k => absurd k a⟩
      (fun k => absurd k a) t h

/-- A reset takes effect or begins: of those commands the account of the replies says nothing. -/
def Resets (c : Instr) (s : State) : Prop :=
  (∃ p, c = .hardReset p) ∨ (∃ k, c = .hardResetBegin k) ∨
    (s.resetBound = true ∧ (c = .softReset ∨ c = .endOfTransmission))

/-- What every command does for the laws of the exchange table and for the account of the replies. -/
theorem exec_accounted (c : Instr) (s t : State) (law : ExchangeLaw s) (h : exec c s = .next t) :
    ExchangeLaw t ∧ (Acting s → ¬ Resets c s → RepliesAccounted c s t) := by
  have plain : c ≠ .endOfTransmission → Answered s t →
      ExchangeLaw t ∧ (Acting s → ¬ Resets c s → RepliesAccounted c s t) := fun hc k =>
    ⟨k.1, fun a _ => (k.accounted hc).2 a⟩
  cases c with
  | hardReset p => exact ⟨.of_hardReset p h, fun _ no => absurd (.inl ⟨p, rfl⟩) no⟩
  | hardResetBegin k => exact ⟨law.of_hardResetBegin k h, fun _ no => absurd (.inr (.inl ⟨k, rfl⟩)) no⟩
  | softReset =>
    obtain ⟨after, unbound⟩ := execSoftReset_laws law h
    exact ⟨after, fun a no => ((unbound fun b => no (.inr (.inr ⟨b, .inl rfl⟩))).accounted (by simp)).2 a⟩
  | endOfTransmission =>
    obtain ⟨after, unbound⟩ := execEndOfTransmission_laws law h
    refine ⟨after, fun a no => .of_replied (front := []) (by simp) ?_⟩
    simpa using unbound a fun b => no (.inr (.inr ⟨b, .inr rfl⟩))
  | routedRequest f => exact ⟨(Accounted.of_routedRequest law h).1, fun a _ => (Accounted.of_routedRequest law h).2 a⟩
  | millisecondTick => exact plain (by simp) (.of_millisecondTick law h)
  | idleQualification p => exact plain (by simp) (.of_idleQualification law p h)
  | arrival p c => exact plain (by simp) (.of_arrival law p c h)
  | lineBreak p => exact plain (by simp) (.of_lineBreak law p h)
  | gapTimerExpiry p => exact plain (by simp) (.of_gapTimerExpiry law p h)
  | breakEnd p => exact plain (by simp) (.of_breakEnd law p h)
  | fallToSpace p b => exact plain (by simp) (.of_fallToSpace law p b h)
  | unexpected f => exact plain (by simp) (.of_unexpected law f h)
  | pendingSoftResetDiscard f => exact plain (by simp) (.of_pendingSoftResetDiscard law f h)
  | rack b r => exact plain (by simp) (.of_rack law b r h)
  | unknown fn r => exact plain (by simp) (.of_unknown r law fn h)
  | readStatus r => exact plain (by simp) (.of_readStatus r law h)
  | readCounters r => exact plain (by simp) (.of_readCounters r law h)
  | stageEntry r => exact plain (by simp) (.of_stageEntry r law h)
  | clearStage r => exact plain (by simp) (.of_clearStage r law h)
  | readEntry r => exact plain (by simp) (.of_readEntry r law h)
  | commit r => exact plain (by simp) (.of_commit r law h)
  | setMissPolicy r => exact plain (by simp) (.of_setMissPolicy r law h)
  | readExchanges r => exact plain (by simp) (.of_readExchanges r law h)
  | abortExchange r => exact plain (by simp) (.of_abortExchange r law h)
  | lineReset r => exact plain (by simp) (.of_lineReset r law h)
  | setSegment r => exact plain (by simp) (.of_setSegment r law h)
  | readSegment r => exact plain (by simp) (.of_readSegment r law h)
  | readInputs r => exact plain (by simp) (.of_readInputs r law h)
  | setInput r => exact plain (by simp) (.of_setInput r law h)
  | setSamplePeriod r => exact plain (by simp) (.of_setSamplePeriod r law h)
  | reportControl r => exact plain (by simp) (.of_reportControl r law h)
  | fetchReports r => exact plain (by simp) (.of_fetchReports r law h)
  | gatewayReset r => exact plain (by simp) (.of_gatewayReset r law h)
  | reportTimerExpiry => exact plain (by simp) (.of_reportTimerExpiry law h)
  | segmentEndOfTransmission x => exact plain (by simp) (.of_segmentEndOfTransmission law x h)
  | matchingFrame x f => exact plain (by simp) (.of_matchingFrame law x f h)
  | strayFrame x f => exact plain (by simp) (.of_strayFrame law x f h)
  | corruptFrameNotice x => exact plain (by simp) (.of_corruptFrameNotice law x h)
  | responseTimerExpiry x => exact plain (by simp) (.of_responseTimerExpiry law x h)
  | guardTimerExpiry x => exact plain (by simp) (.of_guardTimerExpiry law x h)
  | sampleInstant inputs a b => exact plain (by simp) (.of_sampleInstant law inputs a b h)
  | patienceExpiry x => exact plain (by simp) (.of_patienceExpiry law x h)

/-- The laws of the exchange table do not read the commands that wait. -/
theorem ExchangeLaw.withPending (s : State) (l : List Instr) (law : ExchangeLaw s) :
    ExchangeLaw { s with pending := l } :=
  law.of_same law.1 law.2.1 rfl rfl fun x => by cases x <;> exact ⟨rfl, rfl⟩

/-- Settles O55: the laws from step to step, and the account of the replies command by command. -/
theorem exchangeLawKept : Obligations.ExchangeLawKept := by
  refine ⟨step_keeps ExchangeLaw.withPending fun c s t h law => (exec_accounted c s t law h).1,
    fun c s t a law notReset notBegin unbound h => (exec_accounted c s t law h).2 a ?_⟩
  rintro (⟨p, rfl⟩ | ⟨k, rfl⟩ | bound)
  · exact notReset p rfl
  · exact notBegin k rfl
  · exact unbound bound

end Sys2Proof.Machine
end

section
/-! SUPPORT. What an admitted offer makes of the table and of the two segments (R72, R91 to R93, R104). -/

namespace Sys2Proof.Machine

/-- The new record is the one that waits on a segment in IDLE (R73, R91). -/
theorem State.oldestWaiting_new {s : State} {x : Seg} {slot : Slot} {r : Record} (table : TableLaw s.exchange)
    (none : (s.seg x).current = none) (here : s.exchange.record slot = some r) (stands : r.standsOn x = true)
    (only : ∀ j q, j ≠ slot → s.exchange.record j = some q → q.standsOn x = false) : s.oldestWaiting x = some slot := by
  have mem := (s.exchange.mem_standing table x slot).mpr ⟨r, here, stands⟩
  cases h : s.oldestWaiting x with
  | none =>
    have serves := List.find?_eq_none.mp h slot mem
    simp [none] at serves
  | some j =>
    obtain ⟨q, hq, on⟩ := (s.exchange.mem_standing table x j).mp (List.mem_of_find?_eq_some h)
    by_contra e
    rw [only j q (fun k => e (k ▸ rfl)) hq] at on
    cases on

/-- A segment of an offer begins its service at once: the offer stands on it and its sequencer is in IDLE (R91). -/
def State.beginsOn (s : State) (on : SegSet) (x : Seg) : Bool := on.has x && (s.seg x).state == .idle

/-- A record that a segment may begin to serve. -/
def Record.told (r : Record) (begins : Bool) (tag : Tag) : Record := if begins then r.begin tag else r

/-- A segment that may begin to serve the record of a slot. -/
def Segment.told (g : Segment) (begins : Bool) (slot : Slot) (r : Record) : Segment :=
  if begins then g.begin slot (r.requestFrame g.tagCounter) else g

/-- A sequencer told of a new record begins its service in IDLE, and does nothing in any other state (R72, R91). -/
theorem State.tellNew_eq {s : State} {on : SegSet} {x : Seg} {slot : Slot} {r : Record} (table : TableLaw s.exchange)
    (here : s.exchange.record slot = some r) (stands : on.has x = true → r.standsOn x = true)
    (none : (s.seg x).state = .idle → (s.seg x).current = none)
    (only : (s.seg x).state = .idle → ∀ j q, j ≠ slot → s.exchange.record j = some q → q.standsOn x = false) :
    s.tellNew on x = if s.beginsOn on x then
      (s.setRecord slot (r.begin (s.seg x).tagCounter)).modSeg x fun g =>
        g.begin slot (r.requestFrame (s.seg x).tagCounter)
    else s := by
  unfold State.tellNew State.beginsOn
  by_cases named : on.has x = true
  · by_cases st : (s.seg x).state = .idle
    · rw [if_pos named, if_pos (by simp [named, st]),
        State.takeWork_some st (State.oldestWaiting_new table (none st) here (stands named) (only st)) here]
    · rw [if_pos named, if_neg (by simp [st]), State.takeWork_busy st]
  · rw [if_neg named, if_neg (by simp [named])]

/-- The state in which an offer has been admitted: its slot holds the record, the admission list has grown, and the
segments it begins on transmit (R72, R93, R104). -/
def State.admittedAs (s : State) (slot : Slot) (r : Record) : State :=
  let begins := s.beginsOn r.carriage.segments
  { s with
    exchange := { s.exchange with
      slots := s.exchange.slots.set slot
        (some ((r.told (begins .a) s.segA.tagCounter).told (begins .b) s.segB.tagCounter))
      admission := s.exchange.admission ++ [slot] }
    segA := s.segA.told (begins .a) slot r
    segB := s.segB.told (begins .b) slot r }

/-- A record written over the new one (R72, R91). -/
theorem Admissible.placed_setRecord (s : State) (slot : Slot) (r q : Record) :
    (s.placedRecord slot r).setRecord slot q = s.placedRecord slot q := by
  simp [State.placedRecord, State.setRecord, ExchangeTable.setRecord, Vector.set_set]

/-- Admission, said once (R72). -/
theorem Admissible.tellNew_eq {s : State} {slot : Slot} {r : Record} (h : Admissible s slot r) (a : Acting s)
    (law : ExchangeLaw s) :
    ((s.placedRecord slot r).tellNew r.carriage.segments .a).tellNew r.carriage.segments .b = s.admittedAs slot r := by
  have placed := h.ledger a law
  have running : r.state.isComplete = false := by rw [h.queued]; rfl
  have stands : ∀ x, r.carriage.segments.has x = true → r.standsOn x = true := fun x named =>
    (r.standsOn_iff x).mpr ⟨running, r.carriage.segments_has x ▸ named⟩
  have unserving : ∀ x, (s.seg x).state = .idle → (s.seg x).current = none := fun x st =>
    (law.2.1.seg a x).current_none (by simp [st]) (by simp [st])
  have only : ∀ x, (s.seg x).state = .idle → ∀ j q, j ≠ slot → s.exchange.record j = some q → q.standsOn x = false :=
    fun x st j q _ hq => (((Books.begins a law).ledger.slots j (by simp)).held q hq).idle x (by simp) st
  have toldA := State.tellNew_eq (on := r.carriage.segments) (x := .a) placed.table (Admissible.placed_self s slot r)
    (stands .a) (unserving .a) fun st j q hj hq => only .a st j q hj (by rwa [Admissible.placed_other s r hj] at hq)
  have tableA : TableLaw ((s.placedRecord slot r).tellNew r.carriage.segments .a).exchange :=
    (Ledger.tellNew (x := .a) placed (law.2.1.seg a .a)).table
  have beginsA : (s.placedRecord slot r).beginsOn r.carriage.segments .a = s.beginsOn r.carriage.segments .a := rfl
  rw [toldA, beginsA] at tableA ⊢
  cases hA : s.beginsOn r.carriage.segments .a with
  | false =>
    rw [hA] at tableA
    rw [State.tellNew_eq (slot := slot) (r := r) tableA (Admissible.placed_self s slot r) (stands .b) (unserving .b)
      fun st j q hj hq => only .b st j q hj (by rwa [← Admissible.placed_other s r hj])]
    have beginsB : (s.placedRecord slot r).beginsOn r.carriage.segments .b = s.beginsOn r.carriage.segments .b := rfl
    simp only [Bool.false_eq_true, if_false, beginsB, State.admittedAs, hA, Record.told, Segment.told]
    cases hB : s.beginsOn r.carriage.segments .b with
    | false => rfl
    | true =>
      rw [if_pos rfl, Admissible.placed_setRecord]
      rfl
  | true =>
    rw [hA, if_pos rfl, Admissible.placed_setRecord] at tableA
    rw [if_pos rfl, Admissible.placed_setRecord]
    have stands' : ∀ tag, r.carriage.segments.has .b = true → (r.begin tag).standsOn .b = true := fun tag named =>
      (Record.begin_standsOn tag running .b).trans (stands .b named)
    rw [State.tellNew_eq (x := .b) (slot := slot) (r := r.begin s.segA.tagCounter) tableA
      (Admissible.placed_self s slot _) (stands' _) (unserving .b) fun st j q hj hq => only .b st j q hj (by rwa [← Admissible.placed_other s _ hj])]
    have beginsB : ((s.placedRecord slot (r.begin ((s.placedRecord slot r).seg .a).tagCounter)).modSeg .a fun g =>
        g.begin slot (r.requestFrame ((s.placedRecord slot r).seg .a).tagCounter)).beginsOn r.carriage.segments .b =
      s.beginsOn r.carriage.segments .b := rfl
    simp only [beginsB, State.admittedAs, hA, Record.told, Segment.told, if_true]
    cases hB : s.beginsOn r.carriage.segments .b with
    | false => rfl
    | true =>
      have moved : ∀ q f g, (((s.placedRecord slot q).modSeg .a f).setRecord slot g) =
          ((s.placedRecord slot g).modSeg .a f) := fun q f g =>
        congrArg (fun u => State.modSeg u .a f) (Admissible.placed_setRecord s slot q g)
      rw [if_pos rfl, moved]
      rfl

end Sys2Proof.Machine
end

section
/-! PROOF. O20: a FANOUT offer, refused or admitted (R44, R68 to R72, R104). -/

namespace Sys2Proof.Machine

theorem State.offer_fanout_names (s : State) (f : Frame) (e : RouteEntry) (x : Seg) :
    (s.offer f e true).carriage.names x = !(s.seg x).lentExpired := by
  rw [State.offer_fanout]
  cases x <;> rfl

theorem State.offer_fanout_mask (s : State) (f : Frame) (e : RouteEntry) :
    (s.offer f e true).carriage.segments.mask = maskByte (!s.segA.lentExpired) (!s.segB.lentExpired) := by
  rw [State.offer_fanout, SegSet.mask_eq]
  rfl

/-- A FANOUT offer is refused as lent where both segments are lent-expired, with both in the mask (R70). -/
theorem State.lentRefusal_fanout (s : State) (f : Frame) (e : RouteEntry) :
    s.lentRefusal (s.offer f e true).carriage =
      if s.segA.lentExpired = true ∧ s.segB.lentExpired = true then some 3 else none := by
  rw [State.offer_fanout]
  simp only [State.lentRefusal, SegSet.isEmpty, Bool.not_not, Bool.and_eq_true]

/-- What refuses a FANOUT offer, with its reply (R69 to R71). -/
theorem State.fanoutRefusal {s : State} {f : Frame} {e : RouteEntry} {payload : List Byte}
    (why : if (∃ slot : Slot, (s.exchange.record slot).map Record.pair = some (f.src, f.tag)) then payload = [0x13]
       else if s.segA.lentExpired = true ∧ s.segB.lentExpired = true then payload = [0x14, 0x03]
       else ((∀ slot : Slot, s.exchange.record slot ≠ none) ∨
          (s.segA.lentExpired = false ∧ s.segA.config.depth.toNat ≤ (s.exchange.standing .a).length) ∨
          (s.segB.lentExpired = false ∧ s.segB.config.depth.toNat ≤ (s.exchange.standing .b).length)) ∧
         payload = [0x12, maskByte (!s.segA.lentExpired) (!s.segB.lentExpired)]) :
    s.admissionRefusal (s.offer f e true) = some payload := by
  have lent := s.lentRefusal_fanout f e
  split at why
  · rename_i dup
    rw [why]
    exact State.admissionRefusal_duplicate dup
  · rename_i new
    split at why
    · rename_i expired
      rw [if_pos expired] at lent
      rw [why]
      exact State.admissionRefusal_lent new lent
    · rename_i expired
      rw [if_neg expired] at lent
      obtain ⟨busy, rfl⟩ := why
      refine (State.admissionRefusal_busy new lent (busy.imp_right fun deep => ?_)).trans
        (congrArg (fun m => some (nakBusy m)) (s.offer_fanout_mask f e))
      rcases deep with ⟨here, deep⟩ | ⟨here, deep⟩
      · exact ⟨.a, by rw [State.offer_fanout_names]; simpa using here, deep⟩
      · exact ⟨.b, by rw [State.offer_fanout_names]; simpa using here, deep⟩

/-- Whether a segment begins a FANOUT delivery at once: its sequencer is in IDLE, and it is not lent-expired (R72). -/
def Segment.beginsDelivery (g : Segment) : Bool := g.lentExpired == false && g.state == .idle

theorem State.beginsOn_fanout (s : State) (f : Frame) (e : RouteEntry) (x : Seg) :
    s.beginsOn (s.offer f e true).carriage.segments x = (s.seg x).beginsDelivery := by
  rw [State.beginsOn, Carriage.segments_has, State.offer_fanout_names, Segment.beginsDelivery]
  cases (s.seg x).lentExpired <;> rfl

/-- A FANOUT offer whose delivery begins on a segment, or on both, is ACTIVE and has counted each (R66, R104). -/
theorem State.offer_told (s : State) (f : Frame) (e : RouteEntry) (beginsA beginsB : Bool) (tagA tagB : Tag) :
    ((s.offer f e true).told beginsA tagA).told beginsB tagB = { s.offer f e true with
      state := if beginsA || beginsB then .active else .queued
      attempts := (if beginsA then 1 else 0) + (if beginsB then 1 else 0) } := by
  cases beginsA <;> cases beginsB <;> rfl

theorem Segment.told_offer (g : Segment) (s : State) (f : Frame) (e : RouteEntry) (begins : Bool) (slot : Slot) :
    g.told begins slot (s.offer f e true) =
      if begins then g.sendNow slot 0 (e.remap.getD f.fn) f.payload else g := by
  cases begins <;> rfl

/-- The record of an admitted FANOUT offer, and the segments that begin its delivery, in the words of R72 and R104. -/
theorem State.admittedAs_fanout (s : State) (f : Frame) (e : RouteEntry) (slot : Slot) :
    s.admittedAs slot (s.offer f e true) = (({ s with
        exchange := { s.exchange with
          slots := s.exchange.slots.set slot (some { s.offer f e true with
            state := if s.segA.beginsDelivery || s.segB.beginsDelivery then .active else .queued
            attempts := (if s.segA.beginsDelivery then 1 else 0) + (if s.segB.beginsDelivery then 1 else 0) })
          admission := s.exchange.admission ++ [slot] } }.modSeg .a fun g =>
            if g.beginsDelivery then g.sendNow slot 0 (e.remap.getD f.fn) f.payload else g).modSeg .b fun g =>
            if g.beginsDelivery then g.sendNow slot 0 (e.remap.getD f.fn) f.payload else g) := by
  have beginsA := s.beginsOn_fanout f e .a
  have beginsB := s.beginsOn_fanout f e .b
  simp only [State.seg_a, State.seg_b] at beginsA beginsB
  simp only [State.admittedAs, beginsA, beginsB, State.offer_told, Segment.told_offer]
  rfl

/-- What no check refuses is admitted (R68 to R72). -/
theorem State.fanoutAdmitted {s : State} {f : Frame} {e : RouteEntry} {slot : Slot} (a : Acting s) (law : ExchangeLaw s)
    (new : ∀ j : Slot, (s.exchange.record j).map Record.pair ≠ some (f.src, f.tag))
    (here : s.segA.lentExpired = false ∨ s.segB.lentExpired = false)
    (free : s.exchange.record slot = none) (lowest : ∀ j : Slot, j < slot → s.exchange.record j ≠ none)
    (room : ∀ x : Seg, (s.seg x).lentExpired = false →
      (s.exchange.standing x).length < (s.seg x).config.depth.toNat) :
    s.judgeOffer f (s.offer f e true) = s.admittedAs slot (s.offer f e true) := by
  have slotOf := ExchangeTable.freeSlotOf_eq free lowest
  have lent : s.lentRefusal (s.offer f e true).carriage = none := by
    rw [State.lentRefusal_fanout, if_neg]
    rintro ⟨a, b⟩
    simp [a, b] at here
  have admits := State.admissionRefusal_none (r := s.offer f e true) new lent slotOf fun x named => room x (by
    rwa [State.offer_fanout_names, Bool.not_eq_true'] at named)
  rw [State.judgeOffer_admits admits, State.admitRecord_eq slotOf, (Admissible.of_offer slotOf admits).tellNew_eq a law]

/-- Settles O20: the three checks in their order, or the record placed and begun where the sequencers are in IDLE. -/
theorem fanoutIsAdmitted : Obligations.FanoutIsAdmitted := by
  intro s f i e d law good kind dest hit he action
  obtain ⟨exchange, seg, -, -⟩ := s.taken_hit_keeps f i e
  have acts : ((s.taken f).hit i e).act f e =
      ((s.taken f).hit i e).judgeOffer f (((s.taken f).hit i e).offer f e true) := by rw [State.act, action]
  refine ⟨fun payload why => exec_routedRequest_refused d law.1 good kind dest hit he
    (acts.trans (State.judgeOffer_refused (State.fanoutRefusal (s := (s.taken f).hit i e) why))),
    fun slot new here free lowest room => ?_⟩
  have after : ExchangeLaw ((s.taken f).hit i e) := law.of_same law.1 (law.2.1.same rfl seg) rfl exchange fun x => by
    rw [seg]
    exact ⟨rfl, rfl⟩
  intro begins
  rw [exec_routedRequest d good kind dest, State.route_hit (s := s.taken f) hit he, acts,
    State.fanoutAdmitted (s := (s.taken f).hit i e) d.1 after new here free lowest
      (by simpa only [exchange, seg] using room),
    State.admittedAs_fanout, State.offer_fanout]
  rfl

end Sys2Proof.Machine
end

section
/-! SUPPORT. What the search for a key in a bank answers (R36, R37). -/

namespace Sys2Proof.Machine

/-- No valid entry of the bank has the key. -/
theorem bankFind_none {b : Bank} {key : Byte × Option Byte}
    (miss : ∀ (j : Fin 48) (e : RouteEntry), b[j] = some e → e.key ≠ key) : bankFind b key = none := by
  refine List.findIdx?_eq_none_iff.mpr fun o mem => ?_
  obtain ⟨j, hj, rfl⟩ := Vector.mem_iff_getElem.mp (Vector.mem_toList_iff.mp mem)
  split
  · rename_i e he
    exact beq_eq_false_iff_ne.mpr (miss ⟨j, hj⟩ e he)
  · rfl

/-- In a bank without equal keys the entry found is the one with the key (R36). -/
theorem bankFind_some {b : Bank} {i : Fin 48} {e : RouteEntry} (distinct : KeysDistinct b) (he : b[i] = some e) :
    bankFind b e.key = some i.val := by
  refine List.findIdx?_eq_some_iff_getElem.mpr ⟨by simp, ?_, fun j hj found => ?_⟩
  · simp only [Vector.getElem_toList]
    rw [Fin.getElem_fin] at he
    rw [he]
    exact beq_self_eq_true _
  · have hj48 : j < 48 := hj.trans i.isLt
    simp only [Vector.getElem_toList] at found
    split at found
    · rename_i d hd
      refine distinct i ⟨j, hj48⟩ (Fin.ne_of_gt hj) (by rw [he]; rfl) ?_
      have hd : b[(⟨j, hj48⟩ : Fin 48)] = some d := hd
      rw [he, hd, Option.map_some, Option.map_some, beq_iff_eq.mp found]
    · cases found

end Sys2Proof.Machine
end

section
/-! PROOF. O16: the exact key, then the address with ANY, then a miss (R37). -/

namespace Sys2Proof.Machine

/-- Settles O16: each of the two searches finds the one entry of its key, or none. -/
theorem lookupByKey : Obligations.LookupByKey := by
  intro t dest fn distinct
  have finds : ∀ (i : Fin 48) (e : RouteEntry) (m : Option Byte), t.active[i] = some e → e.trunkAddress = dest →
      e.fnMatch = m → bankFind t.active (dest, m) = some i.val := by
    rintro i e - he rfl rfl
    exact bankFind_some distinct he
  refine ⟨fun i e he address exact => ?_, fun noExact => ⟨fun i e he address any => ?_, fun noAny => ?_⟩⟩
  · rw [RouteTable.lookup, finds i e _ he address exact]
  · rw [RouteTable.lookup, bankFind_none noExact]
    exact finds i e none he address any
  · rw [RouteTable.lookup, bankFind_none noExact]
    exact bankFind_none noAny

end Sys2Proof.Machine
end

section
/-! PROOF. O19: a FORWARD offer that no check refuses (R39, R43, R48, R68 to R72, R91 to R93). -/

namespace Sys2Proof.Machine

/-- A FORWARD offer stands on the segment of its entry alone (R43). -/
theorem State.beginsOn_forward (s : State) (f : Frame) (e : RouteEntry) (x : Seg) :
    s.beginsOn (s.offer f e false).carriage.segments x = (e.segment == x && (s.seg x).state == .idle) := by
  rw [State.beginsOn, Carriage.segments_has]
  rfl

/-- A FORWARD offer admitted while its sequencer is busy or lent: the record waits (R72, R91). -/
theorem State.admittedAs_forward_waits {s : State} {e : RouteEntry} (f : Frame) (slot : Slot)
    (busy : (s.seg e.segment).state ≠ .idle) :
    s.admittedAs slot (s.offer f e false) = s.placedRecord slot (s.offer f e false) := by
  have begins : ∀ x, s.beginsOn (s.offer f e false).carriage.segments x = false := fun x => by
    rw [State.beginsOn_forward, Bool.and_eq_false_imp]
    intro here
    rw [← beq_iff_eq.mp here]
    exact beq_eq_false_iff_ne.mpr busy
  simp only [State.admittedAs, begins]
  rfl

/-- A FORWARD offer admitted while its sequencer is in IDLE: the first attempt begins with the segment's next tag
(R91 to R93). -/
theorem State.admittedAs_forward_begins {s : State} {e : RouteEntry} (f : Frame) (slot : Slot)
    (idle : (s.seg e.segment).state = .idle) :
    s.admittedAs slot (s.offer f e false) =
      (s.placedRecord slot ((s.offer f e false).begin (s.seg e.segment).tagCounter)).modSeg e.segment fun g =>
        g.begin slot ((s.offer f e false).requestFrame g.tagCounter) := by
  have begins : ∀ x, s.beginsOn (s.offer f e false).carriage.segments x = (e.segment == x) := fun x => by
    rw [State.beginsOn_forward]
    cases here : e.segment == x with
    | false => rfl
    | true => rw [← beq_iff_eq.mp here, idle]; rfl
  simp only [State.admittedAs, begins]
  cases e.segment <;> rfl

/-- What no check refuses is admitted (R68 to R72). -/
theorem State.forwardAdmitted {s : State} {f : Frame} {e : RouteEntry} {slot : Slot} (a : Acting s)
    (law : ExchangeLaw s) (new : ∀ j : Slot, (s.exchange.record j).map Record.pair ≠ some (f.src, f.tag))
    (here : (s.seg e.segment).lentExpired = false)
    (free : s.exchange.record slot = none) (lowest : ∀ j : Slot, j < slot → s.exchange.record j ≠ none)
    (room : (s.exchange.standing e.segment).length < (s.seg e.segment).config.depth.toNat) :
    s.judgeOffer f (s.offer f e false) = s.admittedAs slot (s.offer f e false) := by
  have slotOf := ExchangeTable.freeSlotOf_eq free lowest
  have lent : s.lentRefusal (s.offer f e false).carriage = none := if_neg (by simp [here])
  have admits := State.admissionRefusal_none (r := s.offer f e false) new lent slotOf fun x named => by
    have named : (e.segment == x) = true := named
    rwa [← beq_iff_eq.mp named]
  rw [State.judgeOffer_admits admits, State.admitRecord_eq slotOf, (Admissible.of_offer slotOf admits).tellNew_eq a law]

/-- A request taken, with its hit counted, leaves the laws of the exchange table as they are (R39). -/
theorem ExchangeLaw.taken_hit {s : State} (law : ExchangeLaw s) (f : Frame) (i : Nat) (e : RouteEntry) :
    ExchangeLaw ((s.taken f).hit i e) := by
  obtain ⟨exchange, seg, -, -⟩ := s.taken_hit_keeps f i e
  exact law.of_same law.1 (law.2.1.same rfl seg) rfl exchange fun x => by simp [seg]

/-- Settles O19: the record is placed, and begun where the sequencer is in IDLE. -/
theorem forwardIsAdmitted : Obligations.ForwardIsAdmitted := by
  intro s f i e slot d law good kind dest hit he action new here free lowest room
  obtain ⟨exchange, seg, -, -⟩ := s.taken_hit_keeps f i e
  have run : exec (.routedRequest f) s =
      .next (((s.taken f).hit i e).admittedAs slot (((s.taken f).hit i e).offer f e false)) := by
    rw [exec_routedRequest d good kind dest, State.route_hit (s := s.taken f) hit he, State.act, action]
    exact congrArg _ (State.forwardAdmitted (s := (s.taken f).hit i e) d.1 (law.taken_hit f i e) new (by rwa [seg]) free
      lowest (by rwa [exchange, seg]))
  refine ⟨fun busy => ?_, fun idle => ?_⟩
  · rw [run, State.admittedAs_forward_waits f slot (by rwa [seg])]
    rfl
  · rw [run, State.admittedAs_forward_begins f slot (by rwa [seg]), seg]
    rfl

end Sys2Proof.Machine
end

section
/-! SUPPORT. The fields of a management command in offset order, and the tests that judge them (R158 step 4). -/

namespace Sys2Proof.Machine

/-! ### Codes in range -/

theorem portOf_isSome (b : Byte) : (portOf b).isSome = true ↔ b.toNat ≤ 2 := by
  unfold portOf
  split <;> grind

theorem parityOf_isSome (b : Byte) : (parityOf b).isSome = true ↔ b.toNat ≤ 2 := by
  unfold parityOf
  split <;> grind

theorem edgeOf_isSome (b : Byte) : (edgeOf b).isSome = true ↔ b.toNat ≤ 3 := by
  unfold edgeOf
  split <;> grind

theorem modeOf_isSome (b : Byte) : (modeOf b).isSome = true ↔ b.toNat ≤ 2 := by
  unfold modeOf
  split <;> grind

theorem segOf_isSome (b : Byte) : (segOf b).isSome = true ↔ b.toNat = 1 ∨ b.toNat = 2 := by
  unfold segOf
  split
  · simp [*]
  · split <;> simp_all [← BitVec.toNat_inj]

theorem missOf_isSome (b : Byte) : (missOf b).isSome = true ↔ b.toNat ≤ 1 := by
  rw [missOf_eq]
  split <;> simp [*]

theorem sourceOk_iff (b : Byte) : sourceOk b = true ↔ 1 ≤ b.toNat ∧ b.toNat ≤ 254 := by
  simp only [sourceOk, Bool.and_eq_true, bne_iff_ne]
  bv_omega

/-! ### The first test that fails -/

/-- The tests judge the fields of a payload: their offsets rise, and a field is in range exactly where no test at its
offset fails (R158 step 4). -/
def JudgesFields (fn : Byte) (payload : List Byte) (tests : List (Byte × Bool)) : Prop :=
  tests.Pairwise (fun p q => p.1.toNat < q.1.toNat) ∧
  ∀ o, fieldInRange fn payload o ↔ ∀ p ∈ tests, p.1.toNat = o → p.2 = true

namespace JudgesFields
variable {fn : Byte} {payload : List Byte} {tests : List (Byte × Bool)}

/-- The first field out of range is the first test that fails. -/
theorem first (h : JudgesFields fn payload tests) {offset : Nat} (out : ¬ fieldInRange fn payload offset)
    (before : ∀ o, o < offset → fieldInRange fn payload o) :
    firstOutOfRange tests = some (BitVec.ofNat 8 offset) := by
  obtain ⟨order, fields⟩ := h
  rw [fields] at out
  push Not at out
  obtain ⟨p, mem, rfl, fails⟩ := out
  obtain ⟨l, m, rfl⟩ := List.append_of_mem mem
  have passes : ∀ q ∈ l, q.2 = true := fun q hq =>
    (fields q.1.toNat).mp (before _ ((List.pairwise_append.mp order).2.2 q hq p List.mem_cons_self)) q
      (List.mem_append_left _ hq) rfl
  have found : (l ++ p :: m).find? (fun t => !t.2) = some p :=
    List.find?_eq_some_iff_append.mpr ⟨by simpa using fails, l, m, rfl, fun q hq => by simp [passes q hq]⟩
  rw [firstOutOfRange, found, Option.map_some, BitVec.ofNat_toNat, BitVec.setWidth_eq]

/-- Where every field is in range, no test fails. -/
theorem passed (h : JudgesFields fn payload tests) {n : Nat} (offsets : ∀ p ∈ tests, p.1.toNat < n)
    (inRange : ∀ o, o < n → fieldInRange fn payload o) : firstOutOfRange tests = none :=
  (firstOutOfRange_none_iff tests).mpr fun p mem => (h.2 _).mp (inRange _ (offsets p mem)) p mem rfl

/-! ### The tests of each command -/

theorem readCounters (port clear : Byte) :
    JudgesFields 0x02 [port, clear] [(0, (portOf port).isSome), (1, decide (clear.toNat ≤ 1))] := by
  refine ⟨by simp, fun o => ?_⟩
  rcases o with _ | _ | o <;> simp [fieldInRange, portOf_isSome]

/-- The image's fields by R55's table: remap (6) and refuse detail (9) have no range. -/
theorem stageEntry (i a t f fl sa rm tmo rl rd : Byte) :
    JudgesFields 0x10 [i, a, t, f, fl, sa, rm, tmo, rl, rd]
      [(0, decide (i.toNat < 48)), (1, decide (a.toNat ≤ 4)), (2, !(a != 0) || sourceOk t),
        (3, !(a != 0 && fl.getLsbD 0) || f == 0), (4, !(a != 0) || decide (fl.toNat < 8)),
        (5, if a = 1 then decide (1 ≤ sa.toNat ∧ sa.toNat ≤ 253) else if a = 2 then sa == 0 else true),
        (7, a != 1 || tmo != 0), (8, !(a != 0) || decide (rl.toNat ≤ 3))] := by
  have zero : ∀ b : Byte, b = 0 ↔ b.toNat = 0 := fun b => BitVec.toNat_inj.symm
  refine ⟨by simp, fun o => ?_⟩
  rcases o with _ | _ | _ | _ | _ | _ | _ | _ | _ | o <;> simp [fieldInRange, sourceOk_iff]
  case zero => omega
  case succ.succ.zero => tauto
  all_goals grind

theorem readEntry (bank index : Byte) :
    JudgesFields 0x12 [bank, index] [(0, decide (bank.toNat ≤ 1)), (1, decide (index.toNat < 48))] := by
  refine ⟨by simp, fun o => ?_⟩
  rcases o with _ | _ | o <;> simp [fieldInRange, Nat.lt_succ_iff]

theorem setMissPolicy (code : Byte) : JudgesFields 0x14 [code] [(0, (missOf code).isSome)] := by
  refine ⟨by simp, fun o => ?_⟩
  rcases o with _ | o <;> simp [fieldInRange, missOf_isSome]

theorem abortExchange (source tag : Byte) :
    JudgesFields 0x21 [source, tag] [(0, sourceOk source), (1, decide (tag.toNat ≤ 31))] := by
  refine ⟨by simp, fun o => ?_⟩
  rcases o with _ | _ | o <;> simp [fieldInRange, sourceOk_iff]

theorem lineReset (segment : Byte) : JudgesFields 0x22 [segment] [(0, (segOf segment).isSome)] := by
  refine ⟨by simp, fun o => ?_⟩
  rcases o with _ | o <;> simp [fieldInRange, segOf_isSome]

theorem setSegment (segment rate parity gap guard depth patience : Byte) :
    JudgesFields 0x23 [segment, rate, parity, gap, guard, depth, patience]
      [(0, (segOf segment).isSome), (1, decide (rate.toNat ≤ 7)), (2, (parityOf parity).isSome),
        (3, decide (2 ≤ gap.toNat ∧ gap.toNat ≤ 15)), (4, decide (1 ≤ guard.toNat ∧ guard.toNat ≤ 15)),
        (5, decide (1 ≤ depth.toNat ∧ depth.toNat ≤ 16))] := by
  refine ⟨by simp, fun o => ?_⟩
  rcases o with _ | _ | _ | _ | _ | _ | o <;> simp [fieldInRange, segOf_isSome, parityOf_isSome]

theorem readSegment (segment : Byte) : JudgesFields 0x24 [segment] [(0, (segOf segment).isSome)] := by
  refine ⟨by simp, fun o => ?_⟩
  rcases o with _ | o <;> simp [fieldInRange, segOf_isSome]

theorem readInputs (clear : Byte) : JudgesFields 0x30 [clear] [(0, decide (clear.toNat ≤ 1))] := by
  refine ⟨by simp, fun o => ?_⟩
  rcases o with _ | o <;> simp [fieldInRange]

theorem setInput (line count edge cls : Byte) :
    JudgesFields 0x31 [line, count, edge, cls]
      [(0, decide (line.toNat < 16)), (1, decide (count.toNat < 16)), (2, (edgeOf edge).isSome),
        (3, decide (cls.toNat < 4))] := by
  refine ⟨by simp, fun o => ?_⟩
  rcases o with _ | _ | _ | _ | o <;> simp [fieldInRange, edgeOf_isSome, Nat.lt_succ_iff]

theorem setSamplePeriod (index : Byte) : JudgesFields 0x32 [index] [(0, decide (index.toNat ≤ 3))] := by
  refine ⟨by simp, fun o => ?_⟩
  rcases o with _ | o <;> simp [fieldInRange]

theorem reportControl (mode enables timeout : Byte) :
    JudgesFields 0x40 [mode, enables, timeout]
      [(0, (modeOf mode).isSome), (1, decide (enables.toNat ≤ 15)), (2, timeout != 0)] := by
  refine ⟨by simp, fun o => ?_⟩
  rcases o with _ | _ | _ | o <;> simp [fieldInRange, modeOf_isSome, Nat.one_le_iff_ne_zero, ← BitVec.toNat_inj]

end JudgesFields

/-! ### A command and its tests -/

/-- With room in the queue a command tests the fields of its payload in offset order, and the first test that fails
refuses it (R158 step 4). -/
def TestsFields (fn : Byte) (r : Request) : Prop :=
  ∃ tests : List (Byte × Bool), JudgesFields fn r.payload tests ∧
    ∀ (s : State) (offset : Byte), Ready s r → firstOutOfRange tests = some offset →
      exec (commandOf fn r) s = .next ((s.taken (s.commandFrame fn r)).refuse fn r (nakRange offset))

/-- Such a command is refused with the offset of its first field out of range. -/
theorem TestsFields.refused {fn : Byte} {r : Request} (h : TestsFields fn r) {s : State} {offset : Nat}
    (ready : Ready s r) (law : OutputLaw s) (out : ¬ fieldInRange fn r.payload offset)
    (before : ∀ o, o < offset → fieldInRange fn r.payload o) :
    exec (commandOf fn r) s =
      .next ((s.taken (s.commandFrame fn r)).answered .nak fn r [0x03, BitVec.ofNat 8 offset]) := by
  obtain ⟨tests, fields, refuses⟩ := h
  rw [refuses s _ ready (fields.first out before)]
  exact congrArg _ (State.refuse_answered _ fn r _ ready.2.2 (law.taken _) ready.1.1)

namespace TestsFields
variable {r : Request}

/-- A command none of whose fields has a range. -/
theorem of_no_range {fn : Byte} (all : ∀ o, fieldInRange fn r.payload o) : TestsFields fn r :=
  ⟨[], ⟨.nil, fun o => by simp [all o]⟩, fun s offset _ fails => by cases fails⟩

theorem readCounters {port clear : Byte} (hp : r.payload = [port, clear]) : TestsFields 0x02 r := by
  refine ⟨_, hp.symm ▸ JudgesFields.readCounters port clear, fun s offset ready fails => ?_⟩
  change execReadCounters r s = _
  simp only [execReadCounters, s.management_ready _ r _ ready, hp]
  cases named : portOf port <;> simp_all [firstOutOfRange]

theorem stageEntry {i a t f fl sa rm tmo rl rd : Byte}
    (hp : r.payload = [i, a, t, f, fl, sa, rm, tmo, rl, rd]) : TestsFields 0x10 r := by
  refine ⟨_, hp.symm ▸ JudgesFields.stageEntry i a t f fl sa rm tmo rl rd, fun s offset ready fails => ?_⟩
  change execStageEntry r s = _
  have range : RouteImage.outOfRange ⟨i, a, t, f, fl, sa, rm, tmo, rl, rd⟩ = some offset := fails
  simp only [execStageEntry, s.management_ready _ r _ ready, hp, range]

theorem readEntry {bank index : Byte} (hp : r.payload = [bank, index]) : TestsFields 0x12 r := by
  refine ⟨_, hp.symm ▸ JudgesFields.readEntry bank index, fun s offset ready fails => ?_⟩
  change execReadEntry r s = _
  simp only [execReadEntry, s.management_ready _ r _ ready, hp, fails]

theorem setMissPolicy {code : Byte} (hp : r.payload = [code]) : TestsFields 0x14 r := by
  refine ⟨_, hp.symm ▸ JudgesFields.setMissPolicy code, fun s offset ready fails => ?_⟩
  change execSetMissPolicy r s = _
  simp only [execSetMissPolicy, s.management_ready _ r _ ready, hp]
  cases set : missOf code <;> simp_all [firstOutOfRange]

theorem abortExchange {source tag : Byte} (hp : r.payload = [source, tag]) : TestsFields 0x21 r := by
  refine ⟨_, hp.symm ▸ JudgesFields.abortExchange source tag, fun s offset ready fails => ?_⟩
  change execAbortExchange r s = _
  simp only [execAbortExchange, s.management_ready _ r _ ready, hp, fails]

theorem lineReset {segment : Byte} (hp : r.payload = [segment]) : TestsFields 0x22 r := by
  refine ⟨_, hp.symm ▸ JudgesFields.lineReset segment, fun s offset ready fails => ?_⟩
  change execLineReset r s = _
  simp only [execLineReset, s.management_ready _ r _ ready, hp]
  cases named : segOf segment <;> simp_all [firstOutOfRange]

theorem setSegment {segment rate parity gap guard depth patience : Byte}
    (hp : r.payload = [segment, rate, parity, gap, guard, depth, patience]) : TestsFields 0x23 r := by
  refine ⟨_, hp.symm ▸ JudgesFields.setSegment segment rate parity gap guard depth patience,
    fun s offset ready fails => ?_⟩
  change execSetSegment r s = _
  have range : segmentOutOfRange segment rate parity gap guard depth = some offset := fails
  simp only [execSetSegment, s.management_ready _ r _ ready, hp, range]

theorem readSegment {segment : Byte} (hp : r.payload = [segment]) : TestsFields 0x24 r := by
  refine ⟨_, hp.symm ▸ JudgesFields.readSegment segment, fun s offset ready fails => ?_⟩
  change execReadSegment r s = _
  simp only [execReadSegment, s.management_ready _ r _ ready, hp]
  cases named : segOf segment <;> simp_all [firstOutOfRange]

theorem readInputs {clear : Byte} (hp : r.payload = [clear]) : TestsFields 0x30 r := by
  refine ⟨_, hp.symm ▸ JudgesFields.readInputs clear, fun s offset ready fails => ?_⟩
  change execReadInputs r s = _
  simp_all [execReadInputs, s.management_ready _ r _ ready, firstOutOfRange]

theorem setInput {line count edge cls : Byte} (hp : r.payload = [line, count, edge, cls]) : TestsFields 0x31 r := by
  refine ⟨_, hp.symm ▸ JudgesFields.setInput line count edge cls, fun s offset ready fails => ?_⟩
  change execSetInput r s = _
  simp only [execSetInput, s.management_ready _ r _ ready, hp, fails]

theorem setSamplePeriod {index : Byte} (hp : r.payload = [index]) : TestsFields 0x32 r := by
  refine ⟨_, hp.symm ▸ JudgesFields.setSamplePeriod index, fun s offset ready fails => ?_⟩
  change execSetSamplePeriod r s = _
  simp_all [execSetSamplePeriod, s.management_ready _ r _ ready, firstOutOfRange]

theorem reportControl {mode enables timeout : Byte}
    (hp : r.payload = [mode, enables, timeout]) : TestsFields 0x40 r := by
  refine ⟨_, hp.symm ▸ JudgesFields.reportControl mode enables timeout, fun s offset ready fails => ?_⟩
  change execReportControl r s = _
  simp only [execReportControl, s.management_ready _ r _ ready, hp, fails]

end TestsFields
end Sys2Proof.Machine
end

section
/-! PROOF. O25: the first field out of range refuses a management command (R158 step 4). -/

namespace Sys2Proof.Machine

/-- Every command of the table, its payload of the right length, tests its fields (R158). -/
theorem testsFields {fn : Byte} {r : Request} (len : commandLength fn = some r.payload.length) : TestsFields fn r := by
  unfold commandLength at len
  split at len
  case h_19 => cases len
  all_goals
    rename_i named
    obtain rfl := eq_ofNat_of_toNat named
  case h_2 => match hp : r.payload, len with
    | [_, _], _ => exact .readCounters hp
  case h_3 => match hp : r.payload, len with
    | [_, _, _, _, _, _, _, _, _, _], _ => exact .stageEntry hp
  case h_5 => match hp : r.payload, len with
    | [_, _], _ => exact .readEntry hp
  case h_7 => match hp : r.payload, len with
    | [_], _ => exact .setMissPolicy hp
  case h_9 => match hp : r.payload, len with
    | [_, _], _ => exact .abortExchange hp
  case h_10 => match hp : r.payload, len with
    | [_], _ => exact .lineReset hp
  case h_11 => match hp : r.payload, len with
    | [_, _, _, _, _, _, _], _ => exact .setSegment hp
  case h_12 => match hp : r.payload, len with
    | [_], _ => exact .readSegment hp
  case h_13 => match hp : r.payload, len with
    | [_], _ => exact .readInputs hp
  case h_14 => match hp : r.payload, len with
    | [_, _, _, _], _ => exact .setInput hp
  case h_15 => match hp : r.payload, len with
    | [_], _ => exact .setSamplePeriod hp
  case h_16 => match hp : r.payload, len with
    | [_, _, _], _ => exact .reportControl hp
  all_goals exact .of_no_range fun o => by simp [fieldInRange]

/-- Settles O25: the tests of the command stand in offset order, and the first that fails is the field's. -/
theorem firstFieldOutOfRangeRefused : Obligations.FirstFieldOutOfRangeRefused :=
  fun _ _ _ _ ready law len out before => (testsFields len).refused ready law out before

end Sys2Proof.Machine
end

section
/-! SUPPORT. STAGE-ENTRY: the image in range, and what it writes (R51, R54 to R56). -/

namespace Sys2Proof.Machine

theorem actionOf_actionCode (a : Action) : actionOf (actionCode a) = some a := by cases a <;> rfl

/-- Action 0 makes the entry EMPTY (R56). -/
theorem RouteImage.entry_empty {m : RouteImage} (h : m.action = 0) : m.entry = none := by
  rw [RouteImage.entry, h]
  rfl

/-- The entry an image with the code of an action describes, its hit count 0 (R56). -/
theorem RouteImage.entry_of_code {m : RouteImage} {a : Action} (h : m.action = actionCode a) :
    m.entry = some
      { action := a, trunkAddress := m.trunkAddress, fnMatch := if m.flags.getLsbD 0 then none else some m.fnMatch,
        segment := if m.flags.getLsbD 2 then .b else .a, segAddress := m.segAddress,
        remap := if m.flags.getLsbD 1 then some m.remap else none, timeout := m.timeout,
        retryLimit := m.retryLimit, refuseDetail := m.refuseDetail, hits := 0 } := by
  rw [RouteImage.entry, h, actionOf_actionCode]
  rfl

/-- An entry written as EMPTY is one valid entry less, if it was valid (R51, R54). -/
theorem stagedCountAfter_empty (count : Nat) (before : Option RouteEntry) :
    stagedCountAfter count before none = if before = none then count else count - 1 := by
  cases before <;> rfl

/-- A valid entry written is one valid entry more, if the entry was EMPTY (R51, R54). -/
theorem stagedCountAfter_valid (count : Nat) (before : Option RouteEntry) (e : RouteEntry) :
    stagedCountAfter count before (some e) = if before = none then count + 1 else count := by
  cases before <;> rfl

theorem RouteTable.stage_eq (t : RouteTable) {m : RouteImage} (h : m.index.toNat < 48) :
    t.stage m = { t with
      staged := t.staged.set m.index.toNat m.entry
      stagedCount := stagedCountAfter t.stagedCount t.staged[m.index.toNat] m.entry } := by
  have written : t.staged.setIfInBounds m.index.toNat m.entry = t.staged.set m.index.toNat m.entry :=
    Vector.ext fun j _ => by rw [Vector.getElem_setIfInBounds, Vector.getElem_set]
  rw [RouteTable.stage, bankEntry_eq _ h, written]

/-- STAGE-ENTRY with every field in range writes its image and answers with the staged count (R54). -/
theorem exec_stageEntry {s : State} {r : Request} {i a t f fl sa rm tmo rl rd : Byte} (ready : Ready s r)
    (law : OutputLaw s) (hp : r.payload = [i, a, t, f, fl, sa, rm, tmo, rl, rd])
    (range : ∀ o, o < 10 → fieldInRange 0x10 r.payload o) :
    exec (.stageEntry r) s =
      let routes := s.routes.stage ⟨i, a, t, f, fl, sa, rm, tmo, rl, rd⟩
      .next ({ s.taken (s.commandFrame 0x10 r) with routes := routes }.answered .rsp 0x10 r
        [i, BitVec.ofNat 8 routes.stagedCount]) := by
  rw [hp] at range
  have inRange : RouteImage.outOfRange ⟨i, a, t, f, fl, sa, rm, tmo, rl, rd⟩ = none :=
    (JudgesFields.stageEntry i a t f fl sa rm tmo rl rd).passed (by simp) range
  change execStageEntry r s = _
  simp only [execStageEntry, s.management_ready _ r _ ready, hp, inRange]
  exact congrArg _ (State.respond_after ready law _ _ _ _ ⟨rfl, rfl, rfl⟩)

end Sys2Proof.Machine
end

section
/-! PROOF. O28: STAGE-ENTRY with every field in range (R51, R54 to R56). -/

namespace Sys2Proof.Machine

/-- Settles O28: the image is in range, and its entry is EMPTY or the one of its action. -/
theorem stageEntryWrites : Obligations.StageEntryWrites := by
  intro s r i a t f fl sa rm tmo rl rd h ready law hp range
  have run := exec_stageEntry ready law hp range
  simp only [RouteTable.stage_eq s.routes (m := ⟨i, a, t, f, fl, sa, rm, tmo, rl, rd⟩) h] at run
  refine ⟨fun empty => ?_, fun act code => ?_⟩
  · rw [run, RouteImage.entry_empty empty, stagedCountAfter_empty]
  · rw [run, RouteImage.entry_of_code code, stagedCountAfter_valid]

end Sys2Proof.Machine
end

section
/-! SUPPORT. The consistency check of COMMIT: the staged entries that offend, the first of them, or none (R61); and the
three outcomes of COMMIT (R60 to R62). -/

namespace Sys2Proof.Machine

/-! ### The entries that offend (R61) -/

/-- The entry at a place of the list offends: it is for the gateway address, or its key was seen before the list or
stands at an earlier place of it (R61). -/
def Offends (gateway : Byte) (seen : List (Byte × Option Byte)) (l : List (Option RouteEntry)) (k : Nat) : Prop :=
  ∃ e, l[k]? = some (some e) ∧
    (e.trunkAddress = gateway ∨ e.key ∈ seen ∨ some e.key ∈ (l.take k).map (Option.map RouteEntry.key))

theorem offends_zero {gateway : Byte} {seen : List (Byte × Option Byte)} {e : RouteEntry}
    {l : List (Option RouteEntry)} :
    Offends gateway seen (some e :: l) 0 ↔ e.trunkAddress = gateway ∨ e.key ∈ seen := by
  simp [Offends]

/-- An EMPTY place before changes nothing. -/
theorem offends_cons_none {gateway : Byte} {seen : List (Byte × Option Byte)} {l : List (Option RouteEntry)} {k : Nat} :
    Offends gateway seen (none :: l) (k + 1) ↔ Offends gateway seen l k := by
  simp [Offends]

/-- A valid entry before is one key more that was seen. -/
theorem offends_cons_some {gateway : Byte} {seen : List (Byte × Option Byte)} {a : RouteEntry}
    {l : List (Option RouteEntry)} {k : Nat} :
    Offends gateway seen (some a :: l) (k + 1) ↔ Offends gateway (a.key :: seen) l k := by
  simp only [Offends, List.getElem?_cons_succ, List.take_succ_cons, List.map_cons, List.mem_cons, Option.map_some,
    Option.some.injEq, or_left_comm, or_assoc]

/-- The check answers the first place that offends (R61). -/
theorem conflictFrom_first {gateway : Byte} {l : List (Option RouteEntry)} :
    ∀ {seen : List (Byte × Option Byte)} {i k : Nat}, Offends gateway seen l k →
      (∀ j, j < k → ¬ Offends gateway seen l j) → conflictFrom gateway seen i l = some (i + k) := by
  induction l with
  | nil => rintro seen i k ⟨e, he, -⟩; simp at he
  | cons o l ih =>
    intro seen i k at_k before
    cases o with
    | none =>
      cases k with
      | zero => obtain ⟨e, he, -⟩ := at_k; simp at he
      | succ k =>
        rw [conflictFrom, ih (offends_cons_none.mp at_k) fun j hj h => before (j + 1) (by omega)
          (offends_cons_none.mpr h), Nat.add_right_comm, Nat.add_assoc]
    | some a =>
      cases k with
      | zero => exact if_pos (offends_zero.mp at_k)
      | succ k =>
        rw [conflictFrom, if_neg (mt offends_zero.mpr (before 0 (by omega))), ih (offends_cons_some.mp at_k)
          fun j hj h => before (j + 1) (by omega) (offends_cons_some.mpr h), Nat.add_right_comm, Nat.add_assoc]

/-- With no place that offends the check answers none (R61). -/
theorem conflictFrom_eq_none {gateway : Byte} {l : List (Option RouteEntry)} :
    ∀ {seen : List (Byte × Option Byte)} {i : Nat}, (∀ k, ¬ Offends gateway seen l k) →
      conflictFrom gateway seen i l = none := by
  induction l with
  | nil => intros; rfl
  | cons o l ih =>
    intro seen i clean
    cases o with
    | none => exact ih fun k h => clean (k + 1) (offends_cons_none.mpr h)
    | some a =>
      rw [conflictFrom, if_neg (mt offends_zero.mpr (clean 0))]
      exact ih fun k h => clean (k + 1) (offends_cons_some.mpr h)

/-- A key stands in the list before a place of a bank where an earlier entry of the bank has it. -/
theorem mem_take_keys_iff {b : Bank} {i : Fin 48} {key : Byte × Option Byte} :
    some key ∈ (b.toList.take i).map (Option.map RouteEntry.key) ↔
      ∃ j : Fin 48, j < i ∧ (b[j]).map RouteEntry.key = some key := by
  simp only [List.mem_map, List.mem_take_iff_getElem]
  constructor
  · rintro ⟨_, ⟨j, hj, rfl⟩, hk⟩
    exact ⟨⟨j, by omega⟩, by simpa [Fin.lt_def] using hj, by simpa using hk⟩
  · rintro ⟨j, hj, hk⟩
    exact ⟨b[j], ⟨j, by simpa using hj, by simp⟩, hk⟩

/-- The offending places of a bank (R61). -/
theorem offends_bank_iff {b : Bank} {gateway : Byte} {k : Nat} :
    Offends gateway [] b.toList k ↔ ∃ (i : Fin 48) (e : RouteEntry), i.val = k ∧ b[i] = some e ∧
      (e.trunkAddress = gateway ∨ ∃ j : Fin 48, j < i ∧ (b[j]).map RouteEntry.key = some e.key) := by
  constructor
  · rintro ⟨e, he, why⟩
    obtain ⟨hk, he⟩ := List.getElem?_eq_some_iff.mp he
    have hk : k < 48 := by simpa using hk
    refine ⟨⟨k, hk⟩, e, rfl, by simpa using he, why.imp_right fun h => ?_⟩
    exact mem_take_keys_iff.mp (h.resolve_left List.not_mem_nil)
  · rintro ⟨i, e, rfl, he, why⟩
    exact ⟨e, by simpa using he, why.imp_right fun h => Or.inr (mem_take_keys_iff.mpr h)⟩

/-- The check of the staged bank answers its offending entry of lowest index (R61). -/
theorem RouteTable.conflict_first {t : RouteTable} {gateway : Byte} {i : Fin 48} {e : RouteEntry}
    (he : t.staged[i] = some e)
    (why : e.trunkAddress = gateway ∨ ∃ j : Fin 48, j < i ∧ (t.staged[j]).map RouteEntry.key = some e.key)
    (before : ∀ (k : Fin 48) (d : RouteEntry), k < i → t.staged[k] = some d →
      d.trunkAddress ≠ gateway ∧ ∀ j : Fin 48, j < k → (t.staged[j]).map RouteEntry.key ≠ some d.key) :
    t.conflict gateway = some i.val := by
  refine (conflictFrom_first (offends_bank_iff.mpr ⟨i, e, rfl, he, why⟩) fun k hk h => ?_).trans (by rw [Nat.zero_add])
  obtain ⟨k, d, rfl, hd, own | ⟨j, hj, same⟩⟩ := offends_bank_iff.mp h
  · exact (before k d hk hd).1 own
  · exact (before k d hk hd).2 j hj same

/-- In a bank with no key twice and no entry for the gateway address the check finds nothing (R36, R61). -/
theorem RouteTable.conflict_eq_none {t : RouteTable} {gateway : Byte} (distinct : KeysDistinct t.staged)
    (foreign : ∀ i : Fin 48, (t.staged[i]).map RouteEntry.trunkAddress ≠ some gateway) :
    t.conflict gateway = none := by
  refine conflictFrom_eq_none fun k h => ?_
  obtain ⟨i, e, -, he, own | ⟨j, hj, same⟩⟩ := offends_bank_iff.mp h
  · exact foreign i (by rw [he, Option.map_some, own])
  · exact distinct i j hj.ne' (by rw [he]; rfl) (by rw [he, same]; rfl)

/-! ### The outcomes of COMMIT (R60 to R62) -/

@[simp] theorem State.taken_routes (s : State) (f : Frame) : (s.taken f).routes = s.routes := rfl

@[simp] theorem State.taken_address (s : State) (f : Frame) : (s.taken f).trunk.address = s.trunk.address := rfl

section
variable {s : State} {r : Request} {hi lo : Byte} (ready : Ready s r) (law : OutputLaw s) (hp : r.payload = [hi, lo])
include ready law hp

/-- Another generation than the current one is stale (R60). -/
theorem exec_commit_stale (stale : s.routes.generation ≠ hi ++ lo) :
    exec (.commit r) s = .next ((s.taken (s.commandFrame 0x13 r)).answered .nak 0x13 r
      (nakStale s.routes.generation)) := by
  change execCommit r s = _
  simp only [execCommit, s.management_ready _ r _ ready, hp, State.taken_routes, wordOf, ne_eq, Ne.symm stale,
    not_false_eq_true, if_true]
  exact congrArg _ (State.refuse_after ready law _ _ _ _ ⟨rfl, rfl, rfl⟩)

/-- The current generation with an offending entry is a conflict (R61). -/
theorem exec_commit_conflict (current : s.routes.generation = hi ++ lo) {i : Nat}
    (found : s.routes.conflict s.trunk.address = some i) :
    exec (.commit r) s = .next ((s.taken (s.commandFrame 0x13 r)).answered .nak 0x13 r
      (nakConflict (byteOf i))) := by
  change execCommit r s = _
  simp only [execCommit, s.management_ready _ r _ ready, hp, State.taken_routes, State.taken_address, wordOf,
    if_neg (not_not_intro current.symm), found]
  exact congrArg _ (State.refuse_after ready law _ _ _ _ ⟨rfl, rfl, rfl⟩)

/-- The current generation with no offending entry swaps the banks (R62). -/
theorem exec_commit_swap (current : s.routes.generation = hi ++ lo)
    (consistent : s.routes.conflict s.trunk.address = none) :
    exec (.commit r) s = .next (({ s.taken (s.commandFrame 0x13 r) with routes := s.routes.swap }).answered .rsp 0x13 r
      (wordBytes s.routes.swap.generation)) := by
  change execCommit r s = _
  simp only [execCommit, s.management_ready _ r _ ready, hp, State.taken_routes, State.taken_address, wordOf,
    if_neg (not_not_intro current.symm), consistent]
  exact congrArg _ (State.respond_after ready law _ _ _ _ ⟨rfl, rfl, rfl⟩)

end

end Sys2Proof.Machine
end

section
/-! PROOF. O29 and O30: CLEAR-STAGE and COMMIT (R57, R60 to R62). -/

namespace Sys2Proof.Machine

/-- Settles O29: an empty payload clears the staged bank, any other is of another length. -/
theorem clearStageEmpties : Obligations.ClearStageEmpties := by
  intro s r ready law
  refine ⟨fun empty => ?_, fun other => ?_⟩ <;> change execClearStage r s = _
  · simp only [execClearStage, s.management_ready _ r _ ready, empty]
    exact congrArg _ (State.respond_after ready law _ _ _ _ ⟨rfl, rfl, rfl⟩)
  · obtain ⟨b, rest, hp⟩ := List.exists_cons_of_ne_nil other
    simp only [execClearStage, s.management_ready _ r _ ready, hp]
    exact congrArg _ (State.refuse_after ready law _ _ _ _ ⟨rfl, rfl, rfl⟩)

/-- Settles O30: stale, then the first offending entry, then the swap. -/
theorem commitInThreeSteps : Obligations.CommitInThreeSteps := by
  intro s r hi lo ready law hp
  refine ⟨fun stale => ?_, fun i e current he why before => ?_, fun current distinct foreign => ?_⟩
  · exact exec_commit_stale ready law hp stale
  · exact exec_commit_conflict ready law hp current (RouteTable.conflict_first he why before)
  · exact exec_commit_swap ready law hp current (RouteTable.conflict_eq_none distinct foreign)

end Sys2Proof.Machine
end

section
/-! PROOF. O59: the commit generation changes by a successful COMMIT and by a hard reset alone (R59). -/

namespace Sys2Proof.Machine

/-- A reply leaves the route table alone. -/
@[simp] theorem State.answered_routes (s : State) (k : FrameKind) (fn : Byte) (r : Request) (p : List Byte) :
    (s.answered k fn r p).routes = s.routes := by
  unfold State.answered State.placed
  split <;> rfl

/-- From `s` to `t` the commit generation is the same (R59). -/
def SameGeneration (s t : State) : Prop := t.routes.generation = s.routes.generation

theorem SameRoutes.generation {s t : State} (h : SameRoutes s t) : SameGeneration s t :=
  congrArg RouteTable.generation h.routes

namespace SameGeneration

theorem trans {s t u : State} (h : SameGeneration s t) (k : SameGeneration t u) : SameGeneration s u := Eq.trans k h

/-- A management command is taken or discarded with the generation as it was, and its own meaning decides (R158). -/
theorem management {s : State} (fn : Byte) (r : Request) (judge : State → State)
    (h : ∀ u, SameGeneration u (judge u)) : ∀ t, s.management fn r judge = .next t → SameGeneration s t :=
  State.management_keeps fn r judge rfl rfl rfl fun _ => h _

theorem refuse (s : State) (fn : Byte) (r : Request) (p : List Byte) : SameGeneration s (s.refuse fn r p) :=
  (SameRoutes.refuse s fn r p).generation

/-- A change of the route table that leaves the generation, and the RSP after it. -/
theorem respond_after (s : State) (f : RouteTable → RouteTable) (fn : Byte) (r : Request) (p : List Byte)
    (h : (f s.routes).generation = s.routes.generation) : SameGeneration s ((s.modRoutes f).respond fn r p) :=
  trans (t := s.modRoutes f) h (SameRoutes.respond _ fn r p).generation

theorem countHit (s : State) (i : Nat) : SameGeneration s (s.modRoutes fun t => t.countHit i) := by
  unfold SameGeneration
  rw [State.modRoutes_routes, RouteTable.countHit]
  split <;> rfl

theorem of_routedRequest (f : Frame) (s t : State) (h : execRoutedRequest f s = .next t) : SameGeneration s t := by
  refine State.trunkDelivery_keeps (P := SameGeneration s) f _ _ rfl rfl (fun _ _ => ?_) t h
  unfold State.route
  split
  · exact (SameRoutes.miss (s.taken f) f).generation
  · split
    · exact (SameRoutes.miss (s.taken f) f).generation
    · exact (countHit (s.taken f) _).trans (SameRoutes.act _ f _).generation

theorem of_stageEntry (r : Request) (s t : State) (h : execStageEntry r s = .next t) : SameGeneration s t := by
  refine management _ r _ (fun u => ?_) t h
  split
  · simp only []
    split
    · exact refuse u _ r _
    · exact respond_after u _ _ r _ rfl
  · exact refuse u _ r _

theorem of_clearStage (r : Request) (s t : State) (h : execClearStage r s = .next t) : SameGeneration s t := by
  refine management _ r _ (fun u => ?_) t h
  split
  · exact respond_after u _ _ r _ rfl
  · exact refuse u _ r _

theorem of_setMissPolicy (r : Request) (s t : State) (h : execSetMissPolicy r s = .next t) : SameGeneration s t := by
  refine management _ r _ (fun u => ?_) t h
  split
  · split
    · exact refuse u _ r _
    · exact respond_after u _ _ r _ rfl
  · exact refuse u _ r _

end SameGeneration

/-- A COMMIT leaves the route table, or swaps its banks (R62). -/
theorem exec_commit_routes (r : Request) (s t : State) (h : exec (.commit r) s = .next t) :
    t.routes = s.routes ∨ t.routes = s.routes.swap := by
  change execCommit r s = _ at h
  refine State.management_keeps (P := fun t => t.routes = s.routes ∨ t.routes = s.routes.swap) 0x13 r _
    (.inl rfl) (.inl rfl) (.inl rfl) (fun _ => ?_) t h
  split
  · split
    · exact .inl (State.refuse_routes ..)
    · split
      · exact .inl (State.refuse_routes ..)
      · exact .inr (State.respond_routes ..)
  · exact .inl (State.refuse_routes ..)

/-- The swap raises the generation by one, from 65535 to 0 (R59, R62). -/
theorem RouteTable.swap_generation (t : RouteTable) :
    t.swap.generation.toNat = (t.generation.toNat + 1) % 65536 := BitVec.toNat_add _ _

/-- Every command but a COMMIT and the end of a hard reset leaves the generation (R59). -/
theorem exec_sameGeneration (c : Instr) (s t : State) (hr : ∀ p, c ≠ .hardReset p) (hc : ∀ r, c ≠ .commit r)
    (h : exec c s = .next t) : SameGeneration s t := by
  cases c with
  | hardReset p => exact absurd rfl (hr p)
  | commit r => exact absurd rfl (hc r)
  | hardResetBegin k => cases h; rfl
  | routedRequest f => exact SameGeneration.of_routedRequest f s t h
  | stageEntry r => exact SameGeneration.of_stageEntry r s t h
  | clearStage r => exact SameGeneration.of_clearStage r s t h
  | setMissPolicy r => exact SameGeneration.of_setMissPolicy r s t h
  | softReset => exact (SameRoutes.of_softReset s t h).generation
  | millisecondTick => exact (SameRoutes.of_millisecondTick s t h).generation
  | idleQualification p => exact (SameRoutes.of_idleQualification p s t h).generation
  | arrival p k => exact (SameRoutes.of_arrival p k s t h).generation
  | lineBreak p => exact (SameRoutes.of_lineBreak p s t h).generation
  | gapTimerExpiry p => exact (SameRoutes.of_gapTimerExpiry p s t h).generation
  | breakEnd p => exact (SameRoutes.of_breakEnd p s t h).generation
  | fallToSpace p b => exact (SameRoutes.of_fallToSpace p b s t h).generation
  | unexpected f => exact (SameRoutes.of_unexpected f s t h).generation
  | pendingSoftResetDiscard f => exact (SameRoutes.of_pendingSoftResetDiscard f s t h).generation
  | rack b r => exact (SameRoutes.of_rack b r s t h).generation
  | unknown fn r => exact (SameRoutes.of_unknown fn r s t h).generation
  | readStatus r => exact (SameRoutes.of_readStatus r s t h).generation
  | readCounters r => exact (SameRoutes.of_readCounters r s t h).generation
  | readEntry r => exact (SameRoutes.of_readEntry r s t h).generation
  | readExchanges r => exact (SameRoutes.of_readExchanges r s t h).generation
  | abortExchange r => exact (SameRoutes.of_abortExchange r s t h).generation
  | lineReset r => exact (SameRoutes.of_lineReset r s t h).generation
  | setSegment r => exact (SameRoutes.of_setSegment r s t h).generation
  | readSegment r => exact (SameRoutes.of_readSegment r s t h).generation
  | readInputs r => exact (SameRoutes.of_readInputs r s t h).generation
  | setInput r => exact (SameRoutes.of_setInput r s t h).generation
  | setSamplePeriod r => exact (SameRoutes.of_setSamplePeriod r s t h).generation
  | reportControl r => exact (SameRoutes.of_reportControl r s t h).generation
  | fetchReports r => exact (SameRoutes.of_fetchReports r s t h).generation
  | gatewayReset r => exact (SameRoutes.of_gatewayReset r s t h).generation
  | endOfTransmission => exact (SameRoutes.of_endOfTransmission s t h).generation
  | reportTimerExpiry => exact (SameRoutes.of_reportTimerExpiry s t h).generation
  | segmentEndOfTransmission x => exact (SameRoutes.of_segmentEndOfTransmission x s t h).generation
  | matchingFrame x f => exact (SameRoutes.of_matchingFrame x f s t h).generation
  | strayFrame x f => exact (SameRoutes.of_strayFrame x f s t h).generation
  | corruptFrameNotice x => exact (SameRoutes.of_corruptFrameNotice x s t h).generation
  | responseTimerExpiry x => exact (SameRoutes.of_responseTimerExpiry x s t h).generation
  | guardTimerExpiry x => exact (SameRoutes.of_guardTimerExpiry x s t h).generation
  | sampleInstant inputs a b => exact (SameRoutes.of_sampleInstant inputs a b s t h).generation
  | patienceExpiry x => exact (SameRoutes.of_patienceExpiry x s t h).generation

/-- Settles O59: a hard reset, a COMMIT that swaps or does not, a COMMIT that must swap, and every other command. -/
theorem generationLaw : Obligations.GenerationLaw := by
  refine ⟨fun p s t h => ?_, fun r s t h => ?_, fun r s t ready law hp distinct foreign h => ?_, exec_sameGeneration⟩
  · cases h
    rfl
  · rcases exec_commit_routes r s t h with same | swapped
    · exact .inl (by rw [same])
    · rw [swapped]
      exact .inr ⟨s.routes.swap_generation, rfl, rfl⟩
  · have current : s.routes.generation = hiByte s.routes.generation ++ loByte s.routes.generation :=
      (hiByte_append_loByte _).symm
    rw [exec_commit_swap ready law hp current (RouteTable.conflict_eq_none distinct foreign)] at h
    cases h
    rw [State.answered_routes]
    exact s.routes.swap_generation

end Sys2Proof.Machine
end

section
/-! SUPPORT. The replies of the commands that read: flag bytes, the summary of a slot, the image of an entry, the record
of a segment and the status record (R174 to R176, R179). -/

namespace Sys2Proof.Machine

/-! ### Flag bytes -/

theorem flagByte_one (a : Bool) : flagByte [(a, 0)] = if a then 1 else 0 := by
  cases a <;> rfl

theorem flagByte_zero_two (a c : Bool) :
    flagByte [(a, 0), (c, 2)] = BitVec.ofNat 8 ((if a then 1 else 0) + (if c then 4 else 0)) := by
  cases a <;> cases c <;> rfl

theorem flagByte_three (a b c : Bool) : flagByte [(a, 0), (b, 1), (c, 2)] =
    BitVec.ofNat 8 ((if a then 1 else 0) + (if b then 2 else 0) + (if c then 4 else 0)) := by
  cases a <;> cases b <;> cases c <;> rfl

/-- The strap fault in bit 0 and the reset cause in bits 4 and 5 (R179). -/
theorem causeByte_eq (fault : Bool) (c : ResetCause) : flagByte [(fault, 0)] ||| (causeCode c <<< 4) =
    BitVec.ofNat 8 ((if fault then 1 else 0) + 16 * (causeCode c).toNat) := by
  cases fault <;> cases c <;> rfl

/-! ### The summary of a slot (R85, R175) -/

theorem slotSummary_length (o : Option Record) : (slotSummary o).length = 3 := by cases o <;> rfl

/-- The first byte of a SINGLE record: its state in bits 0 and 1, its segment in bits 3 and 4 until it is COMPLETE. -/
theorem slotSummary_single {q : Record} {c : Single} (h : q.carriage = .single c) :
    (slotSummary (some q)).getD 0 0 =
      if q.state.isComplete then 3 else (if q.state = .queued then 1 else 2) + (if c.segment = .a then 8 else 16) := by
  obtain ⟨x, timeout, retries, segTag⟩ := c
  simp only [slotSummary, Record.summaryMask, h, List.getD_cons_zero]
  cases q.state <;> cases x <;> simp [recordStateCode, RecordState.isComplete, segMask]

/-- The first byte of a BROADCAST record: bit 2 beside its state, its pending set in bits 3 and 4. -/
theorem slotSummary_broadcast {q : Record} {c : Broadcast} (h : q.carriage = .broadcast c) :
    (slotSummary (some q)).getD 0 0 =
      if q.state.isComplete then 7 else (if q.state = .queued then 5 else 6) + (if c.pending.a then 8 else 0) +
        (if c.pending.b then 16 else 0) := by
  obtain ⟨⟨a, b⟩, delivered, withdrawn⟩ := c
  simp only [slotSummary, Record.summaryMask, h, List.getD_cons_zero]
  cases q.state <;> cases a <;> cases b <;> simp [recordStateCode, RecordState.isComplete, SegSet.mask_eq, maskByte]

/-- The attempts in bits 5 to 7, the tag below them. -/
theorem attemptsTagByte_eq (n : Nat) (tag : Tag) :
    (byteOf n <<< 5) ||| tag.zeroExtend 8 = BitVec.ofNat 8 (32 * n + tag.toNat) := by
  have apart : 32 * n + tag.toNat = n <<< 5 ||| tag.toNat := by
    rw [← Nat.shiftLeft_add_eq_or_of_lt tag.isLt, Nat.shiftLeft_eq]
    omega
  have attempts : byteOf n <<< 5 = BitVec.ofNat 8 (n <<< 5) :=
    BitVec.eq_of_toNat_eq (by simp [byteOf, Nat.shiftLeft_eq])
  rw [apart, BitVec.ofNat_or, BitVec.ofNat_toNat, attempts]

/-- The three bytes of a slot stand at three times its number (R85). -/
theorem summary_getD (t : ExchangeTable) (slot : Slot) {k : Nat} (hk : k < 3) :
    (t.slots.toList.flatMap slotSummary).getD (3 * slot.val + k) 0 = (slotSummary (t.record slot)).getD k 0 := by
  have at_slot : t.slots.toList[slot.val]? = some (t.record slot) := by simp [ExchangeTable.record]
  rw [List.getD_eq_getElem?_getD, Nat.mul_comm,
    getElem?_flatMap_blocks slotSummary slotSummary_length hk _ _ _ at_slot, List.getD_eq_getElem?_getD]

theorem summary_length (t : ExchangeTable) : (t.slots.toList.flatMap slotSummary).length = 48 := by
  simp [List.length_flatMap, slotSummary_length]

/-! ### The image of an entry (R58, R174) -/

/-- The flags of an entry image: ANY, remap present, segment B (R174). -/
theorem entryFlags_eq (e : RouteEntry) :
    flagByte [(e.fnMatch.isNone, 0), (e.remap.isSome, 1), (e.segment == .b, 2)] =
      BitVec.ofNat 8 ((if e.fnMatch = none then 1 else 0) + (if e.remap = none then 0 else 2) +
        (if e.segment = .a then 0 else 4)) := by
  rw [flagByte_three]
  cases e.fnMatch <;> cases e.remap <;> cases e.segment <;> rfl

/-! ### The record of a segment (R108, R176) -/

theorem SegConfig.bytes_eq (c : SegConfig) : c.bytes =
    [BitVec.ofNat 8 c.rate.toNat, parityCode c.parity, c.gapLimit, c.guard, c.depth, c.patience] := by
  rw [SegConfig.bytes, BitVec.ofNat_toNat]

/-! ### The status record (R86, R179) -/

/-- The number of records with a property, FREE slots not counted (R86). -/
theorem ExchangeTable.count_eq (t : ExchangeTable) (p : Record → Bool) :
    t.count p = t.slots.toList.countP fun o => o.any p :=
  congrArg (fun f => t.slots.toList.countP f) (funext fun o => by cases o <;> rfl)

theorem missCode_eq (p : MissPolicy) : missCode p = if p = .refuse then 0 else 1 := by cases p <;> rfl

/-! ### The commands that read -/

section
variable {s : State} {r : Request} (ready : Ready s r) (law : OutputLaw s)
include ready law

/-- READ-STATUS answers the status record (R162). -/
theorem exec_readStatus (hp : r.payload = []) :
    exec (.readStatus r) s = .next ((s.taken (s.commandFrame 0x01 r)).answered .rsp 0x01 r s.statusRecord) := by
  change execReadStatus r s = _
  simp only [execReadStatus, s.management_ready _ r _ ready, hp]
  exact congrArg _ (State.respond_after ready law _ _ _ _ ⟨rfl, rfl, rfl⟩)

/-- READ-ENTRY with bank and index in range answers the image of the entry (R58). -/
theorem exec_readEntry {bank index : Byte} (h : index.toNat < 48) (hb : bank.toNat ≤ 1)
    (hp : r.payload = [bank, index]) :
    exec (.readEntry r) s = .next ((s.taken (s.commandFrame 0x12 r)).answered .rsp 0x12 r
      (entryImage index (if bank = 0 then s.routes.active else s.routes.staged)[index.toNat])) := by
  have inRange : firstOutOfRange [(0, decide (bank.toNat ≤ 1)), (1, decide (index.toNat < 48))] = none :=
    (firstOutOfRange_none_iff _).mpr (by simp [h, hb])
  change execReadEntry r s = _
  simp only [execReadEntry, s.management_ready _ r _ ready, hp, inRange, State.taken_routes, bankEntry_eq _ h]
  exact congrArg _ (State.respond_after ready law _ _ _ _ ⟨rfl, rfl, rfl⟩)

/-- READ-EXCHANGES answers the summaries of the sixteen slots (R85). -/
theorem exec_readExchanges (hp : r.payload = []) :
    exec (.readExchanges r) s = .next ((s.taken (s.commandFrame 0x20 r)).answered .rsp 0x20 r
      (s.exchange.slots.toList.flatMap slotSummary)) := by
  change execReadExchanges r s = _
  simp only [execReadExchanges, s.management_ready _ r _ ready, hp]
  exact congrArg _ (State.respond_after ready law _ _ _ _ ⟨rfl, rfl, rfl⟩)

/-- READ-SEGMENT answers the record of the segment named (R108). -/
theorem exec_readSegment {x : Seg} (hp : r.payload = [if x = .a then 1 else 2]) :
    exec (.readSegment r) s = .next ((s.taken (s.commandFrame 0x24 r)).answered .rsp 0x24 r (s.segmentRecord x)) := by
  have record : (s.taken (s.commandFrame 0x24 r)).segmentRecord x = s.segmentRecord x := by cases x <;> rfl
  change execReadSegment r s = _
  simp only [execReadSegment, s.management_ready _ r _ ready, hp, segOf_code, record]
  exact congrArg _ (State.respond_after ready law _ _ _ _ ⟨rfl, rfl, rfl⟩)

end

end Sys2Proof.Machine
end

section
/-! PROOF. O26: the four commands that read (R58, R85, R86, R108, R162, R174 to R176, R179). -/

namespace Sys2Proof.Machine

/-- Settles O26: each command answers its record, and each record is the layout of its rule. -/
theorem readCommandsReply : Obligations.ReadCommandsReply := by
  intro s r ready law
  refine ⟨fun hp => ?_, fun bank index h hp hb => ⟨fun empty => ?_, fun e valid => ?_⟩, fun hp => ?_, fun x hp => ?_,
    by decide⟩
  · rw [exec_readStatus ready law hp, State.statusRecord, causeByte_eq]
    simp only [Segment.statusFlags, flagByte_one, flagByte_zero_two, missCode_eq, ExchangeTable.count_eq]
    rfl
  · rw [exec_readEntry ready law h hb hp, empty]
    rfl
  · rw [exec_readEntry ready law h hb hp, valid]
    simp only [entryImage, entryFlags_eq]
    rfl
  · refine ⟨_, summary_length s.exchange, exec_readExchanges ready law hp, fun slot free k hk => ?_,
      fun slot q held => ?_⟩
    · rw [summary_getD _ _ hk, free]
      rcases k with _ | _ | _ | k <;> rfl
    · have byte : ∀ k, k < 3 → _ := fun k hk => held ▸ summary_getD s.exchange slot hk
      refine ⟨byte 1 (by decide), (byte 2 (by decide)).trans (attemptsTagByte_eq _ _), fun c hc => ?_, fun c hc => ?_⟩
      · exact (byte 0 (by decide)).trans (slotSummary_single hc)
      · exact (byte 0 (by decide)).trans (slotSummary_broadcast hc)
  · rw [exec_readSegment ready law hp]
    simp only [State.segmentRecord, SegConfig.bytes_eq, flagByte_three, segMask_code, BitVec.ofNat_toNat]
    cases (s.seg x).pendingConfig <;> rfl

end Sys2Proof.Machine
end

section
/-! SUPPORT. What a segment's clearing leaves of the segments and of its own records (R75 to R80), and the laws of the
exchange table through a tick (R95, R119, R150, R164). -/

namespace Sys2Proof.Machine

/-! ### After every record has been taken from a segment -/

/-- A record taken from a segment does not stand there any more: it is COMPLETE, or the segment has left its pending
set (R75). -/
theorem Record.without_standsOn (r : Record) (x : Seg) (why : WithdrawReason) (b : Bool) :
    (r.without x why b).standsOn x = false := by
  cases hk : r.carriage with
  | single c => simp [Record.without, Record.standsOn, r.endsWith_single c x why hk, RecordState.isComplete]
  | broadcast c => simp [r.without_broadcast c x why b hk, Record.standsOn, Carriage.names, SegSet.has_remove]

/-- No record stands on a segment that has been cleared (R109, R119). -/
theorem State.cleared_standing (s : State) (x : Seg) (why : WithdrawReason) :
    (s.cleared x why).exchange.standing x = [] := by
  refine List.filter_eq_nil_iff.mpr fun slot _ => ?_
  unfold State.cleared
  rw [ExchangeTable.record_ofFn]
  cases s.exchange.record slot with
  | none => simp
  | some r =>
    rw [Option.bind_some]
    split
    · rename_i q hq
      split at hq
      · cases hq
      · split at hq <;> cases hq
        · simp [Record.without_standsOn]
        · assumption
    · simp

/-- The clearing of a segment touches no segment: the sequencers are told apart from it. -/
@[simp] theorem State.cleared_seg (s : State) (x y : Seg) (why : WithdrawReason) :
    (s.cleared x why).seg y = s.seg y := by
  have placed := fun qs => State.foldl_kept (fun u => u.seg y) State.placed (fun u q => u.placed_seg q y) qs s
  unfold State.cleared
  cases y
  · exact placed _
  · exact placed _

/-! ### Patience (R119) -/

theorem exec_patienceExpiry {s : State} (a : Acting s) (x : Seg) :
    exec (.patienceExpiry x) s = .next (s.judgePatience x) := State.acting_next a _

theorem exec_millisecondTick {s : State} (a : Acting s) :
    exec .millisecondTick s = .next ((s.count.judgePatience .a).judgePatience .b) :=
  State.acting_next a fun u => (u.count.judgePatience .a).judgePatience .b

/-- At the patience the judgement is the expiry in the words of R119. -/
theorem State.judgePatience_expired {s : State} {x : Seg} (a : Acting s) (law : ExchangeLaw s)
    (reached : PatienceReached (s.seg x)) : s.judgePatience x = s.patienceExpired x := by
  rw [s.judgePatience_reached x reached, s.expirePatience_eq a law x reached.1]

/-- The expiry of a segment keeps the laws of the exchange table. -/
theorem ExchangeLaw.judgePatience {s : State} (law : ExchangeLaw s) (a : Acting s) (x : Seg) :
    ExchangeLaw (s.judgePatience x) := ((Books.begins a law).judgePatience x).law

theorem ExchangeLaw.count {s : State} (law : ExchangeLaw s) (a : Acting s) : ExchangeLaw s.count :=
  (Books.begins a law).count.law

/-- The expiry of one segment leaves the other as it was. -/
theorem State.judgePatience_seg_other (s : State) {x y : Seg} (h : y ≠ x) : (s.judgePatience x).seg y = s.seg y := by
  unfold State.judgePatience
  split
  · rw [State.expirePatience_seg, State.modSeg_seg_other _ _ _ _ h]
  · rfl

/-- The time counter wraps after 65535 (R164). -/
theorem ofNat_toNat_succ (w : Word) : BitVec.ofNat 16 (w.toNat + 1) = w + 1 := by
  apply BitVec.eq_of_toNat_eq
  simp

end Sys2Proof.Machine
end

section
/-! PROOF. O9 and O49: the tick and the expiry of the patience (R95, R119, R150, R164). -/

namespace Sys2Proof.Machine

/-- Settles O9: the count, then the patience of each segment judged on the counted state. -/
theorem millisecondTickCounts : Obligations.MillisecondTickCounts := by
  intro s a counted
  have count : s.count = counted := by
    simp only [counted, ofNat_toNat_succ]
    rfl
  have acts : Acting counted := a
  rw [exec_millisecondTick a, count]
  refine ⟨fun early early' => ?_, fun law => ?_⟩
  · rw [State.judgePatience_else counted .a early, State.judgePatience_else counted .b early']
  · have law : ExchangeLaw counted := count ▸ law.count a
    have actsThen : Acting (counted.judgePatience .a) := (counted.judgePatience_base .a).hardReset.trans a
    have segB : (counted.judgePatience .a).seg .b = counted.segB := State.judgePatience_seg_other _ (by decide)
    refine ⟨fun reached early => ?_, fun early reached => ?_, fun reached reached' => ?_⟩
    · rw [State.judgePatience_else _ .b (by rwa [segB]), State.judgePatience_expired (x := .a) acts law reached]
    · rw [State.judgePatience_else counted .a early, State.judgePatience_expired (x := .b) acts law reached]
    · rw [State.judgePatience_expired actsThen (law.judgePatience acts .a) (by rwa [segB]),
        State.judgePatience_expired (x := .a) acts law reached]

/-- Settles O49: no effect before the patience, and at it the expiry, after which no record stands on the segment. -/
theorem patienceExpiryAnswersLent : Obligations.PatienceExpiryAnswersLent := by
  intro s x a
  rw [exec_patienceExpiry a]
  refine ⟨fun early => ?_, fun reached law => ⟨?_, State.cleared_standing _ x .lent⟩⟩
  · rw [s.judgePatience_else x early]
  · rw [State.judgePatience_expired a law reached]

end Sys2Proof.Machine
end

section
/-! SUPPORT. A record completed, said once for room and for 8 frames queued (R77 to R79), and the end of the work on the
wire: GUARD, or LENT where a hold drains (R98, R102, R103, R115, R116). -/

namespace Sys2Proof.Machine

/-! ### A completed record (R77 to R79) -/

/-- The state when a record has completed: with room its reply has entered and it is FREE; behind 8 frames it is
COMPLETE with its reply. -/
def State.completed (s : State) (slot : Slot) (r : Record) (reply : Reply) : State :=
  if s.trunk.queue.length < 8 then
    ({ s with exchange := s.exchange.free slot } : State).replied r reply.kind reply.payload
  else { s with exchange :=
    { s.exchange.setRecord slot { r with state := .complete reply, carriage := r.carriage.finished } with
      completion := s.exchange.completion ++ [slot] } }

theorem State.completeRecord_completed {s : State} {slot : Slot} {r : Record} (a : Acting s) (out : OutputLaw s)
    (here : s.exchange.record slot = some r) (reply : Reply) :
    s.completeRecord slot reply = s.completed slot r reply := by
  unfold State.completed
  split
  · rename_i room
    exact s.completeRecord_room slot r reply here room (out.2 a).1 (out.2 a).2
  · rename_i full
    exact s.completeRecord_full slot r reply here (Nat.not_lt.mp full)

theorem State.placed_modSeg (s : State) (q : QueuedFrame) (x : Seg) (f : Segment → Segment) :
    (s.modSeg x f).placed q = (s.placed q).modSeg x f := by
  unfold State.placed
  rw [State.modSeg_trunk]
  split <;> cases x <;> rfl

theorem State.replied_modSeg (s : State) (r : Record) (k : FrameKind) (p : List Byte) (x : Seg)
    (f : Segment → Segment) : (s.modSeg x f).replied r k p = (s.replied r k p).modSeg x f := s.placed_modSeg _ x f

/-- The completion of a record and an update of a segment, in either order. -/
theorem State.completed_modSeg (s : State) (slot : Slot) (r : Record) (reply : Reply) (x : Seg)
    (f : Segment → Segment) : (s.modSeg x f).completed slot r reply = (s.completed slot r reply).modSeg x f := by
  unfold State.completed
  rw [State.modSeg_trunk, State.modSeg_exchange]
  split
  · have replied := State.replied_modSeg { s with exchange := s.exchange.free slot } r reply.kind reply.payload x f
    cases x <;> exact replied
  · cases x <;> rfl

@[simp] theorem State.completed_seg (s : State) (slot : Slot) (r : Record) (reply : Reply) (x : Seg) :
    (s.completed slot r reply).seg x = s.seg x := by
  unfold State.completed
  split
  · rw [State.replied, State.placed_seg]
    cases x <;> rfl
  · cases x <;> rfl

/-- A record completed after an update of a segment. -/
theorem State.completeRecord_modSeg {s : State} {slot : Slot} {r : Record} (a : Acting s) (out : OutputLaw s)
    (here : s.exchange.record slot = some r) (reply : Reply) (x : Seg) (f : Segment → Segment) :
    (s.modSeg x f).completeRecord slot reply = (s.completed slot r reply).modSeg x f := by
  rw [← s.completed_modSeg]
  exact State.completeRecord_completed (by simpa [Acting] using a) (by simpa [OutputLaw] using out)
    (by simpa using here) reply

/-- A completed SINGLE record holds no segment tag (R77). -/
theorem Record.finished_single {r : Record} {c : Single} (single : r.carriage = .single c) :
    r.carriage.finished = .single { c with segTag := none } := by
  rw [single]
  rfl

/-- A completion written out, for a state that has the table of `s` and in which the queue has room just where `p`. -/
theorem State.completed_eq {s t : State} {slot : Slot} {r : Record} {carriage : Carriage} (reply : Reply) (p : Prop)
    [Decidable p] (room : t.trunk.queue.length < 8 ↔ p) (table : t.exchange = s.exchange)
    (finished : r.carriage.finished = carriage) : t.completed slot r reply =
      if p then ({ t with exchange := s.exchange.free slot } : State).replied r reply.kind reply.payload
      else { t with exchange := { s.exchange with
        slots := s.exchange.slots.set slot (some { r with state := .complete reply, carriage := carriage })
        completion := s.exchange.completion ++ [slot] } } := by
  subst finished
  unfold State.completed
  rw [table]
  exact if_congr room rfl rfl

/-! ### A frame taken from a segment's framer (log 3) -/

@[simp] theorem State.takenOn_exchange (s : State) (x : Seg) (d : Delivery) :
    (s.takenOn x d).exchange = s.exchange := State.modSeg_exchange ..

@[simp] theorem State.takenOn_trunk (s : State) (x : Seg) (d : Delivery) :
    (s.takenOn x d).trunk = s.trunk := State.modSeg_trunk ..

@[simp] theorem State.takenOn_hardReset (s : State) (x : Seg) (d : Delivery) :
    (s.takenOn x d).hardReset = s.hardReset := State.modSeg_hardReset ..

@[simp] theorem State.takenOn_seg (s : State) (x : Seg) (d : Delivery) : (s.takenOn x d).seg x =
    { s.seg x with port := { (s.seg x).port with deliveries := (s.seg x).port.deliveries.erase d } } :=
  State.modSeg_seg_self ..

@[simp] theorem State.exchange_seg (s : State) (e : ExchangeTable) (x : Seg) :
    ({ s with exchange := e } : State).seg x = s.seg x := by cases x <;> rfl

/-! ### The end of the work on the wire (R98, R102, R103, R115, R116) -/

/-- The end of the work on the wire once its record has been treated: what the event writes to the segment, then GUARD
or LENT. -/
def State.endsWork (s : State) (x : Seg) (write : Segment → Segment) : State := (s.modSeg x write).leaveWork x

/-- With no hold draining the work ends in GUARD. -/
theorem State.endsWork_guard {s : State} {x : Seg} {f : Segment → Segment} (drain : (s.seg x).drainRequested = false)
    (keeps : (f (s.seg x)).drainRequested = (s.seg x).drainRequested) :
    s.endsWork x f = s.modSeg x fun g => (f g).guardNow := by
  rw [State.endsWork, State.leaveWork_guard _ x (by rw [State.modSeg_seg_self, keeps, drain]), State.modSeg_modSeg]
  rfl

/-- The entry to LENT, its event taken and the arbiter asked (R115, R123). -/
theorem State.enterLent_enters (s : State) (x : Seg) : EntersLent x s (s.enterLent x) := by
  refine ⟨_, Reporter.take_taken _ _, ?_⟩
  unfold State.enterLent
  rw [State.modSeg_congr (g := Segment.lentNow) (Segment.toLent_eq _)]
  unfold State.offerEvent State.offerEventQuietly segmentEvent
  rw [State.modSeg_reporter]
  rfl

/-- Where a hold drains the work ends in LENT; what its end wrote to the segment before is gone but for what the entry
keeps. -/
theorem State.endsWork_lent {s : State} {x : Seg} {f g : Segment → Segment} (drain : (s.seg x).drainRequested = true)
    (keeps : (f (s.seg x)).drainRequested = (s.seg x).drainRequested)
    (same : (f (s.seg x)).lentNow = (g (s.seg x)).lentNow) : EntersLent x (s.modSeg x g) (s.endsWork x f) := by
  have lent : s.endsWork x f = (s.modSeg x f).enterLent x := by
    rw [State.endsWork, State.leaveWork, State.modSeg_seg_self, if_pos (keeps.trans drain)]
  obtain ⟨rep, taken, e⟩ := (s.modSeg x f).enterLent_enters x
  rw [State.modSeg_modSeg, State.modSeg_congr (f := fun h => (f h).lentNow) (g := fun h => (g h).lentNow) same] at e
  refine ⟨rep, ?_, ?_⟩
  · rw [State.modSeg_reporter, State.modSeg_timeCounter] at taken ⊢
    exact taken
  · rw [lent, e, State.modSeg_modSeg]

/-- The same where nothing that the entry keeps was written. -/
theorem State.endsWork_lent_same {s : State} {x : Seg} {f : Segment → Segment} (drain : (s.seg x).drainRequested = true)
    (keeps : (f (s.seg x)).drainRequested = (s.seg x).drainRequested)
    (same : (f (s.seg x)).lentNow = (s.seg x).lentNow) : EntersLent x s (s.endsWork x f) := by
  have enters := State.endsWork_lent (g := id) drain keeps same
  rwa [State.modSeg_same (f := id) rfl] at enters

end Sys2Proof.Machine
end

section
/-! SUPPORT. The events that end the work on the wire, one equation each: the record treated, the segment's side noted,
then GUARD or LENT (R75 to R79, R96 to R105, R116). -/

namespace Sys2Proof.Machine

section Attempt

variable {s : State} {x : Seg} {slot : Slot} {r : Record} {c : Single} {f : Frame}

/-! ### A matching answer (R77, R96, R98) -/

/-- The segment as a matching answer leaves it before GUARD or LENT. -/
def Segment.answeredNow (g : Segment) : Segment := { g with responseTimer := none, current := none }

theorem answerReply_eq (kind : f.kind = .rsp ∨ f.kind = .nak) :
    answerReply f = ⟨f.kind, if f.kind = .rsp then f.payload else [0x22, f.payload.headD 0]⟩ := by
  unfold answerReply
  rcases kind with k | k <;> rw [k] <;> rfl

theorem State.attemptMatch_eq (st : (s.seg x).state = .wait) (serves : (s.seg x).current = some slot)
    (here : s.exchange.record slot = some r) (single : r.carriage = .single c) (kind : f.kind = .rsp ∨ f.kind = .nak)
    (src : f.src = r.segAddress) (dest : f.dest = 254) (tag : c.segTag = some f.tag) :
    s.attemptMatch x f = some slot := by
  simp [State.attemptMatch, st, serves, here, single, kind, src, dest, tag]

/-- The four conditions of R96 met: the record completes with the answer and the work ends (R98; either row, log 19). -/
theorem exec_matched {i : Instr} (a : Acting s) (out : OutputLaw s) (good : f.goodOnSegment = true)
    (st : (s.seg x).state = .wait) (serves : (s.seg x).current = some slot) (here : s.exchange.record slot = some r)
    (single : r.carriage = .single c) (kind : f.kind = .rsp ∨ f.kind = .nak) (src : f.src = r.segAddress)
    (dest : f.dest = 254) (tag : c.segTag = some f.tag) (row : i = .matchingFrame x f ∨ i = .strayFrame x f) :
    exec i s = .next (((s.takenOn x (.frame f)).completed slot r
      ⟨f.kind, if f.kind = .rsp then f.payload else [0x22, f.payload.headD 0]⟩).endsWork x Segment.answeredNow) := by
  have matched : (s.takenOn x (.frame f)).attemptMatch x f = some slot :=
    State.attemptMatch_eq (by simpa using st) (by simpa using serves) (by simpa using here) single kind src dest tag
  have delivered : s.deliverOnSegment x f = ((s.takenOn x (.frame f)).completed slot r
      ⟨f.kind, if f.kind = .rsp then f.payload else [0x22, f.payload.headD 0]⟩).endsWork x Segment.answeredNow := by
    unfold State.deliverOnSegment
    rw [State.takeDelivery_segment]
    simp only [matched]
    rw [State.completeRecord_modSeg (by simpa [Acting] using a) (by simpa [OutputLaw] using out) (by simpa using here),
      answerReply_eq kind]
    rfl
  rw [← delivered]
  rcases row with rfl | rfl <;>
    exact (State.acting_next a _).trans (congrArg Host.Outcome.next (if_pos good))

/-! ### A failed attempt (R99, R100, R102) -/

/-- The reason code of a failed attempt's NAK (R161). -/
def FailCause.code : FailCause → Byte
  | .timeout => 0x20
  | .corrupt => 0x21

/-- The segment as a failed attempt leaves it before GUARD or LENT: the failure counted, the retry counted where there
is one. -/
def Segment.failedNow (why : FailCause) (retry : Bool) (g : Segment) : Segment :=
  let counted := g.counters.countFailure why
  { g with
    counters := if retry then { counted with retries := satInc counted.retries } else counted
    responseTimer := none, current := none }

/-- With retries remaining the record is QUEUED with one fewer and without a tag (R102). -/
theorem State.failAttempt_retries {n : Nat} (serves : (s.seg x).current = some slot)
    (here : s.exchange.record slot = some r) (single : r.carriage = .single c) (retries : c.retries = n + 1)
    (why : FailCause) : s.failAttempt x why =
      (s.setRecord slot { r with
        state := .queued, carriage := .single { c with retries := n, segTag := none } }).endsWork x
          (Segment.failedNow why true) := by
  unfold State.failAttempt State.failRecord
  simp only [serves, State.modSeg_exchange, here, single, retries, Nat.add_one_ne_zero, if_false, Nat.add_sub_cancel]
  unfold State.endsWork
  cases x <;> rfl

/-- With none it completes with the cause and the attempt count (R77, R102). -/
theorem State.failAttempt_completes (a : Acting s) (out : OutputLaw s) (serves : (s.seg x).current = some slot)
    (here : s.exchange.record slot = some r) (single : r.carriage = .single c) (retries : c.retries = 0)
    (why : FailCause) : s.failAttempt x why =
      (s.completed slot r ⟨.nak, [why.code, BitVec.ofNat 8 r.attempts]⟩).endsWork x (Segment.failedNow why false) := by
  unfold State.failAttempt State.failRecord
  simp only [serves, State.modSeg_exchange, here, single, retries, if_true]
  rw [State.completeRecord_modSeg a out here]
  cases why <;> rfl

/-- The command `i` is a failed attempt with cause `why`, judged on `taken`: `s` but for a notice taken from the
framer's hand. -/
structure FailsAs (s : State) (x : Seg) (i : Instr) (why : FailCause) (taken : State) : Prop where
  run : exec i s = .next (taken.failAttempt x why)
  hardReset : taken.hardReset = s.hardReset
  trunk : taken.trunk = s.trunk
  table : taken.exchange = s.exchange
  seg : ∃ p, taken.seg x = { s.seg x with port := p }

/-- A corrupt-frame notice in WAIT (R99). -/
theorem FailsAs.corrupt (a : Acting s) (st : (s.seg x).state = .wait) :
    FailsAs s x (.corruptFrameNotice x) .corrupt (s.takenOn x .corruptNotice) where
  run := by
    change execCorruptFrameNotice x s = _
    unfold execCorruptFrameNotice
    rw [State.acting_next a, State.takeDelivery_segment]
    exact congrArg Host.Outcome.next (if_pos (by simpa using st))
  hardReset := State.takenOn_hardReset ..
  trunk := State.takenOn_trunk ..
  table := State.takenOn_exchange ..
  seg := ⟨_, State.takenOn_seg ..⟩

/-- The response timer at 0 in WAIT (R95, R100). -/
theorem FailsAs.timeout (a : Acting s) (st : (s.seg x).state = .wait) (due : (s.seg x).responseTimer = some 0) :
    FailsAs s x (.responseTimerExpiry x) .timeout s where
  run := (State.acting_next a _).trans (congrArg Host.Outcome.next (if_pos ⟨st, due⟩))
  hardReset := rfl
  trunk := rfl
  table := rfl
  seg := ⟨_, rfl⟩

section Fails

variable {i : Instr} {why : FailCause} {taken : State}

theorem FailsAs.drain (h : FailsAs s x i why taken) : (taken.seg x).drainRequested = (s.seg x).drainRequested := by
  obtain ⟨p, seg⟩ := h.seg
  rw [seg]

/-- With retries remaining, on either cause (R102). -/
theorem FailsAs.retries {n : Nat} (h : FailsAs s x i why taken)
    (serves : (s.seg x).current = some slot) (here : s.exchange.record slot = some r) (single : r.carriage = .single c)
    (retries : c.retries = n + 1) : exec i s = .next (({ taken with exchange := { s.exchange with
      slots := s.exchange.slots.set slot (some { r with
        state := .queued, carriage := .single { c with retries := n, segTag := none } }) } } : State).endsWork x
          (Segment.failedNow why true)) := by
  obtain ⟨p, seg⟩ := h.seg
  rw [h.run, State.failAttempt_retries (by rw [seg, serves]) (h.table ▸ here) single retries, State.setRecord, h.table]
  rfl

/-- With none, on either cause (R77, R102). -/
theorem FailsAs.completes (h : FailsAs s x i why taken) (a : Acting s) (out : OutputLaw s)
    (serves : (s.seg x).current = some slot) (here : s.exchange.record slot = some r) (single : r.carriage = .single c)
    (retries : c.retries = 0) : exec i s = .next
      ((taken.completed slot r ⟨.nak, [why.code, BitVec.ofNat 8 r.attempts]⟩).endsWork x
        (Segment.failedNow why false)) := by
  have takenOut : OutputLaw taken := by
    unfold OutputLaw
    rwa [h.hardReset, h.trunk, h.table]
  obtain ⟨p, seg⟩ := h.seg
  rw [h.run, State.failAttempt_completes (h.hardReset.trans a) takenOut (by rw [seg, serves]) (h.table ▸ here) single
    retries]

/-- The failure counted on the segment as the notice left it is the failure counted on the segment before. -/
theorem FailsAs.counted (h : FailsAs s x i why taken) :
    (taken.seg x).counters.countFailure why = (s.seg x).counters.countFailure why := by
  obtain ⟨p, seg⟩ := h.seg
  rw [seg]

/-- The completion written out on the table before the command. -/
theorem FailsAs.completed_eq (h : FailsAs s x i why taken) (single : r.carriage = .single c) (reply : Reply) :
    taken.completed slot r reply = if s.trunk.queue.length < 8 then
        ({ taken with exchange := s.exchange.free slot } : State).replied r reply.kind reply.payload
      else { taken with exchange := { s.exchange with
        slots := s.exchange.slots.set slot (some { r with
          state := .complete reply, carriage := .single { c with segTag := none } })
        completion := s.exchange.completion ++ [slot] } } :=
  State.completed_eq reply _ (by rw [h.trunk]) h.table (Record.finished_single single)

/-- Where a hold drains, with retries remaining: the retry counted, then LENT (R102, R116). -/
theorem FailsAs.retries_lent {n : Nat} (h : FailsAs s x i why taken) (serves : (s.seg x).current = some slot)
    (here : s.exchange.record slot = some r) (single : r.carriage = .single c) (drain : (s.seg x).drainRequested = true)
    (retries : c.retries = n + 1) :
    let counted := (s.seg x).counters.countFailure why
    ∃ t, exec i s = .next t ∧
      EntersLent x ({ taken with exchange := { s.exchange with slots := s.exchange.slots.set slot (some { r with
        state := .queued, carriage := .single { c with retries := n, segTag := none } }) } }.modSeg x fun g =>
        { g with counters := { counted with retries := satInc counted.retries } }) t := by
  refine ⟨_, h.retries serves here single retries,
    State.endsWork_lent (by rw [State.exchange_seg, h.drain, drain]) rfl ?_⟩
  rw [State.exchange_seg, ← h.counted]
  rfl

/-- The same with none: the record completed, then LENT (R77, R102, R116). -/
theorem FailsAs.completes_lent (h : FailsAs s x i why taken) (a : Acting s) (out : OutputLaw s)
    (serves : (s.seg x).current = some slot) (here : s.exchange.record slot = some r) (single : r.carriage = .single c)
    (drain : (s.seg x).drainRequested = true) (retries : c.retries = 0) :
    ∃ t, exec i s = .next t ∧
      EntersLent x ((taken.completed slot r ⟨.nak, [why.code, BitVec.ofNat 8 r.attempts]⟩).modSeg x fun g =>
        { g with counters := (s.seg x).counters.countFailure why }) t := by
  refine ⟨_, h.completes a out serves here single retries,
    State.endsWork_lent (by rw [State.completed_seg, h.drain, drain]) rfl ?_⟩
  rw [State.completed_seg, ← h.counted]
  rfl

end Fails

/-- A response timer that is stopped or still counts does not expire (log 4, log 9). -/
theorem exec_responseTimerExpiry_else (a : Acting s) (h : (s.seg x).responseTimer ≠ some 0) :
    exec (.responseTimerExpiry x) s = .next s :=
  (State.acting_next a _).trans (congrArg Host.Outcome.next (if_neg fun k => h k.2))

end Attempt

section Delivery

variable {s : State} {x : Seg} {slot : Slot} {r : Record} {c : Broadcast}

/-! ### The end of a transmission (R75, R76, R104, R105, R116) -/

/-- The segment as the end of a broadcast delivery leaves it before GUARD or LENT. -/
def Segment.sentNow (g : Segment) : Segment := { g.endTransmission with current := none }

/-- A BROADCAST record with one more segment delivered (R75). -/
def Broadcast.deliver (c : Broadcast) (x : Seg) : Broadcast :=
  { c with pending := c.pending.remove x, delivered := c.delivered.insert x }

theorem State.servedBeside_iff (s : State) (x : Seg) (slot : Slot) : s.servedBeside x slot = true ↔
    (x ≠ Seg.a ∧ s.segA.current = some slot) ∨ (x ≠ Seg.b ∧ s.segB.current = some slot) := by
  simp [State.servedBeside]

/-- A delivered segment makes the reply of a BROADCAST record an RSP with the delivered mask (R76). -/
theorem Broadcast.deliver_reply (c : Broadcast) (x : Seg) :
    (c.deliver x).reply = ⟨.rsp, [(c.delivered.insert x).mask]⟩ := by
  have some : (c.delivered.insert x).isEmpty = false := by
    cases x <;> simp [SegSet.insert, SegSet.isEmpty]
  simp [Broadcast.reply, Broadcast.deliver, some]

/-- The end of a transmission in SEND, its record served and a BROADCAST one (R104). -/
theorem exec_broadcastSent (a : Acting s) (st : (s.seg x).state = .send) (serves : (s.seg x).current = some slot)
    (here : s.exchange.record slot = some r) (broadcast : r.carriage = .broadcast c) :
    exec (.segmentEndOfTransmission x) s =
      .next (((s.modSeg x Segment.sentNow).settleBroadcast slot r (c.deliver x)).leaveWork x) := by
  refine (State.acting_next a _).trans (congrArg Host.Outcome.next ?_)
  have cur : ((s.modSeg x Segment.endTransmission).seg x).current = some slot := by
    rw [State.modSeg_seg_self]
    exact serves
  simp only [if_pos st, cur, State.modSeg_exchange, here, broadcast, State.deliverBroadcast, State.release]
  rw [State.modSeg_modSeg]
  rfl

theorem State.served_sentNow (s : State) (x : Seg) (slot : Slot) :
    (s.modSeg x Segment.sentNow).served slot = s.servedBeside x slot := by
  rw [State.served_released _ x slot (by rw [State.modSeg_seg_self]; rfl)]
  cases x <;> rfl

/-- With the other segment pending the record stays (R66, R75). -/
theorem exec_delivered_stays (a : Acting s) (st : (s.seg x).state = .send) (serves : (s.seg x).current = some slot)
    (here : s.exchange.record slot = some r) (broadcast : r.carriage = .broadcast c)
    (pending : (c.pending.remove x).isEmpty = false) :
    exec (.segmentEndOfTransmission x) s = .next (({ s with exchange := { s.exchange with
      slots := s.exchange.slots.set slot (some { r with
        state := if (x ≠ Seg.a ∧ s.segA.current = some slot) ∨ (x ≠ Seg.b ∧ s.segB.current = some slot) then .active
          else .queued
        carriage := .broadcast (c.deliver x) }) } } : State).endsWork x Segment.sentNow) := by
  have stays : ¬ (c.deliver x).pending.isEmpty = true := by
    rw [Broadcast.deliver, pending]
    exact Bool.false_ne_true
  rw [exec_broadcastSent a st serves here broadcast]
  unfold State.settleBroadcast
  rw [if_neg stays, State.served_sentNow]
  simp only [s.servedBeside_iff]
  cases x <;> rfl

/-- A completion writes over the record that stood in the slot, its state apart. -/
theorem State.completed_setRecord (s : State) (slot : Slot) (r : Record) (st : RecordState) (carriage : Carriage)
    (reply : Reply) : (s.setRecord slot { r with state := st, carriage := carriage }).completed slot
      { r with state := st, carriage := carriage } reply = s.completed slot { r with carriage := carriage } reply := by
  unfold State.completed
  rw [State.setRecord_trunk]
  split
  · simp only [State.setRecord, ExchangeTable.free, ExchangeTable.setRecord, Vector.set_set]
    rfl
  · simp only [State.setRecord, ExchangeTable.setRecord, Vector.set_set]

/-- With none pending it completes (R76). -/
theorem exec_delivered_completes (a : Acting s) (out : OutputLaw s) (st : (s.seg x).state = .send)
    (serves : (s.seg x).current = some slot) (here : s.exchange.record slot = some r)
    (broadcast : r.carriage = .broadcast c) (pending : (c.pending.remove x).isEmpty = true) :
    exec (.segmentEndOfTransmission x) s = .next ((s.completed slot { r with carriage := .broadcast (c.deliver x) }
      ⟨.rsp, [(c.delivered.insert x).mask]⟩).endsWork x Segment.sentNow) := by
  have ends : (c.deliver x).pending.isEmpty = true := pending
  rw [exec_broadcastSent a st serves here broadcast]
  unfold State.settleBroadcast
  rw [if_pos ends, c.deliver_reply]
  generalize (if (s.modSeg x Segment.sentNow).served slot then RecordState.active else .queued) = st
  have swap : ∀ q, (s.modSeg x Segment.sentNow).setRecord slot q = (s.setRecord slot q).modSeg x Segment.sentNow :=
    fun q => by cases x <;> rfl
  rw [swap, State.completeRecord_modSeg (s := s.setRecord slot _) a out (s.exchange.setRecord_record_self slot _),
    State.completed_setRecord]
  rfl

/-- The end of a transmission whose record an abort or a line reset has taken (R105, R116). -/
theorem exec_sentForNone (a : Acting s) (st : (s.seg x).state = .send) (none : (s.seg x).current = none) :
    exec (.segmentEndOfTransmission x) s = .next (s.endsWork x Segment.endTransmission) := by
  refine (State.acting_next a _).trans (congrArg Host.Outcome.next ?_)
  have cur : ((s.modSeg x Segment.endTransmission).seg x).current = .none := by
    rw [State.modSeg_seg_self]
    exact none
  simp only [if_pos st, cur]
  rfl

end Delivery

end Sys2Proof.Machine
end

section
/-! PROOF. O44, O45, O47 and O53: the ends of the work on the wire, in GUARD and where a hold drains (R75 to R79, R96 to
R105, R115, R116). -/

namespace Sys2Proof.Machine

/-- Settles O44: the record stays or completes, and the sequencer goes to GUARD. -/
theorem broadcastIsDelivered : Obligations.BroadcastIsDelivered := by
  intro s x slot r c a law st serves here broadcast drain
  refine ⟨fun pending => ?_, fun pending room => ?_, fun pending full => ?_⟩
  · rw [exec_delivered_stays a st serves here broadcast pending,
      State.endsWork_guard (by rwa [State.exchange_seg]) rfl]
    rfl
  all_goals
    rw [exec_delivered_completes a law.1 st serves here broadcast pending,
      State.endsWork_guard (by rwa [State.completed_seg]) rfl,
      State.completed_eq (s := s) _ (s.trunk.queue.length < 8) Iff.rfl rfl rfl]
  · rw [if_pos room]
    rfl
  · rw [if_neg (by omega)]
    rfl

/-- Settles O45: either row is judged alike, the record completes, and the sequencer goes to GUARD. -/
theorem matchingFrameCompletes : Obligations.MatchingFrameCompletes := by
  intro s x f slot r c i a out good st serves here single kind src dest tag drain row
  rw [exec_matched a out good st serves here single kind src dest tag row,
    State.endsWork_guard (by rw [State.completed_seg, State.takenOn_seg, drain]) rfl,
    State.completed_eq (s := s) _ (s.trunk.queue.length < 8) (by rw [State.takenOn_trunk]) (by simp)
      (Record.finished_single single)]
  refine ⟨fun room => ?_, fun full => ?_⟩
  · rw [if_pos room]
    rfl
  · rw [if_neg (by omega)]
    rfl

/-- Settles O47: one equation for a retry and one for the completion, each for both causes. -/
theorem failedAttempt : Obligations.FailedAttempt := by
  intro s x slot r c a out st serves here single drain
  have corrupt := FailsAs.corrupt a st
  have timeout := FailsAs.timeout a st
  refine ⟨fun n retries => ⟨?_, fun due => ?_⟩, fun retries room => ⟨?_, fun due => ?_⟩,
    fun retries full => ⟨?_, fun due => ?_⟩, exec_responseTimerExpiry_else a⟩
  · rw [corrupt.retries serves here single retries,
      State.endsWork_guard (by rw [State.exchange_seg, corrupt.drain, drain]) rfl]
    rfl
  · rw [(timeout due).retries serves here single retries, State.endsWork_guard (by rwa [State.exchange_seg]) rfl]
    rfl
  · rw [corrupt.completes a out serves here single retries,
      State.endsWork_guard (by rw [State.completed_seg, corrupt.drain, drain]) rfl, corrupt.completed_eq single,
      if_pos room]
    rfl
  · rw [(timeout due).completes a out serves here single retries,
      State.endsWork_guard (by rwa [State.completed_seg]) rfl, (timeout due).completed_eq single, if_pos room]
    rfl
  · rw [corrupt.completes a out serves here single retries,
      State.endsWork_guard (by rw [State.completed_seg, corrupt.drain, drain]) rfl, corrupt.completed_eq single,
      if_neg (by omega)]
    rfl
  · rw [(timeout due).completes a out serves here single retries,
      State.endsWork_guard (by rwa [State.completed_seg]) rfl, (timeout due).completed_eq single, if_neg (by omega)]
    rfl

/-- Settles O53: the equations of the events of O44, O45 and O47, each ended in LENT. -/
theorem drainEndsInLent : Obligations.DrainEndsInLent := by
  intro s x a law drain ended failed
  have ended_eq : ∀ {t slot r carriage} (kind : FrameKind) (payload : List Byte), t.trunk = s.trunk →
      t.exchange = s.exchange → r.carriage.finished = carriage →
      ended t slot r carriage kind payload = t.completed slot r ⟨kind, payload⟩ :=
    fun kind payload trunk table finished => (State.completed_eq ⟨kind, payload⟩ _ (by rw [trunk]) table finished).symm
  have fails : ∀ {slot r c i why taken}, FailsAs s x i why taken → (s.seg x).current = some slot →
      s.exchange.record slot = some r → r.carriage = .single c →
      failed slot r c i taken why.code ((s.seg x).counters.countFailure why) := by
    intro slot r c i why taken h serves here single
    refine ⟨fun n retries => h.retries_lent serves here single drain retries, fun retries => ?_⟩
    rw [ended_eq _ _ h.trunk h.table (Record.finished_single single)]
    exact h.completes_lent a law.1 serves here single drain retries
  refine ⟨fun slot r c st serves here single => ⟨fun f i good kind src dest tag row => ?_,
      fails (.corrupt a st) serves here single, fun due => fails (.timeout a st due) serves here single⟩,
    fun slot r c st serves here broadcast => ⟨fun pending => ?_, fun pending => ?_⟩, fun st none => ?_⟩
  · rw [ended_eq _ _ (State.takenOn_trunk ..) (State.takenOn_exchange ..) (Record.finished_single single)]
    exact ⟨_, exec_matched a law.1 good st serves here single kind src dest tag row,
      State.endsWork_lent_same (by rw [State.completed_seg, State.takenOn_seg, drain]) rfl rfl⟩
  · exact ⟨_, exec_delivered_stays a st serves here broadcast pending,
      State.endsWork_lent_same (by rwa [State.exchange_seg]) rfl rfl⟩
  · have delivered : ended s slot r (.broadcast { c with
          pending := { a := false, b := false }, delivered := c.delivered.insert x }) .rsp
          [(c.delivered.insert x).mask] =
        s.completed slot { r with carriage := .broadcast (c.deliver x) } ⟨.rsp, [(c.delivered.insert x).mask]⟩ :=
      ended_eq (r := { r with carriage := .broadcast (c.deliver x) }) _ _ rfl rfl rfl
    rw [delivered]
    exact ⟨_, exec_delivered_completes a law.1 st serves here broadcast pending,
      State.endsWork_lent_same (by rwa [State.completed_seg]) rfl rfl⟩
  · exact ⟨_, exec_sentForNone a st none, State.endsWork_lent_same drain rfl rfl⟩

end Sys2Proof.Machine
end

section
/-! SUPPORT. The record an abort names (R81, R82), the sequencer's side of an abort and of a line reset (R105, R110,
R116), and a completion behind a management RSP (R80). -/

namespace Sys2Proof.Machine

/-! ### The record an abort names (R81) -/

theorem Tag.zeroExtend_eq_iff (t : Tag) (b : Byte) : t.zeroExtend 8 = b ↔ t.toNat = b.toNat := by
  rw [← BitVec.toNat_inj, BitVec.toNat_setWidth, Nat.mod_eq_of_lt (by omega)]

theorem Slot.mem_all (i : Slot) : i ∈ ([0, 1, 2, 3, 4, 5, 6, 7, 8, 9, 10, 11, 12, 13, 14, 15] : List Slot) := by
  revert i
  decide

/-- The slot named holds a QUEUED or ACTIVE record with the pair. -/
theorem ExchangeTable.abortable_found {t : ExchangeTable} {source tag : Byte} {i : Slot}
    (h : t.abortable source tag = some i) :
    ∃ r, t.record i = some r ∧ r.source = source ∧ r.tag.toNat = tag.toNat ∧ r.state.isComplete = false := by
  have found := List.find?_some h
  cases hr : t.record i with
  | none => simp [hr] at found
  | some r =>
    simp only [hr, Bool.and_eq_true, beq_iff_eq, Bool.not_eq_true'] at found
    obtain ⟨⟨src, tg⟩, running⟩ := found
    exact ⟨r, rfl, src, (Tag.zeroExtend_eq_iff _ _).mp tg, running⟩

/-- A pair that no QUEUED or ACTIVE record has names none. -/
theorem ExchangeTable.abortable_none {t : ExchangeTable} {source tag : Byte}
    (complete : ∀ i r, t.record i = some r → r.source = source → r.tag.toNat = tag.toNat →
      r.state.isComplete = true) : t.abortable source tag = none := by
  cases h : t.abortable source tag with
  | none => rfl
  | some i =>
    obtain ⟨r, hr, src, tg, running⟩ := ExchangeTable.abortable_found h
    rw [complete i r hr src tg] at running
    cases running

/-- A pair that a QUEUED or ACTIVE record has names its slot: no other record has it (R69). -/
theorem ExchangeTable.abortable_eq {t : ExchangeTable} {source tag : Byte} {slot : Slot} {q : Record}
    (law : TableLaw t) (here : t.record slot = some q) (src : q.source = source) (tg : q.tag.toNat = tag.toNat)
    (running : q.state.isComplete = false) : t.abortable source tag = some slot := by
  cases h : t.abortable source tag with
  | none =>
    have passed := List.find?_eq_none.mp h slot (Slot.mem_all slot)
    simp [here, src, (Tag.zeroExtend_eq_iff _ _).mpr tg, running] at passed
  | some i =>
    obtain ⟨r, hr, src', tg', -⟩ := ExchangeTable.abortable_found h
    obtain ⟨-, -, -, -, distinct⟩ := law
    by_contra ne
    refine distinct i slot (fun e => ne (e ▸ rfl)) (by rw [hr]; rfl) ?_
    rw [hr, here]
    simp only [Option.map_some, Record.pair, src, src', BitVec.eq_of_toNat_eq (tg'.trans tg.symm)]

/-! ### The sequencer's side (R105, R110, R116) -/

section Drop

variable {s : State} {x : Seg} {slot : Slot}

/-- Outside WAIT the sequencer only lets go of the record (R105, R110). -/
theorem State.dropCurrent_released (st : (s.seg x).state ≠ .wait) :
    s.dropCurrent x = s.modSeg x fun g => { g with current := none } := if_neg st

/-- In WAIT the work ends at once (R105, R110). -/
theorem State.dropCurrent_wait (st : (s.seg x).state = .wait) :
    s.dropCurrent x = s.endsWork x fun g => { g with current := none } := if_pos st

theorem State.dropCurrent_guard (st : (s.seg x).state = .wait) (drain : (s.seg x).drainRequested = false) :
    s.dropCurrent x = s.modSeg x Segment.guardNow := by
  rw [State.dropCurrent_wait st, State.endsWork_guard drain rfl]
  rfl

theorem State.dropCurrent_lent (st : (s.seg x).state = .wait) (drain : (s.seg x).drainRequested = true) :
    EntersLent x s (s.dropCurrent x) := by
  rw [State.dropCurrent_wait st]
  exact State.endsWork_lent_same drain rfl rfl

theorem State.dropIf_serving (serves : (s.seg x).current = some slot) : s.dropIf x slot = s.dropCurrent x :=
  if_pos serves

theorem State.dropIf_none (free : (s.seg x).current ≠ some slot) : s.dropIf x slot = s := if_neg free

/-- Where no other sequencer serves the record, only that of `x` has something to drop. -/
theorem State.dropIf_only (free : ∀ y, y ≠ x → (s.seg y).current ≠ some slot) :
    (s.dropIf .a slot).dropIf .b slot = s.dropIf x slot := by
  cases x with
  | a =>
    refine State.dropIf_none ?_
    rw [State.dropIf_seg_other _ _ (by decide)]
    exact free .b (by decide)
  | b => rw [State.dropIf_none (x := .a) (free .a (by decide))]

/-- In WAIT the record served is SINGLE, so that no other sequencer serves it (R66, R89). -/
theorem ExchangeLaw.alone_in_wait (law : ExchangeLaw s) (a : Acting s) (serves : (s.seg x).current = some slot)
    (st : (s.seg x).state = .wait) : ∀ y, y ≠ x → (s.seg y).current ≠ some slot := by
  intro y hy servesY
  have slots := (Books.begins a law).ledger.slots slot (by simp)
  obtain ⟨r, -, held⟩ := slots.held_of_served serves
  obtain ⟨onX, -, single⟩ := held.served x serves
  obtain ⟨onY, -, -⟩ := held.served y servesY
  obtain ⟨c, hc⟩ := (Carriage.isSingle_iff _).mp (single st)
  have namesX := ((r.standsOn_iff x).mp onX).2
  have namesY := ((r.standsOn_iff y).mp onY).2
  simp only [hc, Carriage.names, beq_iff_eq] at namesX namesY
  exact hy (namesY.symm.trans namesX)

end Drop

/-! ### A completion behind a management RSP (R80) -/

/-- The room for the NAK of an abort: a transmitter at rest has taken the RSP itself, any other has left it in the
queue. -/
theorem State.answered_room {s : State} (room : s.trunk.queue.length < 8) (k : FrameKind) (fn : Byte) (r : Request)
    (p : List Byte) :
    (s.answered k fn r p).trunk.queue.length < 8 ↔ s.trunk.tx = .idle ∨ s.trunk.queue.length < 7 := by
  unfold State.answered State.placed
  split
  · rename_i idle
    simp [idle, room]
  · rename_i busy
    simp only [List.length_append, List.length_singleton, busy, false_or]
    omega

end Sys2Proof.Machine
end

section
/-! PROOF. O32 and O33: ABORT-EXCHANGE and LINE-RESET (R75 to R82, R105, R109, R110, R116). -/

namespace Sys2Proof.Machine

/-- ABORT-EXCHANGE in range is judged by the record its pair names (R81). -/
theorem exec_abortExchange {s : State} {r : Request} {source tag : Byte} (ready : Ready s r)
    (hp : r.payload = [source, tag]) (low : 1 ≤ source.toNat) (high : source.toNat ≤ 254) (range : tag.toNat ≤ 31) :
    exec (.abortExchange r) s = .next (match s.exchange.abortable source tag with
      | none => (s.taken (s.commandFrame 0x21 r)).refuse 0x21 r (nakRange 0)
      | some slot => ((s.taken (s.commandFrame 0x21 r)).respond 0x21 r [byteOf slot.val]).abort slot) := by
  have inRange : firstOutOfRange [(0, sourceOk source), (1, decide (tag.toNat ≤ 31))] = none := by
    simp [firstOutOfRange_none_iff, sourceOk_iff, low, high, range]
  change execAbortExchange r s = _
  unfold execAbortExchange
  rw [s.management_ready 0x21 r _ ready]
  simp only [hp, inRange]
  rfl

/-- The RSP enters, the record completes NAK ABORTED, and the sequencers that serve it drop it (R80, R82). -/
theorem exec_abortExchange_named {s : State} {r : Request} {source tag : Byte} {slot : Slot} {q : Record}
    (ready : Ready s r) (law : ExchangeLaw s) (hp : r.payload = [source, tag]) (low : 1 ≤ source.toNat)
    (high : source.toNat ≤ 254) (range : tag.toNat ≤ 31) (here : s.exchange.record slot = some q)
    (src : q.source = source) (tg : q.tag.toNat = tag.toNat) (running : q.state.isComplete = false) :
    exec (.abortExchange r) s = .next
      (((((s.taken (s.commandFrame 0x21 r)).answered .rsp 0x21 r [BitVec.ofNat 8 slot.val]).completed slot q
        ⟨.nak, [0x23]⟩).dropIf .a slot).dropIf .b slot) := by
  have told : ExchangeLaw ((s.taken (s.commandFrame 0x21 r)).answered .rsp 0x21 r [BitVec.ofNat 8 slot.val]) :=
    (law.taken _).answered ready.1.1 ready.2.2 _ _ _
  have completes := State.completeRecord_completed (slot := slot) (r := q) (by simpa [Acting] using ready.1.1) told.1
    (by rwa [State.answered_exchange]) ⟨.nak, [0x23]⟩
  have entered : (s.taken (s.commandFrame 0x21 r)).respond 0x21 r [byteOf slot.val] =
      (s.taken (s.commandFrame 0x21 r)).answered .rsp 0x21 r [byteOf slot.val] :=
    State.respond_answered _ _ _ _ ready.2.2 (law.taken _).1 ready.1.1
  rw [exec_abortExchange ready hp low high range, ExchangeTable.abortable_eq law.2.2.1 here src tg running]
  simp only []
  rw [entered, State.abort_eq, ← completes]
  rfl

/-- Settles O32: the pair names no record or one, and each sequencer that serves it drops it as its state has it. -/
theorem abortEndsTheExchange : Obligations.AbortEndsTheExchange := by
  intro s r source tag ready law hp low high range
  refine ⟨fun complete => ?_, ?_⟩
  · rw [exec_abortExchange ready hp low high range, ExchangeTable.abortable_none complete]
    exact congrArg Host.Outcome.next (State.refuse_answered _ _ _ _ ready.2.2 (law.taken _).1 ready.1.1)
  intro slot q here src tg running told ended
  have completed : told.completed slot q ⟨.nak, [0x23]⟩ = ended :=
    State.completed_eq (s := s) ⟨.nak, [0x23]⟩ _ (State.answered_room (s := s.taken _) ready.2.2 _ _ _ _)
      (State.answered_exchange ..) (carriage := q.carriage.finished) rfl
  have seg : ∀ y, ended.seg y = s.seg y := fun y => by
    rw [← completed, State.completed_seg, State.answered_seg, State.taken_seg]
  have alone := fun {x : Seg} => law.alone_in_wait (x := x) (slot := slot) ready.1.1
  rw [exec_abortExchange_named ready law hp low high range here src tg running, completed]
  refine ⟨fun unserved => ?_, fun x serves only st => ?_, fun servesA servesB => ?_, fun x serves st => ?_⟩
  · have free : ∀ y, (ended.seg y).current ≠ some slot := fun y hy => by
      rw [seg] at hy
      rw [(s.served_iff slot).mpr ⟨y, hy⟩] at unserved
      cases unserved
    rw [State.dropIf_only (x := .a) fun y _ => free y, State.dropIf_none (free .a)]
  · rw [State.dropIf_only (x := x) fun y hy => by rw [seg]; exact only y hy,
      State.dropIf_serving (by rw [seg, serves]), State.dropCurrent_released (by rw [seg, st]; decide)]
  · have busyA : (ended.seg .a).state ≠ .wait := fun st =>
      alone (x := .a) servesA (by rwa [← seg]) .b (by decide) servesB
    have busyB : (ended.seg .b).state ≠ .wait := fun st =>
      alone (x := .b) servesB (by rwa [← seg]) .a (by decide) servesA
    have other : ∀ f, (ended.modSeg .a f).seg .b = ended.seg .b := fun f => State.modSeg_seg_other _ _ _ _ (by decide)
    rw [State.dropIf_serving (x := .a) (by rw [seg]; exact servesA), State.dropCurrent_released busyA,
      State.dropIf_serving (x := .b) (by rw [other, seg]; exact servesB), State.dropCurrent_released (by rwa [other])]
  · rw [State.dropIf_only (x := x) fun y hy => by rw [seg]; exact alone serves st y hy,
      State.dropIf_serving (by rw [seg, serves])]
    refine ⟨fun drain => ?_, fun drain => ⟨_, rfl, ?_⟩⟩
    · rw [State.dropCurrent_guard (by rw [seg, st]) (by rw [seg, drain])]
    · exact State.dropCurrent_lent (by rw [seg, st]) (by rw [seg, drain])

/-- LINE-RESET answers the number of records standing on the segment, clears it, and its sequencer finishes its side
(R109, R110). -/
theorem exec_lineReset {s : State} {r : Request} {x : Seg} (ready : Ready s r) (law : ExchangeLaw s)
    (hp : r.payload = [if x = .a then 1 else 2]) :
    exec (.lineReset r) s = .next (((((s.taken (s.commandFrame 0x22 r)).answered .rsp 0x22 r
      [BitVec.ofNat 8 (s.exchange.standing x).length]).cleared x .aborted).release x).dropCurrent x) := by
  have told : ExchangeLaw ((s.taken (s.commandFrame 0x22 r)).answered .rsp 0x22 r
      [BitVec.ofNat 8 (s.exchange.standing x).length]) := (law.taken _).answered ready.1.1 ready.2.2 _ _ _
  have entered : (s.taken (s.commandFrame 0x22 r)).respond 0x22 r [BitVec.ofNat 8 (s.exchange.standing x).length] =
      (s.taken (s.commandFrame 0x22 r)).answered .rsp 0x22 r [BitVec.ofNat 8 (s.exchange.standing x).length] :=
    State.respond_answered _ _ _ _ ready.2.2 (law.taken _).1 ready.1.1
  change execLineReset r s = _
  unfold execLineReset
  rw [s.management_ready 0x22 r _ ready]
  simp only [hp, segOf_code]
  rw [← State.lineReset_eq _ (by simpa [Acting] using ready.1.1) told.1 told.2.2.1, ← entered]
  rfl

/-- Settles O33: the segment is cleared behind the RSP, then the sequencer lets go, in WAIT with the end of the work. -/
theorem lineResetClearsTheSegment : Obligations.LineResetClearsTheSegment := by
  intro s r x ready law hp cleared
  have seg : cleared.seg x = s.seg x := by
    rw [State.cleared_seg, State.answered_seg, State.taken_seg]
  have released : (cleared.release x).seg x = { s.seg x with current := none } := by
    rw [State.release, State.modSeg_seg_self, seg]
  rw [exec_lineReset ready law hp]
  refine ⟨State.cleared_standing _ x .aborted, fun st => ?_, fun st drain => ?_, fun st drain => ⟨_, rfl, ?_⟩⟩
  · rw [State.dropCurrent_released (by rwa [released]), State.release, State.modSeg_modSeg]
  · rw [State.dropCurrent_guard (by rw [released, st]) (by rw [released, drain]), State.release, State.modSeg_modSeg]
    rfl
  · have lent : (cleared.release x).dropCurrent x = cleared.endsWork x fun g => { g with current := none } := by
      rw [State.dropCurrent_wait (by rw [released, st]), State.endsWork, State.release, State.modSeg_modSeg]
      rfl
    exact lent ▸ State.endsWork_lent_same (by rw [seg, drain]) rfl rfl

end Sys2Proof.Machine
end

section
/-! SUPPORT. What the laws of the sequencers, the hold lines and the patience read of a state (R89, R114, R117, R119),
what leaves it alone, and which moves of a segment keep it lent or draining as it was. -/

namespace Sys2Proof.Machine

/-! ### What leaves both segments and both hold lines alone -/

/-- The reset in progress, the segments and the levels of the hold lines. -/
def State.lending (s : State) : Option HardCause × Segment × Segment × Bool × Bool :=
  (s.hardReset, s.segA, s.segB, s.inputs.holdA.asserted, s.inputs.holdB.asserted)

theorem State.lending_eq_of {s t : State} (hardReset : t.hardReset = s.hardReset) (seg : ∀ x, t.seg x = s.seg x)
    (inputs : t.inputs = s.inputs) : t.lending = s.lending := by
  have a : t.segA = s.segA := seg .a
  have b : t.segB = s.segB := seg .b
  rw [State.lending, State.lending, hardReset, a, b, inputs]

section Lending
variable (s : State)

@[simp] theorem State.lending_modTrunk (f : Trunk → Trunk) : (s.modTrunk f).lending = s.lending := rfl

@[simp] theorem State.lending_modReporter (f : Reporter → Reporter) : (s.modReporter f).lending = s.lending := rfl

@[simp] theorem State.lending_modRoutes (f : RouteTable → RouteTable) : (s.modRoutes f).lending = s.lending := rfl

@[simp] theorem State.lending_setRecord (i : Slot) (r : Record) : (s.setRecord i r).lending = s.lending := rfl

@[simp] theorem State.lending_taken (f : Frame) : (s.taken f).lending = s.lending := rfl

@[simp] theorem State.lending_arbitrate : s.arbitrate.lending = s.lending :=
  State.lending_eq_of s.arbitrate_base.hardReset (by simp) (by simp)

@[simp] theorem State.lending_enqueue (q : QueuedFrame) : (s.enqueue q).lending = s.lending := State.lending_arbitrate _

@[simp] theorem State.lending_respond (fn : Byte) (r : Request) (p : List Byte) :
    (s.respond fn r p).lending = s.lending := s.lending_enqueue _

@[simp] theorem State.lending_refuse (fn : Byte) (r : Request) (p : List Byte) :
    (s.refuse fn r p).lending = s.lending := s.lending_enqueue _

@[simp] theorem State.lending_countReplyDrop : s.countReplyDrop.lending = s.lending := rfl

@[simp] theorem State.lending_countRouteDrop : s.countRouteDrop.lending = s.lending := rfl

@[simp] theorem State.lending_refuseRouted (f : Frame) (p : List Byte) :
    (s.refuseRouted f p).lending = s.lending := by
  unfold State.refuseRouted
  split <;> simp

@[simp] theorem State.lending_completeRecord (i : Slot) (reply : Reply) :
    (s.completeRecord i reply).lending = s.lending :=
  State.lending_eq_of (s.completeRecord_base i reply).hardReset (by simp) (by simp)

@[simp] theorem State.lending_settleBroadcast (i : Slot) (r : Record) (c : Broadcast) :
    (s.settleBroadcast i r c).lending = s.lending :=
  State.lending_eq_of (s.settleBroadcast_base i r c).hardReset (by simp) (by simp)

@[simp] theorem State.lending_takeFromSegment (x : Seg) (why : WithdrawReason) (i : Slot) :
    (State.takeFromSegment x why s i).lending = s.lending := by
  unfold State.takeFromSegment
  split
  · rfl
  · split <;> simp

@[simp] theorem State.lending_offerEventQuietly (e : Event) : (s.offerEventQuietly e).lending = s.lending := by
  unfold State.offerEventQuietly
  repeat' split
  all_goals rfl

@[simp] theorem State.lending_offerEvent (e : Event) : (s.offerEvent e).lending = s.lending := by
  simp [State.offerEvent]

/-- A change of the input block shows where it changes the level of a hold line (R113). -/
theorem State.lending_modInputs {f : InputBlock → InputBlock}
    (hold : ∀ x, ((f s.inputs).hold x).asserted = (s.inputs.hold x).asserted) :
    (s.modInputs f).lending = s.lending := by
  have a : (f s.inputs).holdA.asserted = s.inputs.holdA.asserted := hold .a
  have b : (f s.inputs).holdB.asserted = s.inputs.holdB.asserted := hold .b
  rw [State.lending, State.lending, State.modInputs_inputs, a, b]
  rfl

@[simp] theorem State.lending_clearLost : (s.modInputs InputBlock.clearLost).lending = s.lending := rfl

@[simp] theorem State.lending_configure (n : Nat) (q : BitVec 4) (e : EdgeSelect) (c : Fin 4) :
    (s.modInputs fun b => b.configure n q e c).lending = s.lending :=
  s.lending_modInputs fun x => by
    unfold InputBlock.configure
    split <;> cases x <;> rfl

@[simp] theorem State.lending_setPeriod (i : BitVec 2) :
    (s.modInputs fun b => b.setPeriod i).lending = s.lending :=
  s.lending_modInputs fun x => by cases x <;> rfl

@[simp] theorem State.lending_nextPeriod : (s.modInputs InputBlock.nextPeriod).lending = s.lending := rfl

/-- The input lines of a sample instant leave the segments to the hold lines (R126 step 1). -/
@[simp] theorem State.lending_sampleLine (inputs : Word) (n : Fin 16) :
    (State.sampleLine inputs s n).lending = s.lending := by
  unfold State.sampleLine
  simp only []
  split
  · rw [State.lending_offerEvent]
    rfl
  · rfl

end Lending

/-! ### A segment that stays lent or draining as it was -/

/-- A move of a segment that leaves it lent or draining as it was, and brings no patience to its expiry unexpired. -/
structure Segment.Steady (g g' : Segment) : Prop where
  lends : (g'.state = .lent ∨ g'.drainRequested = true) ↔ (g.state = .lent ∨ g.drainRequested = true)
  patience : ¬ PatienceReached g → ¬ PatienceReached g'

namespace Segment

theorem Steady.refl (g : Segment) : g.Steady g := ⟨Iff.rfl, id⟩

theorem Steady.trans {g h k : Segment} (p : g.Steady h) (q : h.Steady k) : g.Steady k :=
  ⟨q.lends.trans p.lends, fun n => q.patience (p.patience n)⟩

/-- A move between two states other than LENT. -/
theorem Steady.of_unlent {g g' : Segment} (before : g.state ≠ .lent) (after : g'.state ≠ .lent)
    (drain : g'.drainRequested = g.drainRequested) : g.Steady g' :=
  ⟨by simp [before, after, drain], fun _ reached => after reached.1⟩

/-- A patience is not 0, so at the lent time 0 none has been reached (R119). -/
theorem unreached_at_zero {g : Segment} (zero : g.lentTime = some 0) : ¬ PatienceReached g := by
  rintro ⟨-, -, patience, reached⟩
  refine patience (BitVec.eq_of_toNat_eq ?_)
  simp only [zero, Option.getD_some, BitVec.ofNat_eq_ofNat, BitVec.toNat_ofNat, Nat.zero_mod] at reached ⊢
  omega

theorem toLent_unreached (g : Segment) : ¬ PatienceReached g.toLent := unreached_at_zero rfl

/-- A drain ends in LENT (R116). -/
theorem Steady.toLent {g : Segment} (drain : g.drainRequested = true) : g.Steady g.toLent :=
  ⟨iff_of_true (.inl rfl) (.inr drain), fun _ => g.toLent_unreached⟩

/-- The entry to IDLE applies a pending configuration, in which no patience runs (R91). -/
theorem Steady.toIdle {g : Segment} (st : g.state = .guard ∨ g.state = .resume) : g.Steady g.toIdle := by
  obtain ⟨p, -, e⟩ := Segment.applyPending_eq { g with state := .idle, guardTimer := none }
  unfold Segment.toIdle
  rw [e]
  exact .of_unlent (by rintro lent; simp [lent] at st) (by simp) rfl

/-- The patience of a segment has been judged (R119). -/
def judged (g : Segment) : Segment := if PatienceReached g then { g with lentExpired := true } else g

theorem judged_lends (g : Segment) :
    (g.judged.state = .lent ∨ g.judged.drainRequested = true) ↔ (g.state = .lent ∨ g.drainRequested = true) := by
  unfold judged
  split <;> rfl

/-- Once judged, no segment has reached its patience without being lent-expired (R119). -/
theorem judged_unreached (g : Segment) : ¬ PatienceReached g.judged := by
  unfold judged
  split
  · rintro ⟨-, unexpired, -⟩
    cases unexpired
  · assumption

/-- A move after which the patience is judged need not mind the patience itself. -/
theorem Steady.judged {g g' : Segment}
    (lends : (g'.state = .lent ∨ g'.drainRequested = true) ↔ (g.state = .lent ∨ g.drainRequested = true)) :
    g.Steady g'.judged :=
  ⟨g'.judged_lends.trans lends, fun _ => g'.judged_unreached⟩

/-- A soft reset leaves a lent segment lent with its configuration, lends a draining one, and idles any other (R112,
R124). -/
theorem Steady.softReset {g : Segment} (law : SegmentLaw g) : g.Steady g.softReset := by
  by_cases st : g.state = .lent
  · obtain ⟨-, -, -, -, -, -, -, -, -, pending, -⟩ := law
    have applied : g.pendingConfig = none := by simpa [st] using pending
    rw [Segment.softReset_lent st, applied]
    exact ⟨iff_of_true (.inl st) (.inl st), id⟩
  · cases drain : g.drainRequested with
    | true =>
      rw [Segment.softReset_draining st drain]
      exact ⟨iff_of_true (.inl rfl) (.inr drain), fun _ => unreached_at_zero rfl⟩
    | false =>
      rw [Segment.softReset_idle st drain]
      exact .of_unlent st (by simp) drain.symm

end Segment

/-- A judgement of the patience leaves its own segment judged. -/
theorem State.judgePatience_seg_self (s : State) (x : Seg) : (s.judgePatience x).seg x = (s.seg x).judged := by
  unfold Segment.judged
  split
  · rename_i reached
    rw [s.judgePatience_reached x reached, State.expirePatience_seg, State.modSeg_seg_self]
  · rename_i unreached
    rw [s.judgePatience_else x unreached]

@[simp] theorem State.judgePatience_inputs (s : State) (x : Seg) : (s.judgePatience x).inputs = s.inputs := by
  unfold State.judgePatience State.expirePatience
  split
  · exact (State.foldl_kept State.inputs _ (fun u i => by simp) _ _).trans (s.modSeg_inputs x _)
  · rfl

end Sys2Proof.Machine
end

section
/-! SUPPORT. The shared operations that leave each segment lent or draining as it was, with its hold line (R91 to
R119). -/

namespace Sys2Proof.Machine

/-- Both hold lines keep their levels and each segment moves steadily. -/
structure State.Steady (s t : State) : Prop where
  hardReset : t.hardReset = s.hardReset
  hold : ∀ x, (t.inputs.hold x).asserted = (s.inputs.hold x).asserted
  seg : ∀ x, (s.seg x).Steady (t.seg x)

namespace State.Steady
variable {s t u : State} {x : Seg}

theorem of_lending (h : t.lending = s.lending) : s.Steady t := by
  simp only [State.lending, Prod.mk.injEq] at h
  obtain ⟨hardReset, a, b, holdA, holdB⟩ := h
  refine ⟨hardReset, fun x => ?_, fun x => ?_⟩
  · cases x
    · exact holdA
    · exact holdB
  · cases x
    · rw [State.seg_a, State.seg_a, a]
      exact .refl _
    · rw [State.seg_b, State.seg_b, b]
      exact .refl _

theorem refl (s : State) : s.Steady s := of_lending rfl

theorem trans (h : s.Steady t) (k : t.Steady u) : s.Steady u :=
  ⟨k.hardReset.trans h.hardReset, fun x => (k.hold x).trans (h.hold x), fun x => (h.seg x).trans (k.seg x)⟩

/-- What leaves the segments and the hold lines alone comes after a steady move. -/
theorem quiet (h : s.Steady t) (k : u.lending = t.lending) : s.Steady u := h.trans (of_lending k)

/-- A change of one segment alone. -/
theorem of_one (hardReset : t.hardReset = s.hardReset) (inputs : t.inputs = s.inputs)
    (self : (s.seg x).Steady (t.seg x)) (other : ∀ y, y ≠ x → t.seg y = s.seg y) : s.Steady t where
  hardReset := hardReset
  hold y := by rw [inputs]
  seg y := by
    by_cases hy : y = x
    · exact hy ▸ self
    · rw [other y hy]
      exact .refl _

theorem modSeg (s : State) {x : Seg} {f : Segment → Segment} (h : (s.seg x).Steady (f (s.seg x))) :
    s.Steady (s.modSeg x f) :=
  of_one (by simp) (by simp) (by rwa [State.modSeg_seg_self]) fun y hy => s.modSeg_seg_other x y f hy

/-- What a segment counts, times, receives, sends or serves concerns no hold line and no patience. -/
theorem modSeg_aside (s : State) {x : Seg} {f : Segment → Segment} (state : (f (s.seg x)).state = (s.seg x).state)
    (drain : (f (s.seg x)).drainRequested = (s.seg x).drainRequested)
    (patience : PatienceReached (f (s.seg x)) = PatienceReached (s.seg x)) : s.Steady (s.modSeg x f) :=
  modSeg s ⟨by rw [state, drain], by rw [patience]; exact id⟩

theorem modPort (s : State) (p : PortId) (f : Port → Port) : s.Steady (s.modPort p f) := by
  rcases p with _ | x
  · exact of_lending rfl
  · exact modSeg_aside s (f := fun g => g.modPort f) rfl rfl rfl

/-! ### Records on a segment (R77, R109, R119) -/

theorem foldl_takeFromSegment (x : Seg) (why : WithdrawReason) (l : List Slot) (s : State) :
    s.Steady (l.foldl (State.takeFromSegment x why) s) :=
  of_lending (State.foldl_kept State.lending _ (fun u i => by simp) l s)

/-- A failed record leaves the segments as they were, but for a counter (R102). -/
theorem failRecord (s : State) (x : Seg) (i : Slot) (why : FailCause) : s.Steady (s.failRecord x i why) := by
  unfold State.failRecord
  split
  · exact refl s
  · split
    · exact refl s
    · split
      · exact of_lending (by simp)
      · exact (of_lending (by simp)).trans (modSeg_aside _ rfl rfl rfl)

/-! ### The end of the work on the wire (R98, R102, R116) -/

/-- Where a hold drains the work ends in LENT, and otherwise outside it. -/
theorem leaveWork (s : State) {x : Seg} (st : (s.seg x).state ≠ .lent) : s.Steady (s.leaveWork x) := by
  refine of_one (s.leaveWork_base x).hardReset (s.leaveWork_inputs x) ?_ fun y hy => s.leaveWork_seg_other x y hy
  rw [State.leaveWork_seg_self]
  split
  · rename_i drain
    exact .toLent drain
  · exact .of_unlent st (by simp [Segment.toGuard]) rfl

/-- The work that a steady move of a sequencer outside LENT ends. -/
theorem ends (h : s.Steady t) (st : (t.seg x).state = (s.seg x).state) (unlent : (s.seg x).state ≠ .lent) :
    s.Steady (t.leaveWork x) := h.trans (leaveWork t (st ▸ unlent))

theorem failAttempt {s : State} {x : Seg} (st : (s.seg x).state ≠ .lent) (why : FailCause) :
    s.Steady (s.failAttempt x why) := by
  unfold State.failAttempt
  split
  · exact refl s
  · rename_i i _
    refine ((modSeg_aside s rfl rfl rfl).trans (failRecord _ x i why)).ends ?_ st
    obtain ⟨c, counted⟩ := State.failRecord_seg_self (s.modSeg x fun g =>
      { g with counters := g.counters.countFailure why, responseTimer := none, current := none }) x i why
    rw [counted, State.modSeg_seg_self]

theorem dropCurrent (s : State) (x : Seg) : s.Steady (s.dropCurrent x) := by
  have released : s.Steady (s.release x) := modSeg_aside s rfl rfl rfl
  unfold State.dropCurrent
  split
  · rename_i st
    exact released.ends (by simp [State.release]) (by simp [st])
  · exact released

theorem dropIf (s : State) (x : Seg) (i : Slot) : s.Steady (s.dropIf x i) := by
  unfold State.dropIf
  split
  · exact dropCurrent s x
  · exact refl s

theorem abort (s : State) (i : Slot) : s.Steady (s.abort i) := by
  rw [State.abort_eq]
  exact ((of_lending (by simp)).trans (dropIf _ .a i)).trans (dropIf _ .b i)

theorem lineReset (s : State) (x : Seg) : s.Steady (s.lineReset x) :=
  ((modSeg_aside s rfl rfl rfl).trans (foldl_takeFromSegment x .aborted _ _)).trans (dropCurrent _ x)

theorem deliverOnSegment (s : State) (x : Seg) (f : Frame) : s.Steady (s.deliverOnSegment x f) := by
  have taken : s.Steady (s.takeDelivery (.segment x) (.frame f)) := modPort s _ _
  unfold State.deliverOnSegment
  generalize s.takeDelivery (.segment x) (.frame f) = u at taken
  simp only []
  split
  · rename_i i matched
    obtain ⟨st, -⟩ := State.attemptMatch_some matched
    exact taken.trans (((modSeg_aside u rfl rfl rfl).quiet (State.lending_completeRecord _ i _)).ends (by simp)
      (by simp [st]))
  · split
    · exact taken
    · exact taken.trans (modSeg_aside u rfl rfl rfl)

/-! ### A sequencer takes work (R72, R91, R93, R104) -/

theorem takeWork (s : State) (x : Seg) : s.Steady (s.takeWork x) := by
  unfold State.takeWork
  split
  · rename_i st
    split
    · exact refl s
    · split
      · exact refl s
      · exact (of_lending (by simp)).trans (modSeg _ (.of_unlent (by simp [st]) (by simp [Segment.begin]) rfl))
  · exact refl s

theorem enterIdle {s : State} {x : Seg} (st : (s.seg x).state = .guard ∨ (s.seg x).state = .resume) :
    s.Steady (s.enterIdle x) := (modSeg s (.toIdle st)).trans (takeWork _ x)

theorem tellNew (s : State) (on : SegSet) (x : Seg) : s.Steady (s.tellNew on x) := by
  unfold State.tellNew
  split
  · exact takeWork s x
  · exact refl s

/-! ### Guard timers, counters and the patience -/

theorem restartGuard (s : State) (p : PortId) : s.Steady (s.restartGuard p) := by
  rcases p with _ | x
  · exact refl s
  · refine modSeg s ?_
    unfold Segment.restartGuard
    split
    · exact ⟨Iff.rfl, id⟩
    · exact .refl _

theorem judgePatience (s : State) (x : Seg) : s.Steady (s.judgePatience x) := by
  refine of_one (s.judgePatience_base x).hardReset (s.judgePatience_inputs x) ?_ fun y hy =>
    s.judgePatience_seg_other hy
  rw [State.judgePatience_seg_self]
  exact .judged Iff.rfl

/-- A tick judges the patience in the event that counts it (R119, R164). -/
theorem tick (s : State) : s.Steady ((s.count.judgePatience .a).judgePatience .b) where
  hardReset := ((s.count.judgePatience_base .a).trans (State.judgePatience_base _ .b)).hardReset
  hold x := by rw [State.judgePatience_inputs, State.judgePatience_inputs, State.count]
  seg x := by
    cases x with
    | a =>
      rw [State.judgePatience_seg_other _ (by decide), State.judgePatience_seg_self]
      exact .judged Iff.rfl
    | b =>
      rw [State.judgePatience_seg_self, State.judgePatience_seg_other _ (by decide)]
      exact .judged Iff.rfl

/-- A configuration applied in IDLE or LENT has its patience judged at once (R106, R119). -/
theorem setConfig (s : State) (x : Seg) (c : SegConfig) : s.Steady (s.setConfig x c) := by
  unfold State.setConfig
  split
  · refine of_one ((State.judgePatience_base _ x).hardReset.trans (s.modSeg_hardReset x _)) (by simp) ?_ fun y hy => by
      rw [State.judgePatience_seg_other _ hy, State.modSeg_seg_other _ _ _ _ hy]
    rw [State.judgePatience_seg_self, State.modSeg_seg_self]
    obtain ⟨p, -, e⟩ := (s.seg x).applyConfig_eq c
    exact .judged (by rw [e])
  · exact modSeg_aside s rfl rfl rfl

end State.Steady

end Sys2Proof.Machine
end

section
/-! SUPPORT. What every command keeps of the laws of the sequencers, the hold lines and the patience: one relation
between the state before and after (R89, R114, R115, R117, R119). -/

namespace Sys2Proof.Machine

/-! ### The laws, one segment at a time -/

/-- A hold line is ASSERTED exactly while its segment is LENT or drains (R114, R117). -/
def State.HoldAgrees (s : State) (x : Seg) : Prop :=
  (s.inputs.hold x).asserted = true ↔ (s.seg x).state = .lent ∨ (s.seg x).drainRequested = true

theorem HoldLaw.iff (s : State) : HoldLaw s ↔ SegmentsLaw s ∧ (Acting s → ∀ x, s.HoldAgrees x) :=
  and_congr_right fun _ => forall_congr' fun _ => (Seg.forall_iff (p := s.HoldAgrees)).symm

theorem PatienceLaw.iff (s : State) :
    PatienceLaw s ↔ SegmentsLaw s ∧ (Acting s → ∀ x, ¬ PatienceReached (s.seg x)) :=
  and_congr_right fun _ => forall_congr' fun _ => (Seg.forall_iff (p := fun x => ¬ PatienceReached (s.seg x))).symm

/-- From `s` to `t` the law of the sequencers, of the hold lines and of the patience are kept. -/
structure KeepsLending (s t : State) : Prop where
  segments : SegmentsLaw s → SegmentsLaw t
  hold : HoldLaw s → HoldLaw t
  patience : PatienceLaw s → PatienceLaw t

namespace KeepsLending
variable {s t u : State} {x : Seg}

/-- The laws kept segment by segment, where the part acts before and after. -/
theorem of_each (hardReset : t.hardReset = s.hardReset) (segments : SegmentsLaw s → SegmentsLaw t)
    (hold : ∀ x, SegmentLaw (s.seg x) → s.HoldAgrees x → t.HoldAgrees x)
    (patience : ∀ x, SegmentLaw (s.seg x) → ¬ PatienceReached (s.seg x) → ¬ PatienceReached (t.seg x)) :
    KeepsLending s t where
  segments := segments
  hold h := by
    obtain ⟨law, agrees⟩ := (HoldLaw.iff s).mp h
    exact (HoldLaw.iff t).mpr ⟨segments law, fun a x =>
      hold x (law.seg (hardReset.symm.trans a) x) (agrees (hardReset.symm.trans a) x)⟩
  patience h := by
    obtain ⟨law, unreached⟩ := (PatienceLaw.iff s).mp h
    exact (PatienceLaw.iff t).mpr ⟨segments law, fun a x =>
      patience x (law.seg (hardReset.symm.trans a) x) (unreached (hardReset.symm.trans a) x)⟩

/-- A steady move keeps the laws of the hold lines and of the patience with the law of the sequencers. -/
theorem of_steady (steady : s.Steady t) (segments : SegmentsLaw s → SegmentsLaw t) : KeepsLending s t :=
  of_each steady.hardReset segments
    (fun x _ agrees => by
      rw [State.HoldAgrees, steady.hold, (steady.seg x).lends]
      exact agrees)
    fun x _ => (steady.seg x).patience

/-- What leaves the segments and the hold lines alone keeps their laws. -/
theorem of_lending (h : t.lending = s.lending) : KeepsLending s t := by
  refine of_steady (.of_lending h) ?_
  simp only [State.lending, Prod.mk.injEq] at h
  obtain ⟨hardReset, a, b, -⟩ := h
  rw [SegmentsLaw, SegmentsLaw, hardReset, a, b]
  exact id

theorem refl (s : State) : KeepsLending s s := of_lending rfl

theorem trans (h : KeepsLending s t) (k : KeepsLending t u) : KeepsLending s u :=
  ⟨fun l => k.segments (h.segments l), fun l => k.hold (h.hold l), fun l => k.patience (h.patience l)⟩

theorem modPort (s : State) (p : PortId) (f : Port → Port)
    (closed : (f (s.port p)).receiver = .closed ↔ (s.port p).receiver = .closed) : KeepsLending s (s.modPort p f) :=
  of_steady (.modPort s p f) fun law => law.modPort p f closed

theorem takeDelivery (s : State) (p : PortId) (d : Delivery) : KeepsLending s (s.takeDelivery p d) :=
  modPort s p _ Iff.rfl

theorem restartGuard (s : State) (p : PortId) : KeepsLending s (s.restartGuard p) := by
  refine of_steady (.restartGuard s p) fun law => ?_
  rcases p with _ | x
  · exact law
  · exact law.modSeg x _ (Segment.restartGuard_law _)

theorem judgePatience (s : State) (x : Seg) : KeepsLending s (s.judgePatience x) :=
  of_steady (.judgePatience s x) fun law => law.judgePatience x

/-! ### Commands of each shape -/

theorem acting {s : State} (act : State → State) (h : KeepsLending s (act s)) :
    ∀ t, s.acting act = .next t → KeepsLending s t := State.acting_keeps act (refl s) fun _ => h

theorem trunkDelivery {s : State} (f : Frame) (comes : Bool) (act : State → State) (h : ∀ u, KeepsLending u (act u)) :
    ∀ t, s.trunkDelivery f comes act = .next t → KeepsLending s t :=
  State.trunkDelivery_keeps f comes act (refl s) (of_lending rfl) fun _ _ =>
    (of_lending (s.lending_taken f)).trans (h _)

theorem management {s : State} (fn : Byte) (r : Request) (judge : State → State) (h : ∀ u, KeepsLending u (judge u)) :
    ∀ t, s.management fn r judge = .next t → KeepsLending s t :=
  State.management_keeps fn r judge (refl s) (of_lending rfl) (of_lending rfl) fun _ =>
    (of_lending (s.lending_taken _)).trans (h _)

/-- A management command that leaves the segments and the hold lines alone. -/
theorem management_quiet {s : State} (fn : Byte) (r : Request) (judge : State → State)
    (h : ∀ u, (judge u).lending = u.lending) : ∀ t, s.management fn r judge = .next t → KeepsLending s t :=
  management fn r judge fun u => of_lending (h u)

end KeepsLending

/-! ### The sample of a hold line (R113, R114, R117, R121) -/

/-- A hold line has the sampled level where the sample qualifies it, and keeps its own otherwise (R113). -/
theorem HoldLine.sample_asserted (h : HoldLine) (level : Bool) :
    (h.sample level).asserted = if h.qualifies level then level else h.asserted := by
  unfold HoldLine.sample HoldLine.qualifies
  split
  · rename_i same
    simp [same]
  · rename_i other
    split <;> simp_all

theorem InputBlock.setHold_self (b : InputBlock) (x : Seg) (h : HoldLine) : (b.setHold x h).hold x = h := by
  cases x <;> rfl

theorem InputBlock.setHold_other (b : InputBlock) {x y : Seg} (h : HoldLine) (other : y ≠ x) :
    (b.setHold x h).hold y = b.hold y := by
  cases x with
  | a => cases y with
    | a => exact absurd rfl other
    | b => rfl
  | b => cases y with
    | a => rfl
    | b => exact absurd rfl other

/-- A qualified change of a hold line has been taken: its segment is LENT or drains exactly where the new level is
ASSERTED, and the other segment is as it was. -/
structure State.HoldTaken (s t : State) (x : Seg) (level : Bool) : Prop where
  hardReset : t.hardReset = s.hardReset
  inputs : t.inputs = s.inputs
  other : ∀ y, y ≠ x → t.seg y = s.seg y
  segments : SegmentsLaw s → SegmentsLaw t
  lends : SegmentLaw (s.seg x) → (((t.seg x).state = .lent ∨ (t.seg x).drainRequested = true) ↔ level = true)
  patience : ¬ PatienceReached (s.seg x) → ¬ PatienceReached (t.seg x)

namespace State.HoldTaken

theorem enterLent (s : State) (x : Seg) : s.HoldTaken (s.enterLent x) x true where
  hardReset := (s.enterLent_base x).hardReset
  inputs := s.enterLent_inputs x
  other y hy := s.enterLent_seg_other x y hy
  segments law := law.enterLent x
  lends _ := by
    rw [State.enterLent_seg_self]
    exact iff_of_true (.inl rfl) rfl
  patience _ := by
    rw [State.enterLent_seg_self]
    exact Segment.toLent_unreached _

/-- drain-requested is set or cleared (R114, R117). -/
theorem setDrain (s : State) {x : Seg} (drain : Bool) (unlent : (s.seg x).state ≠ .lent)
    (working : drain = true → (s.seg x).state = .send ∨ (s.seg x).state = .wait) :
    s.HoldTaken (s.modSeg x fun g => { g with drainRequested := drain }) x drain where
  hardReset := by simp
  inputs := by simp
  other y hy := s.modSeg_seg_other x y _ hy
  segments law := law.modSeg x _ fun g => Segment.drain_law _ g drain working
  lends _ := by simp [unlent]
  patience := by simp [unlent]

/-- A qualified assertion (R114). -/
theorem assertHold (s : State) (x : Seg) : s.HoldTaken (s.assertHold x) x true := by
  unfold State.assertHold
  cases st : (s.seg x).state with
  | idle => exact enterLent s x
  | guard => exact enterLent s x
  | resume => exact enterLent s x
  | send => exact setDrain s true (by simp [st]) fun _ => .inl st
  | wait => exact setDrain s true (by simp [st]) fun _ => .inr st
  | lent => exact ⟨rfl, rfl, fun _ _ => rfl, id, fun _ => iff_of_true (.inl st) rfl, id⟩

/-- A reclaimed segment is in RESUME and, since it was LENT, drains no hold (R121). -/
theorem reclaim (s : State) {x : Seg} (st : (s.seg x).state = .lent) : s.HoldTaken (s.reclaim x) x false where
  hardReset := by
    rw [State.reclaim, (State.offerEvent_base _ _).hardReset, State.modSeg_hardReset]
  inputs := by simp [State.reclaim]
  other y hy := by rw [State.reclaim, State.offerEvent_seg, State.modSeg_seg_other _ _ _ _ hy]
  segments law := (law.modSeg x _ fun g => Segment.toResume_law _ g st).offerEvent _
  lends law := by
    obtain ⟨-, -, -, -, -, -, -, -, drains, -⟩ := law
    simpa [State.reclaim, Segment.toResume, st] using drains
  patience _ := by simp [State.reclaim, Segment.toResume]

/-- A qualified deassertion (R117, R121). -/
theorem deassertHold (s : State) (x : Seg) : s.HoldTaken (s.deassertHold x) x false := by
  unfold State.deassertHold
  split
  · rename_i st
    exact reclaim s st
  · rename_i st
    exact setDrain s false st (by simp)

end State.HoldTaken

/-- The level a hold line has taken and what its segment makes of it go together, whatever held before. -/
theorem KeepsLending.of_holdTaken {s t : State} {x : Seg} {h : HoldLine}
    (taken : (s.modInputs fun b => b.setHold x h).HoldTaken t x h.asserted) : KeepsLending s t := by
  have seg : ∀ y, (s.modInputs fun b => b.setHold x h).seg y = s.seg y := fun y => s.modInputs_seg _ y
  refine .of_each taken.hardReset (fun law => taken.segments (law.same rfl seg)) (fun y law agrees => ?_)
    fun y _ unreached => ?_
  · by_cases hy : y = x
    · subst hy
      rw [State.HoldAgrees, taken.inputs, State.modInputs_inputs, InputBlock.setHold_self, taken.lends (seg y ▸ law)]
    · rw [State.HoldAgrees, taken.inputs, State.modInputs_inputs, InputBlock.setHold_other _ _ hy, taken.other y hy,
        seg]
      exact agrees
  · by_cases hy : y = x
    · subst hy
      exact taken.patience (seg y ▸ unreached)
    · rwa [taken.other y hy, seg]

/-- A sample that qualifies a change is taken by the segment; any other changes no level (R113, R126 step 2). -/
theorem KeepsLending.sampleHold (s : State) (x : Seg) (level : Bool) : KeepsLending s (s.sampleHold x level) := by
  have asserted := (s.inputs.hold x).sample_asserted level
  unfold State.sampleHold
  simp only []
  split
  · rename_i qualified
    rw [if_pos qualified] at asserted
    refine .of_holdTaken (x := x) (h := (s.inputs.hold x).sample level) ?_
    rw [asserted]
    cases level with
    | true => exact .assertHold _ x
    | false => exact .deassertHold _ x
  · rename_i unqualified
    rw [if_neg unqualified] at asserted
    refine .of_lending (s.lending_modInputs fun y => ?_)
    by_cases hy : y = x
    · rw [hy, InputBlock.setHold_self, asserted]
    · rw [InputBlock.setHold_other _ _ hy]

/-! ### The soft reset (R112, R124, R169) -/

namespace KeepsLending

theorem softReset (s : State) : KeepsLending s s.softReset := by
  have offered : ∀ (g : Segment) (x : Seg) (u : State), (State.offerLentAtReset g x u).lending = u.lending :=
    fun g x u => by
      unfold State.offerLentAtReset
      split <;> simp
  have reset : ∀ x, s.blocksReset.seg x = (s.seg x).softReset := fun x => by cases x <;> rfl
  have hold : ∀ x, (s.blocksReset.inputs.hold x).asserted = (s.inputs.hold x).asserted := fun x => by cases x <;> rfl
  refine trans (t := s.blocksReset) (of_each rfl (fun law => SegmentsLaw.of_seg fun a x => ?_) (fun x law agrees => ?_)
    fun x law => ?_) (of_lending (by rw [s.softReset_eq, State.lending_arbitrate, offered, offered]))
  · rw [reset]
    exact Segment.softReset_law _ (law.seg a x)
  · rw [State.HoldAgrees, reset, hold, (Segment.Steady.softReset law).lends]
    exact agrees
  · rw [reset]
    exact (Segment.Steady.softReset law).patience

end KeepsLending

end Sys2Proof.Machine
end

section
/-! PROOF. O54: every command keeps the laws of the sequencers, of the hold lines and of the patience. -/

namespace Sys2Proof.Machine
namespace KeepsLending
variable {s t : State}

/-! ### Line events (R3, R4, R11 to R14) -/

theorem of_idleQualification (p : PortId) (h : execIdleQualification p s = .next t) : KeepsLending s t :=
  acting _ (modPort s p _ (Port.qualify_closed _)) t h

theorem of_fallToSpace (p : PortId) (holds : Bool) (h : execFallToSpace p holds s = .next t) : KeepsLending s t := by
  refine acting _ ?_ t h
  split
  · exact restartGuard s p
  · exact modPort s p _ (Port.fall_closed holds _)

theorem of_arrival (p : PortId) (c : RawChar) (h : execArrival p c s = .next t) : KeepsLending s t := by
  refine acting _ ?_ t h
  split
  · rename_i hears
    exact (modPort s p _ (Answered.arrive_closed hears _ _ _ c)).trans (restartGuard _ p)
  · exact refl s

theorem of_lineBreak (p : PortId) (h : execLineBreak p s = .next t) : KeepsLending s t := by
  refine acting _ ?_ t h
  split
  · exact (modPort s p _ (Port.takeBreak_closed _)).trans (restartGuard _ p)
  · exact refl s

theorem of_breakEnd (p : PortId) (h : execBreakEnd p s = .next t) : KeepsLending s t :=
  acting _ (modPort s p _ (Port.endBreak_closed _)) t h

theorem of_gapTimerExpiry (p : PortId) (h : execGapTimerExpiry p s = .next t) : KeepsLending s t :=
  acting _ (modPort s p _ (by rw [Port.gapExpire_receiver])) t h

/-! ### Resets and the time base (R164, R169, R170) -/

/-- At the end of a hard reset both segments are IDLE and both hold lines deasserted (R112, R113). -/
theorem of_hardReset (p : Straps) (h : execHardReset p s = .next t) : KeepsLending s t := by
  cases h
  have law : SegmentLaw Segment.reset := by decide
  have agrees : false = true ↔ Segment.reset.state = .lent ∨ Segment.reset.drainRequested = true := by decide
  have unreached : ¬ PatienceReached Segment.reset := by decide
  exact ⟨fun _ _ => ⟨law, law⟩, fun _ => ⟨fun _ => ⟨law, law⟩, fun _ => ⟨agrees, agrees⟩⟩,
    fun _ => ⟨fun _ => ⟨law, law⟩, fun _ => ⟨unreached, unreached⟩⟩⟩

/-- From the beginning of a hard reset to its end the part does not act, and no law binds it (R170). -/
theorem of_hardResetBegin (c : HardCause) (h : execHardResetBegin c s = .next t) : KeepsLending s t := by
  have resetting : t.hardReset ≠ none := by
    cases h
    exact Option.some_ne_none _
  have law : SegmentsLaw t := fun a => absurd a resetting
  exact ⟨fun _ => law, fun _ => ⟨law, fun a => absurd a resetting⟩, fun _ => ⟨law, fun a => absurd a resetting⟩⟩

theorem of_softReset (h : execSoftReset s = .next t) : KeepsLending s t := by
  refine acting _ ?_ t h
  split
  · exact softReset s
  · exact refl s

theorem of_endOfTransmission (h : execEndOfTransmission s = .next t) : KeepsLending s t := by
  refine acting _ ?_ t h
  split
  · exact softReset s
  · refine of_lending ?_
    split <;> simp [State.txIdle]

theorem of_millisecondTick (h : execMillisecondTick s = .next t) : KeepsLending s t :=
  acting _ (of_steady (.tick s) fun law => (law.count.judgePatience .a).judgePatience .b) t h

theorem of_reportTimerExpiry (h : execReportTimerExpiry s = .next t) : KeepsLending s t := by
  refine acting _ (of_lending ?_) t h
  split <;> simp

/-! ### Deliveries of trunk frames (R20 to R22, R68 to R72, R151) -/

theorem admitRecord (s : State) (r : Record) : KeepsLending s (s.admitRecord r) := by
  have told : ∀ (u : State) (x : Seg), KeepsLending u (u.tellNew r.carriage.segments x) := fun u x =>
    of_steady (.tellNew u _ x) fun law => law.tellNew _ x
  cases free : s.exchange.freeSlotOf with
  | none =>
    rw [State.admitRecord, free]
    exact refl s
  | some slot =>
    rw [State.admitRecord_eq free]
    exact (of_lending (s := s) (t := s.placedRecord slot r) rfl).trans ((told _ .a).trans (told _ .b))

theorem judgeOffer (s : State) (f : Frame) (r : Record) : KeepsLending s (s.judgeOffer f r) := by
  unfold State.judgeOffer
  split
  · exact of_lending (by simp)
  · exact admitRecord s r

theorem act (s : State) (f : Frame) (e : RouteEntry) : KeepsLending s (s.act f e) := by
  unfold State.act
  split
  · exact judgeOffer s f _
  · exact judgeOffer s f _
  · exact of_lending (by simp)
  · exact of_lending (by simp)

theorem miss (s : State) (f : Frame) : KeepsLending s (s.miss f) := by
  refine of_lending ?_
  unfold State.miss
  split <;> simp

theorem route (s : State) (f : Frame) : KeepsLending s (s.route f) := by
  unfold State.route
  split
  · exact miss s f
  · split
    · exact miss s f
    · exact (of_lending (by simp)).trans (act _ f _)

theorem of_routedRequest (f : Frame) (h : execRoutedRequest f s = .next t) : KeepsLending s t :=
  trunkDelivery f _ _ (fun u => route u f) t h

theorem of_unexpected (f : Frame) (h : execUnexpected f s = .next t) : KeepsLending s t :=
  trunkDelivery f _ _ (fun u => of_lending (u.lending_modTrunk _)) t h

theorem of_pendingSoftResetDiscard (f : Frame) (h : execPendingSoftResetDiscard f s = .next t) : KeepsLending s t :=
  trunkDelivery f _ _ refl t h

theorem of_rack (n : Byte) (r : Request) (h : execRack n r s = .next t) : KeepsLending s t := by
  refine trunkDelivery _ _ _ (fun u => of_lending ?_) t h
  split <;> simp

/-! ### Management commands that concern the segments (R81, R106, R109, R165) -/

variable {r : Request}

theorem clearCounters (s : State) (p : PortId) : KeepsLending s (s.clearCounters p) := by
  have cleared := modPort s p (fun q => { q with counters := FramerCounters.zero }) Iff.rfl
  unfold State.clearCounters
  rcases p with _ | x
  · exact cleared.trans (of_lending rfl)
  · exact cleared.trans (of_steady (.modSeg_aside _ rfl rfl rfl) fun law => law.modSeg x _ id)

theorem of_readCounters (h : execReadCounters r s = .next t) : KeepsLending s t := by
  refine management _ r _ (fun u => ?_) t h
  split
  · split
    · exact of_lending (by simp)
    · split
      · exact of_lending (by simp)
      · simp only []
        split
        · exact (of_lending (by simp)).trans (clearCounters _ _)
        · exact of_lending (by simp)
  · exact of_lending (by simp)

theorem of_abortExchange (h : execAbortExchange r s = .next t) : KeepsLending s t := by
  refine management _ r _ (fun u => ?_) t h
  split
  · split
    · exact of_lending (by simp)
    · split
      · exact of_lending (by simp)
      · exact (of_lending (by simp)).trans (of_steady (.abort _ _) fun law => law.abort _)
  · exact of_lending (by simp)

theorem of_lineReset (h : execLineReset r s = .next t) : KeepsLending s t := by
  refine management _ r _ (fun u => ?_) t h
  split
  · split
    · exact of_lending (by simp)
    · exact (of_lending (by simp)).trans (of_steady (.lineReset _ _) fun law => law.lineReset _)
  · exact of_lending (by simp)

theorem of_setSegment (h : execSetSegment r s = .next t) : KeepsLending s t := by
  refine management _ r _ (fun u => ?_) t h
  split
  · split
    · exact of_lending (by simp)
    · exact (of_lending (by simp)).trans (of_steady (.setConfig _ _ _) fun law => law.setConfig _ _)
    · exact refl u
  · exact of_lending (by simp)

/-! ### The other management commands (R158) -/

theorem of_unknown (fn : Byte) (h : execUnknown fn r s = .next t) : KeepsLending s t := by
  unfold execUnknown at h
  split at h
  · cases h
    exact refl s
  · exact management_quiet fn r _ (fun u => by simp) t h

theorem of_readStatus (h : execReadStatus r s = .next t) : KeepsLending s t :=
  management_quiet _ r _ (fun u => by split <;> simp) t h

theorem of_readEntry (h : execReadEntry r s = .next t) : KeepsLending s t :=
  management_quiet _ r _ (fun u => by (repeat' split) <;> simp) t h

theorem of_readExchanges (h : execReadExchanges r s = .next t) : KeepsLending s t :=
  management_quiet _ r _ (fun u => by split <;> simp) t h

theorem of_readSegment (h : execReadSegment r s = .next t) : KeepsLending s t :=
  management_quiet _ r _ (fun u => by (repeat' split) <;> simp) t h

theorem of_readInputs (h : execReadInputs r s = .next t) : KeepsLending s t :=
  management_quiet _ r _ (fun u => by (repeat' split) <;> simp) t h

theorem of_stageEntry (h : execStageEntry r s = .next t) : KeepsLending s t := by
  refine management_quiet _ r _ (fun u => ?_) t h
  split
  · simp only []
    split <;> simp
  · simp

theorem of_clearStage (h : execClearStage r s = .next t) : KeepsLending s t :=
  management_quiet _ r _ (fun u => by split <;> simp) t h

theorem of_commit (h : execCommit r s = .next t) : KeepsLending s t :=
  management_quiet _ r _ (fun u => by (repeat' split) <;> simp) t h

theorem of_setMissPolicy (h : execSetMissPolicy r s = .next t) : KeepsLending s t :=
  management_quiet _ r _ (fun u => by (repeat' split) <;> simp) t h

theorem of_setInput (h : execSetInput r s = .next t) : KeepsLending s t :=
  management_quiet _ r _ (fun u => by (repeat' split) <;> simp) t h

theorem of_setSamplePeriod (h : execSetSamplePeriod r s = .next t) : KeepsLending s t :=
  management_quiet _ r _ (fun u => by (repeat' split) <;> simp) t h

theorem of_reportControl (h : execReportControl r s = .next t) : KeepsLending s t :=
  management_quiet _ r _ (fun u => by (repeat' split) <;> simp) t h

theorem of_fetchReports (h : execFetchReports r s = .next t) : KeepsLending s t :=
  management_quiet _ r _ (fun u => by (repeat' split) <;> simp) t h

theorem of_gatewayReset (h : execGatewayReset r s = .next t) : KeepsLending s t :=
  management_quiet _ r _ (fun u => by split <;> simp) t h

/-! ### Segment events and the sample instant (R94 to R105, R113 to R121, R126) -/

/-- The work of a sequencer in SEND ends, whatever record it serves to the last (R104, R105, R116). -/
theorem endsSend {x : Seg} {u : State} (st : (s.seg x).state = .send) (steady : s.Steady u) {serves : Option Slot}
    (self : u.seg x = { (s.seg x).endTransmission with current := serves }) (other : ∀ y, y ≠ x → u.seg y = s.seg y) :
    KeepsLending s (u.leaveWork x) :=
  of_steady (steady.ends (by rw [self]; rfl) (by simp [st])) fun law =>
    law.ends steady.hardReset other fun g drain => by
      rw [self] at drain ⊢
      exact Segment.endTransmission_toGuard_law _ g st drain

/-- An attempt has been sent and waits for its answer (R94, R95). -/
theorem endsAttempt {x : Seg} {slot : Slot} (st : (s.seg x).state = .send) (serves : (s.seg x).current = some slot)
    (timeout : Byte) :
    KeepsLending s ((s.modSeg x Segment.endTransmission).modSeg x fun g => g.toWait timeout) := by
  rw [State.modSeg_modSeg]
  exact of_steady (.modSeg s (.of_unlent (by simp [st]) (by simp [Segment.toWait]) rfl)) fun law =>
    law.modSeg x _ fun g =>
      Segment.endTransmission_toWait_law _ timeout g st (Option.isSome_iff_exists.mpr ⟨slot, serves⟩)

theorem of_segmentEndOfTransmission (x : Seg) (h : execSegmentEndOfTransmission x s = .next t) : KeepsLending s t := by
  refine acting _ ?_ t h
  have sent : s.Steady (s.modSeg x Segment.endTransmission) := .modSeg_aside s rfl rfl rfl
  have other : ∀ y, y ≠ x → (s.modSeg x Segment.endTransmission).seg y = s.seg y := fun y hy =>
    s.modSeg_seg_other x y _ hy
  split
  · rename_i st
    have leaves := endsSend st sent (s.modSeg_seg_self x _) other
    simp only [State.modSeg_seg_self]
    split
    · exact leaves
    · rename_i slot serves
      split
      · exact leaves
      · rename_i r _
        split
        · exact endsAttempt st serves _
        · refine endsSend st ((sent.trans (.modSeg_aside _ rfl rfl rfl)).quiet
            (State.lending_settleBroadcast _ _ _ _)) (serves := none) ?_ fun y hy => ?_
          · simp [State.deliverBroadcast, State.release]
          · simp [State.deliverBroadcast, State.release, State.modSeg_seg_other _ _ _ _ hy]
  · exact refl s

theorem of_matchingFrame (x : Seg) (f : Frame) (h : execMatchingFrame x f s = .next t) : KeepsLending s t := by
  refine acting _ ?_ t h
  split
  · exact of_steady (.deliverOnSegment s x f) fun law => law.deliverOnSegment f
  · exact refl s

theorem failAttempt (s : State) {x : Seg} (st : (s.seg x).state = .wait) (why : FailCause) :
    KeepsLending s (s.failAttempt x why) :=
  of_steady (.failAttempt (by simp [st]) why) fun law => law.failAttempt x why st

theorem of_corruptFrameNotice (x : Seg) (h : execCorruptFrameNotice x s = .next t) : KeepsLending s t := by
  refine acting _ ((takeDelivery s (.segment x) .corruptNotice).trans ?_) t h
  simp only []
  split
  · rename_i st
    exact failAttempt _ st .corrupt
  · exact refl _

theorem of_responseTimerExpiry (x : Seg) (h : execResponseTimerExpiry x s = .next t) : KeepsLending s t := by
  refine acting _ ?_ t h
  split
  · rename_i st
    exact failAttempt s st.1 .timeout
  · exact refl s

theorem of_guardTimerExpiry (x : Seg) (h : execGuardTimerExpiry x s = .next t) : KeepsLending s t := by
  refine acting _ ?_ t h
  split
  · rename_i st
    exact of_steady (.enterIdle st.1) fun law => law.enterIdle x st.1
  · exact refl s

theorem of_sampleInstant (inputs : Word) (a b : Bool) (h : execSampleInstant inputs a b s = .next t) :
    KeepsLending s t :=
  have lines : KeepsLending s (inputLines.foldl (State.sampleLine inputs) s) :=
    of_lending (State.foldl_kept State.lending _ (fun u n => by simp) _ s)
  acting _ (((lines.trans (sampleHold _ .a a)).trans (sampleHold _ .b b)).trans (of_lending (by simp))) t h

end KeepsLending

/-- What one command, run in any state, keeps of the laws of the sequencers, the hold lines and the patience. -/
theorem exec_keepsLending (c : Instr) (s t : State) (h : exec c s = .next t) : KeepsLending s t := by
  cases c with
  | hardReset p => exact KeepsLending.of_hardReset p h
  | hardResetBegin c => exact KeepsLending.of_hardResetBegin c h
  | softReset => exact KeepsLending.of_softReset h
  | millisecondTick => exact KeepsLending.of_millisecondTick h
  | idleQualification p => exact KeepsLending.of_idleQualification p h
  | fallToSpace p b => exact KeepsLending.of_fallToSpace p b h
  | arrival p c => exact KeepsLending.of_arrival p c h
  | lineBreak p => exact KeepsLending.of_lineBreak p h
  | breakEnd p => exact KeepsLending.of_breakEnd p h
  | gapTimerExpiry p => exact KeepsLending.of_gapTimerExpiry p h
  | routedRequest f => exact KeepsLending.of_routedRequest f h
  | unexpected f => exact KeepsLending.of_unexpected f h
  | pendingSoftResetDiscard f => exact KeepsLending.of_pendingSoftResetDiscard f h
  | rack b r => exact KeepsLending.of_rack b r h
  | unknown fn r => exact KeepsLending.of_unknown fn h
  | readCounters r => exact KeepsLending.of_readCounters h
  | abortExchange r => exact KeepsLending.of_abortExchange h
  | lineReset r => exact KeepsLending.of_lineReset h
  | setSegment r => exact KeepsLending.of_setSegment h
  | readStatus r => exact KeepsLending.of_readStatus h
  | readExchanges r => exact KeepsLending.of_readExchanges h
  | clearStage r => exact KeepsLending.of_clearStage h
  | gatewayReset r => exact KeepsLending.of_gatewayReset h
  | readSegment r => exact KeepsLending.of_readSegment h
  | readEntry r => exact KeepsLending.of_readEntry h
  | setMissPolicy r => exact KeepsLending.of_setMissPolicy h
  | commit r => exact KeepsLending.of_commit h
  | stageEntry r => exact KeepsLending.of_stageEntry h
  | readInputs r => exact KeepsLending.of_readInputs h
  | setInput r => exact KeepsLending.of_setInput h
  | setSamplePeriod r => exact KeepsLending.of_setSamplePeriod h
  | reportControl r => exact KeepsLending.of_reportControl h
  | fetchReports r => exact KeepsLending.of_fetchReports h
  | endOfTransmission => exact KeepsLending.of_endOfTransmission h
  | reportTimerExpiry => exact KeepsLending.of_reportTimerExpiry h
  | segmentEndOfTransmission x => exact KeepsLending.of_segmentEndOfTransmission x h
  | matchingFrame x f => exact KeepsLending.of_matchingFrame x f h
  | strayFrame x f => exact KeepsLending.of_matchingFrame x f h
  | corruptFrameNotice x => exact KeepsLending.of_corruptFrameNotice x h
  | responseTimerExpiry x => exact KeepsLending.of_responseTimerExpiry x h
  | guardTimerExpiry x => exact KeepsLending.of_guardTimerExpiry x h
  | sampleInstant inputs a b => exact KeepsLending.of_sampleInstant inputs a b h
  | patienceExpiry x => exact KeepsLending.acting _ (.judgePatience s x) t h

/-- Settles O54: each law by the relation `KeepsLending` of every command, carried to the step. -/
theorem segmentsAndHoldsLawKept : Obligations.SegmentsAndHoldsLawKept :=
  ⟨step_keeps (fun _ _ h => h) fun c s t h => (exec_keepsLending c s t h).segments,
    step_keeps (fun _ _ h => h) fun c s t h => (exec_keepsLending c s t h).hold,
    step_keeps (fun _ _ h => h) fun c s t h => (exec_keepsLending c s t h).patience⟩

end Sys2Proof.Machine
end

section
/-! SUPPORT. A frame that answers no attempt (R96, R97), and a sequencer whose guard timer expires (R91 to R93, R103,
R107, R122). -/

namespace Sys2Proof.Machine

/-! ### A frame that matches nothing (R96, R97) -/

section Stray
variable {s : State} {x : Seg} {f : Frame}

/-- One of the four conditions fails, or no attempt is outstanding (R96). -/
theorem State.attemptMatch_none (fails : (s.seg x).state = .wait → ∀ (slot : Slot) (r : Record) (c : Single),
    (s.seg x).current = some slot → s.exchange.record slot = some r → r.carriage = .single c →
    (f.kind ≠ .rsp ∧ f.kind ≠ .nak) ∨ f.src ≠ r.segAddress ∨ f.dest ≠ 254 ∨ c.segTag ≠ some f.tag) :
    s.attemptMatch x f = none := by
  unfold State.attemptMatch
  simp only []
  split
  · rename_i st
    split
    · rfl
    · rename_i slot serves
      split
      · rfl
      · rename_i r here
        split
        · rfl
        · rename_i c single
          refine if_neg fun ⟨kind, src, dest, tag⟩ => ?_
          rcases fails st slot r c serves here single with ⟨rsp, nak⟩ | other | other | other
          · exact kind.elim rsp nak
          · exact other src
          · exact other dest
          · exact other tag
  · rfl

/-- Either row delivers a good frame (log 19). -/
theorem exec_delivered {i : Instr} (a : Acting s) (good : f.goodOnSegment = true)
    (row : i = .matchingFrame x f ∨ i = .strayFrame x f) : exec i s = .next (s.deliverOnSegment x f) := by
  rcases row with rfl | rfl <;>
    exact (State.acting_next a _).trans (congrArg Host.Outcome.next (if_pos good))

theorem State.deliverOnSegment_stray (unmatched : (s.takenOn x (.frame f)).attemptMatch x f = none)
    (send : (s.seg x).state ≠ .send) (lent : (s.seg x).state ≠ .lent) :
    s.deliverOnSegment x f = (s.takenOn x (.frame f)).modSeg x fun g =>
      { g with counters := { g.counters with stray := satInc g.counters.stray } } := by
  unfold State.deliverOnSegment
  rw [State.takeDelivery_segment]
  simp only [unmatched]
  exact if_neg (by simp [send, lent])

theorem exec_corruptFrameNotice_else (a : Acting s) (st : (s.seg x).state ≠ .wait) :
    exec (.corruptFrameNotice x) s = .next (s.takenOn x .corruptNotice) := by
  change execCorruptFrameNotice x s = _
  unfold execCorruptFrameNotice
  rw [State.acting_next a, State.takeDelivery_segment]
  exact congrArg Host.Outcome.next (if_neg (by simpa using st))

end Stray

/-! ### A guard timer that expires (R91, R103, R122) -/

section Guard
variable {s : State} {x : Seg}

theorem exec_guardTimerExpiry_else (a : Acting s) (guard : (s.seg x).state ≠ .guard)
    (resume : (s.seg x).state ≠ .resume) : exec (.guardTimerExpiry x) s = .next s :=
  (State.acting_next a _).trans (congrArg Host.Outcome.next (if_neg fun h => h.1.elim guard resume))

/-- In GUARD and RESUME the guard timer runs, and its expiry is the entry to IDLE. -/
theorem exec_guardTimerExpiry (a : Acting s) (law : SegmentLaw (s.seg x))
    (st : (s.seg x).state = .guard ∨ (s.seg x).state = .resume) :
    exec (.guardTimerExpiry x) s = .next (s.enterIdle x) := by
  obtain ⟨-, -, -, -, -, guard, -⟩ := law
  exact (State.acting_next a _).trans (congrArg Host.Outcome.next (if_pos ⟨st, guard.mpr st⟩))

/-- With no record standing on its segment the sequencer rests in IDLE (R91). -/
theorem State.enterIdle_rest (empty : s.exchange.standing x = []) : s.enterIdle x = s.modSeg x Segment.toIdle := by
  refine State.takeWork_none ?_
  rw [State.oldestWaiting, State.modSeg_exchange, empty]
  rfl

/-- Otherwise it begins the service of the oldest record (R91 to R93). -/
theorem State.enterIdle_begins {slot : Slot} {more : List Slot} {r : Record} (unserving : (s.seg x).current = none)
    (oldest : s.exchange.standing x = slot :: more) (here : s.exchange.record slot = some r) :
    s.enterIdle x = (s.setRecord slot (r.begin (s.seg x).toIdle.tagCounter)).modSeg x fun g =>
      g.toIdle.begin slot (r.requestFrame (s.seg x).toIdle.tagCounter) := by
  have waits : (s.modSeg x Segment.toIdle).oldestWaiting x = some slot := by
    simp [State.oldestWaiting, oldest, unserving]
  unfold State.enterIdle
  rw [State.takeWork_some (by rw [State.modSeg_seg_self, Segment.toIdle_state]) waits (by simpa using here),
    State.modSeg_seg_self]
  cases x <;> rfl

end Guard

section ToIdle
variable {g : Segment}

/-- The entry to IDLE with no configuration pending (R91). -/
theorem Segment.toIdle_unset (unset : g.pendingConfig = none) :
    g.toIdle = { g with state := .idle, guardTimer := none } := by
  simp only [Segment.toIdle, Segment.applyPending, unset]

/-- The entry to IDLE with a configuration pending, where the framer is open (R16, R91, R107). -/
theorem Segment.toIdle_some {c : SegConfig} (pending : g.pendingConfig = some c) (opened : g.port.receiver ≠ .closed) :
    g.toIdle = { g with
      state := .idle, guardTimer := none, config := c, pendingConfig := none
      port := if c.rate = g.config.rate ∧ c.parity = g.config.parity then g.port
        else { g.port with receiver := .unqualified, framer := Framer.reset } } := by
  have applied := Segment.applyConfig_configured { g with state := .idle, guardTimer := none } c
    (iff_of_false opened (by simp))
  unfold Segment.toIdle Segment.applyPending
  simp only [pending]
  exact pending ▸ applied

theorem Segment.toIdle_tagCounter (g : Segment) : g.toIdle.tagCounter = g.tagCounter := by
  obtain ⟨p, -, e⟩ := Segment.applyPending_eq { g with state := .idle, guardTimer := none }
  rw [Segment.toIdle, e]

/-- The service begun at the entry to IDLE: the closed framer shows nothing of a configuration applied before (R92). -/
theorem Segment.toIdle_begin (g : Segment) (slot : Slot) (f : Frame) : g.toIdle.begin slot f = { g with
    state := .send, guardTimer := none, current := some slot, tagCounter := g.tagCounter + 1
    config := g.pendingConfig.getD g.config, pendingConfig := none, de := true
    port := { g.port with receiver := .closed, framer := Framer.reset }
    tx := some f } := by
  have closed := Segment.applyPending_modPort { g with state := .idle, guardTimer := none } Port.close
    (fun _ => rfl) (fun _ => rfl)
  unfold Segment.begin
  rw [Segment.toIdle_tagCounter, Segment.toIdle, closed]
  rfl

end ToIdle

end Sys2Proof.Machine
end

section
/-! PROOF. O46 and O48: frames that match nothing, and the expiry of the guard timer. -/

namespace Sys2Proof.Machine

/-- Settles O46: with no match the delivery counts, and a notice outside WAIT is only taken. -/
theorem strayFramesAreCounted : Obligations.StrayFramesAreCounted := by
  refine ⟨fun s x f i a good row send lent fails => ?_, fun s x a st => exec_corruptFrameNotice_else a st⟩
  rw [exec_delivered a good row, State.deliverOnSegment_stray (State.attemptMatch_none ?_) send lent]
  simpa using fails

/-- Settles O48: the entry to IDLE with nothing to do, with a configuration to apply, and with a record to begin. -/
theorem guardExpiryTakesWork : Obligations.GuardExpiryTakesWork := by
  intro s x a law
  refine ⟨exec_guardTimerExpiry_else a, fun st => ?_⟩
  have segment : SegmentLaw (s.seg x) := law.2.1.seg a x
  have working : (s.seg x).state ≠ .send ∧ (s.seg x).state ≠ .wait ∧ (s.seg x).state ≠ .lent := by
    rcases st with st | st <;> simp [st]
  obtain ⟨send, wait, lent⟩ := working
  rw [exec_guardTimerExpiry a segment st]
  refine ⟨fun empty unset => ?_, fun cfg empty pending => ?_, fun slot more r oldest here => ?_⟩
  · rw [State.enterIdle_rest empty]
    exact congrArg Host.Outcome.next (State.modSeg_congr (Segment.toIdle_unset unset))
  · have opened : (s.seg x).port.receiver ≠ .closed := fun c => by
      obtain ⟨-, -, -, closed, -⟩ := segment
      exact (closed.mp c).elim send lent
    rw [State.enterIdle_rest empty]
    exact congrArg Host.Outcome.next (State.modSeg_congr (Segment.toIdle_some pending opened))
  · rw [State.enterIdle_begins (segment.current_none send wait) oldest here, Segment.toIdle_tagCounter]
    exact congrArg Host.Outcome.next (State.modSeg_congr (Segment.toIdle_begin _ slot _))

end Sys2Proof.Machine
end

section
/-! SUPPORT. What a sample instant makes of the input block (R113, R125 to R128, R130), and what it leaves alone. -/

namespace Sys2Proof.Machine

/-! ### The line records (R126, R128, R130) -/

/-- A sample in one record: the raw level; the accepted level and the run by the baseline or the qualification. -/
theorem InputLine.sample_eq (l : InputLine) (level : Bool) : l.sample level = { l with
    raw := level
    accepted := if l.baselineDue = true ∨ l.qualification.toNat + 1 ≤ l.run + 1 then level else l.accepted
    run := if l.baselineDue = true ∨ level = l.accepted ∨ l.qualification.toNat + 1 ≤ l.run + 1 then 0 else l.run + 1
    baselineDue := false } := by
  obtain ⟨qualification, edge, cls, accepted, raw, run, lost, baselineDue⟩ := l
  unfold InputLine.sample InputLine.accepts
  cases baselineDue with
  | true => simp
  | false =>
    by_cases same : level = accepted
    · simp [same]
    · by_cases held : qualification.toNat ≤ run <;> simp [same, held]

/-- From `b` to `b'` the lines of a list have taken their samples, some of them with an event lost, and nothing else has
changed. -/
structure InputBlock.LinesTake (inputs : Word) (l : List (Fin 16)) (b b' : InputBlock) : Prop where
  taken : ∀ n ∈ l, ∃ lost : Bool,
    b'.lines[n] = { b.lines[n].sample (inputs.getLsbD n.val) with lost := b.lines[n].lost || lost }
  other : ∀ n ∉ l, b'.lines[n] = b.lines[n]
  holdA : b'.holdA = b.holdA
  holdB : b'.holdB = b.holdB
  period : b'.period = b.period

theorem InputBlock.LinesTake.append {inputs : Word} {l m : List (Fin 16)} {b c d : InputBlock}
    (first : LinesTake inputs l b c) (second : LinesTake inputs m c d) (apart : ∀ n ∈ l, n ∉ m) :
    LinesTake inputs (l ++ m) b d where
  taken n hn := by
    rcases List.mem_append.mp hn with h | h
    · rw [second.other n (apart n h)]
      exact first.taken n h
    · rw [← first.other n fun k => apart n k h]
      exact second.taken n h
  other n hn := by
    rw [List.mem_append, not_or] at hn
    rw [second.other n hn.2, first.other n hn.1]
  holdA := second.holdA.trans first.holdA
  holdB := second.holdB.trans first.holdB
  period := second.period.trans first.period

/-- One line takes its sample; its lost flag is set where it offers an event that is lost (R126, R132). -/
theorem State.sampleLine_inputs (inputs : Word) (s : State) (n : Fin 16) : ∃ lost : Bool,
    (State.sampleLine inputs s n).inputs = (s.inputs.sampled inputs [n]).markLost n lost := by
  cases h : s.inputs.lines[n].accepts (inputs.getLsbD n.val) &&
      s.inputs.lines[n].edge.covers (inputs.getLsbD n.val) with
  | true =>
    rw [State.sampleLine_covered h, State.offerEvent_input rfl, State.modInputs_inputs, State.arbitrate_inputs]
    exact ⟨_, rfl⟩
  | false =>
    have quiet := State.foldl_sampleLine_quiet inputs (List.nodup_singleton n) s (by simpa using h)
    rw [List.foldl_cons, List.foldl_nil] at quiet
    rw [quiet]
    exact ⟨false, rfl⟩

theorem State.sampleLine_takes (inputs : Word) (s : State) (n : Fin 16) :
    InputBlock.LinesTake inputs [n] s.inputs (State.sampleLine inputs s n).inputs := by
  obtain ⟨lost, e⟩ := State.sampleLine_inputs inputs s n
  rw [e]
  obtain ⟨holdA, holdB, -, other⟩ := (s.inputs.sampled inputs [n]).markLost_keeps n lost
  refine ⟨fun m hm => ⟨lost, ?_⟩, fun m hm => ?_, holdA, holdB, ?_⟩
  · rw [List.mem_singleton.mp hm]
    cases lost <;> simp [InputBlock.markLost, InputBlock.sampled, InputLine.sample_eq]
  · rw [other m fun h => hm (List.mem_singleton.mpr h), InputBlock.sampled_other inputs hm]
  · cases lost <;> rfl

/-- The lines of a list take their samples one after another. -/
theorem State.foldl_sampleLine_takes (inputs : Word) {l : List (Fin 16)} (nodup : l.Nodup) : ∀ s : State,
    InputBlock.LinesTake inputs l s.inputs (l.foldl (State.sampleLine inputs) s).inputs := by
  induction l with
  | nil => exact fun s => ⟨by simp, fun _ _ => rfl, rfl, rfl, rfl⟩
  | cons n l ih =>
    obtain ⟨new, nodup⟩ := List.nodup_cons.mp nodup
    exact fun s => (State.sampleLine_takes inputs s n).append (ih nodup _) (by simpa using new)

/-- The sixteen lines of a sample instant. -/
theorem State.inputLines_take (inputs : Word) (s : State) :
    InputBlock.LinesTake inputs inputLines s.inputs (inputLines.foldl (State.sampleLine inputs) s).inputs :=
  s.foldl_sampleLine_takes inputs (by decide)

theorem mem_inputLines (n : Fin 16) : n ∈ inputLines := by
  revert n
  decide

/-! ### The hold lines and the sample timer (R113, R125) -/

/-- A sample of a hold line: the third in a row at the other level is taken. -/
theorem HoldLine.sample_eq (h : HoldLine) (level : Bool) : h.sample level =
    if level = h.asserted then { h with run := 0 }
    else if h.run + 1 < 3 then { h with run := h.run + 1 }
    else { asserted := level, run := 0 } := by
  unfold HoldLine.sample
  split
  · rfl
  · by_cases third : 2 ≤ h.run
    · rw [if_pos third, if_neg (by omega)]
    · rw [if_neg third, if_pos (by omega)]

/-- What a hold line brings about concerns the segments and the reporter; of the input block its sample is all. -/
theorem State.sampleHold_inputs (s : State) (x : Seg) (level : Bool) :
    (s.sampleHold x level).inputs = s.inputs.setHold x ((s.inputs.hold x).sample level) := by
  unfold State.sampleHold
  simp only []
  split
  · split
    · exact (State.HoldTaken.assertHold _ x).inputs
    · exact (State.HoldTaken.deassertHold _ x).inputs
  · rfl

theorem periodHalfMs_eq (i : BitVec 2) :
    periodHalfMs i = if i = 0 then 1 else if i = 1 then 2 else if i = 2 then 4 else 10 := by
  revert i
  decide

/-! ### What a sample instant leaves alone -/

/-- A step of a sample instant that began in `s`: of the trunk the transmitter alone changes, and at rest it leaves no
frame waiting; the routes, the exchange table, the time and the reset cause stand (R28, R126). -/
structure State.Samples (s t : State) : Prop where
  routes : t.routes = s.routes
  exchange : t.exchange = s.exchange
  trunk : t.trunk = { s.trunk with tx := t.trunk.tx }
  rest : t.trunk.tx = .idle → t.trunk.queue = []
  timeCounter : t.timeCounter = s.timeCounter
  resetCause : t.resetCause = s.resetCause

namespace State.Samples
variable {s t : State}

theorem begins (a : Acting s) (out : OutputLaw s) : s.Samples s := ⟨rfl, rfl, rfl, (out.2 a).1, rfl, rfl⟩

theorem modInputs (h : s.Samples t) (f : InputBlock → InputBlock) : s.Samples (t.modInputs f) :=
  ⟨h.routes, h.exchange, h.trunk, h.rest, h.timeCounter, h.resetCause⟩

theorem modSeg (h : s.Samples t) (x : Seg) (f : Segment → Segment) : s.Samples (t.modSeg x f) := by
  cases x <;> exact ⟨h.routes, h.exchange, h.trunk, h.rest, h.timeCounter, h.resetCause⟩

/-- The arbiter has no frame of the queue to send, so a grant to the reporter is all it can do (R28, R149). -/
theorem arbitrate (h : s.Samples t) : s.Samples t.arbitrate := by
  by_cases idle : t.trunk.tx = .idle
  · rcases State.arbitrate_emptyQueue (h.rest idle) with e | ⟨-, d, e⟩ <;> rw [e]
    · exact h
    · exact ⟨h.routes, h.exchange, congrArg (fun k : Trunk => { k with tx := (t.grant d).trunk.tx }) h.trunk, nofun,
        h.timeCounter, h.resetCause⟩
  · rwa [t.arbitrate_busy idle]

theorem offerEvent (h : s.Samples t) (e : Event) : s.Samples (t.offerEvent e) := by
  refine State.Samples.arbitrate ?_
  have base := t.offerEventQuietly_base e
  have trunk := t.offerEventQuietly_trunk e
  exact ⟨(t.offerEventQuietly_routes e).trans h.routes, (t.offerEventQuietly_exchange e).trans h.exchange,
    trunk ▸ h.trunk, trunk ▸ h.rest, base.timeCounter.trans h.timeCounter, base.resetCause.trans h.resetCause⟩

theorem sampleLine (h : s.Samples t) (inputs : Word) (n : Fin 16) : s.Samples (State.sampleLine inputs t n) := by
  unfold State.sampleLine
  simp only []
  split
  · exact (h.modInputs _).offerEvent _
  · exact h.modInputs _

theorem sampleLines (inputs : Word) (l : List (Fin 16)) : ∀ {t : State}, s.Samples t →
    s.Samples (l.foldl (State.sampleLine inputs) t) := by
  induction l with
  | nil => exact id
  | cons n l ih => exact fun h => ih (h.sampleLine inputs n)

theorem assertHold (h : s.Samples t) (x : Seg) : s.Samples (t.assertHold x) := by
  unfold State.assertHold
  cases (t.seg x).state with
  | idle | guard | resume => exact (h.modSeg x _).offerEvent _
  | send | wait => exact h.modSeg x _
  | lent => exact h

theorem deassertHold (h : s.Samples t) (x : Seg) : s.Samples (t.deassertHold x) := by
  unfold State.deassertHold
  split
  · exact (h.modSeg x _).offerEvent _
  · exact h.modSeg x _

theorem sampleHold (h : s.Samples t) (x : Seg) (level : Bool) : s.Samples (t.sampleHold x level) := by
  unfold State.sampleHold
  simp only []
  split
  · split
    · exact (h.modInputs _).assertHold x
    · exact (h.modInputs _).deassertHold x
  · exact h.modInputs _

end State.Samples

/-- SAMPLE_INSTANT of a part that acts: the lines, HREQA, HREQB, and the sample timer (R125, R126). -/
theorem exec_sampleInstant {s : State} (a : Acting s) (inputs : Word) (hreqA hreqB : Bool) :
    exec (.sampleInstant inputs hreqA hreqB) s = .next
      ((((inputLines.foldl (State.sampleLine inputs) s).sampleHold .a hreqA).sampleHold .b hreqB).modInputs
        InputBlock.nextPeriod) :=
  State.acting_next a fun s =>
    (((inputLines.foldl (State.sampleLine inputs) s).sampleHold .a hreqA).sampleHold .b hreqB).modInputs
      InputBlock.nextPeriod

end Sys2Proof.Machine
end

section
/-! PROOF. O50: what one sample instant does to the input block (R113, R125, R126, R128, R130). -/

namespace Sys2Proof.Machine

/-- Settles O50: the lines take their samples, each hold line after them, and the rest of the block stands. -/
theorem sampleQualifiesLevels : Obligations.SampleQualifiesLevels := by
  intro s inputs hreqA hreqB a law
  refine ⟨_, exec_sampleInstant a inputs hreqA hreqB, ?_⟩
  have lines := s.inputLines_take inputs
  have kept := (((State.Samples.begins a law.1).sampleLines inputs inputLines).sampleHold .a hreqA).sampleHold .b hreqB
  generalize inputLines.foldl (State.sampleLine inputs) s = u at lines kept
  have block : ((u.sampleHold .a hreqA).sampleHold .b hreqB).inputs =
      { u.inputs with holdA := s.inputs.holdA.sample hreqA, holdB := s.inputs.holdB.sample hreqB } := by
    rw [State.sampleHold_inputs, State.sampleHold_inputs, ← lines.holdA, ← lines.holdB]
    rfl
  generalize (u.sampleHold .a hreqA).sampleHold .b hreqB = t at block kept
  have record : ∀ n : Fin 16, (t.modInputs InputBlock.nextPeriod).inputs.lines[n] = u.inputs.lines[n] := fun n => by
    rw [State.modInputs_inputs, block]
    rfl
  simp only [record]
  rw [State.modInputs_inputs, block]
  refine ⟨fun n => ?_, fun n lost => ?_, HoldLine.sample_eq _ _, HoldLine.sample_eq _ _, lines.period, ?_, kept.routes,
    kept.exchange, ?_, ?_, ?_, kept.timeCounter, kept.resetCause⟩
  · obtain ⟨lost, taken⟩ := lines.taken n (mem_inputLines n)
    rw [taken, InputLine.sample_eq]
  · obtain ⟨more, taken⟩ := lines.taken n (mem_inputLines n)
    rw [taken, lost, Bool.true_or]
  · rw [← lines.period, ← periodHalfMs_eq]
    rfl
  all_goals
    rw [State.modInputs_trunk, kept.trunk]

end Sys2Proof.Machine
end

section
/-! SUPPORT. The sets of sixteen bits, the codes and the reply of the input commands (R132 to R136, R171, R177). -/

namespace Sys2Proof.Machine

/-- Bit n of a set of lines is the value of line n (R171). -/
theorem lineSet_getLsbD (vals : List Bool) : ∀ {n : Nat}, n < 16 → (lineSet vals).getLsbD n = vals.getD n false := by
  induction vals with
  | nil => simp [lineSet]
  | cons v vals ih =>
    intro n hn
    change (lineSet vals <<< 1 ||| if v then 1 else 0).getLsbD n = _
    cases n with
    | zero => cases v <;> simp
    | succ n =>
      have low : (if v then 1 else 0 : Word).getLsbD (n + 1) = false := by cases v <;> simp
      rw [BitVec.getLsbD_or, low, Bool.or_false, BitVec.getLsbD_shiftLeft]
      simp [hn, ih (by omega : n < 16)]

theorem lineSet_lines (lines : Vector InputLine 16) (f : InputLine → Bool) (n : Fin 16) :
    (lineSet (lines.toList.map f)).getLsbD n.val = f lines[n] := by
  rw [lineSet_getLsbD _ n.isLt]
  simp [List.getD]

theorem edgeOf_edgeCode (e : EdgeSelect) : edgeOf (edgeCode e) = some e := by cases e <;> rfl

theorem InputBlock.clearLost_getElem (b : InputBlock) (n : Fin 16) :
    b.clearLost.lines[n] = { b.lines[n] with lost := false } := by
  rw [InputBlock.clearLost, mapVec_getElem]

/-- The lost flags after READ-INPUTS: kept with the flag 0, cleared with the flag 1 (R132, R136). -/
theorem InputBlock.clearLost_if (b : InputBlock) {clear : Byte} (range : clear.toNat ≤ 1) (n : Fin 16) :
    (if clear = 1 then b.clearLost else b).lines[n] = { b.lines[n] with lost := b.lines[n].lost && clear == 0 } := by
  have flag : clear = 0 ∨ clear = 1 := by bv_omega
  rcases flag with rfl | rfl
  · rw [if_neg (by decide), beq_self_eq_true, Bool.and_true]
  · rw [if_pos rfl, InputBlock.clearLost_getElem, show ((1 : Byte) == 0) = false from rfl, Bool.and_false]

/-- The period a sample period index sets, in half milliseconds (R125). -/
theorem periodHalfMs_index {index : Byte} (range : index.toNat ≤ 3) : periodHalfMs (BitVec.ofNat 2 index.toNat) =
    if index = 0 then 1 else if index = 1 then 2 else if index = 2 then 4 else 10 := by
  have named : index = 0 ∨ index = 1 ∨ index = 2 ∨ index = 3 := by bv_omega
  rcases named with rfl | rfl | rfl | rfl <;> rfl

theorem InputBlock.setPeriod_getElem (b : InputBlock) (i : BitVec 2) (n : Fin 16) :
    (b.setPeriod i).lines[n] = { b.lines[n] with run := 0 } := by
  rw [InputBlock.setPeriod, mapVec_getElem]

theorem InputBlock.configure_eq (b : InputBlock) (n : Fin 16) (q : BitVec 4) (e : EdgeSelect) (c : Fin 4) :
    b.configure n.val q e c =
      { b with lines := b.lines.set n { b.lines[n] with qualification := q, edge := e, cls := c } } := by
  simp [InputBlock.configure, Vector.ext_iff, Vector.getElem_set, Vector.getElem_setIfInBounds]

/-- A frame that has entered the output queue and a change of the input block, in either order. -/
theorem State.answered_modInputs (s : State) (kind : FrameKind) (fn : Byte) (r : Request) (p : List Byte)
    (f : InputBlock → InputBlock) :
    (s.answered kind fn r p).modInputs f = (s.modInputs f).answered kind fn r p := by
  unfold State.answered State.placed
  rw [State.modInputs_trunk]
  split <;> rfl

section
variable {s : State} {r : Request} (ready : Ready s r) (law : OutputLaw s)
include ready law

/-- READ-INPUTS answers the three sets, then clears the lost flags where asked (R132, R136). -/
theorem exec_readInputs {clear : Byte} (hp : r.payload = [clear]) (range : clear.toNat ≤ 1) :
    exec (.readInputs r) s = .next (((s.taken (s.commandFrame 0x30 r)).modInputs fun b =>
      if clear = 1 then b.clearLost else b).answered .rsp 0x30 r s.inputs.levels) := by
  change execReadInputs r s = _
  have replied := State.respond_after ready law (s.taken (s.commandFrame 0x30 r)) 0x30 r s.inputs.levels
    ⟨rfl, rfl, rfl⟩
  simp only [execReadInputs, s.management_ready _ r _ ready, hp, if_neg (Nat.not_lt.mpr range)]
  refine congrArg _ ?_
  rw [← State.answered_modInputs, ← replied]
  split <;> rfl

/-- SET-INPUT with every field in range configures the line (R133). -/
theorem exec_setInput {n : Fin 16} {count cls : Byte} {e : EdgeSelect} (hc : count.toNat ≤ 15) (hcls : cls.toNat < 4)
    (hp : r.payload = [BitVec.ofNat 8 n.val, count, edgeCode e, cls]) :
    exec (.setInput r) s = .next (((s.taken (s.commandFrame 0x31 r)).modInputs fun b =>
      b.configure n.val (BitVec.ofNat 4 count.toNat) e ⟨cls.toNat, hcls⟩).answered .rsp 0x31 r
        [BitVec.ofNat 8 n.val, count, edgeCode e, cls]) := by
  have line : (BitVec.ofNat 8 n.val).toNat = n.val := by
    rw [BitVec.toNat_ofNat]
    omega
  have inRange : firstOutOfRange [(0, decide (n.val < 16)), (1, decide (count.toNat < 16)), (2, (some e).isSome),
      (3, decide (cls.toNat < 4))] = none :=
    (firstOutOfRange_none_iff _).mpr (by simp [hcls, Nat.lt_succ_of_le hc])
  have fields : Fin.ofNat 4 cls.toNat = ⟨cls.toNat, hcls⟩ := Fin.ext (Nat.mod_eq_of_lt hcls)
  change execSetInput r s = _
  simp only [execSetInput, s.management_ready _ r _ ready, hp, edgeOf_edgeCode, line, inRange, fields]
  exact congrArg _ (State.respond_after ready law _ _ _ _ ⟨rfl, rfl, rfl⟩)

/-- SET-SAMPLE-PERIOD with the index in range sets the period (R135). -/
theorem exec_setSamplePeriod {index : Byte} (hp : r.payload = [index]) (range : index.toNat ≤ 3) :
    exec (.setSamplePeriod r) s = .next (((s.taken (s.commandFrame 0x32 r)).modInputs fun b =>
      b.setPeriod (BitVec.ofNat 2 index.toNat)).answered .rsp 0x32 r [index]) := by
  change execSetSamplePeriod r s = _
  simp only [execSetSamplePeriod, s.management_ready _ r _ ready, hp, if_neg (Nat.not_lt.mpr range)]
  exact congrArg _ (State.respond_after ready law _ _ _ _ ⟨rfl, rfl, rfl⟩)

end

end Sys2Proof.Machine
end

section
/-! PROOF. O35: the commands of the input block (R113, R125, R132 to R136, R177). -/

namespace Sys2Proof.Machine

/-- Settles O35: each command by its own equation, and the block it leaves line by line. -/
theorem inputCommands : Obligations.InputCommands := by
  intro s r ready law
  refine ⟨fun clear hp range => ?_, fun n count edge cls e hp hc he hcls => ?_, fun index hp range => ?_, rfl⟩
  · refine ⟨_, _, _, _, exec_readInputs ready law hp range, fun n => ⟨lineSet_lines _ _ n, lineSet_lines _ _ n,
      lineSet_lines _ _ n, s.inputs.clearLost_if range n⟩, ?_⟩
    split <;> exact ⟨rfl, rfl, rfl, rfl⟩
  · subst he
    rw [exec_setInput ready law hc hcls hp]
    exact congrArg (fun b => Host.Outcome.next (({ s.taken (s.commandFrame 0x31 r) with inputs := b } : State).answered
      .rsp 0x31 r [BitVec.ofNat 8 n.val, count, edgeCode e, cls])) (s.inputs.configure_eq n _ e _)
  · exact ⟨_, exec_setSamplePeriod ready law hp range, InputBlock.setPeriod_getElem _ _, rfl, rfl, rfl,
      periodHalfMs_index range⟩

end Sys2Proof.Machine
end

section
/-! SUPPORT. A hold line that changes at a sample instant and what its segment makes of it (R113 to R117, R121,
R123). -/

namespace Sys2Proof.Machine

/-! ### Changes of the input block beside a segment's move -/

theorem State.modInputs_modInputs (s : State) (f g : InputBlock → InputBlock) :
    (s.modInputs f).modInputs g = s.modInputs fun b => g (f b) := rfl

theorem State.modInputs_modSeg (s : State) (f : InputBlock → InputBlock) (x : Seg) (g : Segment → Segment) :
    (s.modInputs f).modSeg x g = (s.modSeg x g).modInputs f := by cases x <;> rfl

/-- A segment event concerns no line, so it commutes with a change of the input block (R143). -/
theorem State.offerEvent_segment_modInputs (s : State) (f : InputBlock → InputBlock) (x : Seg) (lent : Bool)
    (t : Word) : (s.modInputs f).offerEvent (segmentEvent x lent t) =
      (s.offerEvent (segmentEvent x lent t)).modInputs f :=
  State.arbitrate_modInputs { s with reporter := s.reporter.take (segmentEvent x lent t) } f

theorem State.enterLent_modInputs (s : State) (f : InputBlock → InputBlock) (x : Seg) :
    (s.modInputs f).enterLent x = (s.enterLent x).modInputs f := by
  rw [State.enterLent, State.modInputs_modSeg, State.offerEvent_segment_modInputs]
  rfl

theorem State.reclaim_modInputs (s : State) (f : InputBlock → InputBlock) (x : Seg) :
    (s.modInputs f).reclaim x = (s.reclaim x).modInputs f := by
  rw [State.reclaim, State.modInputs_modSeg, State.offerEvent_segment_modInputs]
  rfl

theorem State.assertHold_modInputs (s : State) (f : InputBlock → InputBlock) (x : Seg) :
    (s.modInputs f).assertHold x = (s.assertHold x).modInputs f := by
  unfold State.assertHold
  rw [State.modInputs_seg]
  cases (s.seg x).state with
  | idle | guard | resume => exact s.enterLent_modInputs f x
  | send | wait => exact s.modInputs_modSeg f x _
  | lent => rfl

theorem State.deassertHold_modInputs (s : State) (f : InputBlock → InputBlock) (x : Seg) :
    (s.modInputs f).deassertHold x = (s.deassertHold x).modInputs f := by
  unfold State.deassertHold
  rw [State.modInputs_seg]
  split
  · exact s.reclaim_modInputs f x
  · exact s.modInputs_modSeg f x _

/-- An update of the input block is gone where the block is written after it. -/
theorem State.modInputs_restored {s t : State} (f : InputBlock → InputBlock) (same : t.inputs = s.inputs) :
    ({ t.modInputs f with inputs := s.inputs } : State) = t := by
  rw [← same]
  rfl

/-! ### A qualified change of a hold line (R114, R117, R121) -/

/-- What a segment makes of its hold line's new level (R114, R117, R121). -/
def State.holdChanged (s : State) (x : Seg) (level : Bool) : State :=
  if level then s.assertHold x else s.deassertHold x

theorem State.holdChanged_modInputs (s : State) (f : InputBlock → InputBlock) (x : Seg) (level : Bool) :
    (s.modInputs f).holdChanged x level = (s.holdChanged x level).modInputs f := by
  cases level with
  | true => exact s.assertHold_modInputs f x
  | false => exact s.deassertHold_modInputs f x

theorem State.holdChanged_taken (s : State) (x : Seg) (level : Bool) : s.HoldTaken (s.holdChanged x level) x level := by
  cases level with
  | true => exact .assertHold s x
  | false => exact .deassertHold s x

section
variable {s : State} {x : Seg}

/-- Assertion in IDLE, GUARD and RESUME leads to LENT (R114). -/
theorem State.holdChanged_lends (st : (s.seg x).state = .idle ∨ (s.seg x).state = .guard ∨ (s.seg x).state = .resume) :
    s.holdChanged x true = s.enterLent x := by
  change s.assertHold x = _
  unfold State.assertHold
  rcases st with st | st | st <;> rw [st]

/-- In SEND and WAIT the level goes to drain-requested (R114, R117). -/
theorem State.holdChanged_drains (level : Bool) (st : (s.seg x).state = .send ∨ (s.seg x).state = .wait) :
    s.holdChanged x level = s.modSeg x fun g => { g with drainRequested := level } := by
  cases level with
  | true =>
    change s.assertHold x = _
    unfold State.assertHold
    rcases st with st | st <;> rw [st]
  | false =>
    have unlent : (s.seg x).state ≠ .lent := by rcases st with st | st <;> simp [st]
    exact if_neg unlent

/-- Deassertion in LENT reclaims the segment (R121). -/
theorem State.holdChanged_reclaims (st : (s.seg x).state = .lent) : s.holdChanged x false = s.reclaim x := if_pos st

/-- The reclaim, its event taken and the arbiter asked (R121, R123). -/
theorem State.reclaim_reclaims (s : State) (x : Seg) : IsReclaimed x s (s.reclaim x) := by
  refine ⟨_, Reporter.take_taken _ _, ?_⟩
  unfold State.reclaim State.offerEvent State.offerEventQuietly segmentEvent
  rw [State.modSeg_reporter]
  rfl

/-! ### The sample of both hold lines (R113, R126 step 2) -/

/-- The third sample at the other level is taken by the segment (R113). -/
theorem State.sampleHold_third {level : Bool} (third : s.inputs.hold x = ⟨!level, 2⟩) :
    s.sampleHold x level = (s.holdChanged x level).modInputs fun b => b.setHold x ⟨level, 0⟩ := by
  have sampled : (s.inputs.hold x).sample level = ⟨level, 0⟩ := by rw [third]; cases level <;> rfl
  have qualifies : (s.inputs.hold x).qualifies level = true := by rw [third]; cases level <;> rfl
  rw [← State.holdChanged_modInputs]
  simp only [State.sampleHold, sampled, qualifies, if_true]
  rfl

/-- One hold line changes and the other is at its accepted level: what its segment makes of it, and a change of the
input block (R113, R126). -/
theorem State.sampleHolds_one {hreq : Seg → Bool} (third : s.inputs.hold x = ⟨!hreq x, 2⟩)
    (still : ∀ y, y ≠ x → (s.inputs.hold y).asserted = hreq y) : ∃ f : InputBlock → InputBlock,
    ((s.sampleHold .a (hreq .a)).sampleHold .b (hreq .b)).modInputs InputBlock.nextPeriod =
      (s.holdChanged x (hreq x)).modInputs f := by
  have inputs := (s.holdChanged_taken x (hreq x)).inputs
  cases x with
  | a =>
    have quiet := State.sampleHold_quiet (x := .b) (level := hreq .b)
      (s := (s.holdChanged .a (hreq .a)).modInputs fun b => b.setHold .a ⟨hreq .a, 0⟩)
      (by rw [State.modInputs_inputs, inputs]; exact (still .b nofun).symm)
    rw [State.sampleHold_third third, quiet, State.modInputs_modInputs, State.modInputs_modInputs]
    exact ⟨_, rfl⟩
  | b =>
    have quiet := State.sampleHold_quiet (s := s) (x := .a) (still .a nofun).symm
    rw [quiet, State.sampleHold_third (by exact third), State.holdChanged_modInputs, State.modInputs_modInputs,
      State.modInputs_modInputs]
    exact ⟨_, rfl⟩

end

/-- The lines of a sample instant leave the segments and the hold lines to what comes after (R126 step 1). -/
theorem State.inputLines_seg (inputs : Word) (s : State) (x : Seg) :
    (inputLines.foldl (State.sampleLine inputs) s).seg x = s.seg x := by
  have lending := State.foldl_kept State.lending (State.sampleLine inputs) (fun u n => u.lending_sampleLine inputs n)
    inputLines s
  simp only [State.lending, Prod.mk.injEq] at lending
  obtain ⟨-, a, b, -⟩ := lending
  cases x
  · exact a
  · exact b

/-- A line whose baseline is due, that selects no edge, or whose sample completes no run at the other level offers no
event (R128, R130, R131). -/
theorem InputLine.offers_none {l : InputLine} {level : Bool} (quiet : l.baselineDue = true ∨ l.edge = .none ∨
    level = l.accepted ∨ l.run < l.qualification.toNat) : (l.accepts level && l.edge.covers level) = false := by
  rw [Bool.and_eq_false_iff, ← Bool.not_eq_true, InputLine.accepts_iff]
  rcases quiet with due | none | same | short
  · exact .inl fun ⟨notDue, _, _⟩ => absurd due (by simp [notDue])
  · exact .inr (by rw [none]; rfl)
  · exact .inl fun ⟨_, other, _⟩ => other same
  · exact .inl fun ⟨_, _, held⟩ => Nat.not_le.mpr short held

theorem InputBlock.LinesTake.hold {inputs : Word} {l : List (Fin 16)} {b b' : InputBlock}
    (h : InputBlock.LinesTake inputs l b b') (x : Seg) : b'.hold x = b.hold x := by
  cases x
  · exact h.holdA
  · exact h.holdB

end Sys2Proof.Machine
end

section
/-! PROOF. O52: the third sample of a hold line at the other level (R113 to R117, R121, R123). -/

namespace Sys2Proof.Machine

/-- Settles O52: the lines first, which leave the segments alone, then the one change of a hold line. -/
theorem holdLendsAndReclaims : Obligations.HoldLendsAndReclaims := by
  intro s x inputs hreq a _ _ third still
  have hold : ∀ y : Seg, (if y = .a then s.inputs.holdA else s.inputs.holdB) = s.inputs.hold y := fun y => by
    cases y <;> rfl
  simp only [hold] at third still
  have lines := s.inputLines_take inputs
  have segs := s.inputLines_seg inputs
  obtain ⟨f, run⟩ := State.sampleHolds_one (s := inputLines.foldl (State.sampleLine inputs) s)
    (by rw [lines.hold]; exact third) (fun y hy => by rw [lines.hold]; exact still y hy)
  refine ⟨_, (exec_sampleInstant a inputs _ _).trans (congrArg _ run), ?_⟩
  refine ⟨fun y hy => ?_, fun up st => ?_, fun up st => ?_, fun down st => ?_, fun down st => ?_, fun quiet => ?_⟩
  · rw [State.modInputs_seg, (State.holdChanged_taken _ x _).other y hy, segs]
  · rw [State.modInputs_seg, up, State.holdChanged_lends (by rwa [segs]), State.enterLent_seg_self, Segment.toLent_eq,
      segs]
    rfl
  · rw [State.modInputs_seg, up, State.holdChanged_drains _ (by rwa [segs]), State.modSeg_seg_self, segs]
  · rw [State.modInputs_seg, down, State.holdChanged_drains _ (by rwa [segs]), State.modSeg_seg_self, segs]
  · rw [State.modInputs_seg, down, State.holdChanged_reclaims (by rwa [segs]), State.reclaim, State.offerEvent_seg,
      State.modSeg_seg_self, segs]
    rfl
  · have silent := State.foldl_sampleLine_quiet inputs (l := inputLines) (by decide) s fun m _ =>
      InputLine.offers_none (quiet m)
    rw [silent, State.holdChanged_modInputs, State.modInputs_modInputs]
    rw [State.modInputs_restored _ (s.holdChanged_taken x (hreq x)).inputs]
    refine ⟨fun up st => ?_, fun down st => ?_, fun st => ?_⟩
    · rw [up, State.holdChanged_lends st]
      exact s.enterLent_enters x
    · rw [down, State.holdChanged_reclaims st]
      exact s.reclaim_reclaims x
    · rw [State.holdChanged_drains _ st]
      exact ⟨s.modSeg_reporter x _, s.modSeg_trunk x _, s.modSeg_exchange x _⟩

end Sys2Proof.Machine
end

section
/-! SUPPORT. The report queue at a soft reset: SEGMENT LENT after RESTART, and the batch that takes every eligible
record (R124, R145, R149, R156, R169). -/

namespace Sys2Proof.Machine

/-! ### The records of a soft reset (R124, R156, R169) -/

/-- The record a segment event leaves where mode and class let it in (R139, R143). -/
def Reporter.admitted (rep : Reporter) (e : Event) : List ReportRecord :=
  if rep.mode ≠ .off ∧ rep.enables.getLsbD e.cls.val = true then [e.record] else []

/-- With room in the queue a segment event joins it at the tail, or is filtered (R139, R143). -/
theorem Reporter.take_segment {rep : Reporter} (room : rep.occupancy < 31) {e : Event}
    (segment : e.subject.isInput = false) : rep.take e = { rep with queue := rep.queue ++ rep.admitted e } := by
  have apart : ¬ rep.coalesces e = true := by simp [Reporter.coalesces, segment]
  unfold Reporter.take Reporter.admitted
  by_cases filtered : rep.discards e = true
  · have closed : ¬ (rep.mode ≠ .off ∧ rep.enables.getLsbD e.cls.val = true) := by
      rw [rep.discards_iff] at filtered
      rw [not_and_or, not_not, Bool.not_eq_true]
      exact filtered
    rw [if_pos filtered, if_neg closed, List.append_nil]
  · have opened : rep.mode ≠ .off ∧ rep.enables.getLsbD e.cls.val = true := by
      rw [rep.discards_iff, not_or, Bool.not_eq_false] at filtered
      exact filtered
    rw [if_neg filtered, if_neg apart, if_pos room, if_pos opened]

/-- What a soft reset adds to the report queue for a segment: SEGMENT LENT where it enters LENT from a drain (R124, R169
step 7). -/
def Reporter.lentRecords (rep : Reporter) (before : Segment) (x : Seg) (t : Word) : List ReportRecord :=
  if before.lentAtSoftReset then rep.admitted (segmentEvent x true t) else []

theorem Reporter.lentRecords_eq (rep : Reporter) (before : Segment) (x : Seg) (t : Word) :
    rep.lentRecords before x t =
      if before.state ≠ .lent ∧ before.drainRequested = true ∧ rep.mode ≠ .off ∧ rep.enables.getLsbD 1 = true then
        [{ subject := .segment x, cls := 1, code := .lent, info := .absent, count := 1, first := t, last := t
           status := .waiting }]
      else [] := by
  simp only [Reporter.lentRecords, Reporter.admitted, Segment.lentAtSoftReset, Bool.and_eq_true, bne_iff_ne, ← ite_and]
  exact if_congr and_assoc rfl rfl

theorem State.offerLentAtReset_reporter {s : State} (room : s.reporter.occupancy < 31) (before : Segment) (x : Seg) :
    (State.offerLentAtReset before x s).reporter =
      { s.reporter with queue := s.reporter.queue ++ s.reporter.lentRecords before x s.timeCounter } := by
  unfold State.offerLentAtReset Reporter.lentRecords
  split
  · rw [State.offerEventQuietly_reporter, Reporter.take_segment room rfl]
  · rw [List.append_nil]

theorem Reporter.mem_lentRecords {rep : Reporter} {before : Segment} {x : Seg} {t : Word} {q : ReportRecord}
    (h : q ∈ rep.lentRecords before x t) : q = (segmentEvent x true t).record := by
  simp only [Reporter.lentRecords, Reporter.admitted, List.mem_ite_nil_right, List.mem_singleton] at h
  obtain ⟨-, -, lent⟩ := h
  exact lent

theorem Reporter.lentRecords_length (rep : Reporter) (before : Segment) (x : Seg) (t : Word) :
    (rep.lentRecords before x t).length ≤ 1 := by
  unfold Reporter.lentRecords Reporter.admitted
  repeat' split
  all_goals simp

/-- The report queue that a soft reset leaves before the arbiter is asked (R156, R169). -/
def State.resetRecords (s : State) : List ReportRecord :=
  ReportRecord.restart .command s.timeCounter ::
    (s.reporter.lentRecords s.segA .a s.timeCounter ++ s.reporter.lentRecords s.segB .b s.timeCounter)

/-- The state on which the arbiter is asked: the trunk reset, and a reporter with its configuration kept, nothing
outstanding, and the records of the reset (R156, R169). -/
theorem State.softReset_asks_reporter (s : State) : ∃ u : State, s.softReset = u.arbitrate ∧
    u.trunk = s.trunk.softReset ∧
    u.reporter = { s.reporter.softReset s.timeCounter with queue := s.resetRecords } := by
  have restart : s.blocksReset.reporter.occupancy < 31 := (by decide : 1 < 31)
  have offeredA := State.offerLentAtReset_reporter restart s.segA .a
  obtain ⟨baseA, trunkA, -⟩ := State.offerLentAtReset_keeps s.segA .a s.blocksReset
  have room : (State.offerLentAtReset s.segA .a s.blocksReset).reporter.occupancy < 31 := by
    have length := s.blocksReset.reporter.lentRecords_length s.segA .a s.blocksReset.timeCounter
    have short : s.blocksReset.reporter.queue.length = 1 := rfl
    rw [offeredA]
    refine lt_of_le_of_lt List.countP_le_length ?_
    rw [List.length_append]
    omega
  have offeredB := State.offerLentAtReset_reporter room s.segB .b
  obtain ⟨-, trunkB, -⟩ := State.offerLentAtReset_keeps s.segB .b (State.offerLentAtReset s.segA .a s.blocksReset)
  refine ⟨_, s.softReset_eq, trunkB.trans trunkA, ?_⟩
  rw [offeredB, offeredA, baseA.timeCounter, List.append_assoc]
  rfl

/-- A record of a soft reset is RESTART or SEGMENT LENT. -/
theorem State.mem_resetRecords {s : State} {q : ReportRecord} (h : q ∈ s.resetRecords) :
    q = ReportRecord.restart .command s.timeCounter ∨ ∃ x, q = (segmentEvent x true s.timeCounter).record := by
  rcases List.mem_cons.mp h with restart | lent
  · exact .inl restart
  · exact .inr ((List.mem_append.mp lent).elim (fun h => ⟨_, Reporter.mem_lentRecords h⟩)
      fun h => ⟨_, Reporter.mem_lentRecords h⟩)

theorem State.resetRecords_waiting (s : State) : ∀ q ∈ s.resetRecords, q.status = .waiting := by
  intro q hq
  rcases State.mem_resetRecords hq with rfl | ⟨x, rfl⟩ <;> rfl

/-- RESTART is of class 0 and SEGMENT LENT of class 1 (R123, R156). -/
theorem State.resetRecords_sorted (s : State) : s.resetRecords.Pairwise fun p q => p.cls ≤ q.cls := by
  refine List.pairwise_cons.mpr ⟨fun q _ => Fin.zero_le _, List.pairwise_of_forall_mem_list fun p hp q hq => ?_⟩
  have one : ∀ q ∈ s.reporter.lentRecords s.segA .a s.timeCounter ++ s.reporter.lentRecords s.segB .b s.timeCounter,
      q.cls = 1 := fun q hq => (List.mem_append.mp hq).elim (fun h => Reporter.mem_lentRecords h ▸ rfl)
    fun h => Reporter.mem_lentRecords h ▸ rfl
  rw [one p hp, one q hq]

theorem State.resetRecords_length (s : State) : s.resetRecords.length ≤ 4 := by
  have a := s.reporter.lentRecords_length s.segA .a s.timeCounter
  have b := s.reporter.lentRecords_length s.segB .b s.timeCounter
  rw [State.resetRecords, List.length_cons, List.length_append]
  omega

/-- The seven bytes of a record of a soft reset (R178). -/
theorem State.resetRecords_bytes {s : State} {q : ReportRecord} (h : q ∈ s.resetRecords) : q.bytes =
    (match q.subject with
      | .segment .a => [0x10, 0x13, 0x01]
      | .segment .b => [0x11, 0x13, 0x01]
      | _ => [0x20, 0x05, 0x31]) ++ wordBytes s.timeCounter ++ wordBytes s.timeCounter := by
  rcases State.mem_resetRecords h with rfl | ⟨x, rfl⟩
  · simp [ReportRecord.bytes, ReportRecord.restart, ReportRecord.infoByte, subjectCode, eventCode, causeCode, byteOf]
  · cases x <;>
      simp [ReportRecord.bytes, Event.record, segmentEvent, ReportRecord.infoByte, subjectCode, eventCode, byteOf]

/-! ### A batch that takes every eligible record (R145) -/

/-- With four records at most a batch takes every eligible one. -/
theorem Reporter.formBatch_queue_few {rep : Reporter} (few : rep.queue.length ≤ 4) :
    rep.formBatch.queue = rep.queue.map fun q =>
      if rep.eligible q then { q with status := .inBatch rep.nextBatch } else q := by
  have all : rep.ranked.take 4 = rep.ranked :=
    List.take_of_length_le (rep.ranked_length ▸ List.countP_le_length.trans few)
  refine List.ext_getElem? fun i => ?_
  rw [List.getElem?_map]
  cases here : rep.queue[i]? with
  | none => simpa [Reporter.formBatch] using here
  | some q =>
    have chosen : rep.selection.contains i = rep.eligible q := by
      rw [Bool.eq_iff_iff, rep.selects_iff i q here, all, rep.mem_ranked]
      exact and_iff_right here
    rw [rep.formBatch_getElem i q here, chosen, Option.map_some]

/-- A list in the order of the classes is its records of class 0, 1, 2 and 3 in turn. -/
theorem flatMap_filter_cls {l : List ReportRecord} (sorted : l.Pairwise fun p q => p.cls ≤ q.cls) :
    (([0, 1, 2, 3] : List (Fin 4)).flatMap fun c => l.filter fun q => q.cls == c) = l := by
  induction l with
  | nil => rfl
  | cons a l ih =>
    obtain ⟨least, sorted⟩ := List.pairwise_cons.mp sorted
    have none : ∀ c : Fin 4, c < a.cls → (l.filter fun q => q.cls == c) = [] := fun c hc => by
      rw [List.filter_eq_nil_iff]
      intro q hq
      have := least q hq
      rw [beq_iff_eq]
      omega
    have classes : a.cls = 0 ∨ a.cls = 1 ∨ a.cls = 2 ∨ a.cls = 3 := by omega
    have rest := ih sorted
    simp only [List.flatMap_cons, List.flatMap_nil] at rest ⊢
    rcases classes with h | h | h | h <;> rw [h] at none
    · simpa [List.filter_cons, h] using rest
    · simpa [List.filter_cons, h, none 0] using rest
    · simpa [List.filter_cons, h, none 0, none 1] using rest
    · simpa [List.filter_cons, h, none 0, none 1, none 2] using rest

/-- Records that all wait, in the order of their classes and four at most: a batch takes the enabled ones as they
stand. -/
theorem Reporter.nextRecords_sorted {rep : Reporter} (waiting : ∀ q ∈ rep.queue, q.status = .waiting)
    (sorted : rep.queue.Pairwise fun p q => p.cls ≤ q.cls) (few : rep.queue.length ≤ 4) :
    rep.nextRecords = rep.queue.filter fun q => rep.enables.getLsbD q.cls.val := by
  have byClass : ∀ c : Fin 4, (rep.queue.filter fun q =>
      q.status == .waiting && rep.enables.getLsbD c.val && q.cls == c) =
      (rep.queue.filter fun q => rep.enables.getLsbD q.cls.val).filter fun q => q.cls == c := fun c => by
    rw [List.filter_filter]
    refine List.filter_congr fun q hq => ?_
    rw [waiting q hq, beq_self_eq_true, Bool.true_and, Bool.and_comm]
    by_cases hc : q.cls = c
    · rw [hc]
    · rw [beq_false_of_ne hc, Bool.false_and, Bool.false_and]
  simp only [Reporter.nextRecords, byClass]
  rw [flatMap_filter_cls (sorted.filter _)]
  exact List.take_of_length_le ((List.length_filter_le _ _).trans few)

/-- An IDLE reporter in UNSOLICITED mode, its records waiting in the order of their classes and four at most: with an
eligible one among them the arbiter grants it a batch of them all (R28, R145, R149). -/
theorem State.arbitrate_sendsAll {s : State} {d : Byte} (idle : s.trunk.tx = .idle) (empty : s.trunk.queue = [])
    (mode : s.reporter.mode = .unsolicited) (st : s.reporter.state = .idle) (dest : s.reporter.destination = some d)
    (waiting : ∀ q ∈ s.reporter.queue, q.status = .waiting)
    (sorted : s.reporter.queue.Pairwise fun p q => p.cls ≤ q.cls) (few : s.reporter.queue.length ≤ 4)
    (eligible : (s.reporter.queue.filter fun q => s.reporter.enables.getLsbD q.cls.val) ≠ []) :
    s.arbitrate = { s with
      reporter := { s.reporter with
        queue := s.reporter.queue.map fun q => if s.reporter.enables.getLsbD q.cls.val then
          { q with status := .inBatch s.reporter.nextBatch } else q
        state := .outstanding, outstanding := some s.reporter.nextBatch, sendCount := 1, sending := true
        nextBatch := if s.reporter.nextBatch = 255 then 1 else s.reporter.nextBatch + 1 }
      trunk := { s.trunk with tx := .reporting (rptFrame d s.trunk.address (batchBytes s.reporter.nextBatch
        (s.reporter.queue.filter fun q => s.reporter.enables.getLsbD q.cls.val))) } } := by
  have eligible : s.reporter.queue.any s.reporter.eligible = true := by
    obtain ⟨q, hq⟩ := List.exists_mem_of_ne_nil _ eligible
    obtain ⟨hq, enabled⟩ := List.mem_filter.mp hq
    exact List.any_eq_true.mpr ⟨q, hq, (s.reporter.eligible_iff q).mpr ⟨waiting q hq, enabled⟩⟩
  have batch : s.reporter.hasBatch = true := by simp [Reporter.hasBatch, mode, st, eligible]
  have taken : s.reporter.formBatch.queue = s.reporter.queue.map fun q => if s.reporter.enables.getLsbD q.cls.val then
      { q with status := .inBatch s.reporter.nextBatch } else q := by
    rw [Reporter.formBatch_queue_few few]
    refine List.map_congr_left fun q hq => ?_
    rw [Reporter.eligible, ReportRecord.waiting, waiting q hq, beq_self_eq_true, Bool.true_and]
    rfl
  have granted : s.reporter.granted = { s.reporter.formBatch with sendCount := 1, sending := true } := if_pos st
  have payload : s.reporter.granted.payload = batchBytes s.reporter.nextBatch
      (s.reporter.queue.filter fun q => s.reporter.enables.getLsbD q.cls.val) := by
    rw [← Reporter.nextRecords_sorted waiting sorted few, ← s.reporter.formBatch_payload waiting, granted]
    rfl
  have decided : s.arbitrate = s.grant d := by
    simp only [State.arbitrate, idle, empty, batch, dest, if_true]
  rw [decided, State.grant, payload, granted, ← taken]
  rfl

/-- Without mode UNSOLICITED, an enabled record or a destination an IDLE reporter sends nothing (R28, R149). -/
theorem State.arbitrate_sendsNone {s : State} (empty : s.trunk.queue = []) (st : s.reporter.state = .idle)
    (none : ¬ ∃ d, s.reporter.mode = .unsolicited ∧
      (s.reporter.queue.filter fun q => s.reporter.enables.getLsbD q.cls.val) ≠ [] ∧
      s.reporter.destination = some d) : s.arbitrate = s := by
  unfold State.arbitrate
  simp only [empty]
  split
  · split
    · rename_i batch
      split
      · rename_i d dest
        simp only [Reporter.hasBatch, st, Bool.and_eq_true, Bool.or_eq_true, beq_iff_eq, reduceCtorEq, false_and,
          or_false, true_and, List.any_eq_true, Reporter.eligible_iff] at batch
        obtain ⟨mode, q, hq, -, enabled⟩ := batch
        exact absurd ⟨d, mode, List.ne_nil_of_mem (List.mem_filter.mpr ⟨hq, enabled⟩), dest⟩ none
      · rfl
    · rfl
  · rfl

end Sys2Proof.Machine
end

section
/-! PROOF. O8: the reporter at a soft reset (R123, R124, R145, R149, R156, R169, R178). -/

namespace Sys2Proof.Machine

/-- Settles O8: the records of the reset stand in the queue, then the arbiter sends the enabled ones or rests. -/
theorem softResetReporter : Obligations.SoftResetReporter := by
  intro s q c a pending htx binds hc restart lent records sent time
  have formed : s.resetRecords = records := by
    have a : _ = lent .a := s.reporter.lentRecords_eq s.segA .a s.timeCounter
    have b : _ = lent .b := s.reporter.lentRecords_eq s.segB .b s.timeCounter
    rw [State.resetRecords, a, b]
    rfl
  obtain ⟨u, asked, trunk, reporter⟩ := s.softReset_asks_reporter
  have idle : u.trunk.tx = .idle := by rw [trunk]; rfl
  have empty : u.trunk.queue = [] := by rw [trunk]; rfl
  have queue : u.reporter.queue = records := by rw [reporter, formed]
  have config : u.reporter.mode = s.reporter.mode ∧ u.reporter.enables = s.reporter.enables ∧
      u.reporter.destination = s.reporter.destination ∧ u.reporter.nextBatch = s.reporter.nextBatch ∧
      u.reporter.state = .idle := by
    rw [reporter]
    exact ⟨rfl, rfl, rfl, rfl, rfl⟩
  obtain ⟨mode, enables, dest, next, st⟩ := config
  refine ⟨s.softReset, exec_softReset_bound a (State.resetBound_of pending htx binds) hc, ?_⟩
  by_cases sends : ∃ d, s.reporter.mode = .unsolicited ∧ sent ≠ [] ∧ s.reporter.destination = some d
  · obtain ⟨d, unsolicited, eligible, named⟩ := sends
    have granted := State.arbitrate_sendsAll idle empty (mode.trans unsolicited) st (dest.trans named)
      (by rw [queue, ← formed]; exact s.resetRecords_waiting) (by rw [queue, ← formed]; exact s.resetRecords_sorted)
      (by rw [queue, ← formed]; exact s.resetRecords_length) (by rw [queue, enables]; exact eligible)
    rw [queue, enables, next] at granted
    rw [asked, granted, reporter]
    refine ⟨rfl, rfl, rfl, rfl, rfl, rfl, rfl, fun still => ?_, fun d' _ _ named' => ?_⟩
    · exact still.elim (absurd unsolicited) fun none => absurd none eligible
    · cases named.symm.trans named'
      refine ⟨rfl, rfl, rfl, rfl, rfl, ?_⟩
      rw [trunk]
      exact congrArg (fun bytes => TrunkTx.reporting (rptFrame d s.trunk.address
        ([s.reporter.nextBatch, BitVec.ofNat 8 sent.length] ++ bytes)))
        (List.flatMap_congr fun q hq => State.resetRecords_bytes (formed ▸ List.mem_of_mem_filter hq))
  · have rests : u.arbitrate = u :=
      State.arbitrate_sendsNone empty st (by rw [mode, queue, enables, dest]; exact sends)
    rw [asked, rests, reporter, formed]
    exact ⟨rfl, rfl, rfl, rfl, rfl, rfl, rfl, fun _ => ⟨rfl, rfl, rfl, rfl, rfl, idle⟩,
      fun d unsolicited eligible named => absurd ⟨d, unsolicited, eligible, named⟩ sends⟩

end Sys2Proof.Machine
end

section
/-! SUPPORT. What every command keeps of the laws of the report queue and of the outstanding batch (R140, R142, R146,
R148): the reporter's own moves, and the operations that ask the arbiter or offer an event. -/

namespace Sys2Proof.Machine

/-! ### The reporter's moves -/

/-- With nothing outstanding every record waits (R146, R148). -/
theorem BatchLaw.waiting_of_none {rep : Reporter} (law : BatchLaw rep) (none : rep.outstanding = none) :
    ∀ q ∈ rep.queue, q.status = .waiting := by
  have waiting := law.waiting
  obtain ⟨-, idle, -⟩ := law
  exact waiting (idle.mpr none)

/-- FETCH-REPORTS keeps the laws of the reporter (R147, R152). -/
theorem Reporter.fetch_laws (rep : Reporter) (ack : Byte) (queue : QueueOfReportsLaw rep) (batch : BatchLaw rep) :
    QueueOfReportsLaw (rep.fetch ack) ∧ BatchLaw (rep.fetch ack) := by
  unfold Reporter.fetch
  generalize after : (if rep.outstanding = some ack then rep.acknowledge else rep) = left
  have laws : QueueOfReportsLaw left ∧ BatchLaw left := by
    subst after
    split
    · exact ⟨rep.acknowledge_queue_law queue, rep.acknowledge_batch_law batch.1⟩
    · exact ⟨queue, batch⟩
  simp only []
  split
  · rename_i forms
    rw [Bool.and_eq_true, Option.isNone_iff_eq_none] at forms
    exact ⟨left.formBatch_queue_law laws.1, left.formBatch_batch_law laws.2 forms.1⟩
  · exact laws

/-- REPORT-CONTROL keeps the laws of the reporter (R154, R155). -/
theorem Reporter.control_laws (rep : Reporter) (m : ReportMode) (enables : BitVec 4) (timeout source : Byte)
    (queue : QueueOfReportsLaw rep) (batch : BatchLaw rep) :
    QueueOfReportsLaw (rep.control m enables timeout source) ∧ BatchLaw (rep.control m enables timeout source) := by
  unfold Reporter.control
  cases out : rep.outstanding with
  | some n => exact ⟨rep.abandon_queue_law queue, rep.abandon_batch_law queue batch.1⟩
  | none =>
    have waiting := batch.waiting_of_none out
    obtain ⟨next, -⟩ := batch
    exact ⟨queue, next, by simp [Reporter.toIdle], by simp [Reporter.toIdle],
      fun q hq => .inl (beq_iff_eq.mpr (waiting q hq))⟩

/-- The event of an input line is RISE or FALL (R131). -/
theorem inputEvent_code (n : Fin 16) (cls : Fin 4) (high : Bool) (time : Word) :
    (inputEvent n cls high time).code ≠ .overflow := by
  cases high <;> simp [inputEvent]

namespace ReporterLaw
variable {s t : State}

/-! ### Operations inside a command -/

theorem modReporter (law : ReporterLaw s) (f : Reporter → Reporter)
    (kept : QueueOfReportsLaw s.reporter → BatchLaw s.reporter →
      QueueOfReportsLaw (f s.reporter) ∧ BatchLaw (f s.reporter)) : ReporterLaw (s.modReporter f) :=
  kept law.1 law.2

theorem modPort (law : ReporterLaw s) (p : PortId) (f : Port → Port) : ReporterLaw (s.modPort p f) :=
  law.same (s.modPort_reporter p f)

theorem respond (law : ReporterLaw s) (fn : Byte) (r : Request) (p : List Byte) : ReporterLaw (s.respond fn r p) :=
  law.enqueue _

theorem refuse (law : ReporterLaw s) (fn : Byte) (r : Request) (p : List Byte) : ReporterLaw (s.refuse fn r p) :=
  law.enqueue _

theorem restartGuard (law : ReporterLaw s) (p : PortId) : ReporterLaw (s.restartGuard p) := by
  cases p with
  | trunk => exact law
  | segment x => exact law.modSeg x _

theorem tellNew (law : ReporterLaw s) (on : SegSet) (x : Seg) : ReporterLaw (s.tellNew on x) := by
  unfold State.tellNew
  split
  · exact law.takeWork x
  · exact law

theorem judgeOffer (law : ReporterLaw s) (f : Frame) (r : Record) : ReporterLaw (s.judgeOffer f r) := by
  unfold State.judgeOffer State.admitRecord
  split
  · exact law.refuseRouted f _
  · split
    · exact law
    · rename_i slot _
      have placed : ReporterLaw { s with exchange :=
          { s.exchange.setRecord slot r with admission := s.exchange.admission ++ [slot] } } := law
      exact (placed.tellNew _ .a).tellNew _ .b

theorem act (law : ReporterLaw s) (f : Frame) (e : RouteEntry) : ReporterLaw (s.act f e) := by
  unfold State.act
  split
  · exact law.judgeOffer f _
  · exact law.judgeOffer f _
  · exact law.refuseRouted f _
  · exact law

theorem miss (law : ReporterLaw s) (f : Frame) : ReporterLaw (s.miss f) := by
  unfold State.miss
  split
  · exact law.refuseRouted f _
  · exact law

theorem route (law : ReporterLaw s) (f : Frame) : ReporterLaw (s.route f) := by
  unfold State.route
  split
  · exact law.miss f
  · split
    · exact law.miss f
    · exact ReporterLaw.act (s := s.modRoutes _) law f _

theorem deliverOnSegment (law : ReporterLaw s) (x : Seg) (f : Frame) : ReporterLaw (s.deliverOnSegment x f) := by
  have delivered := law.modPort (.segment x) fun q => { q with deliveries := q.deliveries.erase (.frame f) }
  unfold State.deliverOnSegment
  simp only []
  split
  · exact ((delivered.modSeg x _).completeRecord _ _).leaveWork x
  · split
    · exact delivered
    · exact delivered.modSeg x _

theorem abort (law : ReporterLaw s) (slot : Slot) : ReporterLaw (s.abort slot) := by
  have dropped : ∀ (u : State) (x : Seg) (serves : Prop) [Decidable serves], ReporterLaw u →
      ReporterLaw (if serves then u.dropCurrent x else u) := by
    intro u x serves _ law
    split
    · exact law.dropCurrent x
    · exact law
  exact dropped _ .b _ (dropped _ .a _ (law.completeRecord slot _))

theorem lineReset (law : ReporterLaw s) (x : Seg) : ReporterLaw (s.lineReset x) :=
  (ReporterLaw.foldl (fun _ slot law => law.takeFromSegment x .aborted slot) _ (law.modSeg x _)).dropCurrent x

theorem setConfig (law : ReporterLaw s) (x : Seg) (c : SegConfig) : ReporterLaw (s.setConfig x c) := by
  unfold State.setConfig
  split
  · exact (law.modSeg x _).judgePatience x
  · exact law.modSeg x _

theorem clearCounters (law : ReporterLaw s) (p : PortId) : ReporterLaw (s.clearCounters p) := by
  have cleared := law.modPort p fun q => { q with counters := FramerCounters.zero }
  cases p with
  | trunk => exact cleared
  | segment x => exact cleared.modSeg x _

/-! ### The sample instant (R113, R126, R131) -/

theorem sampleLine (law : ReporterLaw s) (inputs : Word) (n : Fin 16) : ReporterLaw (State.sampleLine inputs s n) := by
  have sampled : ∀ f, ReporterLaw (s.modInputs f) := fun _ => law
  unfold State.sampleLine
  simp only []
  split
  · exact (sampled _).offerEvent _ (inputEvent_code _ _ _ _)
  · exact sampled _

theorem assertHold (law : ReporterLaw s) (x : Seg) : ReporterLaw (s.assertHold x) := by
  unfold State.assertHold
  cases (s.seg x).state with
  | idle => exact law.enterLent x
  | guard => exact law.enterLent x
  | resume => exact law.enterLent x
  | send => exact law.modSeg x _
  | wait => exact law.modSeg x _
  | lent => exact law

theorem deassertHold (law : ReporterLaw s) (x : Seg) : ReporterLaw (s.deassertHold x) := by
  unfold State.deassertHold
  split
  · exact (law.modSeg x _).offerEvent _ (segmentEvent_code _ _ _)
  · exact law.modSeg x _

theorem sampleHold (law : ReporterLaw s) (x : Seg) (level : Bool) : ReporterLaw (s.sampleHold x level) := by
  have sampled : ∀ f, ReporterLaw (s.modInputs f) := fun _ => law
  unfold State.sampleHold
  simp only []
  split
  · split
    · exact (sampled _).assertHold x
    · exact (sampled _).deassertHold x
  · exact sampled _

/-! ### The soft reset (R156, R169) -/

theorem offerLentAtReset (law : ReporterLaw s) (before : Segment) (x : Seg) :
    ReporterLaw (State.offerLentAtReset before x s) := by
  unfold State.offerLentAtReset
  split
  · exact law.offerEventQuietly _ (segmentEvent_code _ _ _)
  · exact law

theorem softReset (law : ReporterLaw s) : ReporterLaw s.softReset := by
  have reset : ReporterLaw s.blocksReset :=
    ⟨s.reporter.softReset_queue_law _, s.reporter.softReset_batch_law _ law.2.1⟩
  rw [s.softReset_eq]
  exact ((reset.offerLentAtReset s.segA .a).offerLentAtReset s.segB .b).arbitrate

/-! ### Commands of each shape -/

theorem acting (law : ReporterLaw s) (act : State → State) (kept : ReporterLaw (act s)) :
    ∀ t, s.acting act = .next t → ReporterLaw t := State.acting_keeps act law fun _ => kept

theorem trunkDelivery (law : ReporterLaw s) (f : Frame) (comes : Bool) (act : State → State)
    (kept : ∀ u, ReporterLaw u → ReporterLaw (act u)) :
    ∀ t, s.trunkDelivery f comes act = .next t → ReporterLaw t :=
  State.trunkDelivery_keeps f comes act law law fun _ _ => kept (s.taken f) law

theorem management (law : ReporterLaw s) (fn : Byte) (r : Request) (judge : State → State)
    (kept : ∀ u, ReporterLaw u → ReporterLaw (judge u)) :
    ∀ t, s.management fn r judge = .next t → ReporterLaw t :=
  State.management_keeps fn r judge law law law fun _ => kept (s.taken _) law

/-- A management command that does nothing to the reporter but ask the arbiter as its reply enters (R29, R157). -/
theorem management_replies (law : ReporterLaw s) (fn : Byte) (r : Request) (judge : State → State)
    (replies : ∀ u, ∃ (v : State) (q : QueuedFrame), judge u = v.enqueue q ∧ v.reporter = u.reporter) :
    ∀ t, s.management fn r judge = .next t → ReporterLaw t :=
  law.management fn r judge fun u law => by
    obtain ⟨v, q, judged, same⟩ := replies u
    rw [judged]
    exact (law.same same).enqueue q

end ReporterLaw

end Sys2Proof.Machine
end

section
/-! PROOF. O56: every command keeps the laws of the report queue and of the outstanding batch. -/

namespace Sys2Proof.Machine
namespace ReporterLaw
variable {s t : State} {r : Request}

/-! ### Line events (R3, R4, R11 to R14) -/

theorem of_idleQualification (law : ReporterLaw s) (p : PortId) (h : execIdleQualification p s = .next t) :
    ReporterLaw t := law.acting _ (law.modPort p _) t h

theorem of_fallToSpace (law : ReporterLaw s) (p : PortId) (holds : Bool) (h : execFallToSpace p holds s = .next t) :
    ReporterLaw t := by
  refine law.acting _ ?_ t h
  split
  · exact law.restartGuard p
  · exact law.modPort p _

theorem of_arrival (law : ReporterLaw s) (p : PortId) (c : RawChar) (h : execArrival p c s = .next t) :
    ReporterLaw t := by
  refine law.acting _ ?_ t h
  split
  · exact (law.modPort p _).restartGuard p
  · exact law

theorem of_lineBreak (law : ReporterLaw s) (p : PortId) (h : execLineBreak p s = .next t) : ReporterLaw t := by
  refine law.acting _ ?_ t h
  split
  · exact (law.modPort p _).restartGuard p
  · exact law

theorem of_breakEnd (law : ReporterLaw s) (p : PortId) (h : execBreakEnd p s = .next t) : ReporterLaw t :=
  law.acting _ (law.modPort p _) t h

theorem of_gapTimerExpiry (law : ReporterLaw s) (p : PortId) (h : execGapTimerExpiry p s = .next t) :
    ReporterLaw t := law.acting _ (law.modPort p _) t h

/-! ### Resets, the time base and the trunk transmitter (R27, R150, R156, R164, R169, R170) -/

/-- One RESTART record, nothing outstanding and the next batch number 1 (R156). -/
theorem of_hardReset (p : Straps) (h : execHardReset p s = .next t) : ReporterLaw t := by
  have reset : ∀ c : ResetCause, QueueOfReportsLaw (Reporter.reset c) ∧ BatchLaw (Reporter.reset c) := fun c => by
    cases c <;> decide
  cases h
  exact reset _

theorem of_softReset (law : ReporterLaw s) (h : execSoftReset s = .next t) : ReporterLaw t := by
  refine law.acting _ ?_ t h
  split
  · exact law.softReset
  · exact law

theorem of_millisecondTick (law : ReporterLaw s) (h : execMillisecondTick s = .next t) : ReporterLaw t :=
  law.acting _ ((law.count.judgePatience .a).judgePatience .b) t h

theorem of_endOfTransmission (law : ReporterLaw s) (h : execEndOfTransmission s = .next t) : ReporterLaw t := by
  have idle : ReporterLaw s.txIdle := law
  refine law.acting _ ?_ t h
  split
  · exact law.softReset
  · split
    · exact law
    · exact idle.arbitrate
    · exact (idle.modReporter _ fun queue batch =>
        ⟨Reporter.sent_queue_law _ queue, Reporter.sent_batch_law _ batch⟩).arbitrate

theorem of_reportTimerExpiry (law : ReporterLaw s) (h : execReportTimerExpiry s = .next t) : ReporterLaw t := by
  refine law.acting _ ?_ t h
  split
  · rename_i expires
    exact (law.modReporter _ fun queue batch =>
      ⟨Reporter.expire_queue_law _ queue, Reporter.expire_batch_law _ batch expires.1⟩).arbitrate
  · exact law

/-! ### Deliveries of trunk frames (R20 to R22, R151) -/

theorem of_routedRequest (law : ReporterLaw s) (f : Frame) (h : execRoutedRequest f s = .next t) : ReporterLaw t :=
  law.trunkDelivery f _ _ (fun _ law => law.route f) t h

theorem of_unexpected (law : ReporterLaw s) (f : Frame) (h : execUnexpected f s = .next t) : ReporterLaw t := by
  refine law.trunkDelivery f _ _ (fun u law => ?_) t h
  exact law

theorem of_pendingSoftResetDiscard (law : ReporterLaw s) (f : Frame)
    (h : execPendingSoftResetDiscard f s = .next t) : ReporterLaw t :=
  law.trunkDelivery f _ _ (fun _ law => law) t h

theorem of_rack (law : ReporterLaw s) (n : Byte) (h : execRack n r s = .next t) : ReporterLaw t := by
  refine law.trunkDelivery _ _ _ (fun u law => ?_) t h
  split
  · exact (law.modReporter _ fun queue batch =>
      ⟨Reporter.acknowledge_queue_law _ queue, Reporter.acknowledge_batch_law _ batch.1⟩).arbitrate
  · exact law

/-! ### Management commands that work on the reporter or on the segments (R81, R106, R109, R152, R154, R165) -/

theorem of_reportControl (law : ReporterLaw s) (h : execReportControl r s = .next t) : ReporterLaw t := by
  refine law.management _ r _ (fun u law => ?_) t h
  split
  · split
    · exact law.refuse _ r _
    · exact (law.modReporter _ fun queue batch => Reporter.control_laws _ _ _ _ _ queue batch).respond _ r _
    · exact law
  · exact law.refuse _ r _

theorem of_fetchReports (law : ReporterLaw s) (h : execFetchReports r s = .next t) : ReporterLaw t := by
  refine law.management _ r _ (fun u law => ?_) t h
  split
  · split
    · exact (law.modReporter _ fun queue batch => Reporter.fetch_laws _ _ queue batch).respond _ r _
    · exact law.refuse _ r _
  · exact law.refuse _ r _

theorem of_readCounters (law : ReporterLaw s) (h : execReadCounters r s = .next t) : ReporterLaw t := by
  refine law.management _ r _ (fun u law => ?_) t h
  split
  · split
    · exact law.refuse _ r _
    · split
      · exact law.refuse _ r _
      · simp only []
        split
        · exact (law.respond _ r _).clearCounters _
        · exact law.respond _ r _
  · exact law.refuse _ r _

theorem of_abortExchange (law : ReporterLaw s) (h : execAbortExchange r s = .next t) : ReporterLaw t := by
  refine law.management _ r _ (fun u law => ?_) t h
  split
  · split
    · exact law.refuse _ r _
    · split
      · exact law.refuse _ r _
      · exact (law.respond _ r _).abort _
  · exact law.refuse _ r _

theorem of_lineReset (law : ReporterLaw s) (h : execLineReset r s = .next t) : ReporterLaw t := by
  refine law.management _ r _ (fun u law => ?_) t h
  split
  · split
    · exact law.refuse _ r _
    · exact (law.respond _ r _).lineReset _
  · exact law.refuse _ r _

theorem of_setSegment (law : ReporterLaw s) (h : execSetSegment r s = .next t) : ReporterLaw t := by
  refine law.management _ r _ (fun u law => ?_) t h
  split
  · split
    · exact law.refuse _ r _
    · exact (law.respond _ r _).setConfig _ _
    · exact law
  · exact law.refuse _ r _

/-! ### The other management commands (R158) -/

theorem of_unknown (law : ReporterLaw s) (fn : Byte) (h : execUnknown fn r s = .next t) : ReporterLaw t := by
  unfold execUnknown at h
  split at h
  · cases h
    exact law
  · exact law.management_replies fn r _ (fun u => ⟨u, _, rfl, rfl⟩) t h

theorem of_readStatus (law : ReporterLaw s) (h : execReadStatus r s = .next t) : ReporterLaw t :=
  law.management_replies _ r _ (fun u => by split <;> exact ⟨u, _, rfl, rfl⟩) t h

theorem of_readEntry (law : ReporterLaw s) (h : execReadEntry r s = .next t) : ReporterLaw t := by
  refine law.management_replies _ r _ (fun u => ?_) t h
  split
  · split <;> exact ⟨u, _, rfl, rfl⟩
  · exact ⟨u, _, rfl, rfl⟩

theorem of_readExchanges (law : ReporterLaw s) (h : execReadExchanges r s = .next t) : ReporterLaw t :=
  law.management_replies _ r _ (fun u => by split <;> exact ⟨u, _, rfl, rfl⟩) t h

theorem of_readSegment (law : ReporterLaw s) (h : execReadSegment r s = .next t) : ReporterLaw t := by
  refine law.management_replies _ r _ (fun u => ?_) t h
  split
  · split <;> exact ⟨u, _, rfl, rfl⟩
  · exact ⟨u, _, rfl, rfl⟩

theorem of_readInputs (law : ReporterLaw s) (h : execReadInputs r s = .next t) : ReporterLaw t := by
  refine law.management _ r _ (fun u law => ?_) t h
  split
  · split
    · exact law.refuse _ r _
    · simp only []
      split
      · exact law.respond _ r _
      · exact law.respond _ r _
  · exact law.refuse _ r _

theorem of_stageEntry (law : ReporterLaw s) (h : execStageEntry r s = .next t) : ReporterLaw t := by
  refine law.management_replies _ r _ (fun u => ?_) t h
  split
  · simp only []
    split
    · exact ⟨u, _, rfl, rfl⟩
    · exact ⟨u.modRoutes _, _, rfl, rfl⟩
  · exact ⟨u, _, rfl, rfl⟩

theorem of_clearStage (law : ReporterLaw s) (h : execClearStage r s = .next t) : ReporterLaw t := by
  refine law.management_replies _ r _ (fun u => ?_) t h
  split
  · exact ⟨u.modRoutes _, _, rfl, rfl⟩
  · exact ⟨u, _, rfl, rfl⟩

theorem of_commit (law : ReporterLaw s) (h : execCommit r s = .next t) : ReporterLaw t := by
  refine law.management_replies _ r _ (fun u => ?_) t h
  split
  · split
    · exact ⟨u, _, rfl, rfl⟩
    · split
      · exact ⟨u, _, rfl, rfl⟩
      · exact ⟨u.modRoutes _, _, rfl, rfl⟩
  · exact ⟨u, _, rfl, rfl⟩

theorem of_setMissPolicy (law : ReporterLaw s) (h : execSetMissPolicy r s = .next t) : ReporterLaw t := by
  refine law.management_replies _ r _ (fun u => ?_) t h
  split
  · split
    · exact ⟨u, _, rfl, rfl⟩
    · exact ⟨u.modRoutes _, _, rfl, rfl⟩
  · exact ⟨u, _, rfl, rfl⟩

theorem of_setInput (law : ReporterLaw s) (h : execSetInput r s = .next t) : ReporterLaw t := by
  refine law.management _ r _ (fun u law => ?_) t h
  split
  · split
    · exact law.refuse _ r _
    · exact ReporterLaw.respond (s := u.modInputs _) law _ r _
    · exact law
  · exact law.refuse _ r _

theorem of_setSamplePeriod (law : ReporterLaw s) (h : execSetSamplePeriod r s = .next t) : ReporterLaw t := by
  refine law.management_replies _ r _ (fun u => ?_) t h
  split
  · split
    · exact ⟨u, _, rfl, rfl⟩
    · exact ⟨u.modInputs _, _, rfl, rfl⟩
  · exact ⟨u, _, rfl, rfl⟩

theorem of_gatewayReset (law : ReporterLaw s) (h : execGatewayReset r s = .next t) : ReporterLaw t := by
  refine law.management _ r _ (fun u law => ?_) t h
  split
  · exact law.enqueue _
  · exact law.refuse _ r _

/-! ### Segment events and the sample instant (R94 to R105, R113, R119, R126) -/

theorem of_segmentEndOfTransmission (law : ReporterLaw s) (x : Seg)
    (h : execSegmentEndOfTransmission x s = .next t) : ReporterLaw t := by
  have ended := law.modSeg x Segment.endTransmission
  refine law.acting _ ?_ t h
  split
  · simp only []
    split
    · exact ended.leaveWork x
    · split
      · exact ended.leaveWork x
      · split
        · exact ended.modSeg x _
        · exact ((ended.modSeg x _).settleBroadcast _ _ _).leaveWork x
  · exact law

theorem of_segmentFrame (law : ReporterLaw s) (x : Seg) (f : Frame) (h : execMatchingFrame x f s = .next t) :
    ReporterLaw t := by
  refine law.acting _ ?_ t h
  split
  · exact law.deliverOnSegment x f
  · exact law

theorem of_corruptFrameNotice (law : ReporterLaw s) (x : Seg) (h : execCorruptFrameNotice x s = .next t) :
    ReporterLaw t := by
  have delivered : ReporterLaw (s.takeDelivery (.segment x) .corruptNotice) := law.modPort _ _
  refine law.acting _ ?_ t h
  simp only []
  split
  · exact delivered.failAttempt x _
  · exact delivered

theorem of_responseTimerExpiry (law : ReporterLaw s) (x : Seg) (h : execResponseTimerExpiry x s = .next t) :
    ReporterLaw t := by
  refine law.acting _ ?_ t h
  split
  · exact law.failAttempt x _
  · exact law

theorem of_guardTimerExpiry (law : ReporterLaw s) (x : Seg) (h : execGuardTimerExpiry x s = .next t) :
    ReporterLaw t := by
  refine law.acting _ ?_ t h
  split
  · exact (law.modSeg x _).takeWork x
  · exact law

theorem of_sampleInstant (law : ReporterLaw s) (inputs : Word) (a b : Bool)
    (h : execSampleInstant inputs a b s = .next t) : ReporterLaw t := by
  have lines := ReporterLaw.foldl (fun _ n law => law.sampleLine inputs n) inputLines law
  exact law.acting _ ((lines.sampleHold .a a).sampleHold .b b) t h

end ReporterLaw

theorem exec_reporterLaw (c : Instr) (s t : State) (h : exec c s = .next t) (law : ReporterLaw s) :
    ReporterLaw t := by
  cases c with
  | hardReset p => exact ReporterLaw.of_hardReset p h
  | hardResetBegin c =>
    cases h
    exact law
  | softReset => exact law.of_softReset h
  | millisecondTick => exact law.of_millisecondTick h
  | idleQualification p => exact law.of_idleQualification p h
  | fallToSpace p b => exact law.of_fallToSpace p b h
  | arrival p c => exact law.of_arrival p c h
  | lineBreak p => exact law.of_lineBreak p h
  | breakEnd p => exact law.of_breakEnd p h
  | gapTimerExpiry p => exact law.of_gapTimerExpiry p h
  | routedRequest f => exact law.of_routedRequest f h
  | unexpected f => exact law.of_unexpected f h
  | pendingSoftResetDiscard f => exact law.of_pendingSoftResetDiscard f h
  | rack n r => exact law.of_rack n h
  | unknown fn r => exact law.of_unknown fn h
  | readStatus r => exact law.of_readStatus h
  | readCounters r => exact law.of_readCounters h
  | stageEntry r => exact law.of_stageEntry h
  | clearStage r => exact law.of_clearStage h
  | readEntry r => exact law.of_readEntry h
  | commit r => exact law.of_commit h
  | setMissPolicy r => exact law.of_setMissPolicy h
  | readExchanges r => exact law.of_readExchanges h
  | abortExchange r => exact law.of_abortExchange h
  | lineReset r => exact law.of_lineReset h
  | setSegment r => exact law.of_setSegment h
  | readSegment r => exact law.of_readSegment h
  | readInputs r => exact law.of_readInputs h
  | setInput r => exact law.of_setInput h
  | setSamplePeriod r => exact law.of_setSamplePeriod h
  | reportControl r => exact law.of_reportControl h
  | fetchReports r => exact law.of_fetchReports h
  | gatewayReset r => exact law.of_gatewayReset h
  | endOfTransmission => exact law.of_endOfTransmission h
  | reportTimerExpiry => exact law.of_reportTimerExpiry h
  | segmentEndOfTransmission x => exact law.of_segmentEndOfTransmission x h
  | matchingFrame x f => exact law.of_segmentFrame x f h
  | strayFrame x f => exact law.of_segmentFrame x f h
  | corruptFrameNotice x => exact law.of_corruptFrameNotice x h
  | responseTimerExpiry x => exact law.of_responseTimerExpiry x h
  | guardTimerExpiry x => exact law.of_guardTimerExpiry x h
  | sampleInstant inputs a b => exact law.of_sampleInstant inputs a b h
  | patienceExpiry x => exact law.acting _ (law.judgePatience x) t h

/-- Settles O56: the laws are of the reporter alone, every command keeps them, and so does a step. -/
theorem reporterLawKept : Obligations.ReporterLawKept :=
  step_keeps (P := ReporterLaw) (fun _ _ law => law) exec_reporterLaw

end Sys2Proof.Machine
end

section
/-! SUPPORT. The bytes of a report record and of the outstanding batch (R145, R178), and FETCH-REPORTS by what it makes
of the reporter (R152, R153). -/

namespace Sys2Proof.Machine

/-! ### The bytes of a record (R178) -/

theorem subjectCode_eq (x : Subject) : subjectCode x =
    match x with
      | .input n => BitVec.ofNat 8 n.val
      | .segment .a => 0x10
      | .segment .b => 0x11
      | .gateway => 0x20 := by
  cases x with
  | input n => rfl
  | segment x => cases x <;> rfl
  | gateway => rfl

/-- Class in bits 7 to 4, event code in bits 3 to 0 (R178). -/
theorem classByte_eq (c : Fin 4) (e : EventCode) : (byteOf c.val <<< 4) ||| eventCode e =
    BitVec.ofNat 8 (16 * c.val + match e with
      | .rise => 1
      | .fall => 2
      | .lent => 3
      | .reclaimed => 4
      | .restart => 5
      | .overflow => 6) := by
  cases e <;> revert c <;> decide

/-- A count in bits 3 to 0 of a byte that has them clear (R178). -/
theorem or_countBits (high : Byte) (count : Nat) (clear : high &&& 0xF = 0) :
    high ||| (byteOf count &&& 0xF) = BitVec.ofNat 8 (count % 16 + high.toNat) := by
  have low : (byteOf count &&& 0xF) = BitVec.ofNat 8 (count % 16) := by
    apply BitVec.eq_of_toNat_eq
    rw [BitVec.toNat_and, byteOf, BitVec.toNat_ofNat, BitVec.toNat_ofNat,
      show (0xF : Byte).toNat = 2 ^ 4 - 1 from rfl, Nat.and_two_pow_sub_one_eq_mod]
    omega
  have apart : high &&& (byteOf count &&& 0xF) = 0 := by
    rw [BitVec.and_comm (byteOf count), ← BitVec.and_assoc, clear]
    exact BitVec.zero_and
  rw [← BitVec.add_eq_or_of_and_eq_zero _ _ apart, low]
  apply BitVec.eq_of_toNat_eq
  rw [BitVec.toNat_add, BitVec.toNat_ofNat, BitVec.toNat_ofNat]
  omega

theorem ReportRecord.infoByte_eq (q : ReportRecord) : q.infoByte = BitVec.ofNat 8 (if q.code = .overflow then q.count
    else q.count % 16 + match q.info with
      | .level high => if high then 128 else 0
      | .cause c => 16 * (causeCode c).toNat
      | .absent => 0) := by
  unfold ReportRecord.infoByte
  by_cases overflow : q.code = .overflow
  · rw [if_pos overflow, if_pos overflow]
    rfl
  · rw [if_neg overflow, if_neg overflow]
    cases q.info with
    | level high => cases high <;> exact or_countBits _ _ (by decide)
    | cause c => cases c <;> exact or_countBits _ _ (by decide)
    | absent => simpa using or_countBits 0 q.count (by decide)

/-! ### The payload of a reply (R145, R152) -/

/-- The outstanding batch, its records by class and then by age (R145, R178). -/
theorem Reporter.payload_outstanding {rep : Reporter} {n : Byte} (out : rep.outstanding = some n) :
    rep.payload = batchBytes n rep.batchNow := by
  simp only [Reporter.payload, out]
  rfl

theorem Reporter.payload_none {rep : Reporter} (none : rep.outstanding = none) : rep.payload = [0x00, 0x00] := by
  simp only [Reporter.payload, none]
  rfl

/-! ### What FETCH-REPORTS makes of the reporter (R147, R152) -/

/-- A batch outstanding that the number does not name stays. -/
theorem Reporter.fetch_again {rep : Reporter} {n ack : Byte} (out : rep.outstanding = some n) (other : ack ≠ n) :
    rep.fetch ack = rep := by
  simp [Reporter.fetch, out, other.symm]

/-- A number that names the outstanding batch acknowledges it, and the rest is as with nothing outstanding. -/
theorem Reporter.fetch_named {rep : Reporter} {ack : Byte} (out : rep.outstanding = some ack) :
    rep.fetch ack = rep.acknowledged.fetch ack := by
  have none : rep.acknowledged.outstanding ≠ some ack := (nomatch ·)
  simp only [Reporter.fetch, if_pos out, rep.acknowledge_eq, if_neg none]

theorem Reporter.fetch_nothing {rep : Reporter} (none : rep.outstanding = none) (nothing : NothingEligible rep)
    (ack : Byte) : rep.fetch ack = rep := by
  simp [Reporter.fetch, none, rep.nothingEligible_iff.mp nothing]

theorem Reporter.fetch_forms {rep : Reporter} (none : rep.outstanding = none)
    (eligible : ∃ q ∈ rep.queue, q.status = .waiting ∧ rep.enables.getLsbD q.cls.val = true) (ack : Byte) :
    rep.fetch ack = rep.formBatch := by
  have any : rep.queue.any rep.eligible = true := by
    obtain ⟨q, hq, takes⟩ := eligible
    exact List.any_eq_true.mpr ⟨q, hq, (rep.eligible_iff q).mpr takes⟩
  simp [Reporter.fetch, none, any]

section
variable {s : State} {r : Request} {ack : Byte} (ready : Ready s r) (law : OutputLaw s) (hp : r.payload = [ack])
include ready law hp

/-- Outside POLLED mode FETCH-REPORTS is refused (R153). -/
theorem exec_fetchReports_refused (mode : s.reporter.mode ≠ .polled) : exec (.fetchReports r) s =
    .next ((s.taken (s.commandFrame 0x41 r)).answered .nak 0x41 r [0x06, modeCode s.reporter.mode]) := by
  change execFetchReports r s = _
  have kept : (s.taken (s.commandFrame 0x41 r)).reporter = s.reporter := rfl
  simp only [execFetchReports, s.management_ready _ r _ ready, hp, kept, if_neg mode]
  exact congrArg _ (State.refuse_after ready law _ _ _ _ ⟨rfl, rfl, rfl⟩)

/-- In POLLED mode FETCH-REPORTS answers with the batch that it leaves outstanding (R152). -/
theorem exec_fetchReports {rep : Reporter} (mode : s.reporter.mode = .polled) (left : s.reporter.fetch ack = rep) :
    exec (.fetchReports r) s = .next (({ s.taken (s.commandFrame 0x41 r) with reporter := rep }).answered .rsp 0x41 r
      rep.payload) := by
  subst left
  change execFetchReports r s = _
  have kept : (s.taken (s.commandFrame 0x41 r)).reporter = s.reporter := rfl
  simp only [execFetchReports, s.management_ready _ r _ ready, hp, kept, if_pos mode]
  exact congrArg _ (State.respond_after ready law _ _ _ _ ⟨rfl, rfl, rfl⟩)

end

end Sys2Proof.Machine
end

section
/-! PROOF. O37, O38 and O42: FETCH-REPORTS, and the expiry of the report timer. -/

namespace Sys2Proof.Machine

/-- Settles O37: the refusals, the batch again, nothing to return, and the bytes of a record. -/
theorem fetchReportsReply : Obligations.FetchReportsReply := by
  refine ⟨fun s r ack ready law _ hp => ⟨fun off => ?_, fun unsolicited => ?_, fun n polled out other => ?_,
    fun polled none nothing => ?_, fun polled named nothing => ?_⟩, fun q => ?_⟩
  · rw [exec_fetchReports_refused ready law hp (by simp [off]), off]
    rfl
  · rw [exec_fetchReports_refused ready law hp (by simp [unsolicited]), unsolicited]
    rfl
  · rw [exec_fetchReports ready law hp polled (Reporter.fetch_again out other), Reporter.payload_outstanding out]
    rfl
  · rw [exec_fetchReports ready law hp polled (Reporter.fetch_nothing none nothing ack), Reporter.payload_none none]
    rfl
  · exact exec_fetchReports ready law hp polled
      ((Reporter.fetch_named named).trans (Reporter.fetch_nothing rfl nothing ack))
  · rw [ReportRecord.bytes, subjectCode_eq, classByte_eq, q.infoByte_eq]
    rfl

/-- Settles O38: nothing is outstanding, or no longer, so that every record waits and the eligible ones form a batch. -/
theorem batchTakesByClassThenAge : Obligations.BatchTakesByClassThenAge := by
  intro s r ack ready law batch hp polled formed
  have forms : ∀ rep : Reporter, (∀ q ∈ rep.queue, q.status = .waiting) → rep.outstanding = none →
      s.reporter.fetch ack = rep.fetch ack → formed rep := by
    intro rep waiting none left eligible
    have run := exec_fetchReports ready law hp polled (left.trans (Reporter.fetch_forms none eligible ack))
    rw [rep.formBatch_payload waiting] at run
    exact ⟨rep.formBatch.queue, run, rep.formBatch_formed⟩
  exact ⟨fun none => forms _ (batch.waiting_of_none none) none rfl,
    fun named => forms _ s.reporter.acknowledged_waiting rfl (Reporter.fetch_named named)⟩

/-- A timer that has reached 0 with a batch outstanding expires and the arbiter is asked (R29, R150). -/
theorem exec_reportTimerExpiry {s : State} (a : Acting s) (st : s.reporter.state = .outstanding)
    (timer : s.reporter.timer = some 0) {rep : Reporter} (expired : s.reporter.expire = rep) :
    exec .reportTimerExpiry s = .next { s with reporter := rep }.arbitrate := by
  subst expired
  change execReportTimerExpiry s = _
  rw [execReportTimerExpiry, State.acting_next a, if_pos ⟨st, timer⟩]
  rfl

/-- Settles O42: the resend waits or is granted, the reporter stalls, or nothing expires. -/
theorem reportTimerExpires : Obligations.ReportTimerExpires := by
  intro s a law
  have rest := (law.2 a).1
  refine ⟨fun st timer below busy => ?_, fun d n st timer below idle mode dest out => ?_, fun st timer eight => ?_,
    fun still => ?_⟩
  · rw [exec_reportTimerExpiry a st timer (if_pos below)]
    exact congrArg _ (State.arbitrate_busy _ busy)
  · rw [exec_reportTimerExpiry a st timer (if_pos below)]
    exact congrArg _ (State.arbitrate_resends idle (rest idle) mode dest st rfl out)
  · rw [exec_reportTimerExpiry a st timer (if_neg (by omega))]
    refine congrArg Host.Outcome.next ?_
    by_cases idle : s.trunk.tx = .idle
    · exact State.arbitrate_rest _ (rest idle) (Reporter.hasBatch_false (.inr (.inr (.inr rfl))))
    · exact State.arbitrate_busy _ idle
  · change execReportTimerExpiry s = _
    rw [execReportTimerExpiry, State.acting_next a, if_neg fun expires =>
      still.elim (fun other => other expires.1) fun other => other expires.2]

end Sys2Proof.Machine
end

section
/-! SUPPORT. The queue of an abandoned batch (R144, R155): what the records that join one by one make of it, and
REPORT-CONTROL by what it makes of the reporter (R154). -/

namespace Sys2Proof.Machine

/-! ### A list, each element between what stands before it and what stands after it -/

/-- The images of the elements of a list, each made from what stands before it, `before` in front, itself, and what
stands after it. -/
def mapBetween {α β : Type} (g : List α → α → List α → Option β) (before : List α) : List α → List β
  | [] => []
  | a :: l => (g before a l).toList ++ mapBetween g (before ++ [a]) l

theorem filterMap_zipIdx_eq {α β : Type} (g : List α → α → List α → Option β) (l : List α) :
    ∀ before : List α, ((l.zipIdx before.length).filterMap fun p =>
      g ((before ++ l).take p.2) p.1 ((before ++ l).drop (p.2 + 1))) = mapBetween g before l := by
  induction l with
  | nil => exact fun _ => rfl
  | cons a l ih =>
    intro before
    have rest := ih (before ++ [a])
    rw [List.length_append, List.append_assoc] at rest
    have first : (before ++ a :: l).drop (before.length + 1) = l := by
      rw [List.drop_append]
      simp
    rw [List.zipIdx_cons, List.filterMap_cons, List.take_left, first, mapBetween, ← rest]
    cases g before a l <;> rfl

/-! ### The records of a line that join one by one (R155 step 3) -/

/-- A record of the line of `o`. -/
def ReportRecord.sharesLine (o q : ReportRecord) : Bool := o.subject.isInput && q.subject == o.subject

theorem ReportRecord.sharesLine_iff (o q : ReportRecord) :
    o.sharesLine q = true ↔ o.subject.isInput = true ∧ q.subject = o.subject := by
  rw [ReportRecord.sharesLine, Bool.and_eq_true, beq_iff_eq]

theorem ReportRecord.sharesLine_congr {o p : ReportRecord} (same : o.subject = p.subject) :
    o.sharesLine = p.sharesLine := by
  funext q
  rw [ReportRecord.sharesLine, ReportRecord.sharesLine, same]

theorem ReportRecord.sharesLine_comm (o q : ReportRecord) : o.sharesLine q = q.sharesLine o := by
  rw [Bool.eq_iff_iff, ReportRecord.sharesLine_iff, ReportRecord.sharesLine_iff]
  exact ⟨fun ⟨line, same⟩ => ⟨same ▸ line, same.symm⟩, fun ⟨line, same⟩ => ⟨same ▸ line, same.symm⟩⟩

/-- A record that takes the records of its line from a list, in their order. -/
def ReportRecord.mergeAll (o : ReportRecord) (l : List ReportRecord) : ReportRecord :=
  (l.filter o.sharesLine).foldl ReportRecord.merge o

/-- What a record has become when it has taken newer ones: class, code, information and last time of the newest, and the
sum of the counts up to 15 (R155 step 3). -/
theorem foldl_merge (newer : List ReportRecord) : ∀ o : ReportRecord, newer.foldl ReportRecord.merge o =
    match newer.getLast? with
    | none => o
    | some q => { o with
        cls := q.cls, code := q.code, info := q.info, last := q.last
        count := min 15 (o.count + (newer.map (fun q => q.count)).sum) } := by
  induction newer with
  | nil => exact fun _ => rfl
  | cons q newer ih =>
    intro o
    rw [List.foldl_cons, ih]
    cases newest : newer.getLast? with
    | none =>
      rw [List.getLast?_eq_none_iff.mp newest]
      rfl
    | some p =>
      rw [List.getLast?_cons, newest]
      have sum : min 15 (min 15 (o.count + q.count) + (newer.map fun q => q.count).sum) =
          min 15 (o.count + (q.count + (newer.map fun q => q.count).sum)) := by omega
      simp only [ReportRecord.merge, addUpTo, sum, List.map_cons, List.sum_cons, Option.getD_some]

/-- A record that is joined by one more. -/
theorem ReportRecord.mergeAll_cons (o q : ReportRecord) (l : List ReportRecord) :
    o.mergeAll (q :: l) = (if o.sharesLine q then o.merge q else o).mergeAll l := by
  unfold ReportRecord.mergeAll
  rw [List.filter_cons]
  split
  · rw [List.foldl_cons, ReportRecord.sharesLine_congr (o := o.merge q) (p := o) rfl]
  · rfl

/-- A record joins by being taken in by those of its line, or stands at the tail where there are none. -/
theorem addMerged_eq (acc : List ReportRecord) (r : ReportRecord) : addMerged acc r =
    if acc.any r.sharesLine then acc.map fun o => if o.sharesLine r then o.merge r else o else acc ++ [r] := by
  unfold addMerged
  cases line : r.subject.isInput with
  | false =>
    have apart : acc.any r.sharesLine = false := by simp [ReportRecord.sharesLine, line]
    rw [apart, Bool.false_and]
    rfl
  | true =>
    have shares : r.sharesLine = fun o => o.subject == r.subject := by
      funext o
      simp [ReportRecord.sharesLine, line]
    have taken : ∀ o : ReportRecord, o.sharesLine r = (o.subject == r.subject) := fun o => by
      rw [o.sharesLine_comm r, shares]
    simp only [shares, taken, Bool.true_and]

/-- What one record of the queue becomes where the records join one by one: nothing where an older one is of its line,
and otherwise itself with the newer ones of its line taken in. -/
def mergedBetween (before : List ReportRecord) (o : ReportRecord) (after : List ReportRecord) : Option ReportRecord :=
  if before.any o.sharesLine then none else some (o.mergeAll after)

/-- Records join a queue `acc` whose lines are those of `before`: each record there takes those of its line in, and the
first of each other line stands at the tail and takes the later ones in. -/
theorem foldl_addMerged (l : List ReportRecord) : ∀ acc before : List ReportRecord,
    (∀ o : ReportRecord, acc.any o.sharesLine = before.any o.sharesLine) →
    l.foldl addMerged acc = acc.map (fun o => o.mergeAll l) ++ mapBetween mergedBetween before l := by
  induction l with
  | nil =>
    intro acc before _
    exact ((List.append_nil _).trans (List.map_id acc)).symm
  | cons r l ih =>
    intro acc before agree
    rw [List.foldl_cons, addMerged_eq, mapBetween, mergedBetween, ← agree]
    by_cases joins : acc.any r.sharesLine = true
    · have lines : ∀ o : ReportRecord, (acc.map fun o => if o.sharesLine r then o.merge r else o).any o.sharesLine =
          (before ++ [r]).any o.sharesLine := fun o => by
        have kept : (o.sharesLine ∘ fun p => if p.sharesLine r then p.merge r else p) = o.sharesLine := by
          funext p
          rw [Function.comp_apply]
          split <;> rfl
        rw [List.any_map, kept, List.any_append, ← agree, List.any_cons, List.any_nil, Bool.or_false]
        cases shares : o.sharesLine r with
        | false => rw [Bool.or_false]
        | true =>
          rw [ReportRecord.sharesLine_congr ((o.sharesLine_iff r).mp shares).2.symm, joins, Bool.or_true]
      rw [if_pos joins, if_pos joins, ih _ _ lines, List.map_map]
      refine congrArg (· ++ _) (List.map_congr_left fun o _ => ?_)
      rw [Function.comp_apply, ReportRecord.mergeAll_cons]
    · have lines : ∀ o : ReportRecord, (acc ++ [r]).any o.sharesLine = (before ++ [r]).any o.sharesLine := fun o => by
        rw [List.any_append, List.any_append, agree]
      rw [if_neg joins, if_neg joins, ih _ _ lines, List.map_append, List.append_assoc]
      refine congrArg (· ++ _) (List.map_congr_left fun o ho => ?_)
      have apart : ¬ o.sharesLine r = true := fun shares =>
        joins (List.any_eq_true.mpr ⟨o, ho, r.sharesLine_comm o ▸ shares⟩)
      rw [ReportRecord.mergeAll_cons, if_neg apart]

/-! ### The queue of an abandoned batch (R155) -/

theorem mapBetween_map {α β γ : Type} (f : α → β) (g : List β → β → List β → Option γ) (l : List α) :
    ∀ before : List α, mapBetween g (before.map f) (l.map f) =
      mapBetween (fun before a after => g (before.map f) (f a) (after.map f)) before l := by
  induction l with
  | nil => exact fun _ => rfl
  | cons a l ih =>
    intro before
    rw [List.map_cons, mapBetween, mapBetween, ← ih, List.map_append]
    rfl

theorem mapBetween_congr {α β : Type} {g g' : List α → α → List α → Option β} (l : List α) :
    ∀ before : List α, (∀ b a c, b ++ a :: c = before ++ l → g b a c = g' b a c) →
      mapBetween g before l = mapBetween g' before l := by
  induction l with
  | nil => exact fun _ _ => rfl
  | cons a l ih =>
    intro before same
    rw [mapBetween, mapBetween, same before a l rfl,
      ih (before ++ [a]) fun b a' c he => same b a' c (he.trans (List.append_assoc _ _ _))]

/-- What one record becomes when the outstanding batch is abandoned, between the older and the newer ones of the queue:
the body of `Reporter.abandonedQueue`. -/
def Reporter.abandonedBetween (rep : Reporter) (before : List ReportRecord) (o : ReportRecord)
    (after : List ReportRecord) : Option ReportRecord :=
  if before.any o.sharesLine then none
  else
    match (after.filter o.sharesLine).getLast? with
    | none => some (rep.givenBack o)
    | some q => some { o with
        cls := q.cls, code := q.code, info := q.info, last := q.last, status := .waiting
        count := min 15 (o.count + ((after.filter o.sharesLine).map (fun q => q.count)).sum) }

theorem Reporter.abandonedQueue_eq (rep : Reporter) :
    rep.abandonedQueue = mapBetween rep.abandonedBetween [] rep.queue :=
  filterMap_zipIdx_eq rep.abandonedBetween rep.queue []

theorem Reporter.release_eq (rep : Reporter) (r : ReportRecord) : rep.release r = rep.givenBack r := by
  unfold Reporter.release Reporter.givenBack
  have waiting : r.waiting = true ↔ r.status = .waiting := beq_iff_eq
  by_cases waits : r.status = .waiting
  · rw [if_pos (waiting.mpr waits), if_neg fun h => h.2.1 waits, ← waits]
  · rw [if_neg fun h => waits (waiting.mp h)]
    simp [ReportRecord.isOverflow, addUpTo, waits]

/-- An ordinary record is given back as it is, WAITING (R155 step 1). -/
theorem Reporter.release_ordinary (rep : Reporter) {r : ReportRecord} (ordinary : r.code ≠ .overflow) :
    rep.release r = { r with status := .waiting } :=
  (rep.release_eq r).trans (if_neg fun h => ordinary h.1)

/-- What joining makes of the records given back is what `Reporter.abandonedBetween` says (R155). -/
theorem Reporter.mergedBetween_eq (rep : Reporter) (before after : List ReportRecord) (o : ReportRecord)
    (ordinary : ∀ q ∈ o :: after, q.subject.isInput = true → q.code ≠ .overflow) :
    mergedBetween (before.map rep.release) (rep.release o) (after.map rep.release) =
      rep.abandonedBetween before o after := by
  have lines : (rep.release o).sharesLine ∘ rep.release = o.sharesLine := by
    funext q
    simp [ReportRecord.sharesLine]
  unfold mergedBetween Reporter.abandonedBetween ReportRecord.mergeAll
  rw [List.any_map, lines, List.filter_map, lines, foldl_merge, List.getLast?_map]
  cases newest : (after.filter o.sharesLine).getLast? with
  | none => rw [rep.release_eq]; rfl
  | some q =>
    have ofLine : ∀ q ∈ after.filter o.sharesLine, rep.release q = { q with status := .waiting } := fun q hq => by
      obtain ⟨hq, shares⟩ := List.mem_filter.mp hq
      obtain ⟨line, same⟩ := (o.sharesLine_iff q).mp shares
      exact rep.release_ordinary (ordinary q (List.mem_cons_of_mem o hq) (same ▸ line))
    have hq := List.mem_of_getLast? newest
    have line := ((o.sharesLine_iff q).mp (List.mem_filter.mp hq).2).1
    have counts : ((after.filter o.sharesLine).map rep.release).map (fun q => q.count) =
        (after.filter o.sharesLine).map fun q => q.count := by
      rw [List.map_map]
      exact List.map_congr_left fun q hq => by rw [Function.comp_apply, ofLine q hq]
    rw [Option.map_some, counts, rep.release_ordinary (ordinary o List.mem_cons_self line), ofLine q hq]

theorem Reporter.abandon_queue_eq (rep : Reporter) (law : QueueOfReportsLaw rep) :
    rep.abandon.queue = rep.abandonedQueue := by
  obtain ⟨-, -, -, gateway⟩ := law
  have ordinary : ∀ q ∈ rep.queue, q.subject.isInput = true → q.code ≠ .overflow := fun q hq input overflow => by
    rw [gateway q hq (beq_iff_eq.mpr overflow)] at input
    cases input
  calc
    rep.abandon.queue = mapBetween mergedBetween [] (rep.queue.map rep.release) :=
      foldl_addMerged _ [] [] fun _ => rfl
    _ = mapBetween rep.abandonedBetween [] rep.queue := by
      rw [← List.map_nil (f := rep.release), mapBetween_map]
      refine mapBetween_congr _ _ fun before o after whole => ?_
      rw [List.nil_append] at whole
      exact rep.mergedBetween_eq before after o fun q hq => ordinary q (whole ▸ List.mem_append_right before hq)
    _ = rep.abandonedQueue := rep.abandonedQueue_eq.symm

/-! ### REPORT-CONTROL (R144, R154) -/

theorem modeOf_modeCode (m : ReportMode) : modeOf (modeCode m) = some m := by cases m <;> rfl

/-- REPORT-CONTROL with every field in range configures the reporter (R154). -/
theorem exec_reportControl {s : State} {r : Request} (ready : Ready s r) (law : OutputLaw s) {m : ReportMode}
    {enables timeout : Byte} (hp : r.payload = [modeCode m, enables, timeout]) (classes : enables.toNat ≤ 15)
    (running : timeout ≠ 0) : exec (.reportControl r) s = .next (({ s.taken (s.commandFrame 0x40 r) with
      reporter := s.reporter.control m (BitVec.ofNat 4 enables.toNat) timeout r.src }).answered .rsp 0x40 r
        [modeCode m, enables, timeout]) := by
  have inRange : firstOutOfRange [(0, (some m).isSome), (1, decide (enables.toNat ≤ 15)), (2, timeout != 0)] = none :=
    (firstOutOfRange_none_iff _).mpr (by simpa [classes] using running)
  change execReportControl r s = _
  simp only [execReportControl, s.management_ready _ r _ ready, hp, modeOf_modeCode, inRange]
  exact congrArg _ (State.respond_after ready law _ _ _ _ ⟨rfl, rfl, rfl⟩)

/-- The reporter after REPORT-CONTROL with nothing outstanding: IDLE and configured, its queue as it was (R154). -/
theorem Reporter.control_none {rep : Reporter} (none : rep.outstanding = none) (m : ReportMode)
    (enables : BitVec 4) (timeout source : Byte) : rep.control m enables timeout source = { rep.toIdle with
      mode := m, enables := enables, timeout := timeout
      destination := if m = .unsolicited then some source else rep.destination } := by
  simp only [Reporter.control, none]
  rfl

/-- The same with a batch outstanding, which is abandoned (R144, R155). -/
theorem Reporter.control_some {rep : Reporter} (law : QueueOfReportsLaw rep) (out : rep.outstanding ≠ none)
    (m : ReportMode) (enables : BitVec 4) (timeout source : Byte) :
    rep.control m enables timeout source = { rep.toIdle with
      queue := rep.abandonedQueue
      carry := if rep.queue.any (fun r => r.isOverflow && !r.waiting) then Carry.zero else rep.carry
      mode := m, enables := enables, timeout := timeout
      destination := if m = .unsolicited then some source else rep.destination } := by
  rw [← rep.abandon_queue_eq law]
  simp only [Reporter.control, if_pos (Option.isSome_iff_ne_none.mpr out)]
  rfl

theorem Reporter.abandonedQueue_waiting {rep : Reporter} (law : QueueOfReportsLaw rep) :
    ∀ q ∈ rep.abandonedQueue, q.status = .waiting := by
  rw [← rep.abandon_queue_eq law]
  obtain ⟨-, -, -, gateway⟩ := law
  exact fun q hq => beq_iff_eq.mp ((rep.abandon_merged gateway).1.waiting q hq)

end Sys2Proof.Machine
end

section
/-! PROOF. O36: REPORT-CONTROL. -/

namespace Sys2Proof.Machine

/-- Settles O36: the configuration, with the queue as it was or as an abandoned batch leaves it. -/
theorem reportControlSets : Obligations.ReportControlSets := by
  rintro s r _ enables timeout m ready output ⟨queue, batch⟩ hp rfl classes running
  refine ⟨_, exec_reportControl ready output hp classes running, ?_⟩
  cases out : s.reporter.outstanding with
  | none =>
    rw [Reporter.control_none out]
    exact ⟨rfl, rfl, rfl, rfl, rfl, rfl, rfl, rfl, rfl, rfl, rfl, batch.waiting_of_none out,
      fun _ => ⟨rfl, rfl⟩, fun other => absurd rfl other⟩
  | some n =>
    rw [Reporter.control_some queue (out ▸ Option.some_ne_none n)]
    refine ⟨rfl, rfl, rfl, rfl, rfl, rfl, rfl, rfl, rfl, rfl, rfl, Reporter.abandonedQueue_waiting queue,
      fun none => absurd none (Option.some_ne_none n),
      fun _ => ⟨rfl, fun ⟨q, hq, overflow, inBatch⟩ => ?_, fun waits => ?_⟩⟩
    · exact if_pos (List.any_eq_true.mpr ⟨q, hq, by
        simp [ReportRecord.isOverflow, ReportRecord.waiting, overflow, inBatch]⟩)
    · refine if_neg fun taken => ?_
      obtain ⟨q, hq, lost⟩ := List.any_eq_true.mp taken
      simp only [ReportRecord.isOverflow, ReportRecord.waiting, Bool.and_eq_true, beq_iff_eq, Bool.not_eq_true',
        beq_eq_false_iff_ne] at lost
      exact lost.2 (waits q hq lost.1)

end Sys2Proof.Machine
end

section
/-! SUPPORT. Commands that leave the state as it is: an action that changes nothing, a delivery that cannot come, and a
part that does not act (R170; log 4, log 13, log 25). -/

namespace Sys2Proof.Machine

/-- An action that changes nothing is a command without effect, whether the part acts or not. -/
theorem State.acting_same {s : State} {act : State → State} (same : act s = s) : s.acting act = .next s := by
  rw [State.acting, same, ite_self]

/-- While a hard reset lasts no action is taken (R170, log 13). -/
theorem State.acting_held {s : State} (held : s.hardReset.isSome = true) (act : State → State) :
    s.acting act = .next s := by
  rw [State.acting, if_pos held]

/-- A delivery whose frame the command's event does not have is not even taken (log 4). -/
theorem State.trunkDelivery_absent (s : State) (f : Frame) {comes : Bool} (act : State → State)
    (absent : comes = false) : s.trunkDelivery f comes act = .next s :=
  State.acting_same (if_neg (Bool.eq_false_iff.mp absent))

/-- A management command whose frame no framer delivers (log 25). -/
theorem State.management_illFormed (s : State) (fn : Byte) {r : Request} (judge : State → State)
    (bad : r.ok = false) : s.management fn r judge = .next s :=
  s.trunkDelivery_absent _ _ bad

theorem kind_ne_req_of_unexpectedAt {address : Byte} {f : Frame} (h : unexpectedAt address f = true) :
    (f.kind != .req) = true := by
  rcases unexpectedAt_iff.mp h with k | k | k | ⟨k, -⟩ <;> rw [k] <;> rfl

/-- A frame the trunk framer does not deliver as an unexpected one is not classified as one. -/
theorem unexpectedAt_illFormed {f : Frame} (bad : (f.goodOnTrunk && f.kind != .req) = false) (address : Byte) :
    (f.goodOnTrunk && unexpectedAt address f) = false := by
  refine Bool.eq_false_iff.mpr fun comes => Bool.eq_false_iff.mp bad ?_
  obtain ⟨good, unexpected⟩ := Bool.and_eq_true_iff.mp comes
  rw [good, kind_ne_req_of_unexpectedAt unexpected, Bool.and_self]

/-- Every command but HARD_RESET and HARD_RESET_BEGIN is an action of a part that acts (R170). -/
theorem exec_acting {c : Instr} (notEnd : ∀ p, c ≠ .hardReset p) (notBegin : ∀ h, c ≠ .hardResetBegin h)
    (s : State) : ∃ act : State → State, exec c s = s.acting act := by
  unfold exec
  cases c with
  | hardReset p => exact absurd rfl (notEnd p)
  | hardResetBegin h => exact absurd rfl (notBegin h)
  | unknown fn r =>
    by_cases listed : managementFunctions.contains fn = true
    · exact ⟨id, (if_pos listed).trans (State.acting_same rfl).symm⟩
    · exact ⟨_, if_neg listed⟩
  | _ => exact ⟨_, rfl⟩

/-- A command whose frame no framer delivers, row by row: the deliveries, the management commands, and the commands
that carry no frame (log 25). -/
theorem exec_illFormed {c : Instr} (bad : c.wf = false) (s : State) : exec c s = .next s := by
  unfold exec
  cases c with
  | routedRequest f =>
    have bad : (f.goodOnTrunk && f.kind == .req) = false := bad
    exact s.trunkDelivery_absent f _ (by rw [bad, Bool.false_and])
  | unexpected f => exact s.trunkDelivery_absent f _ (unexpectedAt_illFormed bad _)
  | pendingSoftResetDiscard f =>
    have bad : f.goodOnTrunk = false := bad
    exact s.trunkDelivery_absent f _ (by rw [bad, Bool.false_and])
  | rack batch r => exact s.trunkDelivery_absent _ _ bad
  | unknown fn r =>
    by_cases listed : managementFunctions.contains fn = true
    · exact if_pos listed
    · have bad : (r.ok && !managementFunctions.contains fn) = false := bad
      rw [Bool.eq_false_iff.mpr listed, Bool.not_false, Bool.and_true] at bad
      exact (if_neg listed).trans (s.management_illFormed fn _ bad)
  | readStatus r | readCounters r | stageEntry r | clearStage r | readEntry r | commit r | setMissPolicy r
  | readExchanges r | abortExchange r | lineReset r | setSegment r | readSegment r | readInputs r | setInput r
  | setSamplePeriod r | reportControl r | fetchReports r | gatewayReset r =>
    exact s.management_illFormed _ _ bad
  | matchingFrame x f | strayFrame x f => exact State.acting_same (if_neg (Bool.eq_false_iff.mp bad))
  | _ => cases bad

end Sys2Proof.Machine
end

section
/-! PROOF. O3: commands without effect (R170; log 13, log 25). -/

namespace Sys2Proof.Machine

/-- Settles O3: an ill-formed command by its row, and any command that acts while the part does not. -/
theorem commandsWithoutEffect : Obligations.CommandsWithoutEffect := by
  refine ⟨fun c s bad => exec_illFormed bad s, fun c s held notEnd notBegin => ?_⟩
  obtain ⟨act, run⟩ := exec_acting notEnd notBegin s
  rw [run, State.acting_held held]

end Sys2Proof.Machine
end

section
/-! SUPPORT. A function outside the command table, and the one payload length of each function in it (R158 steps 2
and 3). -/

namespace Sys2Proof.Machine

/-- A function without a length is the event UNKNOWN (R158 step 2). -/
theorem commandOf_unlisted {fn : Byte} (unlisted : commandLength fn = none) (r : Request) :
    commandOf fn r = .unknown fn r := by
  unfold commandOf
  split
  case h_19 => rfl
  all_goals
    rename_i named
    simp [commandLength, named] at unlisted

/-- A function without a length is outside the command table (R158 steps 2 and 3). -/
theorem not_listed_of_commandLength {fn : Byte} (unlisted : commandLength fn = none) :
    ¬ managementFunctions.contains fn = true := by
  have lengths : ∀ k ∈ managementFunctions, commandLength k ≠ none := by
    simp [managementFunctions, commandLength]
  exact fun listed => lengths fn (List.contains_iff_mem.mp listed) unlisted

/-- A command outside the table is refused whatever it carries (R158 step 2). -/
theorem exec_commandOf_unlisted {fn : Byte} (unlisted : commandLength fn = none) (r : Request) (s : State) :
    exec (commandOf fn r) s = s.management fn r fun u => u.refuse fn r nakUnknown := by
  rw [commandOf_unlisted unlisted]
  exact if_neg (not_listed_of_commandLength unlisted)

/-- A command of the table judges the length of its payload first, and refuses any but its own (R158 step 3). -/
theorem exec_commandOf_judgesLength {fn : Byte} {n : Nat} (length : commandLength fn = some n) (r : Request)
    (s : State) : ∃ judge : State → State, exec (commandOf fn r) s = s.management fn r judge ∧
      (r.payload.length ≠ n → ∀ u, judge u = u.refuse fn r nakLength) := by
  unfold commandLength at length
  split at length
  case h_19 => cases length
  all_goals
    rename_i named
    obtain rfl := eq_ofNat_of_toNat named
    obtain rfl := Option.some.inj length
    simp only [commandOf, exec]
    refine ⟨_, rfl, fun other u => ?_⟩
    split
    · rename_i itsOwn
      exact absurd (congrArg List.length itsOwn) other
    · rfl

/-- A management command that its judgement refuses is answered NAK, and nothing else changes (R157, R159). -/
theorem exec_refused {c : Instr} {s : State} {fn : Byte} {r : Request} {judge : State → State} {p : List Byte}
    (ready : Ready s r) (law : OutputLaw s) (run : exec c s = s.management fn r judge)
    (refuses : ∀ u, judge u = u.refuse fn r p) :
    exec c s = .next ((s.taken (s.commandFrame fn r)).answered .nak fn r p) := by
  rw [run, s.management_ready fn r judge ready, refuses]
  exact congrArg _ (State.refuse_after ready law _ _ _ _ ⟨rfl, rfl, rfl⟩)

end Sys2Proof.Machine
end

section
/-! PROOF. O24: an unknown function, and a payload of another length (R157, R158 steps 2 and 3, R159). -/

namespace Sys2Proof.Machine

/-- Settles O24: a function without a length is UNKNOWN, and a command with one refuses any other. -/
theorem unknownAndWrongLengthRefused : Obligations.UnknownAndWrongLengthRefused := by
  refine fun s fn r ready law => ⟨fun unlisted => ?_, fun n length other => ?_⟩
  · exact exec_refused ready law (exec_commandOf_unlisted unlisted r s) fun _ => rfl
  · obtain ⟨judge, run, refuses⟩ := exec_commandOf_judgesLength length r s
    exact exec_refused ready law run (refuses other)

end Sys2Proof.Machine
end

section
/-! SUPPORT. The eleven counters of a port, and READ-COUNTERS by what it answers and clears (R165, R171, R180). -/

namespace Sys2Proof.Machine

/-- The byte that names a port (R165). -/
def portCode : PortId → Byte
  | .trunk => 0
  | .segment x => if x = .a then 1 else 2

theorem portOf_portCode (p : PortId) : portOf (portCode p) = some p := by
  rcases p with _ | x
  · rfl
  · cases x <;> rfl

theorem State.clearCounters_trunk (s : State) : s.clearCounters .trunk = s.modTrunk fun t =>
    { t with port := { t.port with counters := ⟨0, 0, 0, 0, 0, 0, 0⟩ }, counters := ⟨0, 0, 0, 0⟩ } := rfl

theorem State.clearCounters_segment (s : State) (x : Seg) : s.clearCounters (.segment x) = s.modSeg x fun g =>
    { g with port := { g.port with counters := ⟨0, 0, 0, 0, 0, 0, 0⟩ }, counters := ⟨0, 0, 0, 0⟩ } := by
  cases x <;> rfl

/-- Taking a delivery counts nothing (log 3). -/
@[simp] theorem State.taken_portCounters (s : State) (f : Frame) (p : PortId) :
    (s.taken f).portCounters p = s.portCounters p := by
  rcases p with _ | x
  · rfl
  · cases x <;> rfl

/-- READ-COUNTERS answers the port and its counters, then zeroes them where asked (R165, R180). -/
theorem exec_readCounters {s : State} {r : Request} {clear : Byte} {p : PortId} (ready : Ready s r) (law : OutputLaw s)
    (range : clear.toNat ≤ 1) (hp : r.payload = [portCode p, clear]) :
    exec (.readCounters r) s =
      let u := (s.taken (s.commandFrame 0x02 r)).answered .rsp 0x02 r (counterBlock (portCode p) (s.portCounters p))
      .next (if clear = 1 then u.clearCounters p else u) := by
  change execReadCounters r s = _
  simp only [execReadCounters, s.management_ready _ r _ ready, hp, portOf_portCode, if_neg (Nat.not_lt.mpr range),
    State.taken_portCounters,
    State.respond_after ready law (s.taken (s.commandFrame 0x02 r)) 0x02 r _ ⟨rfl, rfl, rfl⟩]

end Sys2Proof.Machine
end

section
/-! PROOF. O27: READ-COUNTERS (R165, R171, R180). -/

namespace Sys2Proof.Machine

/-- Settles O27: the trunk's counters and a segment's, each read as they stood and then kept or zeroed. -/
theorem countersReadAndCleared : Obligations.CountersReadAndCleared := by
  refine fun s r ready law => ⟨fun clear range hp => ?_, fun x clear range hp => ?_⟩
  · rw [exec_readCounters (p := .trunk) ready law range hp]
    by_cases zeroed : clear = 1
    · simp only [if_pos zeroed, State.clearCounters_trunk]
      rfl
    · simp only [if_neg zeroed]
      rfl
  · rw [exec_readCounters (p := .segment x) ready law range hp]
    by_cases zeroed : clear = 1
    · simp only [if_pos zeroed, State.clearCounters_segment]
      rfl
    · simp only [if_neg zeroed]
      exact congrArg _ (State.modSeg_same rfl).symm

end Sys2Proof.Machine
end

section
/-! SUPPORT. The queue of commands under each operation of a command (log 1): what keeps the base keeps the queue, and
the operations that have no base lemma are made of those that have one. -/

namespace Sys2Proof.Machine

/-! ### Shared operations -/

@[simp] theorem State.arbitrate_pending (s : State) : s.arbitrate.pending = s.pending := s.arbitrate_base.pending

@[simp] theorem State.enqueue_pending (s : State) (q : QueuedFrame) : (s.enqueue q).pending = s.pending :=
  (s.enqueue_base q).pending

@[simp] theorem State.respond_pending (s : State) (fn : Byte) (r : Request) (p : List Byte) :
    (s.respond fn r p).pending = s.pending := s.enqueue_pending _

@[simp] theorem State.refuse_pending (s : State) (fn : Byte) (r : Request) (p : List Byte) :
    (s.refuse fn r p).pending = s.pending := s.enqueue_pending _

@[simp] theorem State.refuseRouted_pending (s : State) (f : Frame) (p : List Byte) :
    (s.refuseRouted f p).pending = s.pending := (s.refuseRouted_base f p).pending

@[simp] theorem State.completeRecord_pending (s : State) (i : Slot) (reply : Reply) :
    (s.completeRecord i reply).pending = s.pending := (s.completeRecord_base i reply).pending

@[simp] theorem State.settleBroadcast_pending (s : State) (i : Slot) (r : Record) (c : Broadcast) :
    (s.settleBroadcast i r c).pending = s.pending := (s.settleBroadcast_base i r c).pending

theorem State.takeFromSegment_pending (x : Seg) (why : WithdrawReason) (s : State) (i : Slot) :
    (State.takeFromSegment x why s i).pending = s.pending := (State.takeFromSegment_base x why s i).pending

@[simp] theorem State.offerEvent_pending (s : State) (e : Event) : (s.offerEvent e).pending = s.pending :=
  (s.offerEvent_base e).pending

@[simp] theorem State.leaveWork_pending (s : State) (x : Seg) : (s.leaveWork x).pending = s.pending :=
  (s.leaveWork_base x).pending

@[simp] theorem State.judgePatience_pending (s : State) (x : Seg) : (s.judgePatience x).pending = s.pending :=
  (s.judgePatience_base x).pending

@[simp] theorem State.takeWork_pending (s : State) (x : Seg) : (s.takeWork x).pending = s.pending :=
  (s.takeWork_base x).pending

@[simp] theorem State.failAttempt_pending (s : State) (x : Seg) (why : FailCause) :
    (s.failAttempt x why).pending = s.pending := (s.failAttempt_base x why).pending

@[simp] theorem State.dropCurrent_pending (s : State) (x : Seg) : (s.dropCurrent x).pending = s.pending :=
  (s.dropCurrent_base x).pending

@[simp] theorem State.deliverOnSegment_pending (s : State) (x : Seg) (f : Frame) :
    (s.deliverOnSegment x f).pending = s.pending := (s.deliverOnSegment_base x f).pending

@[simp] theorem State.takeDelivery_pending (s : State) (p : PortId) (d : Delivery) :
    (s.takeDelivery p d).pending = s.pending := (s.takeDelivery_base p d).pending

@[simp] theorem State.restartGuard_pending (s : State) (p : PortId) : (s.restartGuard p).pending = s.pending := by
  rcases p with _ | x
  · rfl
  · exact s.modSeg_pending x _

/-! ### Routed requests (R22, R37 to R46, R68 to R72) -/

@[simp] theorem State.tellNew_pending (s : State) (on : SegSet) (x : Seg) : (s.tellNew on x).pending = s.pending := by
  unfold State.tellNew
  split
  · exact s.takeWork_pending x
  · rfl

@[simp] theorem State.judgeOffer_pending (s : State) (f : Frame) (r : Record) :
    (s.judgeOffer f r).pending = s.pending := by
  unfold State.judgeOffer State.admitRecord
  split
  · exact s.refuseRouted_pending f _
  · split
    · rfl
    · simp only [State.tellNew_pending]

@[simp] theorem State.act_pending (s : State) (f : Frame) (e : RouteEntry) : (s.act f e).pending = s.pending := by
  unfold State.act
  split
  · exact s.judgeOffer_pending f _
  · exact s.judgeOffer_pending f _
  · exact s.refuseRouted_pending f _
  · rfl

@[simp] theorem State.miss_pending (s : State) (f : Frame) : (s.miss f).pending = s.pending := by
  unfold State.miss
  split
  · exact s.refuseRouted_pending f _
  · rfl

theorem State.route_pending (s : State) (f : Frame) : (s.route f).pending = s.pending := by
  unfold State.route
  split
  · exact s.miss_pending f
  · split
    · exact s.miss_pending f
    · exact State.act_pending _ f _

/-! ### The sample instant (R113, R126) -/

theorem State.sampleLine_pending (inputs : Word) (s : State) (n : Fin 16) :
    (State.sampleLine inputs s n).pending = s.pending := by
  unfold State.sampleLine
  simp only []
  split
  · exact State.offerEvent_pending _ _
  · rfl

theorem State.assertHold_pending (s : State) (x : Seg) : (s.assertHold x).pending = s.pending := by
  unfold State.assertHold
  cases (s.seg x).state with
  | idle | guard | resume => exact (s.enterLent_base x).pending
  | send | wait => exact s.modSeg_pending x _
  | lent => rfl

theorem State.deassertHold_pending (s : State) (x : Seg) : (s.deassertHold x).pending = s.pending := by
  unfold State.deassertHold State.reclaim
  split
  · rw [State.offerEvent_pending, State.modSeg_pending]
  · exact s.modSeg_pending x _

theorem State.sampleHold_pending (s : State) (x : Seg) (level : Bool) :
    (s.sampleHold x level).pending = s.pending := by
  unfold State.sampleHold
  simp only []
  split
  · split
    · exact State.assertHold_pending _ x
    · exact State.deassertHold_pending _ x
  · rfl

/-! ### Management commands (R82, R106, R109, R165) -/

@[simp] theorem State.clearCounters_pending (s : State) (p : PortId) : (s.clearCounters p).pending = s.pending := by
  rcases p with _ | x
  · rw [State.clearCounters_trunk, State.modTrunk_pending]
  · rw [State.clearCounters_segment, State.modSeg_pending]

@[simp] theorem State.abort_pending (s : State) (i : Slot) : (s.abort i).pending = s.pending := by
  unfold State.abort
  simp only []
  repeat' split
  all_goals simp only [State.dropCurrent_pending, State.completeRecord_pending]

@[simp] theorem State.lineReset_pending (s : State) (x : Seg) : (s.lineReset x).pending = s.pending := by
  have taken := State.foldl_kept State.pending _ (State.takeFromSegment_pending x .aborted) (s.exchange.standing x)
  exact (State.dropCurrent_pending _ x).trans ((taken _).trans (s.modSeg_pending x _))

@[simp] theorem State.setConfig_pending (s : State) (x : Seg) (c : SegConfig) :
    (s.setConfig x c).pending = s.pending := by
  unfold State.setConfig
  split
  · rw [State.judgePatience_pending, State.modSeg_pending]
  · exact s.modSeg_pending x _

/-! ### The soft reset (R169) -/

@[simp] theorem State.softReset_pending (s : State) : s.softReset.pending = s.pending := by
  obtain ⟨u, asks, base, -⟩ := s.softReset_asks
  rw [asks, State.arbitrate_pending, base.pending]
  rfl

/-! ### Commands of each shape -/

/-- An action that leaves the queue of commands, taken or not (R170). -/
theorem State.acting_pending {s : State} {act : State → State} (kept : (act s).pending = s.pending) :
    ∀ t, s.acting act = .next t → t.pending = s.pending :=
  State.acting_keeps (P := fun t => t.pending = s.pending) act rfl fun _ => kept

/-- The delivery of a trunk frame takes it from the framer, and leaves the queue of commands (R20, R21). -/
theorem State.trunkDelivery_pending {s : State} {f : Frame} {comes : Bool} {act : State → State}
    (kept : ∀ u : State, (act u).pending = u.pending) :
    ∀ t, s.trunkDelivery f comes act = .next t → t.pending = s.pending :=
  State.trunkDelivery_keeps (P := fun t => t.pending = s.pending) f comes act rfl rfl fun _ _ => kept (s.taken f)

/-- A management command is taken or discarded, and its judgement leaves the queue of commands (R157, R158). -/
theorem State.management_pending {s : State} {fn : Byte} {r : Request} {judge : State → State}
    (kept : ∀ u : State, (judge u).pending = u.pending) :
    ∀ t, s.management fn r judge = .next t → t.pending = s.pending :=
  State.management_keeps (P := fun t => t.pending = s.pending) fn r judge rfl rfl rfl fun _ => kept (s.taken _)

end Sys2Proof.Machine
end

section
/-! PROOF. O2 and O1: every command completes and leaves the queue of commands, from which a step takes its own (log 1,
log 2, log 4, log 13). -/

namespace Sys2Proof.Machine

/-- No command faults and none is refused: a hard reset ends or begins, and any other is an action of the part. -/
theorem exec_completes (c : Instr) (s : State) : ∃ t, exec c s = .next t := by
  by_cases ends : ∃ p, c = .hardReset p
  · obtain ⟨p, rfl⟩ := ends
    exact ⟨_, rfl⟩
  by_cases begins : ∃ k, c = .hardResetBegin k
  · obtain ⟨k, rfl⟩ := begins
    exact ⟨_, rfl⟩
  obtain ⟨act, run⟩ := exec_acting (fun p e => ends ⟨p, e⟩) (fun k e => begins ⟨k, e⟩) s
  exact ⟨_, run⟩

/-- No command changes the queue of commands, row by row (log 1). -/
theorem exec_pending (c : Instr) (s t : State) (h : exec c s = .next t) : t.pending = s.pending := by
  unfold exec at h
  cases c with
  | hardReset p => cases h; rfl
  | hardResetBegin k => cases h; rfl
  | softReset =>
    refine State.acting_pending ?_ t h
    split
    · exact s.softReset_pending
    · rfl
  | millisecondTick =>
    refine State.acting_pending ?_ t h
    rw [State.judgePatience_pending, State.judgePatience_pending]
    rfl
  | idleQualification p | gapTimerExpiry p | breakEnd p =>
    exact State.acting_pending (s.modPort_pending p _) t h
  | arrival p _ | lineBreak p =>
    refine State.acting_pending ?_ t h
    split
    · rw [State.restartGuard_pending, State.modPort_pending]
    · rfl
  | fallToSpace p holds =>
    refine State.acting_pending ?_ t h
    split
    · exact s.restartGuard_pending p
    · exact s.modPort_pending p _
  | routedRequest f => exact State.trunkDelivery_pending (fun u => u.route_pending f) t h
  | unexpected f => exact State.trunkDelivery_pending (fun u => u.modTrunk_pending _) t h
  | pendingSoftResetDiscard f => exact State.trunkDelivery_pending (fun _ => rfl) t h
  | rack batch r =>
    refine State.trunkDelivery_pending (fun u => ?_) t h
    split
    · rw [State.arbitrate_pending, State.modReporter_pending]
    · exact u.modTrunk_pending _
  | unknown fn r =>
    by_cases listed : managementFunctions.contains fn = true
    · obtain rfl := Host.Outcome.next.inj ((if_pos listed).symm.trans h)
      rfl
    · exact State.management_pending (fun u => u.refuse_pending fn r _) t ((if_neg listed).symm.trans h)
  | stageEntry r =>
    refine State.management_pending (fun u => ?_) t h
    split
    · simp only []
      split
      · exact u.refuse_pending _ r _
      · rw [State.respond_pending, State.modRoutes_pending]
    · exact u.refuse_pending _ r _
  | readStatus r | readCounters r | clearStage r | readEntry r | commit r | setMissPolicy r
  | readExchanges r | abortExchange r | lineReset r | setSegment r | readSegment r | readInputs r | setInput r
  | setSamplePeriod r | reportControl r | fetchReports r | gatewayReset r =>
    -- Each judgement is a tree of tests whose leaves answer, with at most one operation on a block beside the answer.
    refine State.management_pending (fun u => ?_) t h
    repeat' split
    all_goals simp
  | endOfTransmission =>
    refine State.acting_pending ?_ t h
    split
    · exact s.softReset_pending
    · split
      · rfl
      · exact State.arbitrate_pending _
      · exact State.arbitrate_pending _
  | reportTimerExpiry =>
    refine State.acting_pending ?_ t h
    split
    · exact State.arbitrate_pending _
    · rfl
  | segmentEndOfTransmission x =>
    refine State.acting_pending ?_ t h
    simp only [State.deliverBroadcast, State.release]
    repeat' split
    all_goals simp
  | matchingFrame x f | strayFrame x f =>
    refine State.acting_pending ?_ t h
    split
    · exact s.deliverOnSegment_pending x f
    · rfl
  | corruptFrameNotice x =>
    refine State.acting_pending ?_ t h
    simp only []
    split
    · rw [State.failAttempt_pending, State.takeDelivery_pending]
    · exact s.takeDelivery_pending _ _
  | responseTimerExpiry x =>
    refine State.acting_pending ?_ t h
    split
    · exact s.failAttempt_pending x _
    · rfl
  | guardTimerExpiry x =>
    refine State.acting_pending ?_ t h
    split
    · exact (s.enterIdle_base x).pending
    · rfl
  | sampleInstant inputs a b =>
    have lines := State.foldl_kept State.pending _ (State.sampleLine_pending inputs) inputLines s
    refine State.acting_pending ?_ t h
    rw [State.modInputs_pending, State.sampleHold_pending, State.sampleHold_pending, lines]
  | patienceExpiry x => exact State.acting_pending (s.judgePatience_pending x) t h

/-- Settles O2: every command completes, and the state in which it does has the queue as it was. -/
theorem everyCommandCompletes : Obligations.EveryCommandCompletes := by
  intro c s
  obtain ⟨t, completes⟩ := exec_completes c s
  exact ⟨t, completes, exec_pending c s t completes⟩

/-- Settles O1: the two cases of the queue. -/
theorem stepRunsFrontCommand : Obligations.StepRunsFrontCommand := by
  refine ⟨fun c rest s front => ?_, fun s empty => ?_⟩
  · rw [step, front]
  · rw [step, empty]

end Sys2Proof.Machine
end

section
/-! PROOF. O60: the state after reset is what HARD_RESET makes of a power-on in progress, and meets the laws as every
state after a hard reset does (R18, R52, R88, R112, R137, R156; log 10, log 11). -/

namespace Sys2Proof.Machine

/-- The power-on whose end `State.reset` is: the hard reset is still in progress (log 11). -/
def State.poweringOn : State := { State.reset with hardReset := some .power }

/-- HARD_RESET with the strap pins low ends the power-on in `State.reset` (log 10, log 11). -/
theorem execHardReset_poweringOn : execHardReset Config.resetStraps State.poweringOn = .next State.reset := rfl

/-- While the hard reset lasts no law of the sequencers, the hold lines or the patience binds (R170). -/
theorem State.poweringOn_laws : SegmentsLaw State.poweringOn ∧ HoldLaw State.poweringOn ∧
    PatienceLaw State.poweringOn := by
  have held : State.poweringOn.hardReset ≠ none := Option.some_ne_none _
  have segments : SegmentsLaw State.poweringOn := fun acts => absurd acts held
  exact ⟨segments, ⟨segments, fun acts => absurd acts held⟩, segments, fun acts => absurd acts held⟩

/-- Settles O60: what HARD_RESET keeps and sets up, from the power-on in progress. -/
theorem lawsHoldAtReset : Obligations.LawsHoldAtReset := by
  have ends := execHardReset_poweringOn
  have lending := KeepsLending.of_hardReset _ ends
  have parts := KeepsParts.of_hardReset _ _ _ ends
  obtain ⟨segments, hold, patience⟩ := State.poweringOn_laws
  obtain ⟨bank, counts⟩ := routeLaws_of_hardReset _ _ _ ends
  exact ⟨lending.segments segments, lending.hold hold, lending.patience patience, ExchangeLaw.of_hardReset _ ends,
    ReporterLaw.of_hardReset _ ends, bank, counts, ⟨Framer.reset_law, Framer.reset_law, Framer.reset_law⟩,
    parts.inputs InputBlock.reset_law, fun _ => rfl⟩

end Sys2Proof.Machine
end
